-- ==== Sys2Proof/Word.lean ====
section
/-! DEFINITION. The word types of the part: bytes, 32-bit words and 64-bit words (R6, R11). -/
namespace Sys2Proof

/-- A byte of memory. -/
abbrev Byte := BitVec 8

/-- A 32-bit register value: one lane of a vector register, a scalar register or a mask (R11). -/
abbrev Word := BitVec 32

/-- A 64-bit value: a register pair (R15) or an eight-byte field of a record. -/
abbrev DWord := BitVec 64

end Sys2Proof
end

