-- ==== Sys2Proof/Machine/CtrlRegs.lean ====
section
/-! DEFINITION. The control-register index space: which indices exist, which are lane-valued, which may be
written, and which are the halves of a 64-bit pair (R16, R17, R19). -/
namespace Sys2Proof.Machine

/-- An index of a lane-valued control register: LANEID and GSSEQ (Table 1.3, Table 10.6). -/
def ctrlLaneValued (i : Nat) : Bool := i == 0x000 || i == 0x304

/-- An index marked RW (Tables 1.3, 16.3, 7.7 and 9.4). -/
def ctrlWritable (i : Nat) : Bool :=
  i == 0x010 || i == 0x011 || i == 0x030 || i == 0x031 || i == 0x101 || i == 0x102
    || (0x140 ≤ i && i ≤ 0x1DF) || i == 0x1F0 || i == 0x300 || i == 0x301

/-- An index that some table assigns (Tables 1.3, 16.3, 15.2, 7.7, 9.4 and 10.6). -/
def ctrlAssigned (i : Nat) : Bool :=
  i ≤ 0x00C || (0x020 ≤ i && i ≤ 0x023) || i == 0x032 || (0x040 ≤ i && i ≤ 0x047) || i == 0x100
    || (0x103 ≤ i && i ≤ 0x109) || (0x1E0 ≤ i && i ≤ 0x1E2) || (0x200 ≤ i && i ≤ 0x210)
    || (0x302 ≤ i && i ≤ 0x305) || ctrlWritable i

/-- The low index of a 64-bit pair (R19). -/
def ctrlPairLow (i : Nat) : Bool :=
  [0x006, 0x00B, 0x020, 0x022, 0x030, 0x101, 0x105, 0x107, 0x200, 0x202, 0x204, 0x20C, 0x20E, 0x302].contains i

/-- `getc` into a vector register may read every assigned index, into a scalar register every assigned index that
is not lane-valued (R16). -/
def getcLegal (scalar : Bool) (i : Nat) : Bool := ctrlAssigned i && !(scalar && ctrlLaneValued i)

/-- `setc` may write an RW index only (R16). -/
def setcLegal (i : Nat) : Bool := ctrlWritable i

/-- `setc` to an index in 0x100 to 0x1FF is privileged (R25). -/
def setcPrivileged (i : Nat) : Bool := 0x100 ≤ i && i ≤ 0x1FF

end Sys2Proof.Machine
end

