-- ==== Sys2Proof/Syntax.lean ====
section
/-! DEFINITION. The instructions of the part: one constructor for each row of the opcode table, the steps
without an encoding among them (01_instruction_words Tables 1.5 to 1.14, 95_what_each_step_holds). -/
namespace Sys2Proof

/-- Rounding modes, coded as FPMODE.RM (Table 1.4). -/
inductive Rm where
  | rne | rtz | rup | rdn
  deriving DecidableEq, Repr

/-- Conditions of `icmp`, `icmp64` and `scmp` (Table 1.9). -/
inductive ICond where
  | eq | ne | ltI | leI | gtI | geI | ltN | leN | gtN | geN
  deriving DecidableEq, Repr

/-- Conditions of `fcmp` (Table 1.9). -/
inductive FCond where
  | eq | ne | lt | le | gt | ge | ord | uno
  deriving DecidableEq, Repr

/-- Kinds of `shi` (R31). -/
inductive ShKind where
  | shl | shr | sra | rotl
  deriving DecidableEq, Repr

/-- Types of `pack` and `unpack` (Table 1.10). -/
inductive PackTy where
  | f16 | bf16 | i16 | n16 | i8 | n8
  deriving DecidableEq, Repr

/-- Kinds of `vote` (Table 1.12b). -/
inductive VoteKind where
  | any | all | none
  deriving DecidableEq, Repr

/-- Operations of `redu` and, up to `maxF32`, of `scan` (Table 1.12b). -/
inductive RedOp where
  | addI32 | addF32 | minI32 | maxI32 | minN32 | maxN32 | minF32 | maxF32 | and | or | xor
  deriving DecidableEq, Repr

/-- Memory spaces (04 Table 4.1). -/
inductive Space where
  | p | c | k | x | g
  deriving DecidableEq, Repr

/-- Cache hints of `ldu`, `stu` and `pf` (Table 1.12a). -/
inductive Hint where
  | nm | ef | el
  deriving DecidableEq, Repr

/-- Widths of loads (Table 1.11). -/
inductive LdWidth where
  | n8 | i8 | n16 | i16 | b32 | b64 | b128
  deriving DecidableEq, Repr

/-- Widths of stores (Table 1.11). -/
inductive StWidth where
  | b8 | b16 | b32 | b64 | b128
  deriving DecidableEq, Repr

/-- Scopes of an order (R34). -/
inductive Scope where
  | gp | cl | di | dev | ms | sys | fab
  deriving DecidableEq, Repr

/-- Order and scope, the code osc of R34. -/
inductive Osc where
  | rlx
  | acq (s : Scope)
  | rel (s : Scope)
  | ar (s : Scope)
  | sc (s : Scope)
  | arWv
  | arLn
  deriving DecidableEq, Repr

/-- Operations of `atom` (Table 1.13). -/
inductive AtomOp where
  | addI32 | addF32 | minI32 | maxI32 | minN32 | maxN32 | andB32 | orB32
  | xorB32 | xchgB32 | addI64 | minI64 | maxI64 | minN64 | maxN64 | xchgB64
  deriving DecidableEq, Repr

/-- The element count of `stash` (Table 1.12b). -/
inductive StashK where
  | k8 | k16 | k32
  deriving DecidableEq, Repr

/-- Levels of `cancel` (Table 1.14). -/
inductive CancelLevel where
  | launch | graph | phase | job
  deriving DecidableEq, Repr

/-- Extents of `tlbinv` (Table 1.14). -/
inductive TlbExtent where
  | page | space | all
  deriving DecidableEq, Repr

/-- What the participants of a collective must agree on, and one participant's place in it (R299, Table 13.6). -/
structure ColParams where
  ranks : Nat
  ids : List Nat
  kind : Nat
  op : Nat
  nfpol : Bool
  sync : Bool
  arr : Bool
  count : Nat
  rank : Nat
  sublog : Nat
  subpos : Nat
  deriving DecidableEq, Repr

/-- A message of the Dravler protocol that reaches an all-reduce engine (R298 to R304). -/
inductive ColMsg where
  /-- A participant's parameters, its SRC elements and, with `.sync`, its sixteen watermarks (none: unregistered). -/
  | contribution (params : ColParams) (data : List Word) (marks : List (Option Nat))
  /-- The root's decision: whether the result is skipped, the result, for each region the majority value if there is
  one, the lowest divergent package, the number of divergent packages, and for each region the lowest package whose
  value differed, if one did. -/
  | decision (skip : Bool) (data : List Word) (majority : List (Option (Option Nat))) (div ndiv : Nat)
      (low : List (Option Nat))
  /-- A stop with its cause: a participant's to the root, or the root's broadcast (R302). -/
  | stop (cause : Nat)
  /-- A participant has carried out the decision: all that it writes to DST is written (log 29). -/
  | written (rank : Nat)
  /-- The root's word that every participant has, after which the records are written (log 29). -/
  | finish
  deriving DecidableEq, Repr

/-- What the reset sequence finds (Table 17.1): whether the controller image and the die firmware verify, the digests
of the verified images in order, the spare clusters put into use, the dies with fewer than 24 good clusters, and the
HBM4 stacks that fail their training, three of each die: stack k of die d is 3 d + k. -/
structure ResetFindings where
  ctrlOk : Bool
  firmwareOk : Bool
  images : List (List Byte)
  spares : Nat
  weakDies : List Nat
  deadStacks : List Nat
  deriving DecidableEq, Repr

/-- The instructions and steps of the part.
Register arguments are register numbers, pairs and blocks are named by their first register, `la` is the lookahead
field, and branch offsets are counted in halfwords.
A constructor with no encoding carries what the step takes from outside the state it acts on. -/
inductive Instr where
  -- Table 1.8, OP6 0x01
  | add (d a b : Nat)
  | sub (d a b : Nat)
  | mul (d a b : Nat)
  | mulhiI32 (d a b : Nat)
  | mulhiN32 (d a b : Nat)
  | and (d a b : Nat)
  | or (d a b : Nat)
  | xor (d a b : Nat)
  | andn (d a b : Nat)
  | shl (d a b : Nat)
  | shr (d a b : Nat)
  | sra (d a b : Nat)
  | minI32 (d a b : Nat)
  | maxI32 (d a b : Nat)
  | minN32 (d a b : Nat)
  | maxN32 (d a b : Nat)
  -- OP6 0x02
  | clz (d a : Nat)
  | popc (d a : Nat)
  | brev (d a : Nat)
  | abs (d a : Nat)
  | add64 (d a b : Nat)
  | sub64 (d a b : Nat)
  | shl64 (d a b : Nat)
  | shr64 (d a b : Nat)
  | min64I (d a b : Nat)
  | max64I (d a b : Nat)
  | min64N (d a b : Nat)
  | max64N (d a b : Nat)
  -- OP6 0x03 to 0x08
  | mad (d a b c : Nat)
  | addi (d a : Nat) (i : Int)
  | andi (d a : Nat) (i : Int)
  | ori (d a : Nat) (i : Int)
  | xori (d a : Nat) (i : Int)
  | shi (k : ShKind) (d a n : Nat)
  -- OP6 0x09
  | bfeN (d a b : Nat)
  | bfeI (d a b : Nat)
  | bfi (d a b : Nat)
  | perm (d a b : Nat)
  | sel (m d a b : Nat)
  -- OP6 0x0A to 0x0C
  | icmp (c : ICond) (m a b : Nat)
  | icmp64 (c : ICond) (m a b : Nat)
  | movi (d : Nat) (i : Int)
  | movh (d i : Nat)
  -- OP6 0x0D to 0x10
  | fadd (d a b : Nat)
  | fsub (d a b : Nat)
  | fmul (d a b : Nat)
  | fmin (d a b : Nat)
  | fmax (d a b : Nat)
  | fcopysign (d a b : Nat)
  | fldexp (d a b : Nat)
  | fadd2 (d a b : Nat)
  | fmul2 (d a b : Nat)
  | fdot2 (d a b : Nat)
  | ffma (d a b c : Nat)
  | ffma2 (d a b c : Nat)
  | fcmp (c : FCond) (m a b : Nat)
  -- Table 1.10, OP6 0x11
  | frcp (la d a : Nat)
  | frsq (la d a : Nat)
  | fsqrt (la : Nat) (r : Rm) (d a : Nat)
  | fexp2 (la d a : Nat)
  | flog2 (la d a : Nat)
  | fsin (la d a : Nat)
  | fcos (la d a : Nat)
  | frnd (la : Nat) (r : Rm) (d a : Nat)
  | fclass (la d a : Nat)
  -- OP6 0x12; the destination type is written first
  | cvtF32I32 (la : Nat) (r : Rm) (d a : Nat)
  | cvtF32N32 (la : Nat) (r : Rm) (d a : Nat)
  | cvtI32F32 (la : Nat) (sat : Bool) (r : Rm) (d a : Nat)
  | cvtN32F32 (la : Nat) (sat : Bool) (r : Rm) (d a : Nat)
  | cvtF16F32 (la : Nat) (sat : Bool) (r : Rm) (d a : Nat)
  | cvtBf16F32 (la : Nat) (sat : Bool) (r : Rm) (d a : Nat)
  | cvtF32F16 (la d a : Nat)
  | cvtF32Bf16 (la d a : Nat)
  | cvtF32I64 (la : Nat) (r : Rm) (d a : Nat)
  | cvtF32N64 (la : Nat) (r : Rm) (d a : Nat)
  | cvtI64F32 (la : Nat) (sat : Bool) (r : Rm) (d a : Nat)
  | cvtN64F32 (la : Nat) (sat : Bool) (r : Rm) (d a : Nat)
  | cvtI8I32 (la : Nat) (sat : Bool) (d a : Nat)
  | cvtN8I32 (la : Nat) (sat : Bool) (d a : Nat)
  | cvtI16I32 (la : Nat) (sat : Bool) (d a : Nat)
  | cvtN16I32 (la : Nat) (sat : Bool) (d a : Nat)
  -- OP6 0x13
  | pack (la : Nat) (t : PackTy) (d a : Nat)
  | unpack (la : Nat) (t : PackTy) (d a : Nat)
  | bfpx (la w d a : Nat)
  | bfpq (la w d a : Nat)
  -- Table 1.12b, OP6 0x14
  | shfl (la d a b : Nat)
  | bcast (la d a s : Nat)
  | vote (la : Nat) (k : VoteKind) (d a : Nat)
  | redu (la : Nat) (o : RedOp) (d a : Nat)
  | scan (la : Nat) (excl : Bool) (o : RedOp) (d a : Nat)
  | compact (la d a : Nat)
  -- R38, OP6 0x15
  | mand (d a b : Nat)
  | mor (d a b : Nat)
  | mxor (d a b : Nat)
  | mnot (d a : Nat)
  | mpop (s a : Nat)
  | mfirst (s a : Nat)
  | mset (d s : Nat)
  | mget (s a : Nat)
  -- OP6 0x16 to 0x19
  | sadd (d a b : Nat)
  | ssub (d a b : Nat)
  | smul (d a b : Nat)
  | sand (d a b : Nat)
  | sor (d a b : Nat)
  | sxor (d a b : Nat)
  | sshl (d a b : Nat)
  | sshr (d a b : Nat)
  | ssra (d a b : Nat)
  | smin (d a b : Nat)
  | smax (d a b : Nat)
  | smov (d a : Nat)
  | saddi (d a : Nat) (i : Int)
  | smovi (d : Nat) (i : Int)
  | scmp (c : ICond) (m a b : Nat)
  -- Table 1.11, OP6 0x1A to 0x23: `vi` 63 is an index of 0 in every lane, `sb` the base
  | ldP (la : Nat) (w : LdWidth) (vi sb d : Nat)
  | ldC (la : Nat) (w : LdWidth) (vi sb d : Nat)
  | ldK (la : Nat) (w : LdWidth) (vi sb d : Nat)
  | ldX (la : Nat) (w : LdWidth) (vi sb d : Nat)
  | ldG (la : Nat) (w : LdWidth) (vi sb d : Nat)
  | stP (la : Nat) (w : StWidth) (vi sb d : Nat)
  | stC (la : Nat) (w : StWidth) (vi sb d : Nat)
  | stK (la : Nat) (w : StWidth) (vi sb d : Nat)
  | stX (la : Nat) (w : StWidth) (vi sb d : Nat)
  | stG (la : Nat) (w : StWidth) (vi sb d : Nat)
  -- Table 1.12a, OP6 0x24 to 0x29
  | ldu (la : Nat) (sp : Space) (h : Hint) (w : LdWidth) (a d : Nat)
  | stu (la : Nat) (sp : Space) (h : Hint) (w : StWidth) (a d : Nat)
  | atom (la : Nat) (o : Osc) (sp : Space) (op : AtomOp) (a d : Nat)
  | cas (la : Nat) (o : Osc) (sp : Space) (wide : Bool) (a d : Nat)
  | gsadd (la a v : Nat)
  | gsflush (la : Nat)
  | fence (la : Nat) (o : Osc)
  -- OP6 0x2A to 0x2C
  | pf (la : Nat) (l1 : Bool) (h : Hint) (a : Nat)
  | cinv (la : Nat) (relax : Bool) (a : Nat)
  | cwb (la a : Nat)
  | stash (la : Nat) (wide : Bool) (k : StashK) (s v : Nat)
  | cpy (la b d s : Nat)
  | cpyq (la b d : Nat)
  | pub (la s : Nat)
  | bcbini (la b s : Nat)
  | bcbexp (la b s : Nat)
  | bcbwait (la b : Nat)
  -- R37, OP6 0x2D and 0x2E
  | mma (la kp sf : Nat) (bsrc : Bool) (h vi : Nat)
  | acqa (la h s : Nat)
  | rela (la h : Nat)
  | azero (la h : Nat)
  | aload (la h s : Nat)
  | astore (la h s : Nat)
  | anorm (la h : Nat)
  | ahead (la h d : Nat)
  | mwait (la h : Nat)
  -- OP6 0x2F and 0x30: `s` the descriptor pair, `a` the first source, `d` the first result
  | rast (la s a d : Nat)
  | radj (la a d : Nat)
  | esamp (la s a d : Nat)
  | tex (la s a d : Nat)
  | texadj (la s a d : Nat)
  | trace (la s a d : Nat)
  | tradj (la s a d : Nat)
  -- OP6 0x31
  | tapeRec (la a : Nat)
  | tapePop (la d : Nat)
  | tapeMark (la : Nat) (rcmp : Bool) (s : Nat)
  | tapeSeal (la : Nat)
  | tapeStat (la d : Nat)
  -- OP6 0x32
  | upd (la s : Nat)
  | col (la : Nat) (sync arr : Bool) (s : Nat)
  | colw (la s : Nat)
  | wmreg (la g s : Nat)
  | wmread (la g d : Nat)
  | wmchk (la g d : Nat)
  -- OP6 0x33 to 0x36
  | br (o : Int)
  | call (o : Int)
  | brc (o : Int) (neg : Bool) (m : Nat)
  | brx (o : Int) (v : Nat)
  | callx (o : Int) (v : Nat)
  | ret (r : Nat)
  | convat (o : Int)
  | trap (n : Nat)
  | bkpt (tag : Nat)
  -- OP6 0x37 and 0x38
  | bar (i : Nat)
  | barc (s i : Nat)
  | lclk (s : Nat)
  | fork (s : Nat)
  | join (s : Nat)
  | spawn (s : Nat)
  | mbox (b s : Nat)
  | fget (s d : Nat)
  | fput (s d : Nat)
  | cancel (s : Nat) (v : CancelLevel)
  | cwait (b s : Nat)
  -- OP6 0x39
  | getc (scalar : Bool) (r i : Nat)
  | setc (scalar : Bool) (r i : Nat)
  | rinj (s : Nat)
  | tlbinv (e : TlbExtent) (s : Nat)
  | evsig (c s : Nat)
  -- Table 1.5: `s` says that the source `v` is a scalar register
  | mov16 (s : Bool) (v d : Nat)
  | add16 (s : Bool) (v d : Nat)
  | sub16 (s : Bool) (v d : Nat)
  | and16 (s : Bool) (v d : Nat)
  | or16 (s : Bool) (v d : Nat)
  | xor16 (s : Bool) (v d : Nat)
  | shl16 (s : Bool) (v d : Nat)
  | shr16 (s : Bool) (v d : Nat)
  | sra16 (s : Bool) (v d : Nat)
  | minI3216 (s : Bool) (v d : Nat)
  | maxI3216 (s : Bool) (v d : Nat)
  | fadd16 (s : Bool) (v d : Nat)
  | fsub16 (s : Bool) (v d : Nat)
  | fmul16 (s : Bool) (v d : Nat)
  | fmin16 (s : Bool) (v d : Nat)
  | fmax16 (s : Bool) (v d : Nat)
  -- Steps without an encoding (95_what_each_step_holds).  Steps of a slot act on the slot in hand.
  | faultBatchWrite (die : Nat)
  | resolve (die b : Nat)
  | copyDelivery (id : Nat)
  | copyFault (id cause : Nat)
  | copyStop (id : Nat)
  | publishPoint (id : Nat)
  | frameRelease (id : Nat)
  | tileEntryGrant (id : Nat)
  | mmaStep (id : Nat)
  | scatterContribution (id : Nat)
  | lineClose (id : Nat)
  | epochClose (lid : Nat)
  | updateCommandStart (die : Nat)
  | updateCommandComplete (die : Nat)
  | updateCommandStop (die cause : Nat)
  | collectiveComplete (id : Nat)
  | collectiveStop (id cause : Nat)
  | launchAccept (id : Nat)
  | groupStart (die : Nat)
  | taskStart (core : Nat)
  | stealRequest (die : Nat)
  | groupRetire (gid : Nat)
  | retirementMessage (lid lin : Nat)
  | launchComplete (lid : Nat)
  | phaseAdvance (job : Nat)
  | preempt (die : Nat)
  | groupRestore (die : Nat)
  | queueLaunch (q : Nat)
  | mailboxPost (q : Nat)
  | queueMarker (q : Nat)
  | faultsvc (q : Nat)
  | peertmo (q : Nat)
  | inwin (q : Nat)
  | gateopen (q : Nat)
  | pkgid (q : Nat)
  -- Steps that the outside world brings, with what they carry
  | arbiterAging (id : Nat)
  | effprioRise (wid : Nat) (sec : Bool)
  | collectiveMessage (comm seq : Nat) (m : ColMsg)
  | peerRead (peer pa n : Nat)
  | peerWrite (peer pa : Nat) (data : List Byte)
  | peerAtomic (peer pa : Nat) (wide : Bool) (op : Option AtomOp) (x y : DWord)
  | remoteEnqueue (peer ref : Nat) (message : List Byte)
  | peerErrorResponse (id cause : Nat)
  | peerTimeout (id : Nat)
  | hostFault (id : Nat)
  | qtail (q v : Nat)
  | bar2Read (off n : Nat)
  | bar2Write (off : Nat) (data : List Byte)
  | bar0RegisterWrite (off n v : Nat)
  | rst (f : ResetFindings)
  | coldReset (f : ResetFindings)
  | fundamentalReset (f : ResetFindings)
  | dieFence (die : Nat)
  | portDegrade (port : Nat)
  | uncorrectableLogicError (die : Nat)
  -- Instructions and steps without operands
  | conv
  | demote
  | exit
  | nop
  | yield
  | lsync
  | tret
  | wfe
  | fetchFault
  | runAheadEnd
  | starvationSwap
  | takeInjectedCause
  | wfeTimeout
  | go
  | signatureComplete
  | clockStepDown
  | clockStepUp
  | thermalFence
  | powerLoss
  deriving DecidableEq, Repr

end Sys2Proof
end

