-- ==== Sys2Proof/WellFormed.lean ====
section
/-! DEFINITION. Which instructions have an encoding: register ranges, pair and block alignment (R15), mask
destinations (R12), immediates (Table 1.6), control-register legality (R16). The steps of engines, host, peers and
controller have no encoding and are not well-formed. -/
namespace Sys2Proof
namespace Wf

/-- A vector register number. -/
def v (r : Nat) : Bool := r < 128
/-- The even register of a vector pair (R15). -/
def vp (r : Nat) : Bool := r < 128 && r % 2 == 0
/-- The first register of a vector quad (R15). -/
def vq (r : Nat) : Bool := r < 128 && r % 4 == 0
/-- A scalar register number. -/
def s (r : Nat) : Bool := r < 64
/-- The even register of a scalar pair. -/
def sp (r : Nat) : Bool := r < 64 && r % 2 == 0
/-- The first register of a scalar quad. -/
def sq (r : Nat) : Bool := r < 64 && r % 4 == 0
/-- A mask register that is read. -/
def m (r : Nat) : Bool := r < 8
/-- A mask register that is written: `m0` is no destination (R12). -/
def md (r : Nat) : Bool := 0 < r && r < 8
/-- The lookahead field, a handle excepted the only four-bit field without a unit of its own. -/
def n4 (k : Nat) : Bool := k < 16
/-- A signed field of n + 1 bits. -/
def sx (n : Nat) (i : Int) : Bool := decide (-(2 ^ n : Int) ≤ i) && decide (i < 2 ^ n)
/-- The three registers of a format A instruction. -/
def dab (d a b : Nat) : Bool := v d && v a && v b
/-- The two registers and the lookahead of a format L instruction. -/
def lda (la d a : Nat) : Bool := n4 la && v d && v a
/-- Width, index and base of a load or store outside `.g`. -/
def mem (la vi sb : Nat) : Bool := n4 la && vi < 64 && sb < 32
/-- The destination of a load: even for `.b64`, a multiple of 4 for `.b128` (Table 1.11). -/
def ldd (w : LdWidth) (d : Nat) : Bool :=
  match w with
  | .b64 => vp d
  | .b128 => vq d
  | .n8 | .i8 | .n16 | .i16 | .b32 => v d
/-- The source of a store (Table 1.11). -/
def std (w : StWidth) (d : Nat) : Bool :=
  match w with
  | .b64 => vp d
  | .b128 => vq d
  | .b8 | .b16 | .b32 => v d
/-- The registers that `pack` reads or `unpack` writes: a pair for 16-bit elements, a quad for 8-bit ones (R126). -/
def packed (t : PackTy) (r : Nat) : Bool :=
  match t with
  | .f16 | .bf16 | .i16 | .n16 => vp r
  | .i8 | .n8 => vq r
/-- A space that `ldu`, `stu`, `atom` and `cas` can name (Table 1.12a). -/
def xspace (sp : Space) : Bool := sp != .p
/-- The base of an `ldu` or `stu`: even for `.g` (Table 1.12a). -/
def ubase (x : Space) (a : Nat) : Bool := s a && (x != .g || a % 2 == 0)
/-- A hint other than `.nm` goes with `.g` only (R105). -/
def uhint (x : Space) (h : Hint) : Bool := h == .nm || x == .g
/-- The address register of an `atom` or `cas`: even for `.g` (R35). -/
def abase (x : Space) (a : Nat) : Bool := a < 32 && (x != .g || a % 2 == 0)
/-- The operations of `scan` are those coded 0 to 7 (Table 1.12b). -/
def scanOp (o : RedOp) : Bool := o != .and && o != .or && o != .xor
/-- The descriptor pair of a render instruction, `s0` to `s14` (Table 1.12b). -/
def rdesc (s : Nat) : Bool := s < 16 && s % 2 == 0
/-- An operation of `atom` on 64 bits (Table 1.13). -/
def atom64 (op : AtomOp) : Bool :=
  match op with
  | .addI64 | .minI64 | .maxI64 | .minN64 | .maxN64 | .xchgB64 => true
  | .addI32 | .addF32 | .minI32 | .maxI32 | .minN32 | .maxN32 | .andB32 | .orB32 | .xorB32 | .xchgB32 => false
/-- The destination of a `getc` or the source of a `setc` (R39). -/
def creg (scalar : Bool) (r : Nat) : Bool := if scalar then s r else v r
/-- The two registers of a 16-bit word. -/
def v16 (a d : Nat) : Bool := a < 32 && d < 32

end Wf

open Wf in
/-- The instruction has an encoding, and the encoding raises no ILLEGAL_INSTR (R23). -/
def Instr.wf : Instr → Bool
  | .add d a b | .sub d a b | .mul d a b | .mulhiI32 d a b | .mulhiN32 d a b | .and d a b | .or d a b
  | .xor d a b | .andn d a b | .shl d a b | .shr d a b | .sra d a b | .minI32 d a b | .maxI32 d a b
  | .minN32 d a b | .maxN32 d a b => dab d a b
  | .clz d a | .popc d a | .brev d a | .abs d a => v d && v a
  | .add64 d a b | .sub64 d a b | .min64I d a b | .max64I d a b | .min64N d a b | .max64N d a b =>
    vp d && vp a && vp b
  | .shl64 d a b | .shr64 d a b => vp d && vp a && v b
  | .mad d a b c => dab d a b && n4 c
  | .addi d a i | .andi d a i | .ori d a i | .xori d a i => v d && v a && sx 10 i
  | .shi _ d a n => v d && v a && n < 32
  | .bfeN d a b | .bfeI d a b | .bfi d a b | .perm d a b => dab d a b
  | .sel mk d a b => m mk && dab d a b
  | .icmp _ mk a b => md mk && v a && v b
  | .icmp64 _ mk a b => md mk && vp a && vp b
  | .movi d i => v d && sx 17 i
  | .movh d i => v d && i < 65536
  | .fadd d a b | .fsub d a b | .fmul d a b | .fmin d a b | .fmax d a b | .fcopysign d a b | .fldexp d a b
  | .fadd2 d a b | .fmul2 d a b | .fdot2 d a b => dab d a b
  | .ffma d a b c | .ffma2 d a b c => dab d a b && n4 c
  | .fcmp _ mk a b => md mk && v a && v b
  | .frcp la d a | .frsq la d a | .fsqrt la _ d a | .fexp2 la d a | .flog2 la d a | .fsin la d a
  | .fcos la d a | .frnd la _ d a | .fclass la d a => lda la d a
  | .cvtF32I32 la _ d a | .cvtF32N32 la _ d a | .cvtI32F32 la _ _ d a | .cvtN32F32 la _ _ d a
  | .cvtF16F32 la _ _ d a | .cvtBf16F32 la _ _ d a | .cvtF32F16 la d a | .cvtF32Bf16 la d a
  | .cvtI8I32 la _ d a | .cvtN8I32 la _ d a | .cvtI16I32 la _ d a | .cvtN16I32 la _ d a => lda la d a
  | .cvtF32I64 la _ d a | .cvtF32N64 la _ d a => n4 la && v d && vp a
  | .cvtI64F32 la _ _ d a | .cvtN64F32 la _ _ d a => n4 la && vp d && v a
  | .pack la t d a => n4 la && v d && packed t a
  | .unpack la t d a => n4 la && packed t d && v a
  | .bfpx la w d a | .bfpq la w d a => lda la d a && 2 ≤ w && w ≤ 8
  | .shfl la d a b => lda la d a && n4 b
  | .bcast la d a s => lda la d a && n4 s
  | .vote la _ d a => n4 la && md d && m a
  | .redu la _ d a => lda la d a
  | .scan la _ o d a => lda la d a && scanOp o
  | .compact la d a => lda la d a
  | .mand d a b | .mor d a b | .mxor d a b => md d && m a && m b
  | .mnot d a => md d && m a
  | .mpop r a | .mfirst r a | .mget r a => s r && m a
  | .mset d r => md d && s r
  | .sadd d a b | .ssub d a b | .smul d a b | .sand d a b | .sor d a b | .sxor d a b | .sshl d a b
  | .sshr d a b | .ssra d a b | .smin d a b | .smax d a b => s d && s a && s b
  | .smov d a => s d && s a
  | .saddi d a i => s d && s a && sx 12 i
  | .smovi d i => s d && sx 18 i
  | .scmp _ mk a b => md mk && s a && s b
  | .ldP la w vi sb d | .ldC la w vi sb d | .ldK la w vi sb d | .ldX la w vi sb d => mem la vi sb && ldd w d
  | .ldG la w vi sb d => mem la vi sb && sb % 2 == 0 && ldd w d
  | .stP la w vi sb d | .stC la w vi sb d | .stK la w vi sb d | .stX la w vi sb d => mem la vi sb && std w d
  | .stG la w vi sb d => mem la vi sb && sb % 2 == 0 && std w d
  | .ldu la sp h w a d =>
    n4 la && xspace sp && uhint sp h && w != .b128 && ubase sp a && s d && (w != .b64 || d % 2 == 0)
  | .stu la sp h w a d =>
    n4 la && xspace sp && uhint sp h && w != .b128 && ubase sp a && s d && (w != .b64 || d % 2 == 0)
  | .atom la _ sp op a d => n4 la && xspace sp && abase sp a && d < 32 && (!atom64 op || d % 2 == 0)
  | .cas la _ sp wide a d => n4 la && xspace sp && abase sp a && d < 32 && d % (if wide then 4 else 2) == 0
  | .gsadd la a r => n4 la && vp a && v r
  | .gsflush la => n4 la
  | .fence la o => n4 la && o != .rlx
  | .pf la _ _ a | .cinv la _ a | .cwb la a => n4 la && vp a
  | .stash la _ _ r a => n4 la && sq r && v a
  | .cpy la b d r => n4 la && n4 b && sp d && sp r
  | .cpyq la b d => n4 la && n4 b && s d
  | .pub la r => n4 la && sp r
  | .bcbini la b r | .bcbexp la b r => n4 la && n4 b && s r
  | .bcbwait la b => n4 la && n4 b
  | .mma la kp sf bsrc h vi =>
    n4 la && n4 kp && sp sf && (if bsrc then sf + 9 < 64 else sf + 7 < 64) && h < 8 && v vi
  | .acqa la h r => n4 la && h < 8 && s r
  | .rela la h | .azero la h | .anorm la h | .mwait la h => n4 la && h < 8
  | .aload la h r => n4 la && h < 8 && sp r
  | .astore la h r => n4 la && h < 8 && sq r
  | .ahead la h d => n4 la && h < 8 && v d
  | .rast la r a d | .esamp la r a d | .tex la r a d | .texadj la r a d | .trace la r a d | .tradj la r a d =>
    lda la d a && rdesc r
  | .radj la a d => lda la d a
  | .tapeRec la a => n4 la && v a
  | .tapePop la d => n4 la && v d
  | .tapeMark la _ r => n4 la && sp r && r ≤ 58
  | .tapeSeal la => n4 la
  | .tapeStat la d => n4 la && s d
  | .upd la r | .colw la r => n4 la && sp r
  | .col la _ _ r => n4 la && sp r
  | .wmreg la g r => n4 la && n4 g && sp r
  | .wmread la g d => n4 la && n4 g && vq d
  | .wmchk la g d => n4 la && n4 g && s d
  | .br o | .call o => sx 24 o
  | .brc o _ mk => sx 20 o && m mk
  | .brx o r | .callx o r => sx 12 o && v r
  | .ret r => v r
  | .convat o => sx 19 o
  | .conv | .demote | .exit | .nop | .yield => true
  | .trap n => n < 32
  | .bkpt tag => tag < 65536
  | .bar i => n4 i
  | .barc r i => s r && n4 i
  | .lclk r => sp r
  | .lsync => true
  | .fork r | .join r | .spawn r => sp r
  | .mbox b r => s b && s r
  | .fget r d | .fput r d => sp r && vp d
  | .cancel r _ => sp r
  | .cwait b r => sp b && sp r
  | .getc k r i => creg k r && Machine.getcLegal k i
  | .setc k r i => creg k r && Machine.setcLegal i
  | .tret => true
  | .rinj r => s r
  | .tlbinv e r => sp r && (e != .all || r == 0)
  | .wfe => true
  | .evsig c r => c < 32 && sp r
  | .mov16 k a d => v16 a d && !(!k && a == 0 && d == 0)
  | .add16 _ a d | .sub16 _ a d | .and16 _ a d | .or16 _ a d | .xor16 _ a d | .shl16 _ a d | .shr16 _ a d
  | .sra16 _ a d | .minI3216 _ a d | .maxI3216 _ a d | .fadd16 _ a d | .fsub16 _ a d | .fmul16 _ a d
  | .fmin16 _ a d | .fmax16 _ a d => v16 a d
  | .fetchFault | .runAheadEnd | .faultBatchWrite _ | .resolve _ _ | .copyDelivery _ | .copyFault _ _ | .copyStop _
  | .publishPoint _ | .frameRelease _ | .tileEntryGrant _ | .mmaStep _ | .arbiterAging _ | .effprioRise _ _
  | .starvationSwap | .scatterContribution _ | .lineClose _ | .epochClose _ | .updateCommandStart _
  | .updateCommandComplete _ | .updateCommandStop _ _ | .collectiveMessage _ _ _ | .collectiveComplete _
  | .collectiveStop _ _ | .launchAccept _ | .groupStart _ | .taskStart _ | .stealRequest _ | .groupRetire _
  | .retirementMessage _ _ | .launchComplete _ | .phaseAdvance _ | .preempt _ | .groupRestore _
  | .takeInjectedCause | .wfeTimeout | .peerRead _ _ _ | .peerWrite _ _ _ | .peerAtomic _ _ _ _ _ _
  | .remoteEnqueue _ _ _ | .peerErrorResponse _ _ | .peerTimeout _ | .hostFault _ | .qtail _ _ | .queueLaunch _
  | .mailboxPost _ | .queueMarker _ | .faultsvc _ | .peertmo _ | .inwin _ | .gateopen _ | .pkgid _ | .bar2Read _ _
  | .bar2Write _ _ | .bar0RegisterWrite _ _ _ | .rst _ | .go | .signatureComplete | .coldReset _
  | .fundamentalReset _ | .clockStepDown | .clockStepUp | .thermalFence | .dieFence _ | .portDegrade _ | .powerLoss
  | .uncorrectableLogicError _ => false

end Sys2Proof
end

