-- ==== Sys2Proof/Decode.lean ====
section
/-! DEFINITION. Decoding instruction words (R20 to R23, Tables 1.5 to 1.14) and, after it, the encoder written from
the same tables. -/
namespace Sys2Proof

/-- Bits [lo+n-1:lo] of a word (R7). -/
def bits (w lo n : Nat) : Nat := w / 2 ^ lo % 2 ^ n

/-- A field of n bits read as a signed number (Table 1.6). -/
def sextField (n v : Nat) : Int := if v < 2 ^ (n - 1) then (v : Int) else (v : Int) - 2 ^ n

/-- A signed number as a field of n bits. -/
def toField (n : Nat) (i : Int) : Nat := (i % 2 ^ n).toNat

/-- The instruction, where the bits its row fixes at zero are zero (R23). -/
def need (c : Bool) (i : Instr) : Option Instr := if c then some i else none

/-- Why a word is no instruction (R23), or there is no whole word. -/
inductive DecodeError where
  /-- The bytes end before the instruction does. -/
  | truncated
  /-- A reserved opcode or field value, or a non-zero bit that must be zero. -/
  | reserved
  /-- A misaligned pair or block, `m0` as a destination, a scalar field past `s63`, or a control register against
  R16. -/
  | operand
  deriving DecidableEq, Repr

def Rm.ofCode : Nat → Rm
  | 0 => .rne | 1 => .rtz | 2 => .rup | _ => .rdn
def Rm.code : Rm → Nat
  | .rne => 0 | .rtz => 1 | .rup => 2 | .rdn => 3

def ICond.ofCode : Nat → Option ICond
  | 0 => some .eq | 1 => some .ne | 2 => some .ltI | 3 => some .leI | 4 => some .gtI | 5 => some .geI
  | 6 => some .ltN | 7 => some .leN | 8 => some .gtN | 9 => some .geN | _ => none
def ICond.code : ICond → Nat
  | .eq => 0 | .ne => 1 | .ltI => 2 | .leI => 3 | .gtI => 4 | .geI => 5 | .ltN => 6 | .leN => 7 | .gtN => 8
  | .geN => 9

def FCond.ofCode : Nat → Option FCond
  | 0 => some .eq | 1 => some .ne | 2 => some .lt | 3 => some .le | 4 => some .gt | 5 => some .ge
  | 6 => some .ord | 7 => some .uno | _ => none
def FCond.code : FCond → Nat
  | .eq => 0 | .ne => 1 | .lt => 2 | .le => 3 | .gt => 4 | .ge => 5 | .ord => 6 | .uno => 7

def ShKind.ofCode : Nat → ShKind
  | 0 => .shl | 1 => .shr | 2 => .sra | _ => .rotl
def ShKind.code : ShKind → Nat
  | .shl => 0 | .shr => 1 | .sra => 2 | .rotl => 3

def PackTy.ofCode : Nat → Option PackTy
  | 0 => some .f16 | 1 => some .bf16 | 2 => some .i16 | 3 => some .n16 | 4 => some .i8 | 5 => some .n8 | _ => none
def PackTy.code : PackTy → Nat
  | .f16 => 0 | .bf16 => 1 | .i16 => 2 | .n16 => 3 | .i8 => 4 | .n8 => 5

def VoteKind.ofCode : Nat → Option VoteKind
  | 0 => some .any | 1 => some .all | 2 => some .none | _ => Option.none
def VoteKind.code : VoteKind → Nat
  | .any => 0 | .all => 1 | .none => 2

def RedOp.ofCode : Nat → Option RedOp
  | 0 => some .addI32 | 1 => some .addF32 | 2 => some .minI32 | 3 => some .maxI32 | 4 => some .minN32
  | 5 => some .maxN32 | 6 => some .minF32 | 7 => some .maxF32 | 8 => some .and | 9 => some .or | 10 => some .xor
  | _ => none
def RedOp.code : RedOp → Nat
  | .addI32 => 0 | .addF32 => 1 | .minI32 => 2 | .maxI32 => 3 | .minN32 => 4 | .maxN32 => 5 | .minF32 => 6
  | .maxF32 => 7 | .and => 8 | .or => 9 | .xor => 10

def LdWidth.ofCode : Nat → Option LdWidth
  | 0 => some .n8 | 1 => some .i8 | 2 => some .n16 | 3 => some .i16 | 4 => some .b32 | 5 => some .b64
  | 6 => some .b128 | _ => none
def LdWidth.code : LdWidth → Nat
  | .n8 => 0 | .i8 => 1 | .n16 => 2 | .i16 => 3 | .b32 => 4 | .b64 => 5 | .b128 => 6

def StWidth.ofCode : Nat → Option StWidth
  | 0 => some .b8 | 2 => some .b16 | 4 => some .b32 | 5 => some .b64 | 6 => some .b128 | _ => none
def StWidth.code : StWidth → Nat
  | .b8 => 0 | .b16 => 2 | .b32 => 4 | .b64 => 5 | .b128 => 6

/-- The space code of Table 1.12a. -/
def Space.ofCode : Nat → Space
  | 0 => .c | 1 => .k | 2 => .x | _ => .g
def Space.code : Space → Nat
  | .c => 0 | .k => 1 | .x => 2 | .g => 3 | .p => 0

def Hint.ofCode : Nat → Option Hint
  | 0 => some .nm | 1 => some .ef | 2 => some .el | _ => none
def Hint.code : Hint → Nat
  | .nm => 0 | .ef => 1 | .el => 2

def Scope.ofCode : Nat → Scope
  | 0 => .gp | 1 => .cl | 2 => .di | 3 => .dev | 4 => .ms | 5 => .sys | _ => .fab
def Scope.code : Scope → Nat
  | .gp => 0 | .cl => 1 | .di => 2 | .dev => 3 | .ms => 4 | .sys => 5 | .fab => 6

/-- The code osc of R34. -/
def Osc.ofCode (n : Nat) : Option Osc :=
  if n = 0 then some .rlx
  else if n < 8 then some (.acq (Scope.ofCode (n - 1)))
  else if n < 15 then some (.rel (Scope.ofCode (n - 8)))
  else if n < 22 then some (.ar (Scope.ofCode (n - 15)))
  else if n < 29 then some (.sc (Scope.ofCode (n - 22)))
  else if n = 29 then some .arWv
  else if n = 30 then some .arLn
  else none
def Osc.code : Osc → Nat
  | .rlx => 0
  | .acq s => 1 + s.code
  | .rel s => 8 + s.code
  | .ar s => 15 + s.code
  | .sc s => 22 + s.code
  | .arWv => 29
  | .arLn => 30

def AtomOp.ofCode : Nat → AtomOp
  | 0 => .addI32 | 1 => .addF32 | 2 => .minI32 | 3 => .maxI32 | 4 => .minN32 | 5 => .maxN32 | 6 => .andB32
  | 7 => .orB32 | 8 => .xorB32 | 9 => .xchgB32 | 10 => .addI64 | 11 => .minI64 | 12 => .maxI64 | 13 => .minN64
  | 14 => .maxN64 | _ => .xchgB64
def AtomOp.code : AtomOp → Nat
  | .addI32 => 0 | .addF32 => 1 | .minI32 => 2 | .maxI32 => 3 | .minN32 => 4 | .maxN32 => 5 | .andB32 => 6
  | .orB32 => 7 | .xorB32 => 8 | .xchgB32 => 9 | .addI64 => 10 | .minI64 => 11 | .maxI64 => 12 | .minN64 => 13
  | .maxN64 => 14 | .xchgB64 => 15

def StashK.ofCode : Nat → Option StashK
  | 0 => some .k8 | 1 => some .k16 | 2 => some .k32 | _ => none
def StashK.code : StashK → Nat
  | .k8 => 0 | .k16 => 1 | .k32 => 2

def CancelLevel.ofCode : Nat → CancelLevel
  | 0 => .launch | 1 => .graph | 2 => .phase | _ => .job
def CancelLevel.code : CancelLevel → Nat
  | .launch => 0 | .graph => 1 | .phase => 2 | .job => 3

def TlbExtent.ofCode : Nat → Option TlbExtent
  | 0 => some .page | 1 => some .space | 2 => some .all | _ => none
def TlbExtent.code : TlbExtent → Nat
  | .page => 0 | .space => 1 | .all => 2

/-- OP6 0x01 (Table 1.8). -/
def parseInt (w : Nat) : Option Instr :=
  let d := bits w 7 7; let a := bits w 14 7; let b := bits w 21 7
  match bits w 28 4 with
  | 0 => some (.add d a b) | 1 => some (.sub d a b) | 2 => some (.mul d a b) | 3 => some (.mulhiI32 d a b)
  | 4 => some (.mulhiN32 d a b) | 5 => some (.and d a b) | 6 => some (.or d a b) | 7 => some (.xor d a b)
  | 8 => some (.andn d a b) | 9 => some (.shl d a b) | 10 => some (.shr d a b) | 11 => some (.sra d a b)
  | 12 => some (.minI32 d a b) | 13 => some (.maxI32 d a b) | 14 => some (.minN32 d a b)
  | _ => some (.maxN32 d a b)

/-- OP6 0x02 (Table 1.8). -/
def parseInt2 (w : Nat) : Option Instr :=
  let d := bits w 7 7; let a := bits w 14 7; let b := bits w 21 7
  match bits w 28 4 with
  | 0 => need (b == 0) (.clz d a) | 1 => need (b == 0) (.popc d a) | 2 => need (b == 0) (.brev d a)
  | 3 => need (b == 0) (.abs d a) | 4 => some (.add64 d a b) | 5 => some (.sub64 d a b)
  | 6 => some (.shl64 d a b) | 7 => some (.shr64 d a b) | 8 => some (.min64I d a b) | 9 => some (.max64I d a b)
  | 10 => some (.min64N d a b) | 11 => some (.max64N d a b) | _ => none

/-- OP6 0x09 (Table 1.8). -/
def parseField (w : Nat) : Option Instr :=
  let d := bits w 7 7; let a := bits w 14 7; let b := bits w 21 7
  match bits w 28 4 with
  | 0 => some (.bfeN d a b) | 1 => some (.bfeI d a b) | 2 => some (.bfi d a b) | 3 => some (.perm d a b)
  | n => need (8 ≤ n) (.sel (n - 8) d a b)

/-- OP6 0x0A: bit 3 of the vd field selects `icmp64` (R31). -/
def parseIcmp (w : Nat) : Option Instr :=
  let m := bits w 7 3; let a := bits w 14 7; let b := bits w 21 7
  match ICond.ofCode (bits w 28 4) with
  | none => none
  | some c =>
    if bits w 10 1 = 1 then need (bits w 11 3 == 0) (.icmp64 c m a b)
    else need (bits w 11 3 == 0) (.icmp c m a b)

/-- OP6 0x0D (Table 1.8). -/
def parseFloat (w : Nat) : Option Instr :=
  let d := bits w 7 7; let a := bits w 14 7; let b := bits w 21 7
  match bits w 28 4 with
  | 0 => some (.fadd d a b) | 1 => some (.fsub d a b) | 2 => some (.fmul d a b) | 3 => some (.fmin d a b)
  | 4 => some (.fmax d a b) | 5 => some (.fcopysign d a b) | 6 => some (.fldexp d a b) | 7 => some (.fadd2 d a b)
  | 8 => some (.fmul2 d a b) | 9 => some (.fdot2 d a b) | _ => none

/-- OP6 0x10 (Table 1.9). -/
def parseFcmp (w : Nat) : Option Instr :=
  match FCond.ofCode (bits w 28 4) with
  | none => none
  | some c => need (bits w 10 4 == 0) (.fcmp c (bits w 7 3) (bits w 14 7) (bits w 21 7))

/-- OP6 0x11 (Table 1.10). -/
def parseSpecial (w : Nat) : Option Instr :=
  let d := bits w 7 7; let a := bits w 14 7; let md := bits w 25 3; let la := bits w 28 4
  match bits w 21 4 with
  | 0 => need (md == 0) (.frcp la d a) | 1 => need (md == 0) (.frsq la d a)
  | 2 => need (md < 4) (.fsqrt la (Rm.ofCode md) d a)
  | 3 => need (md == 0) (.fexp2 la d a) | 4 => need (md == 0) (.flog2 la d a) | 5 => need (md == 0) (.fsin la d a)
  | 6 => need (md == 0) (.fcos la d a) | 7 => need (md < 4) (.frnd la (Rm.ofCode md) d a)
  | 8 => need (md == 0) (.fclass la d a) | _ => none

/-- OP6 0x12 (Table 1.10): mod holds saturation in bit 2 and the rounding mode in bits [1:0], and a conversion that
has no use for one of them requires it to be zero (R32, R124, R125). -/
def parseCvt (w : Nat) : Option Instr :=
  let d := bits w 7 7; let a := bits w 14 7; let la := bits w 28 4
  let rc := bits w 25 2; let r := Rm.ofCode rc; let s := bits w 27 1 == 1
  match bits w 21 4 with
  | 0 => need (!s) (.cvtF32I32 la r d a) | 1 => need (!s) (.cvtF32N32 la r d a)
  | 2 => some (.cvtI32F32 la s r d a) | 3 => some (.cvtN32F32 la s r d a)
  | 4 => some (.cvtF16F32 la s r d a) | 5 => some (.cvtBf16F32 la s r d a)
  | 6 => need (!s && rc == 0) (.cvtF32F16 la d a) | 7 => need (!s && rc == 0) (.cvtF32Bf16 la d a)
  | 8 => need (!s) (.cvtF32I64 la r d a) | 9 => need (!s) (.cvtF32N64 la r d a)
  | 10 => some (.cvtI64F32 la s r d a) | 11 => some (.cvtN64F32 la s r d a)
  | 12 => need (rc == 0) (.cvtI8I32 la s d a) | 13 => need (rc == 0) (.cvtN8I32 la s d a)
  | 14 => need (rc == 0) (.cvtI16I32 la s d a) | _ => need (rc == 0) (.cvtN16I32 la s d a)

/-- OP6 0x13 (Table 1.10). -/
def parsePack (w : Nat) : Option Instr :=
  let d := bits w 7 7; let a := bits w 14 7; let md := bits w 25 3; let la := bits w 28 4
  match bits w 21 4 with
  | 0 => (PackTy.ofCode md).map (.pack la · d a)
  | 1 => (PackTy.ofCode md).map (.unpack la · d a)
  | 2 => need (md < 7) (.bfpx la (md + 2) d a)
  | 3 => need (md < 7) (.bfpq la (md + 2) d a)
  | _ => none

/-- OP6 0x14 (Table 1.12b). -/
def parseCross (w : Nat) : Option Instr :=
  let f1 := bits w 7 7; let f2 := bits w 14 7; let f4 := bits w 21 4; let la := bits w 28 4
  match bits w 25 3 with
  | 0 => some (.shfl la f1 f2 f4)
  | 1 => some (.bcast la f1 f2 f4)
  | 2 => if f1 < 8 ∧ f2 < 8 then (VoteKind.ofCode f4).map (.vote la · f1 f2) else none
  | 3 => (RedOp.ofCode f4).map (.redu la · f1 f2)
  | 4 => (RedOp.ofCode (bits w 21 3)).map (.scan la (bits w 24 1 == 1) · f1 f2)
  | 5 => need (f4 == 0) (.compact la f1 f2)
  | _ => none

/-- OP6 0x15 (R38). -/
def parseMask (w : Nat) : Option Instr :=
  let d := bits w 7 3; let a := bits w 10 3; let b := bits w 13 3; let s := bits w 19 6
  if bits w 25 7 = 0 then
    match bits w 16 3 with
    | 0 => need (s == 0) (.mand d a b) | 1 => need (s == 0) (.mor d a b) | 2 => need (s == 0) (.mxor d a b)
    | 3 => need (s == 0 && b == 0) (.mnot d a) | 4 => need (d == 0 && b == 0) (.mpop s a)
    | 5 => need (d == 0 && b == 0) (.mfirst s a) | 6 => need (a == 0 && b == 0) (.mset d s)
    | _ => need (d == 0 && b == 0) (.mget s a)
  else none

/-- OP6 0x16 (Table 1.8). -/
def parseScalar (w : Nat) : Option Instr :=
  let d := bits w 7 6; let a := bits w 13 6; let b := bits w 19 6
  if bits w 25 3 = 0 then
    match bits w 28 4 with
    | 0 => some (.sadd d a b) | 1 => some (.ssub d a b) | 2 => some (.smul d a b) | 3 => some (.sand d a b)
    | 4 => some (.sor d a b) | 5 => some (.sxor d a b) | 6 => some (.sshl d a b) | 7 => some (.sshr d a b)
    | 8 => some (.ssra d a b) | 9 => some (.smin d a b) | 10 => some (.smax d a b)
    | 11 => need (b == 0) (.smov d a) | _ => none
  else none

/-- OP6 0x19 (Table 1.9, integer rows). -/
def parseScmp (w : Nat) : Option Instr :=
  match ICond.ofCode (bits w 28 4) with
  | none => none
  | some c => need (bits w 25 3 == 0 && bits w 10 3 == 0) (.scmp c (bits w 7 3) (bits w 13 6) (bits w 19 6))

/-- OP6 0x1A to 0x1E: the load of the k-th space (Table 1.11). -/
def parseLoad (k w : Nat) : Option Instr :=
  let d := bits w 7 7; let sb := bits w 14 5; let vi := bits w 19 6; let la := bits w 28 4
  match LdWidth.ofCode (bits w 25 3) with
  | none => none
  | some wd =>
    match k with
    | 0 => some (.ldP la wd vi sb d) | 1 => some (.ldC la wd vi sb d) | 2 => some (.ldK la wd vi sb d)
    | 3 => some (.ldX la wd vi sb d) | _ => some (.ldG la wd vi sb d)

/-- OP6 0x1F to 0x23: the store of the k-th space (Table 1.11). -/
def parseStore (k w : Nat) : Option Instr :=
  let d := bits w 7 7; let sb := bits w 14 5; let vi := bits w 19 6; let la := bits w 28 4
  match StWidth.ofCode (bits w 25 3) with
  | none => none
  | some wd =>
    match k with
    | 0 => some (.stP la wd vi sb d) | 1 => some (.stC la wd vi sb d) | 2 => some (.stK la wd vi sb d)
    | 3 => some (.stX la wd vi sb d) | _ => some (.stG la wd vi sb d)

/-- OP6 0x24 (Table 1.12a). -/
def parseUni (w : Nat) : Option Instr :=
  let la := bits w 28 4; let sp := Space.ofCode (bits w 26 2); let a := bits w 14 6; let d := bits w 7 6
  let wc := 2 * bits w 21 2 + bits w 20 1
  if bits w 13 1 = 0 then
    match Hint.ofCode (bits w 24 2) with
    | none => none
    | some h =>
      if bits w 23 1 = 0 then (LdWidth.ofCode wc).map (.ldu la sp h · a d)
      else (StWidth.ofCode wc).map (.stu la sp h · a d)
  else none

/-- OP6 0x25 (Table 1.12a). -/
def parseAtom (w : Nat) : Option Instr :=
  match Osc.ofCode (bits w 23 5) with
  | none => none
  | some o =>
    some (.atom (bits w 28 4) o (Space.ofCode (bits w 21 2)) (AtomOp.ofCode (bits w 17 4)) (bits w 12 5) (bits w 7 5))

/-- OP6 0x26 (Table 1.12a). -/
def parseCas (w : Nat) : Option Instr :=
  match Osc.ofCode (bits w 23 5) with
  | none => none
  | some o =>
    need (bits w 18 3 == 0)
      (.cas (bits w 28 4) o (Space.ofCode (bits w 21 2)) (bits w 17 1 == 1) (bits w 12 5) (bits w 7 5))

/-- OP6 0x28 (Table 1.12b). -/
def parseScatter (w : Nat) : Option Instr :=
  let f1 := bits w 7 7; let f2 := bits w 14 7; let f4 := bits w 21 4; let la := bits w 28 4
  match bits w 25 3 with
  | 0 => need (f4 == 0) (.gsadd la f2 f1)
  | 1 => need (f4 == 0 && f2 == 0 && f1 == 0) (.gsflush la)
  | _ => none

/-- OP6 0x29 (Table 1.12a). -/
def parseFence (w : Nat) : Option Instr :=
  match Osc.ofCode (bits w 7 5) with
  | none => none
  | some o => need (bits w 12 16 == 0) (.fence (bits w 28 4) o)

/-- OP6 0x2A (Table 1.12b). -/
def parseCache (w : Nat) : Option Instr :=
  let f1 := bits w 7 7; let f2 := bits w 14 7; let la := bits w 28 4
  match bits w 25 3 with
  | 0 =>
    match Hint.ofCode (bits w 21 2) with
    | none => none
    | some h => need (f1 == 0 && bits w 23 2 < 2) (.pf la (bits w 23 2 == 1) h f2)
  | 1 => need (f1 == 0 && bits w 22 3 == 0) (.cinv la (bits w 21 1 == 1) f2)
  | 2 => need (f1 == 0 && bits w 21 4 == 0) (.cwb la f2)
  | 3 =>
    match StashK.ofCode (bits w 21 2) with
    | none => none
    | some k => need (bits w 24 1 == 0) (.stash la (bits w 23 1 == 1) k f2 f1)
  | _ => none

/-- OP6 0x2C (Table 1.12b). -/
def parseCopy (w : Nat) : Option Instr :=
  let f1 := bits w 7 7; let f2 := bits w 14 7; let f4 := bits w 21 4; let la := bits w 28 4
  match bits w 25 3 with
  | 0 => need (f2 == 0) (.cpyq la f4 f1)
  | 1 => need (f1 == 0 && f4 == 0) (.pub la f2)
  | 2 => need (f1 == 0) (.bcbini la f4 f2)
  | 3 => need (f1 == 0) (.bcbexp la f4 f2)
  | 4 => need (f1 == 0 && f2 == 0) (.bcbwait la f4)
  | _ => none

/-- OP6 0x2D (R37). -/
def parseMma (w : Nat) : Option Instr :=
  some (.mma (bits w 28 4) (bits w 24 4) (bits w 18 6) (bits w 17 1 == 1) (bits w 14 3) (bits w 7 7))

/-- OP6 0x2E (Table 1.12b). -/
def parseTile (w : Nat) : Option Instr :=
  let f1 := bits w 7 7; let h := bits w 14 3; let la := bits w 28 4
  if bits w 17 8 = 0 then
    match bits w 25 3 with
    | 0 => some (.acqa la h f1)
    | 1 => need (f1 == 0) (.rela la h)
    | 2 => need (f1 == 0) (.azero la h)
    | 3 => some (.aload la h f1)
    | 4 => some (.astore la h f1)
    | 5 => need (f1 == 0) (.anorm la h)
    | 6 => some (.ahead la h f1)
    | _ => need (f1 == 0) (.mwait la h)
  else none

/-- OP6 0x2F (Table 1.12b, R222). -/
def parseRast (w : Nat) : Option Instr :=
  let d := bits w 7 7; let a := bits w 14 7; let s := bits w 21 4; let la := bits w 28 4
  match bits w 25 3 with
  | 0 => some (.rast la s a d)
  | 1 => need (s == 0) (.radj la a d)
  | 2 => some (.esamp la s a d)
  | _ => none

/-- OP6 0x30 (Table 1.12b). -/
def parseTex (w : Nat) : Option Instr :=
  let d := bits w 7 7; let a := bits w 14 7; let s := bits w 21 4; let la := bits w 28 4
  match bits w 25 3 with
  | 0 => some (.tex la s a d)
  | 1 => some (.texadj la s a d)
  | 2 => some (.trace la s a d)
  | 3 => some (.tradj la s a d)
  | _ => none

/-- OP6 0x31 (Table 1.12b). -/
def parseTape (w : Nat) : Option Instr :=
  let f1 := bits w 7 7; let f2 := bits w 14 7; let f4 := bits w 21 4; let la := bits w 28 4
  match bits w 25 3 with
  | 0 => need (f1 == 0 && f4 == 0) (.tapeRec la f2)
  | 1 => need (f2 == 0 && f4 == 0) (.tapePop la f1)
  | 2 => need (f1 == 0 && bits w 22 3 == 0) (.tapeMark la (bits w 21 1 == 1) f2)
  | 3 => need (f1 == 0 && f2 == 0 && f4 == 0) (.tapeSeal la)
  | 4 => need (f2 == 0 && f4 == 0) (.tapeStat la f1)
  | _ => none

/-- OP6 0x32 (Table 1.12b). -/
def parseFabric (w : Nat) : Option Instr :=
  let f1 := bits w 7 7; let f2 := bits w 14 7; let f4 := bits w 21 4; let la := bits w 28 4
  match bits w 25 3 with
  | 0 => need (f1 == 0 && f4 == 0) (.upd la f2)
  | 1 => need (f1 == 0 && bits w 23 2 == 0) (.col la (bits w 21 1 == 1) (bits w 22 1 == 1) f2)
  | 2 => need (f1 == 0 && f4 == 0) (.colw la f2)
  | 3 => need (f1 == 0) (.wmreg la f4 f2)
  | 4 => need (f2 == 0) (.wmread la f4 f1)
  | 5 => need (f2 == 0) (.wmchk la f4 f1)
  | _ => none

/-- OP6 0x36 (Table 1.14). -/
def parseFlow (w : Nat) : Option Instr :=
  let body := bits w 12 20
  match bits w 7 5 with
  | 0 => some (.brx (sextField 13 (bits w 19 13)) (bits w 12 7))
  | 1 => some (.callx (sextField 13 (bits w 19 13)) (bits w 12 7))
  | 2 => need (bits w 19 13 == 0) (.ret (bits w 12 7))
  | 3 => some (.convat (sextField 20 body))
  | 4 => need (body == 0) .conv
  | 5 => need (body == 0) .demote
  | 6 => need (body == 0) .exit
  | 7 => need (body == 0) .nop
  | 8 => need (body == 0) .yield
  | 9 => need (bits w 17 15 == 0) (.trap (bits w 12 5))
  | 10 => need (bits w 28 4 == 0) (.bkpt (bits w 12 16))
  | _ => none

/-- OP6 0x37 (Table 1.14). -/
def parseBar (w : Nat) : Option Instr :=
  match bits w 7 5 with
  | 0 => need (bits w 16 16 == 0) (.bar (bits w 12 4))
  | 1 => need (bits w 22 10 == 0) (.barc (bits w 16 6) (bits w 12 4))
  | 2 => need (bits w 18 14 == 0) (.lclk (bits w 12 6))
  | 3 => need (bits w 12 20 == 0) .lsync
  | _ => none

/-- OP6 0x38 (Table 1.14). -/
def parseTask (w : Nat) : Option Instr :=
  match bits w 7 5 with
  | 0 => need (bits w 18 14 == 0) (.fork (bits w 12 6))
  | 1 => need (bits w 18 14 == 0) (.join (bits w 12 6))
  | 2 => need (bits w 18 14 == 0) (.spawn (bits w 12 6))
  | 3 => need (bits w 24 8 == 0) (.mbox (bits w 18 6) (bits w 12 6))
  | 4 => need (bits w 25 7 == 0) (.fget (bits w 19 6) (bits w 12 7))
  | 5 => need (bits w 25 7 == 0) (.fput (bits w 19 6) (bits w 12 7))
  | 6 => need (bits w 20 12 == 0) (.cancel (bits w 14 6) (CancelLevel.ofCode (bits w 12 2)))
  | 7 => need (bits w 24 8 == 0) (.cwait (bits w 18 6) (bits w 12 6))
  | _ => none

/-- OP6 0x39 (Table 1.14). -/
def parseSys (w : Nat) : Option Instr :=
  match bits w 7 5 with
  | 0 => some (.getc (bits w 31 1 == 1) (bits w 24 7) (bits w 12 12))
  | 1 => some (.setc (bits w 31 1 == 1) (bits w 24 7) (bits w 12 12))
  | 2 => need (bits w 12 20 == 0) .tret
  | 3 => need (bits w 18 14 == 0) (.rinj (bits w 12 6))
  | 4 =>
    match TlbExtent.ofCode (bits w 18 2) with
    | none => none
    | some e => need (bits w 20 12 == 0) (.tlbinv e (bits w 12 6))
  | 5 => need (bits w 12 20 == 0) .wfe
  | 6 => need (bits w 23 9 == 0) (.evsig (bits w 18 5) (bits w 12 6))
  | _ => none

/-- The instruction a 32-bit word with bit 0 set would be, by its OP6 (Table 1.7), before the checks of its register
fields. -/
def parse32 (w : Nat) : Option Instr :=
  let d := bits w 7 7; let a := bits w 14 7; let b := bits w 21 7; let c := bits w 28 4
  match bits w 1 6 with
  | 0x01 => parseInt w
  | 0x02 => parseInt2 w
  | 0x03 => some (.mad d a b c)
  | 0x04 => some (.addi d a (sextField 11 (bits w 21 11)))
  | 0x05 => some (.andi d a (sextField 11 (bits w 21 11)))
  | 0x06 => some (.ori d a (sextField 11 (bits w 21 11)))
  | 0x07 => some (.xori d a (sextField 11 (bits w 21 11)))
  | 0x08 => need (c == 0) (.shi (ShKind.ofCode (bits w 26 2)) d a (bits w 21 5))
  | 0x09 => parseField w
  | 0x0A => parseIcmp w
  | 0x0B => some (.movi d (sextField 18 (bits w 14 18)))
  | 0x0C => need (bits w 14 2 == 0) (.movh d (bits w 16 16))
  | 0x0D => parseFloat w
  | 0x0E => some (.ffma d a b c)
  | 0x0F => some (.ffma2 d a b c)
  | 0x10 => parseFcmp w
  | 0x11 => parseSpecial w
  | 0x12 => parseCvt w
  | 0x13 => parsePack w
  | 0x14 => parseCross w
  | 0x15 => parseMask w
  | 0x16 => parseScalar w
  | 0x17 => some (.saddi (bits w 7 6) (bits w 13 6) (sextField 13 (bits w 19 13)))
  | 0x18 => some (.smovi (bits w 7 6) (sextField 19 (bits w 13 19)))
  | 0x19 => parseScmp w
  | 0x1A => parseLoad 0 w
  | 0x1B => parseLoad 1 w
  | 0x1C => parseLoad 2 w
  | 0x1D => parseLoad 3 w
  | 0x1E => parseLoad 4 w
  | 0x1F => parseStore 0 w
  | 0x20 => parseStore 1 w
  | 0x21 => parseStore 2 w
  | 0x22 => parseStore 3 w
  | 0x23 => parseStore 4 w
  | 0x24 => parseUni w
  | 0x25 => parseAtom w
  | 0x26 => parseCas w
  | 0x28 => parseScatter w
  | 0x29 => parseFence w
  | 0x2A => parseCache w
  | 0x2B => need (bits w 25 3 == 0) (.cpy c (bits w 21 4) (bits w 14 7) d)
  | 0x2C => parseCopy w
  | 0x2D => parseMma w
  | 0x2E => parseTile w
  | 0x2F => parseRast w
  | 0x30 => parseTex w
  | 0x31 => parseTape w
  | 0x32 => parseFabric w
  | 0x33 => some (.br (sextField 25 (bits w 7 25)))
  | 0x34 => some (.call (sextField 25 (bits w 7 25)))
  | 0x35 => some (.brc (sextField 21 (bits w 11 21)) (bits w 10 1 == 1) (bits w 7 3))
  | 0x36 => parseFlow w
  | 0x37 => parseBar w
  | 0x38 => parseTask w
  | 0x39 => parseSys w
  | _ => none

/-- The instruction of a 16-bit word (R21, Table 1.5). -/
def parse16 (w : Nat) : Option Instr :=
  let s := bits w 15 1 == 1; let v := bits w 10 5; let d := bits w 5 5
  match bits w 1 4 with
  | 0 => some (.mov16 s v d) | 1 => some (.add16 s v d) | 2 => some (.sub16 s v d) | 3 => some (.and16 s v d)
  | 4 => some (.or16 s v d) | 5 => some (.xor16 s v d) | 6 => some (.shl16 s v d) | 7 => some (.shr16 s v d)
  | 8 => some (.sra16 s v d) | 9 => some (.minI3216 s v d) | 10 => some (.maxI3216 s v d)
  | 11 => some (.fadd16 s v d) | 12 => some (.fsub16 s v d) | 13 => some (.fmul16 s v d)
  | 14 => some (.fmin16 s v d) | _ => some (.fmax16 s v d)

/-- The word's instruction, once its register fields pass too (R23). -/
def checked : Option Instr → Except DecodeError Instr
  | none => .error .reserved
  | some i => if i.wf then .ok i else .error .operand

/-- The instruction of a 32-bit word. -/
def decode32 (w : Nat) : Except DecodeError Instr := checked (parse32 w)

/-- The instruction of a 16-bit word. -/
def decode16 (w : Nat) : Except DecodeError Instr := checked (parse16 w)

/-- The bytes of an instruction of the given length, lowest address first (R6, R20). -/
def wordBytes : Nat → Nat → List Byte
  | 0, _ => []
  | n + 1, w => BitVec.ofNat 8 w :: wordBytes n (w / 256)

/-- The number whose little-endian bytes these are (R6). -/
def leNat : List Byte → Nat
  | [] => 0
  | b :: bs => b.toNat + 256 * leNat bs

/-- The instruction at the start of these bytes, and the bytes after it: bit 0 of the first unit gives the length
(R20). -/
def decode : List Byte → Except DecodeError (Instr × List Byte)
  | b0 :: b1 :: rest =>
    if b0.toNat % 2 = 0 then (decode16 (leNat [b0, b1])).map fun i => (i, rest)
    else
      match rest with
      | b2 :: b3 :: rest' => (decode32 (leNat [b0, b1, b2, b3])).map fun i => (i, rest')
      | _ => .error .truncated
  | _ => .error .truncated

/-- What the decoder reads from an instruction whose bits are w, numbered as the opcode table numbers them: bit 0 is
the least significant bit of the first unit, which lies at the lowest address. -/
def decodeTableWord (_nbits w : Nat) : Option Instr :=
  match decode (wordBytes 4 w) with
  | .ok (i, _) => some i
  | .error _ => none

/-- A 32-bit word of major opcode op: bit 0 is set (R22). -/
def op32 (op rest : Nat) : Nat := 1 + 2 * op + rest

/-- The fields of format A (Table 1.6). -/
def fmtA (op fn d a b : Nat) : Nat := op32 op (d * 2 ^ 7 + a * 2 ^ 14 + b * 2 ^ 21 + fn * 2 ^ 28)
/-- The fields of format L. -/
def fmtL (op la md fn a d : Nat) : Nat :=
  op32 op (d * 2 ^ 7 + a * 2 ^ 14 + fn * 2 ^ 21 + md * 2 ^ 25 + la * 2 ^ 28)
/-- The fields of format S. -/
def fmtS (op fn d a b : Nat) : Nat := op32 op (d * 2 ^ 7 + a * 2 ^ 13 + b * 2 ^ 19 + fn * 2 ^ 28)
/-- The fields of format M. -/
def fmtM (op la w vi sb d : Nat) : Nat :=
  op32 op (d * 2 ^ 7 + sb * 2 ^ 14 + vi * 2 ^ 19 + w * 2 ^ 25 + la * 2 ^ 28)
/-- The fields of the X layouts with a sel (R36). -/
def fmtX (op la sel f4 f2 f1 : Nat) : Nat :=
  op32 op (f1 * 2 ^ 7 + f2 * 2 ^ 14 + f4 * 2 ^ 21 + sel * 2 ^ 25 + la * 2 ^ 28)
/-- The fields of format K. -/
def fmtK (fn d a b s : Nat) : Nat :=
  op32 0x15 (d * 2 ^ 7 + a * 2 ^ 10 + b * 2 ^ 13 + fn * 2 ^ 16 + s * 2 ^ 19)
/-- The fields of format G. -/
def fmtG (op fn5 body : Nat) : Nat := op32 op (fn5 * 2 ^ 7 + body * 2 ^ 12)
/-- The 16-bit word of Table 1.5. -/
def fmt16 (op4 : Nat) (s : Bool) (v d : Nat) : Nat := 2 * op4 + d * 2 ^ 5 + v * 2 ^ 10 + s.toNat * 2 ^ 15
/-- The mod field of a conversion (R32). -/
def cvtMod (s : Bool) (r : Rm) : Nat := 4 * s.toNat + r.code

/-- The length in bytes and the word of an instruction that has an encoding. -/
def encode : Instr → Option (Nat × Nat)
  | .add d a b => some (4, fmtA 0x01 0 d a b)
  | .sub d a b => some (4, fmtA 0x01 1 d a b)
  | .mul d a b => some (4, fmtA 0x01 2 d a b)
  | .mulhiI32 d a b => some (4, fmtA 0x01 3 d a b)
  | .mulhiN32 d a b => some (4, fmtA 0x01 4 d a b)
  | .and d a b => some (4, fmtA 0x01 5 d a b)
  | .or d a b => some (4, fmtA 0x01 6 d a b)
  | .xor d a b => some (4, fmtA 0x01 7 d a b)
  | .andn d a b => some (4, fmtA 0x01 8 d a b)
  | .shl d a b => some (4, fmtA 0x01 9 d a b)
  | .shr d a b => some (4, fmtA 0x01 10 d a b)
  | .sra d a b => some (4, fmtA 0x01 11 d a b)
  | .minI32 d a b => some (4, fmtA 0x01 12 d a b)
  | .maxI32 d a b => some (4, fmtA 0x01 13 d a b)
  | .minN32 d a b => some (4, fmtA 0x01 14 d a b)
  | .maxN32 d a b => some (4, fmtA 0x01 15 d a b)
  | .clz d a => some (4, fmtA 0x02 0 d a 0)
  | .popc d a => some (4, fmtA 0x02 1 d a 0)
  | .brev d a => some (4, fmtA 0x02 2 d a 0)
  | .abs d a => some (4, fmtA 0x02 3 d a 0)
  | .add64 d a b => some (4, fmtA 0x02 4 d a b)
  | .sub64 d a b => some (4, fmtA 0x02 5 d a b)
  | .shl64 d a b => some (4, fmtA 0x02 6 d a b)
  | .shr64 d a b => some (4, fmtA 0x02 7 d a b)
  | .min64I d a b => some (4, fmtA 0x02 8 d a b)
  | .max64I d a b => some (4, fmtA 0x02 9 d a b)
  | .min64N d a b => some (4, fmtA 0x02 10 d a b)
  | .max64N d a b => some (4, fmtA 0x02 11 d a b)
  | .mad d a b c => some (4, fmtA 0x03 c d a b)
  | .addi d a i => some (4, op32 0x04 (d * 2 ^ 7 + a * 2 ^ 14 + toField 11 i * 2 ^ 21))
  | .andi d a i => some (4, op32 0x05 (d * 2 ^ 7 + a * 2 ^ 14 + toField 11 i * 2 ^ 21))
  | .ori d a i => some (4, op32 0x06 (d * 2 ^ 7 + a * 2 ^ 14 + toField 11 i * 2 ^ 21))
  | .xori d a i => some (4, op32 0x07 (d * 2 ^ 7 + a * 2 ^ 14 + toField 11 i * 2 ^ 21))
  | .shi k d a n => some (4, op32 0x08 (d * 2 ^ 7 + a * 2 ^ 14 + n * 2 ^ 21 + k.code * 2 ^ 26))
  | .bfeN d a b => some (4, fmtA 0x09 0 d a b)
  | .bfeI d a b => some (4, fmtA 0x09 1 d a b)
  | .bfi d a b => some (4, fmtA 0x09 2 d a b)
  | .perm d a b => some (4, fmtA 0x09 3 d a b)
  | .sel m d a b => some (4, fmtA 0x09 (8 + m) d a b)
  | .icmp c m a b => some (4, fmtA 0x0A c.code m a b)
  | .icmp64 c m a b => some (4, fmtA 0x0A c.code (8 + m) a b)
  | .movi d i => some (4, op32 0x0B (d * 2 ^ 7 + toField 18 i * 2 ^ 14))
  | .movh d i => some (4, op32 0x0C (d * 2 ^ 7 + i * 2 ^ 16))
  | .fadd d a b => some (4, fmtA 0x0D 0 d a b)
  | .fsub d a b => some (4, fmtA 0x0D 1 d a b)
  | .fmul d a b => some (4, fmtA 0x0D 2 d a b)
  | .fmin d a b => some (4, fmtA 0x0D 3 d a b)
  | .fmax d a b => some (4, fmtA 0x0D 4 d a b)
  | .fcopysign d a b => some (4, fmtA 0x0D 5 d a b)
  | .fldexp d a b => some (4, fmtA 0x0D 6 d a b)
  | .fadd2 d a b => some (4, fmtA 0x0D 7 d a b)
  | .fmul2 d a b => some (4, fmtA 0x0D 8 d a b)
  | .fdot2 d a b => some (4, fmtA 0x0D 9 d a b)
  | .ffma d a b c => some (4, fmtA 0x0E c d a b)
  | .ffma2 d a b c => some (4, fmtA 0x0F c d a b)
  | .fcmp c m a b => some (4, fmtA 0x10 c.code m a b)
  | .frcp la d a => some (4, fmtL 0x11 la 0 0 a d)
  | .frsq la d a => some (4, fmtL 0x11 la 0 1 a d)
  | .fsqrt la r d a => some (4, fmtL 0x11 la r.code 2 a d)
  | .fexp2 la d a => some (4, fmtL 0x11 la 0 3 a d)
  | .flog2 la d a => some (4, fmtL 0x11 la 0 4 a d)
  | .fsin la d a => some (4, fmtL 0x11 la 0 5 a d)
  | .fcos la d a => some (4, fmtL 0x11 la 0 6 a d)
  | .frnd la r d a => some (4, fmtL 0x11 la r.code 7 a d)
  | .fclass la d a => some (4, fmtL 0x11 la 0 8 a d)
  | .cvtF32I32 la r d a => some (4, fmtL 0x12 la r.code 0 a d)
  | .cvtF32N32 la r d a => some (4, fmtL 0x12 la r.code 1 a d)
  | .cvtI32F32 la s r d a => some (4, fmtL 0x12 la (cvtMod s r) 2 a d)
  | .cvtN32F32 la s r d a => some (4, fmtL 0x12 la (cvtMod s r) 3 a d)
  | .cvtF16F32 la s r d a => some (4, fmtL 0x12 la (cvtMod s r) 4 a d)
  | .cvtBf16F32 la s r d a => some (4, fmtL 0x12 la (cvtMod s r) 5 a d)
  | .cvtF32F16 la d a => some (4, fmtL 0x12 la 0 6 a d)
  | .cvtF32Bf16 la d a => some (4, fmtL 0x12 la 0 7 a d)
  | .cvtF32I64 la r d a => some (4, fmtL 0x12 la r.code 8 a d)
  | .cvtF32N64 la r d a => some (4, fmtL 0x12 la r.code 9 a d)
  | .cvtI64F32 la s r d a => some (4, fmtL 0x12 la (cvtMod s r) 10 a d)
  | .cvtN64F32 la s r d a => some (4, fmtL 0x12 la (cvtMod s r) 11 a d)
  | .cvtI8I32 la s d a => some (4, fmtL 0x12 la (4 * s.toNat) 12 a d)
  | .cvtN8I32 la s d a => some (4, fmtL 0x12 la (4 * s.toNat) 13 a d)
  | .cvtI16I32 la s d a => some (4, fmtL 0x12 la (4 * s.toNat) 14 a d)
  | .cvtN16I32 la s d a => some (4, fmtL 0x12 la (4 * s.toNat) 15 a d)
  | .pack la t d a => some (4, fmtL 0x13 la t.code 0 a d)
  | .unpack la t d a => some (4, fmtL 0x13 la t.code 1 a d)
  | .bfpx la w d a => some (4, fmtL 0x13 la (w - 2) 2 a d)
  | .bfpq la w d a => some (4, fmtL 0x13 la (w - 2) 3 a d)
  | .shfl la d a b => some (4, fmtX 0x14 la 0 b a d)
  | .bcast la d a s => some (4, fmtX 0x14 la 1 s a d)
  | .vote la k d a => some (4, fmtX 0x14 la 2 k.code a d)
  | .redu la o d a => some (4, fmtX 0x14 la 3 o.code a d)
  | .scan la e o d a => some (4, fmtX 0x14 la 4 (8 * e.toNat + o.code) a d)
  | .compact la d a => some (4, fmtX 0x14 la 5 0 a d)
  | .mand d a b => some (4, fmtK 0 d a b 0)
  | .mor d a b => some (4, fmtK 1 d a b 0)
  | .mxor d a b => some (4, fmtK 2 d a b 0)
  | .mnot d a => some (4, fmtK 3 d a 0 0)
  | .mpop s a => some (4, fmtK 4 0 a 0 s)
  | .mfirst s a => some (4, fmtK 5 0 a 0 s)
  | .mset d s => some (4, fmtK 6 d 0 0 s)
  | .mget s a => some (4, fmtK 7 0 a 0 s)
  | .sadd d a b => some (4, fmtS 0x16 0 d a b)
  | .ssub d a b => some (4, fmtS 0x16 1 d a b)
  | .smul d a b => some (4, fmtS 0x16 2 d a b)
  | .sand d a b => some (4, fmtS 0x16 3 d a b)
  | .sor d a b => some (4, fmtS 0x16 4 d a b)
  | .sxor d a b => some (4, fmtS 0x16 5 d a b)
  | .sshl d a b => some (4, fmtS 0x16 6 d a b)
  | .sshr d a b => some (4, fmtS 0x16 7 d a b)
  | .ssra d a b => some (4, fmtS 0x16 8 d a b)
  | .smin d a b => some (4, fmtS 0x16 9 d a b)
  | .smax d a b => some (4, fmtS 0x16 10 d a b)
  | .smov d a => some (4, fmtS 0x16 11 d a 0)
  | .saddi d a i => some (4, op32 0x17 (d * 2 ^ 7 + a * 2 ^ 13 + toField 13 i * 2 ^ 19))
  | .smovi d i => some (4, op32 0x18 (d * 2 ^ 7 + toField 19 i * 2 ^ 13))
  | .scmp c m a b => some (4, fmtS 0x19 c.code m a b)
  | .ldP la w vi sb d => some (4, fmtM 0x1A la w.code vi sb d)
  | .ldC la w vi sb d => some (4, fmtM 0x1B la w.code vi sb d)
  | .ldK la w vi sb d => some (4, fmtM 0x1C la w.code vi sb d)
  | .ldX la w vi sb d => some (4, fmtM 0x1D la w.code vi sb d)
  | .ldG la w vi sb d => some (4, fmtM 0x1E la w.code vi sb d)
  | .stP la w vi sb d => some (4, fmtM 0x1F la w.code vi sb d)
  | .stC la w vi sb d => some (4, fmtM 0x20 la w.code vi sb d)
  | .stK la w vi sb d => some (4, fmtM 0x21 la w.code vi sb d)
  | .stX la w vi sb d => some (4, fmtM 0x22 la w.code vi sb d)
  | .stG la w vi sb d => some (4, fmtM 0x23 la w.code vi sb d)
  | .ldu la sp h w a d =>
    some (4, op32 0x24 (d * 2 ^ 7 + a * 2 ^ 14 + w.code * 2 ^ 20 + h.code * 2 ^ 24 + sp.code * 2 ^ 26 + la * 2 ^ 28))
  | .stu la sp h w a d =>
    some (4, op32 0x24 (d * 2 ^ 7 + a * 2 ^ 14 + w.code * 2 ^ 20 + 2 ^ 23 + h.code * 2 ^ 24 + sp.code * 2 ^ 26
      + la * 2 ^ 28))
  | .atom la o sp op a d =>
    some (4, op32 0x25 (d * 2 ^ 7 + a * 2 ^ 12 + op.code * 2 ^ 17 + sp.code * 2 ^ 21 + o.code * 2 ^ 23 + la * 2 ^ 28))
  | .cas la o sp wide a d =>
    some (4, op32 0x26 (d * 2 ^ 7 + a * 2 ^ 12 + wide.toNat * 2 ^ 17 + sp.code * 2 ^ 21 + o.code * 2 ^ 23
      + la * 2 ^ 28))
  | .gsadd la a v => some (4, fmtX 0x28 la 0 0 a v)
  | .gsflush la => some (4, fmtX 0x28 la 1 0 0 0)
  | .fence la o => some (4, op32 0x29 (o.code * 2 ^ 7 + la * 2 ^ 28))
  | .pf la l1 h a => some (4, fmtX 0x2A la 0 (4 * l1.toNat + h.code) a 0)
  | .cinv la r a => some (4, fmtX 0x2A la 1 r.toNat a 0)
  | .cwb la a => some (4, fmtX 0x2A la 2 0 a 0)
  | .stash la e k s v => some (4, fmtX 0x2A la 3 (4 * e.toNat + k.code) s v)
  | .cpy la b d s => some (4, fmtX 0x2B la 0 b d s)
  | .cpyq la b d => some (4, fmtX 0x2C la 0 b 0 d)
  | .pub la s => some (4, fmtX 0x2C la 1 0 s 0)
  | .bcbini la b s => some (4, fmtX 0x2C la 2 b s 0)
  | .bcbexp la b s => some (4, fmtX 0x2C la 3 b s 0)
  | .bcbwait la b => some (4, fmtX 0x2C la 4 b 0 0)
  | .mma la kp sf bsrc h vi =>
    some (4, op32 0x2D (vi * 2 ^ 7 + h * 2 ^ 14 + bsrc.toNat * 2 ^ 17 + sf * 2 ^ 18 + kp * 2 ^ 24 + la * 2 ^ 28))
  | .acqa la h s => some (4, fmtX 0x2E la 0 0 h s)
  | .rela la h => some (4, fmtX 0x2E la 1 0 h 0)
  | .azero la h => some (4, fmtX 0x2E la 2 0 h 0)
  | .aload la h s => some (4, fmtX 0x2E la 3 0 h s)
  | .astore la h s => some (4, fmtX 0x2E la 4 0 h s)
  | .anorm la h => some (4, fmtX 0x2E la 5 0 h 0)
  | .ahead la h d => some (4, fmtX 0x2E la 6 0 h d)
  | .mwait la h => some (4, fmtX 0x2E la 7 0 h 0)
  | .rast la s a d => some (4, fmtX 0x2F la 0 s a d)
  | .radj la a d => some (4, fmtX 0x2F la 1 0 a d)
  | .esamp la s a d => some (4, fmtX 0x2F la 2 s a d)
  | .tex la s a d => some (4, fmtX 0x30 la 0 s a d)
  | .texadj la s a d => some (4, fmtX 0x30 la 1 s a d)
  | .trace la s a d => some (4, fmtX 0x30 la 2 s a d)
  | .tradj la s a d => some (4, fmtX 0x30 la 3 s a d)
  | .tapeRec la a => some (4, fmtX 0x31 la 0 0 a 0)
  | .tapePop la d => some (4, fmtX 0x31 la 1 0 0 d)
  | .tapeMark la r s => some (4, fmtX 0x31 la 2 r.toNat s 0)
  | .tapeSeal la => some (4, fmtX 0x31 la 3 0 0 0)
  | .tapeStat la d => some (4, fmtX 0x31 la 4 0 0 d)
  | .upd la s => some (4, fmtX 0x32 la 0 0 s 0)
  | .col la sync arr s => some (4, fmtX 0x32 la 1 (sync.toNat + 2 * arr.toNat) s 0)
  | .colw la s => some (4, fmtX 0x32 la 2 0 s 0)
  | .wmreg la g s => some (4, fmtX 0x32 la 3 g s 0)
  | .wmread la g d => some (4, fmtX 0x32 la 4 g 0 d)
  | .wmchk la g d => some (4, fmtX 0x32 la 5 g 0 d)
  | .br o => some (4, op32 0x33 (toField 25 o * 2 ^ 7))
  | .call o => some (4, op32 0x34 (toField 25 o * 2 ^ 7))
  | .brc o n m => some (4, op32 0x35 (m * 2 ^ 7 + n.toNat * 2 ^ 10 + toField 21 o * 2 ^ 11))
  | .brx o v => some (4, fmtG 0x36 0 (v + toField 13 o * 2 ^ 7))
  | .callx o v => some (4, fmtG 0x36 1 (v + toField 13 o * 2 ^ 7))
  | .ret r => some (4, fmtG 0x36 2 r)
  | .convat o => some (4, fmtG 0x36 3 (toField 20 o))
  | .conv => some (4, fmtG 0x36 4 0)
  | .demote => some (4, fmtG 0x36 5 0)
  | .exit => some (4, fmtG 0x36 6 0)
  | .nop => some (4, fmtG 0x36 7 0)
  | .yield => some (4, fmtG 0x36 8 0)
  | .trap n => some (4, fmtG 0x36 9 n)
  | .bkpt tag => some (4, fmtG 0x36 10 tag)
  | .bar i => some (4, fmtG 0x37 0 i)
  | .barc s i => some (4, fmtG 0x37 1 (i + s * 2 ^ 4))
  | .lclk s => some (4, fmtG 0x37 2 s)
  | .lsync => some (4, fmtG 0x37 3 0)
  | .fork s => some (4, fmtG 0x38 0 s)
  | .join s => some (4, fmtG 0x38 1 s)
  | .spawn s => some (4, fmtG 0x38 2 s)
  | .mbox b s => some (4, fmtG 0x38 3 (s + b * 2 ^ 6))
  | .fget s d => some (4, fmtG 0x38 4 (d + s * 2 ^ 7))
  | .fput s d => some (4, fmtG 0x38 5 (d + s * 2 ^ 7))
  | .cancel s v => some (4, fmtG 0x38 6 (v.code + s * 2 ^ 2))
  | .cwait b s => some (4, fmtG 0x38 7 (s + b * 2 ^ 6))
  | .getc k r i => some (4, fmtG 0x39 0 (i + r * 2 ^ 12 + k.toNat * 2 ^ 19))
  | .setc k r i => some (4, fmtG 0x39 1 (i + r * 2 ^ 12 + k.toNat * 2 ^ 19))
  | .tret => some (4, fmtG 0x39 2 0)
  | .rinj s => some (4, fmtG 0x39 3 s)
  | .tlbinv e s => some (4, fmtG 0x39 4 (s + e.code * 2 ^ 6))
  | .wfe => some (4, fmtG 0x39 5 0)
  | .evsig c s => some (4, fmtG 0x39 6 (s + c * 2 ^ 6))
  | .mov16 s v d => some (2, fmt16 0 s v d)
  | .add16 s v d => some (2, fmt16 1 s v d)
  | .sub16 s v d => some (2, fmt16 2 s v d)
  | .and16 s v d => some (2, fmt16 3 s v d)
  | .or16 s v d => some (2, fmt16 4 s v d)
  | .xor16 s v d => some (2, fmt16 5 s v d)
  | .shl16 s v d => some (2, fmt16 6 s v d)
  | .shr16 s v d => some (2, fmt16 7 s v d)
  | .sra16 s v d => some (2, fmt16 8 s v d)
  | .minI3216 s v d => some (2, fmt16 9 s v d)
  | .maxI3216 s v d => some (2, fmt16 10 s v d)
  | .fadd16 s v d => some (2, fmt16 11 s v d)
  | .fsub16 s v d => some (2, fmt16 12 s v d)
  | .fmul16 s v d => some (2, fmt16 13 s v d)
  | .fmin16 s v d => some (2, fmt16 14 s v d)
  | .fmax16 s v d => some (2, fmt16 15 s v d)
  | .fetchFault | .runAheadEnd | .faultBatchWrite _ | .resolve _ _ | .copyDelivery _ | .copyFault _ _ | .copyStop _
  | .publishPoint _ | .frameRelease _ | .tileEntryGrant _ | .mmaStep _ | .arbiterAging _ | .effprioRise _ _
  | .starvationSwap | .scatterContribution _ | .lineClose _ | .epochClose _ | .updateCommandStart _
  | .updateCommandComplete _ | .updateCommandStop _ _ | .collectiveMessage _ _ _ | .collectiveComplete _
  | .collectiveStop _ _ | .launchAccept _ | .groupStart _ | .taskStart _ | .stealRequest _ | .groupRetire _
  | .retirementMessage _ _ | .launchComplete _ | .phaseAdvance _ | .preempt _ | .groupRestore _
  | .takeInjectedCause | .wfeTimeout | .peerRead _ _ _ | .peerWrite _ _ _ | .peerAtomic _ _ _ _ _ _
  | .remoteEnqueue _ _ _ | .peerErrorResponse _ _ | .peerTimeout _ | .hostFault _ | .qtail _ _ | .queueLaunch _
  | .mailboxPost _ | .queueMarker _ | .faultsvc _ | .peertmo _ | .inwin _ | .gateopen _ | .pkgid _ | .bar2Read _ _
  | .bar2Write _ _ | .bar0RegisterWrite _ _ _ | .rst _ | .go | .signatureComplete | .coldReset _
  | .fundamentalReset _ | .clockStepDown | .clockStepUp | .thermalFence | .dieFence _ | .portDegrade _ | .powerLoss
  | .uncorrectableLogicError _ => none

/-- The bytes of a well-formed instruction, lowest address first; nothing for a step without an encoding. -/
def encodeBytes (i : Instr) : List Byte :=
  match encode i with
  | some (n, w) => wordBytes n w
  | none => []

end Sys2Proof
end

