-- ==== Sys2Proof/Config.lean ====
section
/-! DEFINITION. What the part fixes once and the free values: constants without a body that stand for every value the
manual leaves open. -/
namespace Sys2Proof.Config

/-- A word the manual leaves unspecified, by the State's free-value counter at the moment it came about and a position
within that moment (log 1). -/
opaque freeWord : Nat → Nat → Word

/-- A byte the manual leaves unspecified, in the same form (log 1). -/
opaque freeByte : Nat → Nat → Byte

/-- A choice the manual leaves open, as a number (log 1). -/
opaque freeNat : Nat → Nat → Nat

/-- A signature the Afsol controller makes with the module's key: message, leaf index and byte position (R398, R400,
log 1). -/
opaque signature : List Byte → Nat → Nat → Byte

/-- Byte i of the module's public key (R398, log 1). -/
opaque publicKey : Nat → Byte

/-- Bytes that a logged scatter contribution takes beyond its key and its value (R254, log 1). -/
opaque scatterPad : Nat

/-- Which of its die's eight engines carries a copy (R66, R385, log 1). -/
opaque copyEngine : Nat → Nat

/-- The binary32 pattern of a quotient that is no number, by the patterns of its operands: an infinity among them, or a
zero divisor (R231, R233, R264, log 1). -/
opaque openQuotient : Nat → Nat → Nat

/-- Bytes of the pool that the controller reserves for saved groups (R389, log 1). -/
opaque savePool : Nat

/-- The fixed hashes that choose a line's set and slice (R95, log 46): the cache structure, and the line. -/
opaque cacheHash : Nat → Nat → Nat

/-- Which of its die's three HBM4 stacks holds a block of 256 B: the hash is not architected (Table 2.1, log 40). -/
opaque stackHash : Nat → Nat

/-- The row of HBM4 that holds a place: the spec gives no organisation of the stacks (R391, log 69). -/
opaque hbmRow : Nat → Nat

/-- Lanes of a wave (Table 0.1). -/
def lanes : Nat := 32

/-- Entries of a wave's two reconvergence stacks together (R310). -/
def stackEntries : Nat := 128

/-- Bytes of a lane's hardware area above its program area: the trap frame and its part of the stack (R372). -/
def hwArea : Nat := 384

/-- The end of HBM4 in the physical map (Table 2.1). -/
def hbmEnd : Nat := 0xC000000000

/-- Bytes of HBM4 on one die (Table 2.1). -/
def hbmDie : Nat := 0x3000000000

/-- Bytes of a die's chip scratchpad (R92). -/
def chipSize : Nat := 0x2000000

/-- First offset of the device region of a chip scratchpad (R93). -/
def deviceRegion : Nat := 0x1E00000

end Sys2Proof.Config
end

