-- ==== Sys2Proof/Machine/State.lean ====
section
/-! DEFINITION. The state of the part as plain data: memories, waves and their slots, groups, launches, engines, host and
fabric interfaces, and the model's own agenda. -/
namespace Sys2Proof.Machine

/-- One value for each of a wave's 32 lanes (R11). -/
abbrev Lanes := List Word

/-- The storages of the part and of its surroundings, each with addresses of its own (R47, R88, R277). -/
inductive Area where
  /-- HBM4, by physical address (Table 2.1). -/
  | hbm
  /-- The chip scratchpads: die × 2^25 + offset (R92). -/
  | chip
  /-- Core scratchpads: (group × 4 + within-cluster core) × 2^19 + offset (R90). -/
  | core
  /-- Cluster-shared windows: (group × 4 + core of the cluster) × 2^18 + offset in the part that the core lends (R91). -/
  | window
  /-- Lane-private windows: (wave × 32 + lane) × 2^13 + offset (R89). -/
  | lane
  /-- The host's memory, by host bus address. -/
  | host
  /-- The L2's copy of a host line, by host bus address, meaningful while the line is held (R277). -/
  | l2
  /-- The peers' memories: peer × 2^52 + physical address. -/
  | peer
  deriving DecidableEq, Repr

/-- A byte's place. -/
structure Loc where
  area : Area
  addr : Nat
  deriving DecidableEq, Repr

/-- A register that an instruction names (R26). -/
inductive RegId where
  | v (n : Nat)
  | s (n : Nat)
  | m (n : Nat)
  | a (n : Nat)
  deriving DecidableEq, Repr

/-- An open lookahead window (R26): the instructions it still covers, and what its instruction reads and writes. -/
structure Window where
  left : Nat
  reads : List RegId
  writes : List RegId
  deriving DecidableEq, Repr

/-- The registers banked per slot (R13), with the latch of R19 and the monitored block of R380, which follow them. -/
structure Bank where
  /-- `s0` to `s63`; the first element stays 0 (R12). -/
  sregs : Vector Word 64
  /-- `m0` to `m7`; the first element is not used, the slot's active mask stands for it (R12). -/
  mregs : Vector Word 8
  fpmode : Word
  /-- The low index of the pair whose high word is latched, and that word (R19). -/
  latch : Option (Nat × Word)
  /-- The space and the place of the 128-B block of the slot's latest `ldu` (R380). -/
  monitor : Option Loc
  /-- Bad 8-B granules of scalars and masks, by the lower register of each (R97, log 49). -/
  bad : List RegId
  deriving DecidableEq, Repr

/-- The operands of an engine-bound instruction in the slot's staging area (R373): the registers as they stood at its
issue, from which it reads its blocks. -/
structure Staged where
  vregs : List (Nat × Lanes)
  sregs : Vector Word 64
  handles : Vector (Option Nat) 8
  deriving DecidableEq, Repr

/-- A long-latency instruction that has issued and not completed, with the source values it captured (R373). -/
structure Flight where
  /-- Serial number.  MODEL. -/
  id : Nat
  instr : Instr
  pc : Nat
  mask : Word
  vecs : List (Nat × Lanes)
  scals : List (Nat × Word)
  /-- Mask registers that it reads. -/
  masks : List (Nat × Word)
  /-- HELPER at its issue (R329). -/
  helper : Word
  /-- Descriptor words that it captured (R72, R211). -/
  words : Option (List Nat)
  /-- Its operands, if it is engine-bound. -/
  staged : Option Staged
  /-- Instructions the slot may still issue before this one holds it. -/
  left : Nat
  /-- It is a wait that was attempted and did not end (R85, R191, R307). -/
  waits : Bool
  /-- It is the secondary slot's part of a wait that stood unfinished at a split, which retires in the primary (R28). -/
  copied : Bool := false
  deriving DecidableEq, Repr

/-- A replay entry: the registers RQk_W to RQk_Sj of Table 16.3, and what the hardware keeps to check it (R376). -/
structure RqEntry where
  word : Word
  pclo : Word
  pchi : Word
  mask : Word
  scals : Vector Word 6
  orig : Option Flight
  deriving DecidableEq, Repr

/-- Table 16.3's registers of a slot's latest trap, apart from the replay entries. -/
structure TrapRegs where
  /-- TCAUSE (Table 16.4). -/
  cause : Word
  pc : Nat
  mask : Word
  act : Word
  addr : DWord
  info : DWord
  /-- DEPTH at entry (R375). -/
  depth : Nat
  /-- The slot was split off inside the handler (R375). -/
  splitOff : Bool
  deriving DecidableEq, Repr

/-- A cause whose trap entry waits for work of the slot to complete (R370, R373): what it writes in the trap registers, lane
by lane, and TPC. -/
structure PendTrap where
  cause : Nat
  mask : Option Word
  laddr : List DWord
  info : DWord
  impr : Bool
  next : Nat
  deriving DecidableEq, Repr

/-- A page of a fault batch (R59): its address space, its number, and the kind of the strongest access. -/
structure FaultPage where
  asn : Nat
  root : Nat
  page : Nat
  kind : Nat
  cluster : Nat
  deriving DecidableEq, Repr

/-- A slot running ahead (R60): its checkpoint, the poisoned registers, the instructions run and the pages found. -/
structure RunAhead where
  pc : Nat
  m0 : Word
  bank : Bank
  cj : Option Nat
  gc : Nat
  windows : List Window
  vregs : List (Nat × Lanes)
  poisonV : List (Nat × Word)
  poisonS : List Nat
  poisonM : List (Nat × Word)
  count : Nat
  pages : List FaultPage
  deriving DecidableEq, Repr

/-- STATE of Table 14.1. -/
inductive SlotStatus where
  | running
  /-- Waiting at the `conv` at this address. -/
  | waiting (conv : Nat)
  /-- Parked on a SPLIT entry (R316). -/
  | parked
  deriving DecidableEq, Repr

/-- The barrier a slot has issued and waits at (R366). -/
inductive BarWait where
  | none
  | bar (id : Nat)
  | barc (id count : Nat)
  deriving DecidableEq, Repr

/-- An imprecise cause of a store, not yet raised (R382). -/
structure StoreFault where
  cause : Nat
  addr : DWord
  pc : Nat
  info : DWord
  deriving DecidableEq, Repr

/-- A slot of a wave (Table 14.1, Table 16.3). -/
structure Slot where
  live : Bool
  pc : Nat
  m0 : Word
  bank : Bank
  cj : Option Nat
  gc : Nat
  depth : Nat
  status : SlotStatus
  barWait : BarWait
  windows : List Window
  flights : List Flight
  trap : TrapRegs
  rq : Vector RqEntry 16
  /-- FUTADDR (Table 15.2). -/
  futaddr : DWord
  /-- The GTS at which a `wfe` that the slot sleeps in ends (R380). -/
  wfe : Option Nat
  /-- The batches, die and id, that the slot sleeps on (R60). -/
  sleep : List (Nat × Nat)
  /-- Pages found missing and not yet written to a batch (R59). -/
  missing : List FaultPage
  /-- Pages on which a fault is now a precise trap, as software declined them (R63). -/
  declined : List FaultPage
  ra : Option RunAhead
  imprecise : List StoreFault
  /-- Collectives issued and not yet waited for: descriptor address and collective (R307). -/
  colls : List (Nat × Nat)
  /-- Waiting count (R352). -/
  waited : Nat
  /-- When the pair became urgent (R352). -/
  urgent : Option Nat
  /-- The last issue of the slot was a `yield` (R331). -/
  yielded : Bool
  /-- GTS of the slot's last issue (R331, R352). -/
  issuedAt : Nat
  /-- The last attempt to issue waited. -/
  stalled : Bool
  /-- Record and descriptor words that the instruction in hand captured: a stalled `cpy`, or an instruction that completes
  late (R72, R211, R373). -/
  staging : Option (List Nat)
  /-- The slot has woken from a page fault and completes its replay queue before it goes on (R63). -/
  replaying : Bool
  /-- A `tlbinv` that waits for these stores, which went through the entries that it removed (R65). -/
  tlbWait : Option (List Nat)
  /-- The cause with which the slot enters its handler once the work that entry waits for is over (R373). -/
  entering : Option PendTrap
  deriving DecidableEq, Repr

/-- The 32-B header of a folio (Table 10.2). -/
structure Folio where
  entry : DWord
  wset : DWord
  scale : DWord
  regen : Bool
  rcmp : Bool
  pseq : Nat
  deriving DecidableEq, Repr

/-- An item of a tape (Table 10.1). -/
inductive TapeItem where
  | data (reg : Nat) (mask : Word) (vals : List Word)
  | opening (f : Folio)
  | marker (dropb dropr : Nat)
  deriving DecidableEq, Repr

/-- A wave's tape (R234), the top first. -/
structure Tape where
  /-- Items held in the quire, newest first. -/
  quire : List TapeItem
  /-- Items in the tape area, newest first. -/
  area : List TapeItem
  /-- A folio is open. -/
  isOpen : Bool
  /-- Regeneration mode (R248). -/
  regen : Bool
  /-- The version view (R244). -/
  view : Option (Nat × Nat)
  tscale : DWord
  /-- What the open folio's latest record of each register represents (R237). -/
  base : List (Nat × Lanes)
  /-- The program has written to the tape area (R235). -/
  spoiled : Bool
  /-- Items of the quire with a bad granule, by their places from its bottom (R97, log 72). -/
  badItems : List Nat
  deriving DecidableEq, Repr

/-- Places that the tape area of an ended wave took up on one page: their first one and how many, and those written since.  What
the others hold is unspecified to loads (R235, R412). -/
structure OldTape where
  start : Loc
  size : Nat
  again : List Loc
  deriving DecidableEq, Repr

/-- A wave (R11, R309, Table 1.3).  `cur` is the slot that issues or issued last, `sib` the other one. -/
structure Wave where
  wid : Nat
  gid : Nat
  lid : Nat
  waveid : Nat
  core : Nat
  /-- The wave has started and has not ended. -/
  live : Bool
  /-- The wave is on a core, not saved (R389). -/
  onCore : Bool
  cur : Slot
  sib : Slot
  /-- The slot `cur` is the secondary one. -/
  curSec : Bool
  /-- Vector registers that have been written; the others hold free values (R14). -/
  vregs : List (Nat × Lanes)
  /-- The free-value counter at the wave's start. -/
  fill : Nat
  /-- Vector register budget B (R14). -/
  budget : Nat
  /-- Bytes of a lane's program area P (R89). -/
  priv : Nat
  /-- The tiles the handles `a0` to `a7` name (R171). -/
  handles : Vector (Option Nat) 8
  exited : Word
  helper : Word
  /-- The lanes the wave started with. -/
  started : Word
  /-- The lanes that the last split gave to the secondary slot (R309, R312). -/
  secLanes : Word
  lclock : Nat
  sguard : Word
  trapvec : Nat
  mxstat : Word
  rstat : Word
  evpend : Word
  /-- For each pending injected cause, the issuer's TINFO word (Table 16.6). -/
  evfrom : List (Nat × DWord)
  gsseq : Vector Nat 32
  epoch : Nat
  tape : Tape
  /-- Cycle at which the wave became resident (R352). -/
  since : Nat
  prio : Nat
  /-- The chain value as of the wave's latest `fence` at `.dev` or wider (R357). -/
  chain : Nat
  /-- Bad 8-B granules of the vector registers: the register, and the lower of the granule's two lanes (R97, log 49). -/
  badRegs : List (Nat × Nat)
  deriving DecidableEq, Repr

/-- A fault record of a byte-counting barrier or of a tile (R75, R171). -/
structure FaultRec where
  cause : Nat
  pc : Nat
  addr : DWord
  wid : Nat
  /-- The engine that met it (Table 16.8). -/
  src : Nat
  deriving DecidableEq, Repr

/-- A byte-counting barrier (R75). -/
structure Bcb where
  pend : Int
  fault : Option FaultRec
  deriving DecidableEq, Repr

/-- A counted barrier of `barc`: the count of the round and the waves that arrived (R366). -/
structure Barc where
  count : Nat
  arrived : List Nat
  deriving DecidableEq, Repr

/-- A fragment wave that a rasteriser emitted: the primitive's id, the wave's number k, USER, the primitive's fragment
count, and the pixel and barycentrics of each lane (R219, R220). -/
structure Frag where
  prim : Nat
  k : Nat
  user : Word
  count : Nat
  lanes : List (Word × Word × Word × Word)
  /-- Serial number.  MODEL. -/
  made : Nat
  deriving DecidableEq, Repr

/-- A captured task record (Table 15.3). -/
structure TaskRec where
  code : Nat
  frame : DWord
  joinc : Nat
  lid : Nat
  arg : DWord
  key : Nat
  prio : Nat
  isGroup : Bool
  n : Nat
  /-- A mailbox post (R349). -/
  posted : Bool
  /-- Serial number.  MODEL. -/
  made : Nat
  deriving DecidableEq, Repr

/-- A group, a cluster group, or a task running as a group (R4, R334, R346). -/
structure Group where
  gid : Nat
  lid : Nat
  lin : Nat
  gx : Nat
  gy : Nat
  gz : Nat
  /-- Dealt over the four cores of a cluster (R90). -/
  isCluster : Bool
  /-- The core, or core 0 of the cluster. -/
  core : Nat
  waves : Nat
  role : Nat
  roleGrp : Nat
  /-- The first group of the gang instance it belongs to, or itself. -/
  inst : Nat
  /-- The task record that started it. -/
  task : Option TaskRec
  prio : Nat
  bcbs : Vector Bcb 16
  /-- Resident on its core. -/
  onCore : Bool
  since : Nat
  /-- The order in which it was evicted. -/
  evicted : Nat
  /-- What the rasteriser gave a fragment wave's group. -/
  frag : Option Frag
  deriving DecidableEq, Repr

/-- A captured launch record (Table 15.1). -/
structure LaunchRec where
  code : Nat
  trapvec : Nat
  futhandler : Nat
  args : DWord
  root : Nat
  asn : Nat
  shpool : Nat
  tapebase : Nat
  scatsize : Nat
  tapesize : Nat
  scatbase : Nat
  gx : Nat
  gy : Nat
  gz : Nat
  mboxen : Bool
  mboxnum : Nat
  priv : Nat
  quire : Nat
  scratch : Nat
  cluster : Nat
  jobid : Nat
  wchk : Bool
  sys : Bool
  idem : Bool
  det : Bool
  gang : Bool
  ndep : Nat
  prio : Nat
  budget : Nat
  waves : Nat
  phase : Nat
  mboxaddr : Nat
  wcbase : Nat
  deps : List (Int × Int × Int)
  compl : Nat
  graphc : Nat
  phasec : Nat
  jobc : Nat
  /-- Entry address, budget and groups per instance of each role. -/
  roles : List (Nat × Nat × Nat)
  deriving DecidableEq, Repr

/-- The host queue entry, if any, that a launch or submission answers to (R289). -/
structure QOrigin where
  q : Nat
  compl : Nat
  irq : Bool
  vec : Nat
  /-- The entry's place in its queue, for markers. -/
  seq : Nat
  deriving DecidableEq, Repr

/-- An active launch, or one that completes (R333 to R345). -/
structure Launch where
  lid : Nat
  /-- LAUNCHID: the record's virtual address. -/
  ref : Nat
  attr : LaunchRec
  origin : Option QOrigin
  /-- The queue whose chain the launch belongs to (R357). -/
  queue : Option Nat
  /-- The package that sent the record, for a remote enqueue (R361). -/
  remote : Option Nat
  cancelled : Bool
  fault : Option Nat
  gsdone : Nat
  /-- The highest epoch count any wave has reached (R251). -/
  topEpoch : Nat
  /-- Groups of the grid; instances times groups of an instance for a gang, 0 for a fragment launch (R216, R335). -/
  total : Nat
  /-- Fragment waves that have not started (R221). -/
  frags : List Frag
  isFrag : Bool
  /-- Unstarted chunks and their die (R339). -/
  chunks : List (Nat × Nat)
  /-- Groups of started chunks that have not started: die and linear index. -/
  waiting : List (Nat × Nat)
  /-- Linear indices of retired groups at or above FRONT. -/
  retired : List Nat
  front : Nat
  /-- Retirements known by message on other dies (R344): die and linear index. -/
  told : List (Nat × Nat)
  /-- Kills per linear index (R98). -/
  kills : List (Nat × Nat)
  /-- Tasks queued or running. -/
  tasks : Nat
  /-- Mailbox posts so far (R349). -/
  posts : Nat
  /-- Lines of TYPE 0 pages its agents wrote: virtual line, physical line (R357). -/
  wrote : List (Nat × Nat)
  /-- Writers of a line of the L2 in the open window: its first byte and the group (R356), numbered by `writerOf`. -/
  writers : List (Loc × Nat)
  window : Nat
  deriving DecidableEq, Repr

/-- A captured tensor record (Table 3.1). -/
structure TRec where
  base : Int
  tcount : Nat
  stepdim : Nat
  shd : Bool
  space : Nat
  esize : Nat
  rank : Nat
  dim : List Nat
  stride : List Int
  tile : List Nat
  origin : List Nat
  deriving DecidableEq, Repr

/-- A copy in flight (R66 to R79). -/
structure Copy where
  id : Nat
  gid : Nat
  lid : Nat
  wid : Nat
  src : TRec
  dst : TRec
  /-- Virtual address of the destination record, which names its shadow set (R80). -/
  dstAddr : Nat
  b : Nat
  pc : Nat
  cursor : Nat
  core : Nat
  /-- The within-cluster index that places its `.c` bytes (R90). -/
  k : Nat
  /-- Bursts finish and the copy then stops (R78). -/
  stopping : Bool
  /-- The error that stops it (R77). -/
  error : Option (Nat × DWord)
  /-- The group that issued it, as a writer of lines (R356). -/
  writer : Option Nat
  /-- Writes of doorbell words, with their virtual addresses, held back until the copy completes (R349). -/
  back : List (Nat × Loc × Byte)
  sleep : List (Nat × Nat)
  missing : List FaultPage
  declined : List FaultPage
  deriving DecidableEq, Repr

/-- A page of a shadow set: virtual page, place of its leaf, new frame and old frame (R80). -/
structure ShadowPage where
  asn : Nat
  wset : Nat
  lid : Nat
  gid : Nat
  page : Nat
  leaf : Nat
  frame : Nat
  pool : Nat
  deriving DecidableEq, Repr

/-- A frame that a publish replaced: the counts of its set at which it was visible end at `upto` (R242, R243). -/
structure HeldFrame where
  id : Nat
  asn : Nat
  wset : Nat
  page : Nat
  frame : Nat
  upto : Nat
  pool : Nat
  /-- Discarded without having been visible (R79). -/
  unseen : Bool
  deriving DecidableEq, Repr

/-- A copy into a shadow set that an error stopped: the set, and the barrier that holds its record (R77, R86). -/
structure FailedCopy where
  id : Nat
  asn : Nat
  wset : Nat
  gid : Nat
  b : Nat
  deriving DecidableEq, Repr

/-- A `pub` that waits for its point P (R86). -/
structure PubReq where
  id : Nat
  wid : Nat
  sec : Bool
  asn : Nat
  wset : Nat
  lid : Nat
  published : Bool
  incomplete : Bool
  deriving DecidableEq, Repr

/-- A row of an accumulator tile (Table 8.1). -/
structure Row where
  mant : List Int
  x : Int
  hr : Nat
  empty : Bool
  deriving DecidableEq, Repr

/-- An accumulator tile (R169, R194). -/
structure Tile where
  id : Nat
  lid : Nat
  gid : Nat
  cluster : Nat
  tag : Option Nat
  m : Nat
  n : Nat
  /-- 0 ACC32, 1 ACC48, 2 ACC64. -/
  af : Nat
  rows : List Row
  events : Nat
  fault : Option FaultRec
  holders : List Nat
  /-- It is in a store, not in a save area (R193). -/
  onCluster : Bool
  deriving DecidableEq, Repr

/-- A captured A, B or C format block (Table 7.2). -/
structure FmtBlock where
  fmt : Nat
  blen : Nat
  sbase : Nat
  sel : Nat
  scen : Bool
  space : Nat
  stride : Nat
  deriving DecidableEq, Repr

/-- A captured D format block (Table 7.3). -/
structure DBlock where
  accf : Nat
  ofmt : Nat
  osat : Bool
  oblen : Nat
  nfz : Bool
  evtrap : Bool
  deriving DecidableEq, Repr

/-- The work of a reservation-table entry, with its captured operands. -/
inductive EntryWork where
  | mma (a b : FmtBlock) (d : DBlock) (k baseA baseB : Nat) (trec : Option TRec) (rows : List (Nat × Nat))
      (codesA codesB : List Nat)
  | aload (c : FmtBlock) (base : Int) (space : Nat) (nfz : Bool) (rows : List Nat) (codes : List Nat)
  | azero (rows : List Nat)
  | anorm (rows : List Nat)
  | ahead (d : Nat) (mask : Word)
  | astore (d : DBlock) (base : Int) (space stride : Nat) (expBase : Int) (rows : List Nat)
  | rela
  /-- Marks what an `mwait` waits for; it holds nothing back (R191).  MODEL. -/
  | wait
  deriving DecidableEq, Repr

/-- An entry of the reservation table (R182). -/
structure Entry where
  id : Nat
  tile : Nat
  wid : Nat
  sec : Bool
  gid : Nat
  lid : Nat
  pc : Nat
  core : Nat
  /-- The within-cluster index that places its `.c` operands (R90). -/
  kc : Nat
  work : EntryWork
  /-- GTS at its posting, and the wave's index in its launch, for the order of a cycle's entries (R182). -/
  posted : Nat
  index : Nat
  /-- Priority levels risen by waiting (R183). -/
  rise : Nat
  granted : Bool
  /-- Steps applied so far, in the order of R180. -/
  step : Nat
  /-- An element was admitted as zero (R120). -/
  nfz : Bool
  done : Bool
  view : Option (Nat × Nat)
  sleep : List (Nat × Nat)
  missing : List FaultPage
  declined : List FaultPage
  deriving DecidableEq, Repr

/-- A scatter contribution (R250 to R253). -/
structure Contribution where
  id : Nat
  lid : Nat
  gid : Nat
  epoch : Nat
  key : Nat
  va : Nat
  pa : Nat
  value : Word
  /-- Its line is claimed for its launch and epoch; otherwise it waits for the line. -/
  accepted : Bool
  /-- Where it is held: 0 in its slice's buffer, 1 in its die's log, 2 in the launch's scatter area (R254). -/
  held : Nat
  deriving DecidableEq, Repr

/-- A line claimed by an open epoch: its base values (R253). -/
structure Claim where
  id : Nat
  lid : Nat
  epoch : Nat
  line : Nat
  base : List Word
  deriving DecidableEq, Repr

/-- An update command in a unit's queue (R262). -/
structure UpdCmd where
  id : Nat
  die : Nat
  lid : Nat
  wid : Nat
  w : Nat
  g : Nat
  m : Nat
  v : Nat
  wset : Nat
  done : Nat
  mode : Nat
  count : Nat
  lr : Word
  wd : Word
  beta1 : Word
  beta2 : Word
  eps : Word
  clip : Word
  /-- The first pass has run: the factor s, or the command is skipped. -/
  started : Bool
  step : Option Word
  /-- Elements that the second pass has done. -/
  pos : Nat
  /-- The serial number at which the second pass ended, from which its publish counts as issued (R265). -/
  pubAt : Option Nat
  /-- Something other than the unit has written its arrays (R267). -/
  spoiled : Bool
  sleep : List (Nat × Nat)
  missing : List FaultPage
  declined : List FaultPage
  deriving DecidableEq, Repr

/-- A collective that this package takes part in (R298 to R302). -/
structure Coll where
  id : Nat
  lid : Nat
  wid : Nat
  gid : Nat
  die : Nat
  job : Nat
  asn : Nat
  root : Nat
  comm : Nat
  seq : Nat
  params : ColParams
  src : Nat
  dst : Nat
  done : Nat
  /-- Contributions that reached the root, in the order of arrival, with the participant's watermarks. -/
  got : List (ColParams × List Word × List (Option Nat))
  /-- The root's decision. -/
  decision : Option ColMsg
  /-- Its contribution has been formed and sent, with these watermarks (R304). -/
  sent : Bool
  marks : List (Option Nat)
  /-- The serial number at which the watermarks were taken (R304). -/
  sentAt : Nat
  /-- Elements of DST written. -/
  written : Nat
  /-- It has told the root that it has carried out the decision; at the root, the ranks that told so (R302, R307). -/
  told : Bool
  heard : List Nat
  /-- Every participant has carried out the decision. -/
  finish : Bool
  /-- Something other than its engine has written SRC or DST since `col` (R302). -/
  spoiled : Bool
  sleep : List (Nat × Nat)
  missing : List FaultPage
  declined : List FaultPage
  /-- Completed: OUT and cause, and whether this package diverged or the comparison split. -/
  outcome : Option (Nat × Nat × Bool × Bool)
  deriving DecidableEq, Repr

/-- A registered watermark region (R303, R308). -/
structure WmRegion where
  base : Nat
  size : Nat
  key : List Byte
  asn : Nat
  root : Nat
  /-- The `wmchk` word of the last comparison since its registration. -/
  last : Word
  /-- The serial number at its registration. -/
  made : Nat
  deriving DecidableEq, Repr

/-- A TLB entry (R55, R56, R418). -/
structure TlbEntry where
  /-- 0 core, 1 cluster, 2 TWE, 3 copy engines of a die, 4 the mailbox engine's by queue; and the unit's index. -/
  kind : Nat
  unit : Nat
  asn : Nat
  base : Nat
  size : Nat
  pte : Nat
  leafAt : Nat
  /-- The version view it was made under (R244). -/
  view : Option (Nat × Nat)
  deriving DecidableEq, Repr

/-- A table entry in the cache of a cluster's walker (R55): the addresses it covers start at `base`. -/
structure WalkEntry where
  cluster : Nat
  asn : Nat
  level : Nat
  base : Nat
  entry : Nat
  deriving DecidableEq, Repr

/-- Replacement priority of a line (R96). -/
inductive LinePrio where
  | ef | nm | el
  deriving DecidableEq, Repr

/-- A line held in a cache (R95, R96): in the L1 of a core, or in the L2.  `area` tells HBM4 lines from host lines. -/
structure Line where
  /-- The core of an L1 line, or 384 more for a line of its instruction cache; none for the L2. -/
  core : Option Nat
  area : Area
  /-- Address of the line divided by 128. -/
  line : Nat
  prio : LinePrio
  dirty : Bool
  /-- Bytes of a host line of the L2, by their offsets, that the part has written and host memory has not (R112). -/
  own : List Nat
  /-- When it was last used. -/
  used : Nat
  deriving DecidableEq, Repr

/-- A pending batch of the fault service (R58, R59): the pages with their record's ring index, once written. -/
structure Batch where
  die : Nat
  id : Nat
  pages : List (FaultPage × Nat)
  deriving DecidableEq, Repr

/-- A store sent to the host or to a peer that has not been answered (R288, R296). -/
structure Posted where
  id : Nat
  wid : Nat
  sec : Bool
  lid : Nat
  gid : Nat
  core : Nat
  /-- GROUPLIN and WAVEID of its wave (R383). -/
  lin : Nat
  waveid : Nat
  pc : Nat
  /-- The first address of its lane's access, and its bytes; `data` holds those outside the part. -/
  addr : DWord
  size : Nat
  /-- The priority hint of its access to the L2 (R96), and its group as a writer of lines (R356). -/
  hint : Hint
  writer : Option Nat
  data : List (Loc × Byte)
  deriving DecidableEq, Repr

/-- What the device does to a word on its own (R419). -/
inductive DevAct where
  | write (cells : List (Loc × Byte))
  /-- A count changes by d. -/
  | bump (ls : List Loc) (d : Int)
  /-- The interrupt that follows a completion record (R289). -/
  | irq (vec : Nat)
  deriving DecidableEq, Repr

/-- A completion word on its way, with its event's SRC and LAUNCHID and its address (R419). -/
structure DevWord where
  id : Nat
  src : Nat
  lref : Nat
  va : Nat
  act : DevAct
  deriving DecidableEq, Repr

/-- A launch record on its way to the distributors (R333). -/
structure Submission where
  id : Nat
  ref : Nat
  asn : Nat
  root : Nat
  words : List DWord
  origin : Option QOrigin
  queue : Option Nat
  remote : Option Nat
  deriving DecidableEq, Repr

/-- A message that the part has sent to another package (R301, R302, R361). -/
inductive OutMsg where
  /-- A remote enqueue: the target, the record's virtual address, its physical address there and its bytes. -/
  | enqueue (peer ref pa : Nat) (record : List Byte)
  /-- A message of a collective, to the other participants. -/
  | collective (comm seq : Nat) (m : ColMsg)
  deriving DecidableEq, Repr

/-- The registers of a host queue (Table 13.2, R418). -/
structure HostQueue where
  qbase : Nat
  qsize : Nat
  qhead : Nat
  qtail : Nat
  qroot : Nat
  qasn : Nat
  /-- Result chain C (R357). -/
  chain : Nat
  /-- Entries begun and not completed, oldest first. -/
  unfinished : List Nat
  /-- Entries begun so far. -/
  begun : Nat
  /-- The entry at QHEAD waits for its acceptance. -/
  busy : Bool
  deriving DecidableEq, Repr

/-- An inbound window (Table 13.5). -/
structure InWin where
  base : Nat
  size : Nat
  hi : Nat
  lo : Nat
  w : Bool
  rd : Bool
  atm : Bool
  deriving DecidableEq, Repr

/-- The BAR0 attestation block (Table 17.2). -/
structure Attest where
  busy : Bool
  status : Nat
  vstat : Nat
  sel : Nat
  nonce : List Byte
  meas : List Byte
  msg : List Byte
  sig : List Byte
  /-- The chain value and HEALTH taken when the request was accepted. -/
  pendingMsg : List Byte
  nextLeaf : Nat
  deriving DecidableEq, Repr

/-- A move of the agenda: which agent moves next, and what the outside world does.  MODEL. -/
inductive Move where
  /-- A slot issues; with `defer` a long-latency instruction is left unfinished. -/
  | issue (wid : Nat) (sec : Bool) (defer : Bool)
  /-- A step of an engine, of the host, of a peer or of the controller. -/
  | event (i : Instr)
  /-- A step of a slot other than an issue. -/
  | slotEvent (wid : Nat) (sec : Bool) (i : Instr)
  /-- The unfinished instruction k of a slot completes. -/
  | finish (wid : Nat) (sec : Bool) (k : Nat)
  /-- A store sent to the host or a peer is answered. -/
  | answer (id : Nat)
  /-- Time passes. -/
  | tick (ns : Nat)
  /-- A TLB loses an entry. -/
  | dropTlb (k : Nat)
  /-- A walker's cache loses a table entry. -/
  | dropWalk (k : Nat)
  /-- A cache takes the victim of a set, for traffic that this model does not show (R96, log 46). -/
  | evict (core : Option Nat) (set : Nat)
  /-- The host reads n bytes of BAR0 at an offset (Table 13.1). -/
  | bar0Read (off n : Nat)
  /-- The host writes its own memory. -/
  | hostWrite (addr : Nat) (data : List Byte)
  /-- An uncorrectable error marks the granule of this byte bad, or poisoned in HBM4 (R97, R99). -/
  | badGranule (l : Loc)
  /-- An uncorrectable error in a register file: a vector register's lane, or a scalar or mask register of a slot (R98). -/
  | badReg (wid : Nat) (sec : Bool) (r : RegId) (lane : Nat)
  /-- An uncorrectable error in an item of a wave's quire, by its place from the bottom (R97, R234). -/
  | badQuire (wid k : Nat)
  /-- An uncorrectable error in a row of an accumulator tile (R97). -/
  | badTile (id row : Nat)
  /-- An uncorrectable error in a core's L1 copy of a line (R97). -/
  | badCopy (core : Nat) (area : Area) (line : Nat)
  /-- A corrected error on a die (R97). -/
  | corrected (die : Nat)
  deriving DecidableEq, Repr

/-- The state of the part. -/
structure State where
  /-- Time stamp counter, in ns (R1). -/
  gts : Nat
  /-- Core clock, in MHz (R401). -/
  clock : Nat
  /-- Bytes of every storage, by key, in canonical form (Machine.Mem). -/
  mem : List Host.Cell
  /-- Granules marked bad, or poisoned in HBM4, by key of their first byte (R97, R99). -/
  bad : List Nat
  /-- HBM4 rows that have met an uncorrectable error since the last reset (R391, log 69). -/
  badRows : List Nat
  /-- HBM4 rows that repeated one, which the next reset repairs (R391). -/
  repairs : List Nat
  /-- HBM4 stacks that are not backed, stack k of die d being 3 d + k (Table 17.1). -/
  unbacked : List Nat
  /-- Lines in the L1 and L2 caches. -/
  lines : List Line
  tlb : List TlbEntry
  /-- Table entries of levels 0 to 2 in the cluster walkers' caches (R55). -/
  walks : List WalkEntry
  /-- The wave in hand.  MODEL. -/
  w : Wave
  /-- The other waves. -/
  others : List Wave
  groups : List Group
  /-- Counted barriers of a group, cluster group or gang instance, by its first group (R366). -/
  barcs : List (Nat × Vector Barc 16)
  launches : List Launch
  /-- Deques, the top first (R348). -/
  deques : List (Nat × List TaskRec)
  /-- Mailbox posts that find every deque of D0 full, oldest first (R349). -/
  postQueue : List TaskRec
  copies : List Copy
  /-- Copies into shadow sets whose error no `bcbwait` has taken yet. -/
  failed : List FailedCopy
  /-- Tape areas of waves that have ended (R235, R412). -/
  oldTapes : List OldTape
  shadows : List ShadowPage
  held : List HeldFrame
  pubs : List PubReq
  /-- Publish counts by address space and set name (R242). -/
  pseq : List ((Nat × Nat) × Nat)
  tiles : List Tile
  entries : List Entry
  contribs : List Contribution
  claims : List Claim
  updates : List UpdCmd
  colls : List Coll
  /-- Collective messages that came before the collective was issued here. -/
  colMail : List (Nat × Nat × ColMsg)
  /-- Registered regions, by job and number (R303). -/
  regions : List ((Nat × Nat) × WmRegion)
  /-- Regions whose divergence holds a job's gate closed (R305): job and region. -/
  gates : List (Nat × Nat)
  /-- Jobs with a `.sync` collective that ended without a comparison, so that it never cleared (R305). -/
  unclear : List Nat
  /-- Current phase of each job (R338). -/
  phases : List (Nat × Nat)
  /-- Registered fault-service descriptor of each die (R58). -/
  faultDesc : Vector (Option Nat) 4
  batchNext : Vector Nat 4
  batches : List Batch
  /-- Pages that words written by the device itself wait for, and where they wait (R419). -/
  devMissing : List FaultPage
  devSleep : List (Nat × Nat)
  devDeclined : List FaultPage
  /-- Completion words in their order, behind one that a peer has yet to answer (R419). -/
  devQueue : List DevWord
  posted : List Posted
  /-- Messages sent to other packages, latest first. -/
  outbox : List OutMsg
  submissions : List Submission
  queues : Vector HostQueue 64
  /-- Queue entries that are over and whose completion record waits for its page: STATUS and cause (R419). -/
  finishing : List (QOrigin × Nat × Nat)
  apbase : Nat
  herr : Word
  /-- MSI-X vectors raised, latest first (R289). -/
  msix : List Nat
  /-- Interrupt table in BAR0, by offset and byte (Table 13.1). -/
  msixTable : List Host.Cell
  /-- Pending-bit array: vectors raised while their table entry is masked (Table 13.1). -/
  msixPending : List Nat
  /-- What the last read of BAR0, of BAR2 or of a peer returned. -/
  readData : List Byte
  /-- The cause in the last error response to a peer; 0 for none (R295). -/
  respCause : Nat
  inwins : Vector InWin 64
  pkgId : Nat
  /-- Peer timeout in microseconds (R297). -/
  peerTimeout : Nat
  /-- HEALTH (Table 16.9). -/
  health : Word
  /-- PSLICE (R371). -/
  pslice : Word
  ceCount : Vector Nat 4
  ueCount : Vector Nat 4
  /-- Uncorrectable logic errors: die and time (R392). -/
  logicErrors : List (Nat × Nat)
  /-- Next SEQ of each event source (R385). -/
  eventSeq : List (Nat × Nat)
  attest : Attest
  /-- The boot ROM found an image that does not verify (R397). -/
  recovery : Bool
  powered : Bool
  /-- Moves to come.  MODEL. -/
  agenda : List Move
  /-- The next issue leaves a long-latency instruction unfinished.  MODEL. -/
  defer : Bool
  /-- Next serial number of a wave, group, launch, copy, tile, entry and so on.  MODEL. -/
  serial : Nat
  /-- Free-value counter.  MODEL. -/
  free : Nat
  deriving DecidableEq, Repr

/-- Why the machine can do nothing.  Both are states or requests that do not exist on the part, so both are safe. -/
inductive Fault where
  /-- An encoded instruction is executed and the slot in hand is not live: no slot issues it. -/
  | noSlot
  deriving DecidableEq, Repr

/-- Why an instruction has no meaning here. -/
inductive Refusal where
  /-- Raised by the dispatcher for an instruction without a meaning yet; safe. -/
  | notModelled (mnemonic : String)
  deriving DecidableEq, Repr

/-- A bank at wave start (R14, Tables 1.3 and 1.4). -/
def Bank.zero : Bank :=
  { sregs := Vector.replicate 64 0, mregs := Vector.replicate 8 0, fpmode := 0, latch := none, monitor := none, bad := [] }

/-- The trap registers' reset values (Table 16.3). -/
def TrapRegs.zero : TrapRegs :=
  { cause := 0, pc := 0, mask := 0, act := 0, addr := 0, info := 0, depth := 0, splitOff := false }

/-- A replay entry's reset values (Table 16.3). -/
def RqEntry.zero : RqEntry :=
  { word := 0, pclo := 0, pchi := 0, mask := 0, scals := Vector.replicate 6 0, orig := none }

/-- A slot that is not live. -/
def Slot.off : Slot :=
  { live := false, pc := 0, m0 := 0, bank := Bank.zero, cj := none, gc := 0, depth := 0, status := .running,
    barWait := .none, windows := [], flights := [], trap := TrapRegs.zero, rq := Vector.replicate 16 RqEntry.zero,
    futaddr := 0, wfe := none, sleep := [], missing := [], declined := [], ra := none, imprecise := [], colls := [],
    waited := 0, urgent := none, yielded := false, issuedAt := 0, stalled := false, staging := none, replaying := false,
    tlbWait := none, entering := none }

/-- An empty tape (R234). -/
def Tape.empty : Tape :=
  { quire := [], area := [], isOpen := false, regen := false, view := none, tscale := 0, base := [], spoiled := false,
    badItems := [] }

/-- No wave. -/
def Wave.off : Wave :=
  { wid := 0, gid := 0, lid := 0, waveid := 0, core := 0, live := false, onCore := false, cur := Slot.off,
    sib := Slot.off, curSec := false, vregs := [], fill := 0, budget := 0, priv := 0,
    handles := Vector.replicate 8 none, exited := 0, helper := 0, started := 0, secLanes := 0, lclock := 0, sguard := 256,
    trapvec := 0, mxstat := 0, rstat := 0, evpend := 0, evfrom := [], gsseq := Vector.replicate 32 0, epoch := 0,
    tape := Tape.empty, since := 0, prio := 0, chain := 0, badRegs := [] }

/-- A host queue's reset values (Table 13.2). -/
def HostQueue.zero : HostQueue :=
  { qbase := 0, qsize := 0, qhead := 0, qtail := 0, qroot := 0, qasn := 0, chain := 0, unfinished := [], begun := 0,
    busy := false }

/-- An inbound window's reset values (R294). -/
def InWin.zero : InWin := { base := 0, size := 0, hi := 0, lo := 0, w := false, rd := false, atm := false }

/-- The attestation block's reset values (Table 17.2). -/
def Attest.zero : Attest :=
  { busy := false, status := 0, vstat := 0, sel := 64, nonce := List.replicate 32 0, meas := List.replicate 32 0,
    msg := List.replicate 32 0, sig := List.replicate 2820 0, pendingMsg := [], nextLeaf := 0 }

/-- The machine right after reset (R397): no work, every register at its reset value, no byte listed. -/
def State.reset : State :=
  { gts := 0, clock := 1000, mem := [], bad := [], badRows := [], repairs := [], unbacked := []
    lines := [], tlb := [], walks := [], w := Wave.off, others := [],
    groups := [], barcs := [], launches := [], deques := [], postQueue := [], copies := [], failed := [], oldTapes := [], shadows := [],
    held := [], pubs := [], pseq := [],
    tiles := [], entries := [], contribs := [], claims := [], updates := [], colls := [], colMail := [],
    regions := [], gates := [], unclear := [], phases := [], faultDesc := Vector.replicate 4 none,
    batchNext := Vector.replicate 4 0, batches := [], devMissing := [], devSleep := [], devDeclined := [], devQueue := [],
    posted := [], outbox := [], submissions := [], queues := Vector.replicate 64 HostQueue.zero, finishing := [],
    apbase := 0, herr := 0, msix := [], msixTable := [], msixPending := [], readData := [], respCause := 0,
    inwins := Vector.replicate 64 InWin.zero, pkgId := 0, peerTimeout := 2000, health := 0, pslice := 100000,
    ceCount := Vector.replicate 4 0, ueCount := Vector.replicate 4 0, logicErrors := [], eventSeq := [],
    attest := Attest.zero, recovery := false, powered := true, agenda := [], defer := false, serial := 0, free := 0 }

end Sys2Proof.Machine
end

