-- ==== Sys2Proof/Machine/Mem.lean ====
section
/-! DEFINITION. Memory: the canonical list of bytes, places, storage errors, caches, page tables and translation
(02_address_translation, 04_on_chip_memories R95 to R99, 12_memory_model R277). -/
namespace Sys2Proof.Machine

/-- What a byte that nothing has written reads as (log 3). -/
def unwritten : Byte := 0

/-- The byte at a key. -/
def Mem.get : List Host.Cell → Nat → Byte
  | [], _ => unwritten
  | (a, b) :: t, k => if k = a then b else Mem.get t k

/-- The memory without a key's entry. -/
def Mem.drop (m : List Host.Cell) (k : Nat) : List Host.Cell := m.filter fun c => c.1 != k

/-- The memory with an entry put before the first larger key. -/
def Mem.enter : List Host.Cell → Nat → Byte → List Host.Cell
  | [], k, v => [(k, v)]
  | (a, b) :: t, k, v => if k < a then (k, v) :: (a, b) :: t else (a, b) :: Mem.enter t k v

/-- The memory with one byte written; writing what an unlisted key reads as removes the entry. -/
def Mem.put (m : List Host.Cell) (k : Nat) (v : Byte) : List Host.Cell :=
  if v = unwritten then Mem.drop m k else Mem.enter (Mem.drop m k) k v

/-- Every key of the list lies above k, the keys rise strictly, and no entry is what an unlisted key reads as. -/
def Mem.wfFrom : Nat → List Host.Cell → Bool
  | _, [] => true
  | k, (a, b) :: t => decide (k ≤ a) && b != unwritten && Mem.wfFrom (a + 1) t

/-- The canonical form. -/
def Mem.wf (m : List Host.Cell) : Bool := Mem.wfFrom 0 m

/-- The number of an area in a key. -/
def Area.code : Area → Nat
  | .hbm => 0 | .chip => 1 | .core => 2 | .window => 3 | .lane => 4 | .host => 5 | .l2 => 6 | .peer => 7

/-- The key of a place: distinct places have distinct keys. -/
def Loc.key (l : Loc) : Nat := 8 * l.addr + l.area.code

/-- Bytes of a line, by their offsets, copied from one area to the same addresses of another. -/
def Mem.copyBytes (m : List Host.Cell) (line : Nat) (src dst : Area) (offs : List Nat) : List Host.Cell :=
  offs.foldl (fun t i => Mem.put t (Loc.key ⟨dst, 128 * line + i⟩) (Mem.get t (Loc.key ⟨src, 128 * line + i⟩))) m

/-- The 128 bytes of a line copied from one area to the same addresses of another. -/
def Mem.copyLine (m : List Host.Cell) (line : Nat) (src dst : Area) : List Host.Cell :=
  Mem.copyBytes m line src dst (List.range 128)

/-- The place n bytes further on. -/
def Loc.plus (l : Loc) (n : Nat) : Loc := { l with addr := l.addr + n }

/-- A line of a cache. -/
def Loc.line (l : Loc) : Nat := l.addr / 128

/-- The list with element n replaced. -/
def setAt {α : Type} (xs : List α) (n : Nat) (x : α) : List α := xs.set n x

/-- Bits [lo+n-1:lo] of a number (R7). -/
def fieldAt (w lo n : Nat) : Nat := w / 2 ^ lo % 2 ^ n

/-- A two's-complement number of n bits (R9). -/
def signed (n v : Nat) : Int := if v % 2 ^ n < 2 ^ (n - 1) then ((v % 2 ^ n : Nat) : Int) else (v % 2 ^ n : Nat) - 2 ^ n

/-- The low n bits of a number (R9). -/
def truncTo (n : Nat) (i : Int) : Nat := (i % 2 ^ n).toNat

/-- The number whose little-endian bytes these are (R6). -/
def leOf : List Byte → Nat
  | [] => 0
  | b :: bs => b.toNat + 256 * leOf bs

/-- The n low bytes of a number, little-endian (R6). -/
def leBytes : Nat → Nat → List Byte
  | 0, _ => []
  | n + 1, v => BitVec.ofNat 8 v :: leBytes n (v / 256)

/-- Among these lines is the L2's line of a host bus address (R277). -/
def holdsHost (lines : List Line) (addr : Nat) : Bool :=
  lines.any fun x => x.core.isNone && x.area == .host && x.line == addr / 128

/-- The place from which the part reads a byte: a host line held in the L2 is read there. -/
def servedBy (lines : List Line) (l : Loc) : Loc :=
  if l.area = .host ∧ holdsHost lines l.addr then { area := .l2, addr := l.addr } else l

namespace State

/-- The L2 holds the host line of this host bus address (R277). -/
def l2Holds (s : State) (addr : Nat) : Bool := holdsHost s.lines addr

/-- The place from which the part reads a byte. -/
def served (s : State) (l : Loc) : Loc := servedBy s.lines l

/-- The byte at a place, as the part reads it. -/
def byte (s : State) (l : Loc) : Byte := Mem.get s.mem (s.served l).key

/-- The n bytes from a place on. -/
def bytes (s : State) (l : Loc) (n : Nat) : List Byte := (List.range n).map fun i => s.byte (l.plus i)

/-- The number in the n bytes from a place on (R6). -/
def num (s : State) (l : Loc) (n : Nat) : Nat := leOf (s.bytes l n)

/-- The state with one byte of storage written. -/
def setByte (s : State) (l : Loc) (b : Byte) : State := { s with mem := Mem.put s.mem (s.served l).key b }

/-- The state with consecutive bytes written. -/
def setBytes (s : State) (l : Loc) : List Byte → State
  | [] => s
  | b :: bs => (s.setByte l b).setBytes (l.plus 1) bs

/-- The state with an n-byte number written (R6). -/
def setNum (s : State) (l : Loc) (n v : Nat) : State := s.setBytes l (leBytes n v)

/-- The place of a granule of 8 B (R97). -/
def granule (l : Loc) : Nat := Loc.key { l with addr := l.addr / 8 * 8 }

/-- The granule of this byte, where the part holds it, is bad or poisoned (R97, R99). -/
def isBad (s : State) (l : Loc) : Bool := !s.bad.isEmpty && s.bad.contains (granule (s.served l))

/-- A write of these places clears the marks of the granules that it covers whole (R97, R99). -/
def clearBad (s : State) (ls : List Loc) : State :=
  if s.bad.isEmpty then s
  else { s with bad := s.bad.filter fun g => !((List.range 8).all fun i => ls.any fun l => (s.served l).key == g + 8 * i) }

/-- Places of a write that covers only part of a bad granule, which is treated as a read of it (R97). -/
def partBad (s : State) (ls : List Loc) : List Loc :=
  if s.bad.isEmpty then []
  else ls.filter fun l =>
    s.isBad l
      && !((List.range 8).all fun i => ls.any fun l' => (s.served l').key == granule (s.served l) + 8 * i)

/-- The granule at this key lies in a line of an area. -/
def granuleIn (area : Area) (line g : Nat) : Bool := g % 8 == area.code && g / 8 / 128 == line

/-- Table 4.2. -/
def prioAfter (p : LinePrio) (h : Hint) : LinePrio :=
  match p, h with
  | .el, _ => .el
  | _, .ef => .ef
  | .ef, .nm => .nm
  | .nm, .nm => .nm
  | _, .el => .el

/-- The priority a filled line takes (R96). -/
def prioOf : Hint → LinePrio
  | .nm => .nm | .ef => .ef | .el => .el

/-- A cache holds a line. -/
def holdsLine (s : State) (core : Option Nat) (area : Area) (line : Nat) : Bool :=
  s.lines.any fun x => x.core == core && x.area == area && x.line == line

/-- Bytes of a host line, by their offsets, that the L2 holds and host memory has not. -/
def ownBytes (s : State) (line : Nat) : List Nat :=
  (s.lines.filter fun x => x.core.isNone && x.area == .host && x.line == line && x.dirty).flatMap fun x => x.own

/-- A line leaves the L2: the bytes of a dirty host line that the part wrote are written back first (R110, R111), and no
others, so that no write of the host's is lost (R112); its poison goes with the copy, since R99 carries it to HBM4 only
(log 15). -/
def writeBack (s : State) (area : Area) (line : Nat) : State :=
  if area = .host ∧ (s.lines.any fun x => x.core.isNone && x.area == .host && x.line == line && x.dirty) then
    { s with mem := Mem.copyBytes s.mem line .l2 .host (s.ownBytes line) }
  else s

/-- The L2's dirty mark of a line is cleared. -/
def markClean (s : State) (area : Area) (line : Nat) : State :=
  { s with lines := s.lines.map fun x =>
      if x.core.isNone && x.area == area && x.line == line then { x with dirty := false, own := [] } else x }

/-- The places in the L2 of these bytes, where it holds their host lines, hold data that host memory has not. -/
def markDirty (s : State) (ls : List Loc) : State :=
  if ls.any fun l => l.area == .host then
    { s with lines := s.lines.map fun x =>
        let hit := (ls.filter fun l => l.area == .host && l.line == x.line).map fun l => l.addr % 128
        if x.core.isNone && x.area == .host && !hit.isEmpty then { x with dirty := true, own := (x.own ++ hit).eraseDups }
        else x }
  else s

/-- A line is removed from the caches that the test names; the L2's own copy of a host line goes with it. -/
def removeLine (s : State) (area : Area) (line : Nat) (which : Option Nat → Bool) : State :=
  let s1 :=
    if which none ∧ area = .host ∧ s.l2Holds (128 * line) then
      { s with
        mem := (List.range 128).foldl (fun m i => Mem.drop m (Loc.key ⟨.l2, 128 * line + i⟩)) s.mem
        bad := s.bad.filter fun g => !granuleIn .l2 line g }
    else s
  { s1 with lines := s1.lines.filter fun x => !(x.area == area && x.line == line && which x.core) }

/-- Ways of a set: 8 of an L1, 16 of an L2 slice (R95); 8 of an instruction cache, whose ways the spec does not give
(log 46). -/
def ways (core : Option Nat) : Nat := if core.isNone then 16 else 8

/-- The number under which the lines of a core's instruction cache stand (Table 0.3). -/
def codeCache (core : Nat) : Nat := 384 + core

/-- The home slice of a line: one of the 48 of the line's die, D0 for a host line (R95, Table 12.3a).  The hash is not
architected (log 46). -/
def sliceOf (area : Area) (line : Nat) : Nat :=
  let die := if area = .host then 0 else 128 * line / Config.hbmDie
  48 * die + Config.cacheHash 1 (2 * line + (if area = .host then 1 else 0)) % 48

/-- The set of a line: one of an L1's 128 or of an instruction cache's 64, or one of the 1,024 of its home slice (R95,
Table 0.3).  The hashes are not architected (log 46). -/
def setOf (core : Option Nat) (area : Area) (line : Nat) : Nat :=
  let key := 2 * line + (if area = .host then 1 else 0)
  match core with
  | some c => Config.cacheHash 0 key % (if c < 384 then 128 else 64)
  | none => sliceOf area line * 1024 + Config.cacheHash 2 key % 1024

/-- The victim among lines of one set: the least recently used of the lowest priority (R96); of lines last used at one time,
the first in the list (log 46). -/
def victim (xs : List Line) : Option Line :=
  let oldest (p : LinePrio) : Option Line :=
    (xs.filter fun x => x.prio == p).foldl
      (fun best x => match best with
        | none => some x
        | some b => if x.used < b.used then some x else some b) none
  ((oldest .ef).or (oldest .nm)).or (oldest .el)

/-- The lines of a set that a cache holds. -/
def inSet (s : State) (core : Option Nat) (set : Nat) : List Line :=
  s.lines.filter fun x => x.core == core && setOf core x.area x.line == set

/-- A cache evicts the victim of a set, among the lines that fill its ways: those that came in last over them are not yet in
the set.  A dirty host line of the L2 is written back. -/
def evictFrom (s : State) (core : Option Nat) (set : Nat) : State :=
  let xs := s.inSet core set
  match victim (xs.drop (xs.length - ways core)) with
  | none => s
  | some x => (if core.isNone then s.writeBack x.area x.line else s).removeLine x.area x.line fun c => c == core

/-- A set that a line has come into over its ways. -/
def overfull (s : State) : Option (Option Nat × Nat) :=
  s.lines.findSome? fun x =>
    if (s.lines.filter fun y => y.core == x.core).length ≤ ways x.core then none
    else
      let set := setOf x.core x.area x.line
      if (s.inSet x.core set).length ≤ ways x.core then none else some (x.core, set)

/-- Up to n evictions from sets over their ways. -/
def trim : Nat → State → State
  | 0, s => s
  | n + 1, s => match s.overfull with
    | none => s
    | some (core, set) => trim n (s.evictFrom core set)

/-- The caches after a step: each line that came into a full set has taken the place of a victim (R95, R96). -/
def trimCaches (s : State) : State := trim s.lines.length s

/-- A line of HBM4 or of host memory is accessed in a cache, and filled if it is not held; the step ends by making room
for it, `trimCaches` (R95, R96). -/
def touchIn (s : State) (core : Option Nat) (area : Area) (line : Nat) (h : Hint) (dirty : Bool) : State :=
  if s.holdsLine core area line then
    { s with lines := s.lines.map fun x =>
        if x.core == core && x.area == area && x.line == line then
          { x with prio := prioAfter x.prio h, dirty := x.dirty || dirty, used := s.gts }
        else x }
  else
    let s1 :=
      if area = .host ∧ core.isNone then
        { s with mem := Mem.copyLine s.mem line .host .l2 }
      else s
    { s1 with lines := ⟨core, area, line, prioOf h, dirty, [], s.gts⟩ :: s1.lines }

/-- An access of a core to a byte goes through the L2 and its L1, which a read fills and a write only updates
(R95, R96, Table 12.3a). -/
def touch (s : State) (core : Nat) (l : Loc) (h : Hint) (write : Bool) : State :=
  if l.area = .hbm ∨ l.area = .host then
    let s1 := s.touchIn none l.area l.line h write
    if write && !s1.holdsLine (some core) l.area l.line then s1 else s1.touchIn (some core) l.area l.line h false
  else s

/-- A fetch of a core goes through the L2 into its instruction cache (Table 0.3). -/
def touchCode (s : State) (core : Nat) (area : Area) (line : Nat) : State :=
  (s.touchIn none area line .nm false).touchIn (some (codeCache core)) area line .nm false

/-- The distinct lines of these places. -/
def linesOf (ls : List Loc) : List (Area × Nat) := (ls.map fun l => (l.area, l.line)).eraseDups

/-- Every line of these places once, by an access with a hint of a core. -/
def touchAll (s : State) (core : Nat) (ls : List Loc) (h : Hint) (write : Bool) : State :=
  (linesOf ls).foldl (fun t p => t.touch core ⟨p.1, 128 * p.2⟩ h write) s

/-- An engine's access to these places goes through the L2 with hint `.nm` (R95, R96). -/
def touchL2 (s : State) (ls : List Loc) (write : Bool) : State :=
  ((linesOf ls).filter fun p => p.1 == .hbm || p.1 == .host).foldl (fun t p => t.touchIn none p.1 p.2 .nm write) s

/-- A core's L1 loses its copies of the lines of these places (R275). -/
def dropL1 (s : State) (core : Nat) (ls : List Loc) : State :=
  { s with lines := s.lines.filter fun x => !(x.core == some core && ls.any fun l => l.area == x.area && l.line == x.line) }

/-- An acquire empties the issuing core's L1 (R275). -/
def emptyL1 (s : State) (core : Nat) : State := { s with lines := s.lines.filter fun x => x.core != some core }

/-- Every dirty host line of the L2 is written back, as a release at `.sys` requires (Table 12.2). -/
def flushHost (s : State) : State :=
  (s.lines.filter fun x => x.core.isNone && x.area == .host && x.dirty).foldl
    (fun t x => (t.writeBack .host x.line).markClean .host x.line) s

end State

/-- A valid leaf or table entry of a page table, field by field (Tables 2.2 and 2.3). -/
def pteValid (e : Nat) : Bool := fieldAt e 0 1 == 1
def pteLeaf (e : Nat) : Bool := fieldAt e 1 1 == 1
def pteRd (e : Nat) : Bool := fieldAt e 5 1 == 1
def pteW (e : Nat) : Bool := fieldAt e 6 1 == 1
def pteX (e : Nat) : Bool := fieldAt e 7 1 == 1
def pteRep (e : Nat) : Bool := fieldAt e 11 1 == 1
def pteShd (e : Nat) : Bool := fieldAt e 12 1 == 1
def pteType (e : Nat) : Nat := fieldAt e 14 2
def pteFrame (e : Nat) : Nat := fieldAt e 16 36
def ptePeer (e : Nat) : Nat := fieldAt e 54 10

/-- The size of a page mapped at a level (R49). -/
def pageSize (lvl : Nat) : Nat := 2 ^ (46 - 10 * lvl)

/-- Reserved bits and Table 2.4 for a leaf (R50, R51). -/
def leafOk (pkg e lvl : Nat) : Bool :=
  let pa := pteFrame e * 2 ^ 16
  fieldAt e 52 2 == 0 && fieldAt e 8 3 == 0 && fieldAt e 2 3 == 0 && pa % pageSize lvl == 0
    && (match pteType e with
        | 0 => ptePeer e == 0 && decide (pa + pageSize lvl ≤ Config.hbmEnd)
        | 1 => ptePeer e == 0
        | 2 => ptePeer e != pkg && decide (pa + pageSize lvl ≤ Config.hbmEnd)
        | _ => ptePeer e == 0 && lvl == 3 && decide (pa < 2 ^ 27))

/-- Reserved bits of a table entry, and NEXT inside HBM4 (R50, R51). -/
def tableOk (e : Nat) : Bool :=
  fieldAt e 52 12 == 0 && fieldAt e 2 11 == 0 && decide (fieldAt e 13 39 * 2 ^ 13 + 8192 ≤ Config.hbmEnd)

/-- Causes of Table 16.2 that translation meets. -/
def causePageFault : Nat := 0x21
def causePageProt : Nat := 0x22
def causePteMalformed : Nat := 0x23
def causeAtomHostOp : Nat := 0x24

/-- A translation: the leaf, where it lies, and the page it maps. -/
structure Xlat where
  pte : Nat
  leafAt : Nat
  base : Nat
  size : Nat
  /-- The frame read under a version view in place of the leaf's (R244). -/
  frame : Option Nat
  /-- The table entries that the walk went through: level and entry (R55). -/
  path : List (Nat × Nat) := []
  deriving DecidableEq, Repr

/-- The walk of R52 from a level on; `kept` gives the table entry of a level that the walker's cache holds, which the walk
takes in place of the one in memory (R54, R55). -/
def walkFrom (s : State) (va : Nat) (kept : Nat → Option Nat) : List Nat → Nat → Except Nat Xlat
  | [], _ => .error causePteMalformed
  | lvl :: rest, table =>
    let a := table + 8 * fieldAt va (46 - 10 * lvl) 10
    let e := (kept lvl).getD (s.num ⟨.hbm, a⟩ 8)
    if !pteValid e then .error causePageFault
    else if pteLeaf e then
      if lvl == 0 || !leafOk s.pkgId e lvl then .error causePteMalformed
      else .ok { pte := e, leafAt := a, base := va / pageSize lvl * pageSize lvl, size := pageSize lvl, frame := none }
    else if lvl == 3 || !tableOk e then .error causePteMalformed
    else (walkFrom s va kept rest (fieldAt e 13 39 * 2 ^ 13)).map fun x => { x with path := (lvl, e) :: x.path }

/-- The walk of R52 with a walker's cache; a root outside HBM4 fails with PTE_MALFORMED (R418). -/
def walkWith (s : State) (kept : Nat → Option Nat) (root va : Nat) : Except Nat Xlat :=
  if Config.hbmEnd < root + 8192 then .error causePteMalformed else walkFrom s va kept [0, 1, 2, 3] root

/-- The walk of R52, each entry read from memory. -/
def walk (s : State) (root va : Nat) : Except Nat Xlat := walkWith s (fun _ => none) root va

/-- A unit that translates, by its TLBs in the order it asks them (R55, R56, R418). -/
inductive Mmu where
  | core (c : Nat)
  | twe (cluster : Nat)
  | engine (die : Nat)
  | mailbox (q : Nat)
  /-- A distributor or another unit without a TLB of its own, on a die. -/
  | walker (die : Nat)
  deriving DecidableEq, Repr

/-- The TLBs of a unit: kind and index. -/
def Mmu.tlbs : Mmu → List (Nat × Nat)
  | .core c => [(0, c), (1, c / 4)]
  | .twe k => [(2, k)]
  | .engine d => [(3, d)]
  | .mailbox q => [(4, q)]
  | .walker _ => []

/-- The die on which a unit's faults are served (R58). -/
def Mmu.die : Mmu → Nat
  | .core c => c / 96
  | .twe k => k / 24
  | .engine d => d
  | .mailbox _ => 0
  | .walker d => d

/-- The cluster a fault record names (Table 2.6).  For a requester of a die and not of a cluster the manual names none: the
model writes the die's first cluster, and 0 for the mailbox engine (log 43). -/
def Mmu.cluster : Mmu → Nat
  | .core c => c / 4
  | .twe k => k
  | .engine d => 24 * d
  | .mailbox _ => 0
  | .walker d => 24 * d

/-- Entries a TLB of this kind holds (R55, R56).  R56 gives a copy engine's TLB no size and does not say whether a die's
engines share one: the model takes one of 512 entries for each die (DESIGN CHOICE, log 73). -/
def tlbCapacity : Nat → Nat
  | 0 => 64 | 1 => 1024 | 2 => 512 | _ => 512

/-- The cluster whose walker makes a unit's walks (R55); for a copy engine, which walks through the walkers of its die
(R56), the model takes the die's first cluster (log 52). -/
def Mmu.walkerOf : Mmu → Option Nat
  | .core c => some (c / 4)
  | .engine d => some (24 * d)
  | .twe _ | .mailbox _ | .walker _ => none

/-- An address space: its number, its root table, and the version view of the reading wave (R48, R244). -/
structure ASpace where
  asn : Nat
  root : Nat
  view : Option (Nat × Nat)
  deriving DecidableEq, Repr

/-- The frame visible at count c of a set for a page, when a publish has replaced it since (R242, R244). -/
def viewFrame (s : State) (asn : Nat) (view : Option (Nat × Nat)) (va : Nat) : Option Nat :=
  match view with
  | none => none
  | some (wset, c) =>
    let hs := s.held.filter fun h => !h.unseen && h.asn == asn && h.wset == wset && h.page == va / 65536 && c ≤ h.upto
    (hs.foldl (fun (best : Option HeldFrame) h =>
      match best with
      | none => some h
      | some b => if h.upto < b.upto then some h else some b) none).map (·.frame)

/-- The table entry of a level for an address that the walker of a unit's cluster holds (R55). -/
def keptEntry (s : State) (u : Mmu) (asn va lvl : Nat) : Option Nat :=
  match u.walkerOf with
  | none => none
  | some k =>
    (s.walks.find? fun e => e.cluster == k && e.asn == asn && e.level == lvl && e.base == va / pageSize lvl * pageSize lvl).map
      (·.entry)

/-- A unit's translation of an address: its TLBs, then a walk (R55).  A root outside HBM4 fails every one (R418). -/
def xlate (s : State) (u : Mmu) (a : ASpace) (va : Nat) : Except Nat Xlat :=
  let hit := s.tlb.find? fun e =>
    u.tlbs.contains (e.kind, e.unit) && e.asn == a.asn && e.view == a.view && decide (e.base ≤ va)
      && decide (va < e.base + e.size)
  let r : Except Nat Xlat :=
    if Config.hbmEnd - 8192 < a.root then .error causePteMalformed
    else
      match hit with
      | some e => .ok { pte := e.pte, leafAt := e.leafAt, base := e.base, size := e.size, frame := none }
      | none => walkWith s (keptEntry s u a.asn va) a.root va
  r.map fun x => { x with frame := viewFrame s a.asn a.view va }

/-- The walker of a unit's cluster keeps the table entries of a walk (R55). -/
def keepWalk (s : State) (u : Mmu) (a : ASpace) (x : Xlat) : State :=
  match u.walkerOf with
  | none => s
  | some k =>
    x.path.foldl
      (fun t p =>
        let e : WalkEntry := ⟨k, a.asn, p.1, x.base / pageSize p.1 * pageSize p.1, p.2⟩
        if t.walks.any fun f => f.cluster == k && f.asn == a.asn && f.level == p.1 && f.base == e.base then t
        else { t with walks := e :: t.walks }) s

/-- The TLBs of a unit keep a translation it made (R55); the oldest entry makes room. -/
def fillTlb (s : State) (u : Mmu) (a : ASpace) (x : Xlat) : State :=
  u.tlbs.foldl
    (fun t k =>
      if t.tlb.any fun e => (e.kind, e.unit) == k && e.asn == a.asn && e.view == a.view && e.base == x.base && e.size == x.size
      then t
      else
        let e : TlbEntry := ⟨k.1, k.2, a.asn, x.base, x.size, x.pte, x.leafAt, a.view⟩
        let mine := t.tlb.filter fun f => (f.kind, f.unit) == k
        let rest := t.tlb.filter fun f => (f.kind, f.unit) != k
        { t with tlb := (e :: mine).take (tlbCapacity k.1) ++ rest }) (keepWalk s u a x)

/-- Kinds of access that R53 tells apart. -/
inductive AccKind where
  | fetch
  | load
  | store
  /-- An atomic; the argument says that it has an AtomicOp equivalent. -/
  | atom (hostOk : Bool)
  | engineRead
  | engineWrite
  deriving DecidableEq, Repr

/-- KIND of a fault record (Table 2.6). -/
def AccKind.code : AccKind → Nat
  | .load => 0 | .store => 1 | .atom _ => 2 | .fetch => 3 | .engineRead => 4 | .engineWrite => 5

/-- The access writes. -/
def AccKind.writes : AccKind → Bool
  | .store | .atom _ | .engineWrite => true
  | .fetch | .load | .engineRead => false

/-- The place of an address in its page (R47, R51, R53). -/
def Xlat.loc (x : Xlat) (va : Nat) : Loc :=
  match x.frame with
  | some f => ⟨.hbm, f + va % 65536⟩
  | none =>
    let pa := pteFrame x.pte * 2 ^ 16 + va % x.size
    match pteType x.pte with
    | 0 => ⟨.hbm, pa⟩
    | 1 => ⟨.host, pa⟩
    | 2 => ⟨.peer, ptePeer x.pte * 2 ^ 52 + pa⟩
    | _ => ⟨.chip, pa⟩

/-- The place lies in a device region, which only the hardware writes (R93). -/
def Loc.inDeviceRegion (l : Loc) : Bool := l.area == .chip && decide (Config.deviceRegion ≤ l.addr % Config.chipSize)

/-- The checks of R53 and R93 on a leaf. -/
def leafAllows (x : Xlat) (k : AccKind) (va : Nat) : Except Nat Unit :=
  let ok :=
    match k with
    | .fetch => pteX x.pte && decide (pteType x.pte ≤ 1)
    | .load | .engineRead => pteRd x.pte
    | .store | .engineWrite => pteW x.pte
    | .atom _ => pteRd x.pte && pteW x.pte
  if !ok || (k.writes && (x.loc va).inDeviceRegion) then .error causePageProt
  else if k == .atom false && pteType x.pte == 1 then .error causeAtomHostOp
  else .ok ()

/-- The places of the n bytes from a virtual address on, with the translations used, or the cause met and the address
that met it (R52, R53). -/
def placesFrom (s : State) (u : Mmu) (a : ASpace) (k : AccKind) : Nat → Nat → Option Xlat → Except (Nat × Nat) (List Loc × List Xlat)
  | _, 0, _ => .ok ([], [])
  | va, n + 1, prev =>
    let fresh :=
      match prev with
      | some x => !(decide (x.base ≤ va) && decide (va < x.base + x.size) && (x.frame.isNone || va % 65536 != 0))
      | none => true
    let r : Except Nat Xlat :=
      match fresh, prev with
      | false, some x => .ok x
      | _, _ => xlate s u a va
    match r with
    | .error c => .error (c, va)
    | .ok x =>
      match leafAllows x k va with
      | .error c => .error (c, va)
      | .ok () =>
        match placesFrom s u a k (va + 1) n (some x) with
        | .error e => .error e
        | .ok (ls, xs) => .ok (x.loc va :: ls, if fresh then x :: xs else xs)

/-- The places of the n bytes from a virtual address on. -/
def places (s : State) (u : Mmu) (a : ASpace) (k : AccKind) (va n : Nat) : Except (Nat × Nat) (List Loc × List Xlat) :=
  placesFrom s u a k va n none

/-- R57's order of causes: PAGE_PROT and ATOM_HOST_OP rank alike. -/
def causeRank (c : Nat) : Nat :=
  if c = causePteMalformed then 0 else if c = causePageProt ∨ c = causeAtomHostOp then 1 else 2

/-- The addresses of n bytes at which a 64-KiB page starts, or the access does. -/
def pageStarts (va n : Nat) : List Nat :=
  va :: (List.range ((va % 65536 + n - 1) / 65536)).map fun i => (va / 65536 + 1 + i) * 65536

/-- Of the causes that the pages of n bytes meet, the first in R57's order, with the address that met it. -/
def firstInOrder (s : State) (u : Mmu) (a : ASpace) (k : AccKind) (va n : Nat) (met : Nat × Nat) : Nat × Nat :=
  (pageStarts va n).foldl
    (fun best p =>
      match (xlate s u a p).bind fun x => leafAllows x k p with
      | .error c => if causeRank c < causeRank best.1 then (c, p) else best
      | .ok () => best) met

/-- The n bytes from a on lie in 0 to limit - 1; addresses are mathematical integers (R46, R101). -/
def withinLimit (a : Int) (n limit : Nat) : Bool :=
  match a with
  | .ofNat k => Nat.ble n limit && Nat.ble k (limit - n)
  | .negSucc _ => false

/-- The legal addresses of R46. -/
def addrOk (a : Int) (n : Nat) : Bool := withinLimit a n (2 ^ 55)

end Sys2Proof.Machine
end

