-- ==== Sys2Proof/Machine/Ops.lean ====
section
/-! DEFINITION. Named operations over waves, slots, registers, groups and launches; event records; launch faults,
cancellation and group kills; taking a trap and what returns from one (01_instruction_words, 16_traps_and_preemption). -/
namespace Sys2Proof.Machine

/-- Cause codes of Table 16.2 that are named in more than one place. -/
def causeIllegal : Nat := 0x01
def causePriv : Nat := 0x02
def causeRegRange : Nat := 0x03
def causeLookahead : Nat := 0x04
def causeNoncanon : Nat := 0x20
def causeAtomAlign : Nat := 0x25
def causeSpaceRange : Nat := 0x26
def causeHostFault : Nat := 0x27
def causePeerFault : Nat := 0x28
def causePeerTimeout : Nat := 0x29
def causePeerDenied : Nat := 0x2A
def causeCancelled : Nat := 0x8E
def causeDieFenced : Nat := 0x8F
def causeMemPoison : Nat := 0xA0
def causeScratchUe : Nat := 0xA1
def causeRegUe : Nat := 0xA2
def causeReplayInvalid : Nat := 0xB1
def causeTrapNested : Nat := 0xB2
def causeLaunchMalformed : Nat := 0x80
def causeTaskMalformed : Nat := 0x86
def causeJoinUnderflow : Nat := 0x87

/-- A list of pairs in ascending order of their keys, with the value at a key set. -/
def assocSet {α : Type} : List (Nat × α) → Nat → α → List (Nat × α)
  | [], k, v => [(k, v)]
  | (a, b) :: t, k, v =>
    if k < a then (k, v) :: (a, b) :: t else if k = a then (k, v) :: t else (a, b) :: assocSet t k v

/-- The value at a key. -/
def assocGet {α : Type} : List (Nat × α) → Nat → Option α
  | [], _ => none
  | (a, b) :: t, k => if k = a then some b else assocGet t k

/-- The list of pairs without a key. -/
def assocDel {α : Type} (xs : List (Nat × α)) (k : Nat) : List (Nat × α) := xs.filter fun p => p.1 != k

/-- One value per lane from a function of the lane. -/
def mkLanes (f : Nat → Word) : Lanes := (List.range 32).map f

/-- The value of a lane. -/
def Lanes.at (ls : Lanes) (l : Nat) : Word := ls.getD l 0

/-- The lanes of a mask, ascending (R9). -/
def lanesOf (m : Word) : List Nat := (List.range 32).filter fun l => m.getLsbD l

/-- The mask of the lanes that satisfy a test. -/
def maskWhere (p : Nat → Bool) : Word :=
  BitVec.ofNat 32 ((List.range 32).foldl (fun acc l => if p l then acc + 2 ^ l else acc) 0)

/-- The mask of a list of lanes. -/
def maskOf (ls : List Nat) : Word := maskWhere fun l => ls.contains l

/-- The lowest lane of a mask. -/
def lowestLane (m : Word) : Option Nat := (lanesOf m).head?

/-- A 64-bit value from its two words (R15). -/
def dword (lo hi : Word) : DWord := BitVec.ofNat 64 (lo.toNat + 2 ^ 32 * hi.toNat)
/-- Bits [31:0] of a 64-bit value. -/
def loWord (x : DWord) : Word := BitVec.ofNat 32 x.toNat
/-- Bits [63:32] of a 64-bit value. -/
def hiWord (x : DWord) : Word := BitVec.ofNat 32 (x.toNat / 2 ^ 32)

/-- An address kept in the 56 bits of a PC (Table 14.1); bit 0 of a target is ignored (R20). -/
def pcOf (a : Int) : Nat := (a % 2 ^ 56).toNat / 2 * 2

/-! ### The wave in hand and its slot -/

namespace Wave

/-- The wave with the wanted slot as the one that issues. -/
def sel (w : Wave) (sec : Bool) : Wave :=
  if w.curSec = sec then w else { w with cur := w.sib, sib := w.cur, curSec := sec }

/-- The primary slot. -/
def pri (w : Wave) : Slot := if w.curSec then w.sib else w.cur

/-- The secondary slot. -/
def sec (w : Wave) : Slot := if w.curSec then w.cur else w.sib

/-- Lane l of vector register r: an unwritten register holds free values (R14, log 2). -/
def vreg (w : Wave) (r l : Nat) : Word :=
  match assocGet w.vregs r with
  | some ls => Lanes.at ls l
  | none => Config.freeWord w.fill (32 * r + l)

/-- The vector register r with the lanes of a mask replaced. -/
def setVreg (w : Wave) (mask : Word) (r : Nat) (f : Nat → Word) : Wave :=
  { w with vregs := assocSet w.vregs r (mkLanes fun l => if mask.getLsbD l then f l else w.vreg r l) }

/-- The wave's cluster, by device index (R3). -/
def cluster (w : Wave) : Nat := w.core / 4

/-- The wave's die (R3). -/
def die (w : Wave) : Nat := w.core / 96

/-- The tile a handle names (R171). -/
def handle (w : Wave) (h : Nat) : Option Nat := w.handles.getD h none

end Wave

namespace State

/-- The slot that issues. -/
def cur (s : State) : Slot := s.w.cur

/-- The state with the wave in hand changed. -/
def onWave (s : State) (f : Wave → Wave) : State := { s with w := f s.w }

/-- The state with the issuing slot changed. -/
def onCur (s : State) (f : Slot → Slot) : State := { s with w := { s.w with cur := f s.w.cur } }

/-- The issuing slot's active mask, `m0` (R12). -/
def m0 (s : State) : Word := s.w.cur.m0

/-- Lane l of vector register r. -/
def v (s : State) (r l : Nat) : Word := s.w.vreg r l

/-- Vector register r written in the active lanes. -/
def setV (s : State) (r : Nat) (f : Nat → Word) : State := s.onWave fun w => w.setVreg s.m0 r f

/-- Vector register r written in the lanes of a mask. -/
def setVMask (s : State) (mask : Word) (r : Nat) (f : Nat → Word) : State := s.onWave fun w => w.setVreg mask r f

/-- Lane l of the pair at r (R15). -/
def v64 (s : State) (r l : Nat) : DWord := dword (s.v r l) (s.v (r + 1) l)

/-- The pair at r written in the lanes of a mask. -/
def setV64Mask (s : State) (mask : Word) (r : Nat) (f : Nat → DWord) : State :=
  (s.setVMask mask r fun l => loWord (f l)).setVMask mask (r + 1) fun l => hiWord (f l)

/-- The pair at r written in the active lanes. -/
def setV64 (s : State) (r : Nat) (f : Nat → DWord) : State := s.setV64Mask s.m0 r f

/-- Scalar register r of the issuing slot; `s0` reads as zero (R12). -/
def sreg (s : State) (r : Nat) : Word := if r = 0 then 0 else s.w.cur.bank.sregs.getD r 0

/-- Scalar register r written; a write of `s0` is discarded (R12). -/
def setS (s : State) (r : Nat) (x : Word) : State :=
  if r = 0 then s
  else s.onCur fun c => { c with bank := { c.bank with sregs := c.bank.sregs.setIfInBounds r x } }

/-- The scalar pair at r (R15). -/
def s64 (s : State) (r : Nat) : DWord := dword (s.sreg r) (s.sreg (r + 1))

/-- The scalar pair at r written. -/
def setS64 (s : State) (r : Nat) (x : DWord) : State := (s.setS r (loWord x)).setS (r + 1) (hiWord x)

/-- Mask register k; `m0` is the active mask (R12). -/
def mreg (s : State) (k : Nat) : Word := if k = 0 then s.m0 else s.w.cur.bank.mregs.getD k 0

/-- Mask register k written; an encoding never names `m0` as a destination (R12). -/
def setM (s : State) (k : Nat) (x : Word) : State :=
  if k = 0 then s
  else s.onCur fun c => { c with bank := { c.bank with mregs := c.bank.mregs.setIfInBounds k x } }

/-- Every wave. -/
def waves (s : State) : List Wave := if s.w.live then s.w :: s.others else s.others

/-- The wave with a serial number. -/
def wave? (s : State) (wid : Nat) : Option Wave := s.waves.find? fun w => w.wid == wid

/-- The state with one wave changed. -/
def updWave (s : State) (wid : Nat) (f : Wave → Wave) : State :=
  { s with
    w := if s.w.live ∧ s.w.wid = wid then f s.w else s.w
    others := s.others.map fun w => if w.wid = wid then f w else w }

/-- Every wave changed. -/
def mapWaves (s : State) (f : Wave → Wave) : State :=
  { s with w := if s.w.live then f s.w else s.w, others := s.others.map f }

/-- A wave and a slot of it taken in hand. -/
def bring (s : State) (wid : Nat) (sec : Bool) : State :=
  if s.w.live ∧ s.w.wid = wid then { s with w := s.w.sel sec }
  else
    match s.others.find? fun w => w.wid == wid with
    | some w =>
      let rest := s.others.filter fun x => x.wid != wid
      { s with w := w.sel sec, others := if s.w.live then s.w :: rest else rest }
    | none => s

def launch? (s : State) (lid : Nat) : Option Launch := s.launches.find? fun x => x.lid == lid
def updLaunch (s : State) (lid : Nat) (f : Launch → Launch) : State :=
  { s with launches := s.launches.map fun x => if x.lid = lid then f x else x }
def group? (s : State) (gid : Nat) : Option Group := s.groups.find? fun x => x.gid == gid
def updGroup (s : State) (gid : Nat) (f : Group → Group) : State :=
  { s with groups := s.groups.map fun x => if x.gid = gid then f x else x }
def updTile (s : State) (id : Nat) (f : Tile → Tile) : State :=
  { s with tiles := s.tiles.map fun x => if x.id = id then f x else x }
def updEntry (s : State) (id : Nat) (f : Entry → Entry) : State :=
  { s with entries := s.entries.map fun x => if x.id = id then f x else x }
def updCopy (s : State) (id : Nat) (f : Copy → Copy) : State :=
  { s with copies := s.copies.map fun x => if x.id = id then f x else x }
def updQueue (s : State) (q : Nat) (f : HostQueue → HostQueue) : State :=
  { s with queues := s.queues.setIfInBounds q (f (s.queues.getD q HostQueue.zero)) }

end State

/-- A launch record with every field zero, read where there is no launch. -/
def LaunchRec.zero : LaunchRec :=
  { code := 0, trapvec := 0, futhandler := 0, args := 0, root := 0, asn := 0, shpool := 0, tapebase := 0,
    scatsize := 0, tapesize := 0, scatbase := 0, gx := 1, gy := 1, gz := 1, mboxen := false, mboxnum := 0, priv := 0,
    quire := 64, scratch := 0, cluster := 0, jobid := 0, wchk := false, sys := false, idem := false, det := false,
    gang := false, ndep := 0, prio := 0, budget := 128, waves := 1, phase := 0, mboxaddr := 0, wcbase := 0,
    deps := [], compl := 0, graphc := 0, phasec := 0, jobc := 0, roles := [] }

namespace State

/-- The attributes of the launch of the wave in hand. -/
def attr (s : State) : LaunchRec :=
  match s.launch? s.w.lid with
  | some x => x.attr
  | none => LaunchRec.zero

/-- GROUPLIN of a wave. -/
def linOf (s : State) (w : Wave) : Nat :=
  match s.group? w.gid with
  | some g => g.lin
  | none => 0

/-- The launch of the wave in hand is cancelled. -/
def cancelled (s : State) : Bool :=
  match s.launch? s.w.lid with
  | some x => x.cancelled
  | none => false

/-- The address space of the wave in hand, without a version view (R48). -/
def aspace (s : State) : ASpace := ⟨s.attr.asn, s.attr.root, none⟩

/-- The address space of the wave's redirected reads (R244). -/
def viewSpace (s : State) : ASpace := ⟨s.attr.asn, s.attr.root, s.w.tape.view⟩

/-- The next serial number, and the state that has used it. -/
def fresh (s : State) : Nat × State := (s.serial, { s with serial := s.serial + 1 })

/-- The free-value counter, and the state that has advanced it (log 1). -/
def draw (s : State) : Nat × State := (s.free, { s with free := s.free + 1 })

end State

/-! ### Trap state of the slot in hand -/

/-- TCAUSE.IN (Table 16.4). -/
def TrapRegs.inHandler (t : TrapRegs) : Bool := t.cause.getLsbD 31

/-- The slot runs its handler (R374). -/
def Slot.inHandler (c : Slot) : Bool := c.trap.inHandler

/-- A privileged context: a handler entered through TRAPVEC, or a wave of a system launch (R25). -/
def State.privileged (s : State) : Bool := s.cur.inHandler || s.attr.sys

/-- A replay entry's VALID bit (Table 16.3). -/
def RqEntry.valid (e : RqEntry) : Bool := e.pchi.getLsbD 31
/-- A replay entry's PC. -/
def RqEntry.pc (e : RqEntry) : Nat := e.pclo.toNat + 2 ^ 32 * (e.pchi.toNat % 2 ^ 24)
/-- A replay entry's OPOFF. -/
def RqEntry.opoff (e : RqEntry) : Nat := fieldAt e.pchi.toNat 24 6
/-- A replay entry without its VALID bit. -/
def RqEntry.clear (e : RqEntry) : RqEntry := { e with pchi := e.pchi &&& 0x7FFFFFFF }

/-! ### The event log -/

/-- An event record (Table 16.7) at HEAD, and the source's count advanced (R384, R385). -/
def writeEvent (s : State) (kind cause src lref lin waveid pc : Nat) (addr info : DWord) : State :=
  let headAt : Loc := ⟨.chip, 0x1F00000⟩
  let head := s.num headAt 4
  let at_ : Loc := ⟨.chip, 0x1F00040 + 64 * (head % 4096)⟩
  let seq := (assocGet s.eventSeq src).getD 0
  let word1 := src % 2 ^ 16 + cause % 2 ^ 8 * 2 ^ 16 + kind * 2 ^ 24 + seq % 2 ^ 16 * 2 ^ 48
  let word3 := waveid % 32 * 2 ^ 19 + lin % 2 ^ 40 * 2 ^ 24
  let s1 := s.setBytes at_
    (leBytes 8 s.gts ++ leBytes 8 word1 ++ leBytes 8 lref ++ leBytes 8 word3 ++ leBytes 8 pc ++ leBytes 8 addr.toNat
      ++ leBytes 8 info.toNat ++ leBytes 8 0)
  { s1.setNum headAt 4 (head + 1) with eventSeq := assocSet s.eventSeq src (seq + 1) }

/-! ### MSI-X (R287, R289) -/

/-- A byte of the MSI-X table.  As PCIe lays down, a vector's mask bit is set at reset (log 58). -/
def msixByte (s : State) (k : Nat) : Byte := Mem.get s.msixTable k ^^^ (if k % 16 = 12 then 1 else 0)

/-- A byte of the MSI-X table written. -/
def setMsixByte (s : State) (k : Nat) (b : Byte) : State :=
  { s with msixTable := Mem.put s.msixTable k (b ^^^ (if k % 16 = 12 then 1 else 0)) }

/-- The vector's mask bit is set. -/
def vecMasked (s : State) (vec : Nat) : Bool := (msixByte s (16 * vec + 12)).getLsbD 0

/-- An MSI-X vector is raised: the message is sent, or the vector becomes pending while it is masked. -/
def raiseVec (s : State) (vec : Nat) : State :=
  if !vecMasked s vec then { s with msix := vec :: s.msix }
  else if s.msixPending.contains vec then s
  else { s with msixPending := vec :: s.msixPending }

/-- Pending vectors that are no longer masked are sent. -/
def firePending (s : State) : State :=
  { s with
    msix := (s.msixPending.filter fun v => !vecMasked s v) ++ s.msix
    msixPending := s.msixPending.filter (vecMasked s) }

/-- The host error log takes a cause (Table 13.2). -/
def setHerr (s : State) (cause : Nat) : State := { s with herr := BitVec.ofNat 32 (2 ^ 31 + cause % 256) }

/-! ### Ending waves, cancelling launches, launch faults -/

/-- An accumulator tile loses a holder; the last one frees its bands once no entry of the tile is pending (R188).  With a
flag still set at the exit of the last holder, the recorded cause comes back. -/
def releaseTile (s : State) (id wid : Nat) : State × Option FaultRec :=
  match s.tiles.find? fun t => t.id == id with
  | none => (s, none)
  | some t =>
    let hs := t.holders.filter fun h => h != wid
    if hs.isEmpty && s.entries.any fun e => e.tile == id && !e.done && e.work != .wait && e.work != .rela then
      (s.updTile id fun x => { x with holders := [] }, none)
    else if hs.isEmpty then ({ s with tiles := s.tiles.filter fun x => x.id != id }, t.fault)
    else (s.updTile id fun x => { x with holders := hs }, none)

/-- Every handle of a wave is released (R188). -/
def releaseHandles (s : State) (w : Wave) : State × Option FaultRec :=
  w.handles.foldl
    (fun acc h =>
      match h with
      | none => acc
      | some id =>
        let (t, f) := releaseTile acc.1 id w.wid
        (t, acc.2.or f)) (s, none)

/-- The places of an array of n bytes at a virtual address of a root's space, page by page: the first one and how many. -/
def arraySpans (s : State) (root va n : Nat) : List (Loc × Nat) :=
  (List.range ((va % 65536 + n + 65535) / 65536)).filterMap fun k =>
    let page := 65536 * (va / 65536 + k)
    let lo := max va page
    match walk s root lo with
    | .ok x => some (x.loc lo, min (va + n) (page + 65536) - lo)
    | .error _ => none

/-- A span of places holds this one. -/
def inSpan (p : Loc × Nat) (l : Loc) : Bool :=
  l.area == p.1.area && decide (p.1.addr ≤ l.addr) && decide (l.addr < p.1.addr + p.2)

/-- The tape area of a wave (R234). -/
def tapeArea (s : State) (a : LaunchRec) (w : Wave) : Nat := a.tapebase + (s.linOf w * a.waves + w.waveid) * a.tapesize

/-- What the tape area of a wave that ends holds is unspecified to loads from then on, until it is written again
(R235, R412). -/
def retireTape (s : State) (w : Wave) : State :=
  match s.launch? w.lid with
  | none => s
  | some l =>
    if l.attr.tapesize = 0 then s
    else
      let ps := arraySpans s l.attr.root (tapeArea s l.attr w) l.attr.tapesize
      { s with oldTapes := (s.oldTapes.filter fun t => !ps.contains (t.start, t.size)) ++ ps.map fun p => ⟨p.1, p.2, []⟩ }

/-- A wave leaves the machine: it ends, its handles and its tape go (R188, R249, R330). -/
def dropWave (s : State) (wid : Nat) : State × Option FaultRec :=
  match s.wave? wid with
  | none => (s, none)
  | some w =>
    let (s1, f) := releaseHandles (retireTape s w) w
    ({ s1 with
        w := if s1.w.live ∧ s1.w.wid = wid then Wave.off else s1.w
        others := s1.others.filter fun x => x.wid != wid
        pubs := s1.pubs.filter fun p => p.wid != wid
        entries := s1.entries.filter fun e => !(e.wid == wid && (e.work == .wait || e.work == .rela)) }, f)

/-- A shadow page that will not be published goes to the frames on their way to the release ring (R79). -/
def discardShadows (s : State) (which : ShadowPage → Bool) : State :=
  let gone := s.shadows.filter which
  let (helds, n) := gone.foldl
    (fun (acc : List HeldFrame × Nat) p =>
      (acc.1 ++ [⟨acc.2, p.asn, p.wset, p.page, p.frame, 0, p.pool, true⟩], acc.2 + 1)) ([], s.serial)
  { s with shadows := s.shadows.filter fun p => !which p, held := s.held ++ helds, serial := n }

/-- A tape is discarded, and its pins with it (R249). -/
def Tape.discarded (t : Tape) : Tape := { t with quire := [], area := [], isOpen := false, base := [], badItems := [] }

/-- A launch is cancelled (R364): it starts no group, its pending tasks and posts go, its copies, entries, commands and
collectives stop (R79, R193, R252, R266, R302), with what its commands in pass 2 have written in their sets, its tapes are
discarded (R249), its saved groups end. -/
def cancelLaunch (s : State) (lid : Nat) : State :=
  let evicted := (s.groups.filter fun g => g.lid == lid && !g.onCore).map (·.gid)
  let s1 := s.updLaunch lid fun x => { x with cancelled := true, chunks := [], waiting := [], tasks := (s.groups.filter fun g => g.lid == lid && g.task.isSome).length }
  let sT := s1.mapWaves fun w => if w.lid = lid then { w with tape := Tape.discarded w.tape } else w
  let sR := (sT.others.filter fun w => w.lid == lid && evicted.contains w.gid).foldl retireTape sT
  let s2 : State := { sR with
    deques := s1.deques.map fun d => (d.1, d.2.filter fun t => t.lid != lid)
    postQueue := s1.postQueue.filter fun t => t.lid != lid
    copies := s1.copies.map fun c => if c.lid = lid then { c with stopping := true, error := none } else c
    entries := (s1.entries.filter fun e => !(e.lid == lid && !e.granted)).map fun e =>
      if e.lid = lid then { e with done := true } else e
    tiles := s1.tiles.filter fun t => t.lid != lid
    updates := s1.updates.filter fun u => u.lid != lid
    colls := s1.colls.filter fun c => !(c.lid == lid && c.outcome.isNone)
    unclear := s1.unclear ++ (s1.colls.filter fun c => c.lid == lid && c.outcome.isNone && c.params.sync).map (·.job)
    contribs := s1.contribs.filter fun c => c.lid != lid
    claims := s1.claims.filter fun c => c.lid != lid
    others := sT.others.filter fun w => !(w.lid == lid && evicted.contains w.gid)
    groups := s1.groups }
  let asn := (s.launch? lid).map fun x => x.attr.asn
  let partly := (s.updates.filter fun u => u.lid == lid && u.started && u.step.isSome).map fun u => u.wset
  discardShadows s2 fun p => p.lid == lid || (some p.asn == asn && partly.contains p.wset)

/-- A launch fault (R368, delivery L): an event record of a kind, the launch's cause, and cancellation of its remaining
work. -/
def launchFaultAs (kind : Nat) (s : State) (lid cause src lin waveid pc : Nat) (addr info : DWord) : State :=
  match s.launch? lid with
  | none => s
  | some l =>
    let s1 := writeEvent s kind cause src l.ref lin waveid pc addr info
    cancelLaunch (s1.updLaunch lid fun x => if x.cancelled then x else { x with fault := some cause }) lid

/-- A launch fault with a record of KIND 0 (Table 16.7). -/
def launchFault (s : State) (lid cause src lin waveid pc : Nat) (addr info : DWord) : State :=
  launchFaultAs 0 s lid cause src lin waveid pc addr info

/-- A wave ends with no handler (R368, delivery E), or because it exits. -/
def endWave (s : State) (wid : Nat) : State :=
  match s.wave? wid with
  | none => s
  | some w =>
    let (s1, f) := dropWave s wid
    match f with
    | none => s1
    | some r =>
      if (s.launch? w.lid).any fun l => l.cancelled then s1
      else launchFault s1 w.lid r.cause r.src (s.linOf w) w.waveid r.pc r.addr 0

/-- A launch fault met by the slot in hand at an instruction, reported by a source: the launch faults and the wave ends, its
instruction not performed (R368, R384, log 6). -/
def slotLaunchFaultAt (s : State) (src cause pc : Nat) (addr info : DWord) : State :=
  let w := s.w
  (dropWave (launchFault s w.lid cause src (s.linOf w) w.waveid pc addr info) w.wid).1

/-- The same, met at the slot's next instruction. -/
def slotLaunchFaultBy (s : State) (src cause : Nat) (addr info : DWord) : State :=
  slotLaunchFaultAt s src cause s.w.cur.pc addr info

/-- A launch fault that the core of the slot in hand reports. -/
def slotLaunchFault (s : State) (cause : Nat) (addr info : DWord) : State := slotLaunchFaultBy s s.w.core cause addr info

/-- The groups that are killed, evicted and restored together with a group: its gang instance (R335, R386). -/
def unitOf (s : State) (g : Group) : List Group := s.groups.filter fun x => x.inst == g.inst

/-- The counted barriers of instances none of whose groups is left go (R366). -/
def dropBarcs (s : State) : State :=
  { s with barcs := s.barcs.filter fun b => s.groups.any fun g => g.inst == b.1 }

/-- Everything that groups hold leaves the machine: their waves, entries and contributions, and their copies stop. -/
def dropGroups (s : State) (gids : List Nat) : State :=
  let s1 : State := (s.waves.filter fun w => gids.contains w.gid).foldl (fun t w => (dropWave t w.wid).1) s
  let s2 : State := { s1 with
    copies := s1.copies.map fun c => if gids.contains c.gid then { c with stopping := true, error := none } else c
    entries := s1.entries.filter fun e => !gids.contains e.gid
    tiles := s1.tiles.filter fun t => !gids.contains t.gid
    contribs := s1.contribs.filter fun c => !gids.contains c.gid
    groups := s1.groups.filter fun x => !gids.contains x.gid }
  discardShadows (dropBarcs s2) fun p => gids.contains p.gid

/-- A killed group of an idempotent launch goes back to its distributor or deque (R98). -/
def requeue (s : State) (l : Launch) (g : Group) : State :=
  match g.task with
  | some t => { s with deques := assocSet s.deques g.core (t :: (assocGet s.deques g.core).getD []) }
  | none =>
    match g.frag with
    | some f => s.updLaunch g.lid fun x => { x with frags := f :: x.frags }
    | none =>
      let n := if l.attr.gang then g.lin / max 1 ((l.attr.roles.map fun r => r.2.2).foldl (· + ·) 0) else g.lin
      s.updLaunch g.lid fun x =>
        if x.waiting.any fun p => p.2 == n then x else { x with waiting := (g.core / 96, n) :: x.waiting }

/-- A group is lost: its waves stop, its copies stop, its contributions are withdrawn; an idempotent launch starts it again
at most twice, any other loss is a launch fault (R98, R341).  A gang instance is lost as a whole (log 9). -/
def loseGroup (s : State) (gid cause src : Nat) : State :=
  match s.group? gid with
  | none => s
  | some g =>
    match s.launch? g.lid with
    | none => s
    | some l =>
      let gs := unitOf s g
      let n := (assocGet l.kills g.lin).getD 0
      let s1 := dropGroups s (gs.map fun x => x.gid)
      let s2 := s1.updLaunch g.lid fun x => { x with kills := assocSet x.kills g.lin (n + 1) }
      if l.cancelled then s2
      else if l.attr.idem ∧ n < 2 then gs.foldl (fun t x => requeue t l x) s2
      else launchFault s2 g.lid cause src g.lin 0 0 0 0

/-- A group is killed (R98), which writes an event record of the source that met the error (R384, R385). -/
def killGroupBy (s : State) (src gid cause : Nat) : State :=
  match s.group? gid with
  | none => s
  | some g =>
    let lref := ((s.launch? g.lid).map fun l => l.ref).getD 0
    loseGroup (writeEvent s 2 cause src lref g.lin 0 0 0 0) gid cause src

/-- A group is killed by an error that its core met. -/
def killGroup (s : State) (gid cause : Nat) : State :=
  match s.group? gid with
  | none => s
  | some g => killGroupBy s g.core gid cause

/-- The source number of an engine of a core's die that carries a copy (Table 16.8). -/
def srcCopy (core id : Nat) : Nat := 0x400 + 8 * (core / 96) + Config.copyEngine id % 8

/-- The source number of a cluster's TWE and matrix engine (Table 16.8). -/
def srcMatrix (cluster : Nat) : Nat := 0x200 + cluster

/-! ### Taking a trap -/

/-- A cause that a slot meets (R368, R420). -/
structure Trap where
  cause : Nat
  /-- The lanes that met it; none for a cause met as a whole. -/
  mask : Option Word := none
  /-- The address or reference of each lane of the mask. -/
  laddr : Nat → DWord := fun _ => 0
  info : DWord := 0
  impr : Bool := false
  /-- The instruction concerned, where it is not the one at the slot's PC. -/
  pc : Option Nat := none

/-- A cause that an instruction meets as a whole, with its address or reference (R420). -/
def Trap.whole (cause : Nat) (addr : DWord) : Trap := { cause := cause, laddr := fun _ => addr }

/-- A cause met by particular lanes. -/
def Trap.lanes (cause : Nat) (mask : Word) (laddr : Nat → DWord) : Trap :=
  { cause := cause, mask := some mask, laddr := laddr }

/-- The place of an offset in a lane's window (R89). -/
def laneLoc (w : Wave) (lane off : Nat) : Loc := ⟨.lane, (w.wid * 32 + lane) * 2 ^ 13 + off⟩

/-- The word of an instruction, as RQk_W holds it. -/
def wordOf (i : Instr) : Word :=
  match encode i with
  | some (_, w) => BitVec.ofNat 32 w
  | none => 0

/-- The replay entries of the unfinished instructions, from an entry number and an operand offset on (R373). -/
def rqOf : List Flight → Nat → List RqEntry
  | [], _ => []
  | f :: fs, off =>
    { word := wordOf f.instr, pclo := BitVec.ofNat 32 f.pc,
      pchi := BitVec.ofNat 32 (f.pc / 2 ^ 32 % 2 ^ 24 + off * 2 ^ 24 + 2 ^ 31), mask := f.mask,
      scals := Vector.ofFn fun k => (f.scals.map fun (p : Nat × Word) => p.2).getD k 0, orig := some f } :: rqOf fs (off + f.vecs.length)

/-- The captured vector operands of the unfinished instructions, written to OPND (Table 16.5, R373). -/
def writeOpnd (w : Wave) : State → List Flight → Nat → State
  | s, [], _ => s
  | s, f :: fs, off =>
    let s1 := (List.range f.vecs.length).foldl
      (fun t i =>
        (lanesOf f.mask).foldl
          (fun u l => u.setNum (laneLoc w l (w.priv + 0x50 + 4 * (off + i))) 4 (Lanes.at (f.vecs.getD i (0, [])).2 l).toNat) t) s
    writeOpnd w s1 fs (off + f.vecs.length)

/-- TCAUSE at entry (Table 16.4). -/
def tcauseWord (cause nrep : Nat) (impr : Bool) : Word :=
  BitVec.ofNat 32 (cause % 256 + nrep * 2 ^ 16 + (if impr then 2 ^ 30 else 0) + 2 ^ 31)

/-- The trap registers and the frame written anew, and the slot sent to its handler (R370, R372). -/
def enterHandler (s : State) (t : Trap) (next : Nat) (cause : Word) : State :=
  let w := s.w
  let act := w.cur.m0
  let mask := t.mask.getD act
  let addr := match lowestLane mask with
    | some l => t.laddr l
    | none => t.laddr 0
  let s1 := (lanesOf act).foldl
    (fun u l =>
      u.setBytes (laneLoc w l w.priv)
        (leBytes 8 (if mask.getLsbD l then (t.laddr l).toNat else 0) ++ leBytes 4 (w.vreg 0 l).toNat ++ leBytes 4 0)) s
  let s2 := s1.setVMask act 0 fun _ => BitVec.ofNat 32 w.priv
  s2.onCur fun c => { c with
    trap := { cause := cause, pc := next, mask := mask, act := act, addr := addr, info := t.info, depth := c.depth,
              splitOff := false }
    pc := pcOf w.trapvec
    windows := []
    wfe := none
    sleep := []
    missing := []
    ra := none
    barWait := .none
    stalled := false
    staging := none
    tlbWait := none
    entering := none
    replaying := false }

/-- A store has not been answered. -/
def storeOut (s : State) (id : Nat) : Bool := s.posted.any fun p => p.id == id

/-- The entry of an `astore` at a PC of the slot in hand has been posted, so that the engine has its operands (R205). -/
def postedOut (s : State) (i : Instr) (pc : Nat) : Bool :=
  match i with
  | .astore .. => s.entries.any fun e => e.wid == s.w.wid && e.sec == s.w.curSec && e.pc == pc && match e.work with
    | .astore .. => true
    | .mma .. | .aload .. | .azero _ | .anorm _ | .ahead .. | .rela | .wait => false
  | _ => false

/-- A readout, a `pub` or a `tlbinv` of the slot in hand that trap entry waits for (R373). -/
def entryWaits (s : State) : Bool :=
  (s.cur.tlbWait.any fun ids => ids.any (storeOut s))
    || (s.pubs.any fun p => p.wid == s.w.wid && p.sec == s.w.curSec && !p.published)
    || (s.cur.flights.any fun f => postedOut s f.instr f.pc)
    || s.entries.any fun e => e.wid == s.w.wid && e.sec == s.w.curSec && !e.done && match e.work with
      | .ahead .. | .astore .. => true
      | .mma .. | .aload .. | .azero _ | .anorm _ | .rela | .wait => false

/-- The slot stops issuing and waits to enter its handler (R370). -/
def standAtEntry (s : State) (t : Trap) (next : Nat) : State :=
  s.onCur fun c => { c with
    entering := some ⟨t.cause, t.mask, (List.range 32).map t.laddr, t.info, t.impr, next⟩
    barWait := .none, wfe := none, sleep := [], missing := [], ra := none, stalled := false, replaying := false }

/-- The slot in hand enters its handler (R370): the unfinished instructions enter the replay queue, the trap registers and frame
are written, `v0` becomes FRAMEBASE, the windows close, and the slot continues at TRAPVEC. -/
def enterNow (s : State) (t : Trap) (next : Nat) : State :=
  let fs := s.cur.flights
  let s1 := writeOpnd s.w s fs 0
  let s2 := s1.onCur fun c => { c with rq := Vector.ofFn fun k => (rqOf fs 0).getD k RqEntry.zero, flights := [] }
  enterHandler s2 t next (tcauseWord t.cause fs.length t.impr)

/-- Taking a trap (R370): the slot enters its handler, once the work that entry waits for is over (R373).  With TRAPVEC 0 the
cause is a launch fault (R368), and in a handler it is TRAP_NESTED (R374). -/
def takeTrap (s : State) (t : Trap) (next : Nat) : State :=
  let addr := match lowestLane (t.mask.getD s.m0) with
    | some l => t.laddr l
    | none => t.laddr 0
  let pc := t.pc.getD s.cur.pc
  if s.cur.inHandler then slotLaunchFaultAt s s.w.core causeTrapNested pc addr (BitVec.ofNat 64 t.cause)
  else if s.w.trapvec / 2 = 0 then slotLaunchFaultAt s s.w.core t.cause pc addr 0
  else if entryWaits s then standAtEntry s t next
  else enterNow s t next

/-- The slot in hand, which has waited to enter its handler, enters it. -/
def enterAfterWait (p : PendTrap) (s : State) : State :=
  enterNow s { cause := p.cause, mask := p.mask, laddr := fun l => p.laddr.getD l 0, info := p.info, impr := p.impr } p.next

/-- The slot leaves its handler: `v0` from V0SAVE, IN cleared, and on at TPC (R375). -/
def leaveHandler (s : State) : State :=
  let w := s.w
  let s1 := s.setVMask w.cur.trap.act 0 fun l => BitVec.ofNat 32 (s.num (laneLoc w l (w.priv + 8)) 4)
  s1.onCur fun c => { c with
    trap := { c.trap with cause := c.trap.cause &&& 0x7FFFFFFF }
    pc := c.trap.pc / 2 * 2
    windows := [] }

/-- The 64-bit address of a PC, for TPC, TINFO and fault records. -/
def pcWord (pc : Nat) : DWord := BitVec.ofNat 64 pc

end Sys2Proof.Machine
end

