-- ==== Sys2Proof/Machine/Flags.lean ====
section
/-! DEFINITION. Conditions, and the mask bits that comparisons write (Table 1.9, R141, R149, R166). -/
namespace Sys2Proof.Machine

/-- A condition between two n-bit patterns (Table 1.9, R141). -/
def ICond.holds (c : ICond) (n x y : Nat) : Bool :=
  match c with
  | .eq => x == y
  | .ne => x != y
  | .ltI => decide (signed n x < signed n y)
  | .leI => decide (signed n x ≤ signed n y)
  | .gtI => decide (signed n y < signed n x)
  | .geI => decide (signed n y ≤ signed n x)
  | .ltN => decide (x < y)
  | .leN => decide (x ≤ y)
  | .gtN => decide (y < x)
  | .geN => decide (y ≤ x)

/-- A mask register's bits of the active lanes take a condition; the other bits keep their value (R130, R141). -/
def State.setMaskBits (s : State) (k : Nat) (p : Nat → Bool) : State :=
  s.setM k ((s.mreg k &&& ~~~s.m0) ||| (maskWhere p &&& s.m0))

end Sys2Proof.Machine
end

