-- ==== Sys2Proof/Machine/Header.lean ====
section
/-! DEFINITION. What each instruction names and how it issues: registers read and written (R26), lookahead, windows
closed (R27), privilege (R25), run-ahead class (Table 2.7), and the points of R354 and R364. -/
namespace Sys2Proof

/-- Registers of a load's destination (Table 1.11). -/
def LdWidth.regs : LdWidth → Nat
  | .b64 => 2 | .b128 => 4 | _ => 1
/-- Registers of a store's source (Table 1.11). -/
def StWidth.regs : StWidth → Nat
  | .b64 => 2 | .b128 => 4 | _ => 1
/-- Bytes of a load (Table 1.11). -/
def LdWidth.bytes : LdWidth → Nat
  | .n8 | .i8 => 1 | .n16 | .i16 => 2 | .b32 => 4 | .b64 => 8 | .b128 => 16
/-- Bytes of a store (Table 1.11). -/
def StWidth.bytes : StWidth → Nat
  | .b8 => 1 | .b16 => 2 | .b32 => 4 | .b64 => 8 | .b128 => 16

/-- The order has a release part, so earlier stores must be performed (R275). -/
def Osc.releases : Osc → Bool
  | .rel _ | .ar _ | .sc _ | .arWv | .arLn => true
  | .rlx | .acq _ => false

/-- The order has an acquire part. -/
def Osc.acquires : Osc → Option Scope
  | .acq x | .ar x | .sc x => some x
  | .rlx | .rel _ | .arWv | .arLn => none

end Sys2Proof

namespace Sys2Proof.Machine

/-- How an instruction behaves in run-ahead (Table 2.7, R320). -/
inductive RaClass where
  /-- Executed; poison propagates. -/
  | exec
  /-- A cross-lane instruction: one poisoned lane poisons every lane (R155). -/
  | cross
  /-- A load or `pf`: data, or poison and a page. -/
  | load
  /-- A store: translated, the write suppressed. -/
  | store
  /-- Executed unless it would diverge or its condition is poisoned. -/
  | brc
  /-- Ends run-ahead. -/
  | stop
  deriving DecidableEq, Repr

/-- The parts of an instruction that the issue logic looks at. -/
structure Hdr where
  size : Nat := 4
  reads : List RegId := []
  /-- Registers that it names and neither reads nor writes: the tile of an `mma`, which R182 orders (R26, R186). -/
  names : List RegId := []
  /-- The registers of a store's addresses, whose poison keeps a lane from being translated (Table 2.7). -/
  addr : Option (List RegId) := none
  writes : List RegId := []
  /-- The lookahead field of a long-latency instruction. -/
  la : Option Nat := none
  closes : Bool := false
  /-- It accesses memory or an engine, and stays in order with the slot's other such instructions. -/
  mem : Bool := false
  /-- It waits for the slot's earlier stores (R382). -/
  waitsStores : Bool := false
  ra : RaClass := .exec

/-- n vector registers from r on. -/
def vregs (r n : Nat) : List RegId := (List.range n).map fun k => .v (r + k)
/-- n scalar registers from r on. -/
def sregs (r n : Nat) : List RegId := (List.range n).map fun k => .s (r + k)

/-- A vector instruction with a destination and sources. -/
def hv (d : Nat) (as : List Nat) : Hdr := { reads := as.map .v, writes := [.v d] }
/-- The same on pairs. -/
def hv2 (d : Nat) (reads : List RegId) : Hdr := { reads := reads, writes := vregs d 2 }
/-- A format L instruction. -/
def hl (la d a : Nat) : Hdr := { reads := [.v a], writes := [.v d], la := some la }
/-- A scalar instruction. -/
def hs (d : Nat) (as : List Nat) : Hdr := { reads := as.map .s, writes := [.s d] }
/-- A mask instruction. -/
def hm (d : Nat) (as : List Nat) : Hdr := { reads := as.map .m, writes := [.m d] }

/-- The index register of an M-format access: 63 names none (R100). -/
def viReg (vi : Nat) : List RegId := if vi = 63 then [] else [.v vi]
/-- The base of an M-format access (R33). -/
def baseReg (sp : Space) (sb : Nat) : List RegId := sregs sb (if sp = .g then 2 else 1)

/-- A lane load. -/
def hld (la : Nat) (sp : Space) (w : LdWidth) (vi sb d : Nat) : Hdr :=
  { reads := viReg vi ++ baseReg sp sb, writes := vregs d w.regs, la := some la, mem := true, ra := .load }
/-- A lane store. -/
def hst (la : Nat) (sp : Space) (w : StWidth) (vi sb d : Nat) : Hdr :=
  { reads := viReg vi ++ vregs d w.regs ++ baseReg sp sb, addr := some (viReg vi ++ baseReg sp sb), la := some la, mem := true
    ra := .store }

/-- A format X instruction of an engine. -/
def hx (la : Nat) (reads writes : List RegId) (waits : Bool) : Hdr :=
  { reads := reads, writes := writes, la := some la, mem := true, waitsStores := waits, ra := .stop }
/-- A tile instruction: it reads and writes its handle (R191, R200).  So does `aload`, of which the manual does not say it
(log 44). -/
def ht (la h : Nat) (reads writes : List RegId) : Hdr :=
  { reads := .a h :: reads, writes := .a h :: writes, la := some la, mem := true, ra := .stop }
/-- A format G instruction that is no special case of Table 2.7. -/
def hg (reads writes : List RegId) : Hdr := { reads := reads, writes := writes, ra := .stop }
/-- A format G instruction that accesses memory after the slot's earlier stores. -/
def hgm (reads writes : List RegId) (closes : Bool) : Hdr :=
  { reads := reads, writes := writes, closes := closes, mem := true, waitsStores := true, ra := .stop }
/-- A 16-bit instruction (R21). -/
def h16 (s : Bool) (v d : Nat) : Hdr :=
  { size := 2, reads := [.v d, if s then .s v else .v v], writes := [.v d] }

/-- What each instruction names (R26) and how it issues. -/
def hdr : Instr → Hdr
  | .add d a b | .sub d a b | .mul d a b | .mulhiI32 d a b | .mulhiN32 d a b | .and d a b | .or d a b
  | .xor d a b | .andn d a b | .shl d a b | .shr d a b | .sra d a b | .minI32 d a b | .maxI32 d a b
  | .minN32 d a b | .maxN32 d a b => hv d [a, b]
  | .clz d a | .popc d a | .brev d a | .abs d a => hv d [a]
  | .add64 d a b | .sub64 d a b | .min64I d a b | .max64I d a b | .min64N d a b | .max64N d a b =>
    hv2 d (vregs a 2 ++ vregs b 2)
  | .shl64 d a b | .shr64 d a b => hv2 d (vregs a 2 ++ [.v b])
  | .mad d a b c => hv d [a, b, c]
  | .addi d a _ | .andi d a _ | .ori d a _ | .xori d a _ | .shi _ d a _ => hv d [a]
  | .bfeN d a b | .bfeI d a b => hv d [a, b]
  | .bfi d a b | .perm d a b => hv d [a, b, d]
  | .sel m d a b => { hv d [a, b] with reads := [.v a, .v b, .m m] }
  | .icmp _ m a b => { reads := [.v a, .v b], writes := [.m m] }
  | .icmp64 _ m a b => { reads := vregs a 2 ++ vregs b 2, writes := [.m m] }
  | .movi d _ => hv d []
  | .movh d _ => hv d [d]
  | .fadd d a b | .fsub d a b | .fmul d a b | .fmin d a b | .fmax d a b | .fcopysign d a b | .fldexp d a b
  | .fadd2 d a b | .fmul2 d a b => hv d [a, b]
  | .fdot2 d a b => hv d [a, b, d]
  | .ffma d a b c | .ffma2 d a b c => hv d [a, b, c]
  | .fcmp _ m a b => { reads := [.v a, .v b], writes := [.m m] }
  | .frcp la d a | .frsq la d a | .fsqrt la _ d a | .fexp2 la d a | .flog2 la d a | .fsin la d a
  | .fcos la d a | .frnd la _ d a | .fclass la d a => hl la d a
  | .cvtF32I32 la _ d a | .cvtF32N32 la _ d a | .cvtI32F32 la _ _ d a | .cvtN32F32 la _ _ d a
  | .cvtF16F32 la _ _ d a | .cvtBf16F32 la _ _ d a | .cvtF32F16 la d a | .cvtF32Bf16 la d a
  | .cvtI8I32 la _ d a | .cvtN8I32 la _ d a | .cvtI16I32 la _ d a | .cvtN16I32 la _ d a => hl la d a
  | .cvtF32I64 la _ d a | .cvtF32N64 la _ d a => { hl la d a with reads := vregs a 2 }
  | .cvtI64F32 la _ _ d a | .cvtN64F32 la _ _ d a => { hl la d a with writes := vregs d 2 }
  | .pack la t d a =>
    { hl la d a with reads := vregs a (match t with | .i8 | .n8 => 4 | .f16 | .bf16 | .i16 | .n16 => 2) }
  | .unpack la t d a =>
    { hl la d a with writes := vregs d (match t with | .i8 | .n8 => 4 | .f16 | .bf16 | .i16 | .n16 => 2) }
  | .bfpx la _ d a => hl la d a
  | .bfpq la _ d a => { hl la d a with ra := .cross }
  | .shfl la d a b => { hl la d a with reads := [.v a, .v b], ra := .cross }
  | .bcast la d a s => { hl la d a with reads := [.v a, .s s], ra := .cross }
  | .vote la _ d a => { reads := [.m a], writes := [.m d], la := some la, ra := .cross }
  | .redu la _ d a | .scan la _ _ d a | .compact la d a => { hl la d a with ra := .cross }
  | .mand d a b | .mor d a b | .mxor d a b => hm d [a, b]
  | .mnot d a => hm d [a]
  | .mpop s a | .mfirst s a | .mget s a => { reads := [.m a], writes := [.s s] }
  | .mset d s => { reads := [.s s], writes := [.m d] }
  | .sadd d a b | .ssub d a b | .smul d a b | .sand d a b | .sor d a b | .sxor d a b | .sshl d a b
  | .sshr d a b | .ssra d a b | .smin d a b | .smax d a b => hs d [a, b]
  | .smov d a => hs d [a]
  | .saddi d a _ => hs d [a]
  | .smovi d _ => hs d []
  | .scmp _ m a b => { reads := [.s a, .s b], writes := [.m m] }
  | .ldP la w vi sb d => hld la .p w vi sb d
  | .ldC la w vi sb d => hld la .c w vi sb d
  | .ldK la w vi sb d => hld la .k w vi sb d
  | .ldX la w vi sb d => hld la .x w vi sb d
  | .ldG la w vi sb d => hld la .g w vi sb d
  | .stP la w vi sb d => hst la .p w vi sb d
  | .stC la w vi sb d => hst la .c w vi sb d
  | .stK la w vi sb d => hst la .k w vi sb d
  | .stX la w vi sb d => hst la .x w vi sb d
  | .stG la w vi sb d => hst la .g w vi sb d
  | .ldu la sp _ w a d =>
    { reads := sregs a (if sp = .g then 2 else 1), writes := sregs d w.regs, la := some la, mem := true, ra := .load }
  | .stu la sp _ w a d =>
    { reads := sregs a (if sp = .g then 2 else 1) ++ sregs d w.regs, addr := some (sregs a (if sp = .g then 2 else 1))
      la := some la, mem := true, ra := .store }
  | .atom la o sp op a d =>
    hx la (vregs a (if sp = .g then 2 else 1) ++ vregs d (if Wf.atom64 op then 2 else 1))
      (vregs d (if Wf.atom64 op then 2 else 1)) o.releases
  | .cas la o sp wide a d =>
    hx la (vregs a (if sp = .g then 2 else 1) ++ vregs d (if wide then 4 else 2)) (vregs d (if wide then 2 else 1))
      o.releases
  | .gsadd la a v => hx la (vregs a 2 ++ [.v v]) [] false
  | .gsflush la => hx la [] [] false
  | .fence la o => hx la [] [] o.releases
  | .pf la _ _ a => { hx la (vregs a 2) [] false with ra := .load }
  | .cinv la _ a | .cwb la a => hx la (vregs a 2) [] false
  | .stash la _ k s v =>
    hx la (vregs v (match k with | .k8 => 8 | .k16 => 16 | .k32 => 32) ++ sregs s 4) [] false
  | .cpy la _ d s => hx la (sregs s 2 ++ sregs d 2) [] true
  | .cpyq la _ d => hx la [] [.s d] false
  | .pub la s => hx la (sregs s 2) [] true
  | .bcbini la _ s | .bcbexp la _ s => hx la [.s s] [] false
  | .bcbwait la _ => hx la [] [] false
  | .mma la _ sf bsrc h vi => { hx la (.v vi :: sregs sf (if bsrc then 10 else 8)) [] true with names := [.a h] }
  | .acqa la h s => { hx la [.s s] [] false with reads := [.a h, .s s], writes := [.a h] }
  | .rela la h | .azero la h | .anorm la h | .mwait la h => ht la h [] []
  | .aload la h s => { ht la h (sregs s 2) [] with waitsStores := true }
  | .astore la h s => { ht la h (sregs s 4) [] with waitsStores := true }
  | .ahead la h d => ht la h [] [.v d]
  | .rast la s a d => hx la (vregs a 7 ++ sregs s 2) (vregs d 1) true
  | .radj la a d => hx la (vregs a 10) (vregs d 6) false
  | .esamp la s a d => hx la (vregs a 6 ++ sregs s 2) (vregs d 5) false
  | .tex la s a d => hx la (vregs a 3 ++ sregs s 2) (vregs d 4) false
  | .texadj la s a d => hx la (vregs a 7 ++ sregs s 2) (vregs d 2) false
  | .trace la s a d => hx la (vregs a 8 ++ sregs s 2) (vregs d 4) false
  | .tradj la s a d => hx la (vregs a 10 ++ sregs s 2) (vregs d 15) false
  | .tapeRec la a => hx la [.v a] [] false
  | .tapePop la d => hx la [] [.v d] false
  | .tapeMark la _ s => hx la (sregs s 6) [] false
  | .tapeSeal la => hx la [] [] false
  | .tapeStat la d => hx la [] [.s d] false
  | .upd la s => hx la (sregs s 2) [] true
  | .col la _ _ s => hx la (sregs s 2) [] true
  | .colw la s => hx la (sregs s 2) [] false
  | .wmreg la _ s => hx la (sregs s 2) [] true
  | .wmread la _ d => hx la [] (vregs d 4) true
  | .wmchk la _ d => hx la [] [.s d] false
  | .br _ => {}
  | .call _ => { writes := [.v 127], closes := true, ra := .stop }
  | .brc _ _ m => { reads := [.m m], ra := .brc }
  | .brx _ v => { reads := [.v v], closes := true, ra := .stop }
  | .callx _ v => { reads := [.v v], writes := [.v 127], closes := true, ra := .stop }
  | .ret r => { reads := [.v r], closes := true, ra := .stop }
  | .convat _ => {}
  | .conv => { closes := true, ra := .stop }
  | .demote => { ra := .stop }
  | .exit => { closes := true, ra := .stop }
  | .nop => {}
  | .yield => { closes := true, ra := .stop }
  | .trap _ => { ra := .stop }
  | .bkpt _ => { ra := .stop }
  | .bar _ => { closes := true, waitsStores := true, ra := .stop }
  | .barc s _ => { reads := [.s s], closes := true, waitsStores := true, ra := .stop }
  | .lclk s => { writes := sregs s 2 }
  | .lsync => { closes := true, ra := .stop }
  | .fork s | .join s | .spawn s => hgm (sregs s 2) [] false
  | .mbox b s => hgm [.s b, .s s] [] false
  | .fget s d => hgm (sregs s 2) (vregs d 2) true
  | .fput s d => hgm (sregs s 2 ++ vregs d 2) [] true
  | .cancel s _ => hg (sregs s 2) []
  | .cwait b s => { hgm (sregs b 2 ++ sregs s 2) [] false with waitsStores := false }
  | .getc scalar r _ => { writes := [if scalar then .s r else .v r] }
  | .setc scalar r _ => { reads := [if scalar then .s r else .v r], ra := .stop }
  | .tret => { writes := [.v 0], closes := true, ra := .stop }
  | .rinj s => { reads := [.s s], writes := [.s s], closes := true, ra := .stop }
  | .tlbinv _ s => hgm (sregs s 2) [] false
  | .wfe => { closes := true, ra := .stop }
  | .evsig _ s => hg (sregs s 2) []
  | .mov16 s v d => { h16 s v d with reads := [if s then .s v else .v v] }
  | .add16 s v d | .sub16 s v d | .and16 s v d | .or16 s v d | .xor16 s v d | .shl16 s v d | .shr16 s v d
  | .sra16 s v d | .minI3216 s v d | .maxI3216 s v d | .fadd16 s v d | .fsub16 s v d | .fmul16 s v d
  | .fmin16 s v d | .fmax16 s v d => h16 s v d
  | .fetchFault | .runAheadEnd | .faultBatchWrite _ | .resolve _ _ | .copyDelivery _ | .copyFault _ _ | .copyStop _
  | .publishPoint _ | .frameRelease _ | .tileEntryGrant _ | .mmaStep _ | .arbiterAging _ | .effprioRise _ _
  | .starvationSwap | .scatterContribution _ | .lineClose _ | .epochClose _ | .updateCommandStart _
  | .updateCommandComplete _ | .updateCommandStop _ _ | .collectiveMessage _ _ _ | .collectiveComplete _
  | .collectiveStop _ _ | .launchAccept _ | .groupStart _ | .taskStart _ | .stealRequest _ | .groupRetire _
  | .retirementMessage _ _ | .launchComplete _ | .phaseAdvance _ | .preempt _ | .groupRestore _
  | .takeInjectedCause | .wfeTimeout | .peerRead _ _ _ | .peerWrite _ _ _ | .peerAtomic _ _ _ _ _ _
  | .remoteEnqueue _ _ _ | .peerErrorResponse _ _ | .peerTimeout _ | .hostFault _ | .qtail _ _ | .queueLaunch _
  | .mailboxPost _ | .queueMarker _ | .faultsvc _ | .peertmo _ | .inwin _ | .gateopen _ | .pkgid _ | .bar2Read _ _
  | .bar2Write _ _ | .bar0RegisterWrite _ _ _ | .rst _ | .go | .signatureComplete | .coldReset _
  | .fundamentalReset _ | .clockStepDown | .clockStepUp | .thermalFence | .dieFence _ | .portDegrade _ | .powerLoss
  | .uncorrectableLogicError _ => {}

/-- A privileged instruction (R25); `setc` to PSLICE is bound more strictly (R371). -/
def isPrivileged : Instr → Bool
  | .tret | .rinj _ | .tlbinv _ _ | .evsig _ _ => true
  | .setc _ _ i => setcPrivileged i
  | _ => false

/-- The `setc` that only a wave of a system launch may execute (R25). -/
def needsSystem : Instr → Bool
  | .setc _ _ i => i == 0x1F0
  | _ => false

/-- A tile that an instruction names has more than one holder (R182, R200). -/
def sharedTile (s : State) (h : Nat) : Bool :=
  match s.w.handle h with
  | none => false
  | some id => s.tiles.any fun t => t.id == id && decide (1 < t.holders.length)

/-- A synchronising operation: of the tile instructions those of Table 8.2 (R200, R353). -/
def isSync (s : State) : Instr → Bool
  | .atom .. | .cas .. | .bar _ | .barc _ _ | .fget _ _ | .fput _ _ | .lsync => true
  | .mma _ _ _ _ h _ | .aload _ h _ | .azero _ h | .anorm _ h | .ahead _ h _ | .astore _ h _ => sharedTile s h
  | _ => false

/-- It reads or changes the wave's tape (Table 10.4). -/
def onTape : Instr → Bool
  | .tapeRec .. | .tapePop .. | .tapeMark .. | .tapeSeal .. | .tapeStat .. => true
  | _ => false

/-- It captures its operands in the slot's staging area and hands its work to an engine (R373). -/
def engineBound : Instr → Bool
  | .cpy .. | .pub .. | .upd .. | .col .. | .mma .. | .aload .. | .azero .. | .astore .. | .anorm .. | .ahead .. => true
  | _ => false

/-- A `brc` continues at its target for every lane. -/
def brcTaken (s : State) (neg : Bool) (m : Nat) : Word :=
  s.m0 &&& (if neg then ~~~(s.mreg m) else s.mreg m)

/-- The slot itself goes to the target: where a `brc` diverges, it goes on with the lanes not taken (R312, R318). -/
def brcGoes (s : State) (neg : Bool) (m : Nat) : Bool := brcTaken s neg m == s.m0

/-- A point at which cancellation takes effect as an instruction issues (R364): a backward taken branch, a `yield`, a `wfe`
or a synchronising operation.  Any other wait takes it when it finds that it must wait (R85). -/
def cancelPoint (s : State) (i : Instr) : Bool :=
  isSync s i ||
  match i with
  | .br o => decide (o ≤ 0)
  | .brc o neg m => decide (o ≤ 0) && brcGoes s neg m
  | .yield | .wfe => true
  | _ => false

end Sys2Proof.Machine
end

