-- ==== Sys2Proof/Machine/Issue.lean ====
section
/-! DEFINITION. Issuing one instruction of the slot in hand: the checks of R24 in their order, the holds of R27, R354 and
R373, run-ahead (R60, R61), retirement (R353) and what an instruction can end in. -/
namespace Sys2Proof.Machine

/-- What performing an instruction comes to. -/
inductive Res where
  /-- Performed; the slot continues at the next instruction. -/
  | done (s : State)
  /-- Performed, with the slot's PC already set. -/
  | jump (s : State)
  /-- Over, with the slot's own bookkeeping already made. -/
  | settled (s : State)
  /-- Not performed yet: the slot waits and issues the instruction again. -/
  | hold (s : State)
  /-- A precise trap before the instruction issues (R370). -/
  | trap (t : Trap)
  /-- A precise trap, whose entry also makes this change (R77). -/
  | trapIn (s : State) (t : Trap)
  /-- Performed and retired, and then a trap at the next instruction (Table 16.6). -/
  | after (s : State) (t : Trap)
  /-- An access met PAGE_FAULT on these pages, in these lanes, at these addresses (R57), after the instruction had captured
  these descriptor words. -/
  | page (pages : List FaultPage) (mask : Word) (laddr : Nat → DWord) (words : Option (List Nat) := none)
  /-- A fetch that is part of the instruction met PAGE_FAULT (R326). -/
  | fetchPage (p : FaultPage) (addr : DWord)
  /-- A launch fault (R368). -/
  | lfault (cause : Nat) (addr info : DWord)

namespace Res

/-- Continue a computation that has been performed. -/
def andThen (r : Res) (f : State → Res) : Res :=
  match r with
  | .done s => f s
  | other => other

/-- The descriptor words that the instruction captured go with what it came to: into the staging of the slot, or to the
entry of a replay queue (R72, R211, R373). -/
def capturing (ws : List Nat) (r : Res) : Res :=
  match r with
  | .done s => .done (s.onCur fun c => { c with staging := some ws })
  | .hold s => .hold (s.onCur fun c => { c with staging := some ws })
  | .page ps mask laddr _ => .page ps mask laddr (some ws)
  | other => other

end Res

/-- The members of two lists meet. -/
def meets (as bs : List RegId) : Bool := as.any fun a => bs.contains a

/-- Registers without `m0`, which R26 leaves out. -/
def noM0 (rs : List RegId) : List RegId := rs.filter fun r => r != .m 0

/-- These registers break an open window of the slot (R26). -/
def hitsWindow (s : State) (reads writes : List RegId) : Bool :=
  s.cur.windows.any fun w =>
    meets (noM0 (reads ++ writes)) w.writes || meets (noM0 writes) w.reads

/-- A vector register past the budget is named (R14). -/
def pastBudget (s : State) (rs : List RegId) : Bool :=
  rs.any fun r => match r with
    | .v n => decide (s.w.budget ≤ n)
    | .s _ | .m _ | .a _ => false

/-- The open windows after one more instruction (R26). -/
def advanceWindows (ws : List Window) : List Window :=
  (ws.map fun w => { w with left := w.left - 1 }).filter fun w => w.left != 0

/-- The window that an instruction opens. -/
def ownWindow (h : Hdr) : List Window :=
  match h.la with
  | some (n + 1) => [⟨n + 1, noM0 h.reads, noM0 h.writes⟩]
  | _ => []

/-- A window over registers that a long-latency instruction names through an operand value. -/
def addWindow (s : State) (la : Nat) (reads writes : List RegId) : State :=
  if la = 0 then s else s.onCur fun c => { c with windows := c.windows ++ [⟨la + 1, reads, writes⟩] }

/-- The checks of R24 that need no operand. -/
def issueTrap (i : Instr) (s : State) : Option Trap :=
  let h := hdr i
  if needsSystem i ∧ !s.attr.sys then some (Trap.whole causePriv 0)
  else if isPrivileged i ∧ !s.privileged then some (Trap.whole causePriv 0)
  else if pastBudget s (h.reads ++ h.writes) then some (Trap.whole causeRegRange 0)
  else if hitsWindow s (h.reads ++ h.names) h.writes then some (Trap.whole causeLookahead 0)
  else none

/-! ### Deterministic scheduling -/

/-- The global index of a wave in its launch (R352). -/
def globalIndex (s : State) (w : Wave) : Nat := s.linOf w * 32 + w.waveid

/-- A live slot has arrived at a barrier, or is parked (R366). -/
def Slot.arrived (c : Slot) : Bool := !c.live || c.status == .parked || c.barWait != .none

/-- Each live slot of the wave waits at a barrier after its arrival (R354, R366). -/
def Wave.arrived (w : Wave) : Bool :=
  w.cur.arrived && w.sib.arrived && (w.cur.barWait != .none || w.sib.barWait != .none)

/-- It is the turn of the wave in hand (R354). -/
def detTurn (s : State) : Bool :=
  s.waves.all fun w =>
    w.lid != s.w.lid || w.wid == s.w.wid || w.arrived || decide (s.w.lclock < w.lclock)
      || (s.w.lclock == w.lclock && decide (globalIndex s s.w < globalIndex s w))

/-! ### Holds -/

/-- Waits that the instructions of their window may pass (R26, R85, R191, R307). -/
def isWait : Instr → Bool
  | .bcbwait _ _ | .mwait _ _ | .colw _ _ => true
  | _ => false

/-- Words of OPND that the unfinished instructions hold (R373). -/
def opndUsed (c : Slot) : Nat := (c.flights.map fun (f : Flight) => f.vecs.length).foldl (· + ·) 0

/-- Vector registers that an instruction captures (R373). -/
def capturedVecs (i : Instr) : List Nat :=
  if engineBound i then []
  else (hdr i).reads.filterMap fun r => match r with
    | .v n => some n
    | .s _ | .m _ | .a _ => none

/-- What a long-latency instruction captures finds room beside the slot's unfinished instructions: an entry, and OPND or the
staging area (R373).  In a handler the replay entries still VALID hold the staging area. -/
def captureFits (i : Instr) (c : Slot) : Bool :=
  (hdr i).la.isNone
    || (decide (c.flights.length < 16) && decide (opndUsed c + (capturedVecs i).length ≤ 44)
      && !(engineBound i && ((c.flights.any fun f => f.staged.isSome)
        || (c.inHandler && c.rq.toList.any fun e => e.valid && e.orig.any fun f => f.staged.isSome))))

/-- The registers of an instruction meet those of an unfinished one, which the scoreboard holds it for (R26). -/
def regHeld (s : State) (h : Hdr) : Bool :=
  s.cur.flights.any fun f =>
    let g := hdr f.instr
    meets (noM0 (h.reads ++ h.names ++ h.writes)) g.writes || meets (noM0 h.writes) g.reads

/-- Posted stores of the slot that have not been answered. -/
def storesOut (s : State) : Bool :=
  s.posted.any fun p => p.wid == s.w.wid && p.sec == s.w.curSec

/-- The instruction waits for the slot's stores, at which a cancellation ends its wave (R364, R382). -/
def waitsForStores (i : Instr) (s : State) : Bool := (hdr i).waitsStores && storesOut s

/-- A tape instruction waits for one that the wave's other slot has left unfinished: a wave's tape instructions take effect in
the order of their issue (R245). -/
def waitsForTape (i : Instr) (s : State) : Bool :=
  onTape i && s.w.sib.flights.any fun f => onTape f.instr

/-- `gsflush` waits for the contributions that the wave's other slot has left unfinished (R258). -/
def waitsForScatter (i : Instr) (s : State) : Bool :=
  match i with
  | .gsflush _ => s.w.sib.flights.any fun f => match f.instr with
    | .gsadd .. | .texadj .. => true
    | _ => false
  | _ => false

/-- The instruction waits before it issues (R27, R205, R353, R373, R382). -/
def held (i : Instr) (s : State) : Bool :=
  let h := hdr i
  (h.closes && !s.cur.flights.isEmpty)
    || regHeld s h
    || (s.cur.flights.any fun f => f.waits && f.left == 0)
    || (h.mem && s.cur.flights.any fun f => !f.waits && (hdr f.instr).mem && !postedOut s f.instr f.pc)
    || waitsForTape i s
    || waitsForScatter i s
    || !captureFits i s.cur
    || waitsForStores i s
    || (s.attr.det && isSync s i && !detTurn s)

/-- An imprecise cause of an earlier store is raised at this instruction (R382). -/
def impreciseTrap (i : Instr) (s : State) : Option (Trap × List StoreFault) :=
  match s.cur.imprecise with
  | [] => none
  | f :: rest =>
    if (hdr i).waitsStores || i == .exit then
      some ({ cause := f.cause, laddr := fun _ => f.addr, info := pcWord f.pc, impr := true, pc := some f.pc }, rest)
    else none

/-! ### Retirement -/

/-- One more instruction of the wave has retired (R353). -/
def countRetired (s : State) : State := s.onWave fun w => { w with lclock := w.lclock + 1 }

/-- The slot has issued an instruction: it leaves urgency (R352), and its windows and unfinished instructions count (R26). -/
def issued (i : Instr) (ws : List Window) (s : State) : State :=
  s.onCur fun c => { c with
    windows := ws
    flights := c.flights.map fun f => { f with left := f.left - 1 }
    waited := 0
    urgent := none
    yielded := i == .yield
    issuedAt := s.gts
    stalled := false
    staging := none }

/-- The windows of a slot after an instruction of it (R26, R27). -/
def windowsAfter (i : Instr) (c : Slot) : List Window :=
  if (hdr i).closes then [] else advanceWindows c.windows ++ ownWindow (hdr i)

/-- An instruction retires (R353): its window counts, its own window opens, and the slot leaves urgency (R352). -/
def retire (i : Instr) (s : State) : State := countRetired (issued i (windowsAfter i s.cur) s)

/-- The slot's PC past an instruction. -/
def stepPc (i : Instr) (s : State) : State :=
  s.onCur fun c => { c with pc := (c.pc + (hdr i).size) % 2 ^ 56 }

/-- A trap taken at the instruction where the slot stands. -/
def raise (s : State) (t : Trap) : State := takeTrap s t s.cur.pc

/-- A captured instruction (R373).  A mask register that it reads, and HELPER, are captured too (R132, R329); an
engine-bound instruction keeps its registers in the staging area. -/
def capture (i : Instr) (s : State) (words : Option (List Nat)) (waits : Bool) : Flight :=
  let h := hdr i
  let keep := !engineBound i
  { id := s.serial, instr := i, pc := s.cur.pc, mask := s.m0
    vecs := (capturedVecs i).map fun n => (n, mkLanes (s.v n))
    scals := if keep then ((List.range 64).filter fun n => h.reads.contains (.s n)).map fun n => (n, s.sreg n) else []
    masks := if keep then ((List.range 8).filter fun n => h.reads.contains (.m n)).map fun n => (n, s.mreg n) else []
    helper := s.w.helper, words := words
    staged := if keep ∨ postedOut s i s.cur.pc then none else some ⟨s.w.vregs, s.cur.bank.sregs, s.w.handles⟩
    left := h.la.getD 0, waits := waits }

/-- The instruction is left unfinished and the slot goes on (R26). -/
def leaveUnfinished (i : Instr) (s : State) (words : Option (List Nat)) (waits : Bool) : State :=
  let f := capture i s words waits
  let t := (issued i (windowsAfter i s.cur) s).onCur fun c => { c with flights := c.flights ++ [f] }
  stepPc i { t with defer := false, serial := s.serial + 1 }

/-- A long-latency instruction that performs its own effect and may be left unfinished (R373).  Which of them are, and for how
long, is not architected: the model leaves the others unfinished only where R60 puts them in the replay queue. -/
def deferrable (i : Instr) : Bool :=
  match i with
  | .acqa .. | .rela .. | .mwait .. | .cpyq .. | .bcbini .. | .bcbexp .. | .bcbwait .. | .colw .. | .gsadd .. | .gsflush ..
  | .radj .. | .tapeRec .. | .tapePop .. | .tapeMark .. | .tapeSeal .. | .tapeStat ..
  | .wmreg .. | .wmread .. | .wmchk .. => false
  | _ => (hdr i).la.isSome && !engineBound i

/-! ### Page faults and run-ahead -/

/-- The die on which the faults of the wave in hand are served (R58). -/
def faultDie (s : State) : Nat := s.w.die

/-- The physical address of a die's record k (Table 2.5). -/
def recordAt (s : State) (desc k : Nat) : Nat := s.num ⟨.hbm, desc⟩ 8 + 32 * k

/-- Some record of a die's ring names the page and holds STATUS 2, or 3, which is treated as 2 (Table 2.6). -/
def recordDeclines (s : State) (desc : Nat) (p : FaultPage) : Bool :=
  (List.range (s.num ⟨.hbm, desc + 8⟩ 4)).any fun k =>
    s.num ⟨.hbm, recordAt s desc k⟩ 8 == 65536 * p.page && s.num ⟨.hbm, recordAt s desc k + 8⟩ 4 % 4096 == p.asn
      && decide (2 ≤ fieldAt (s.num ⟨.hbm, recordAt s desc k + 0x18⟩ 4) 8 2)

/-- A page fault is a precise trap: no descriptor is registered, or software declined one of the pages, whose record still
says so (R58, R63). -/
def pageTraps (s : State) (pages : List FaultPage) : Bool :=
  match s.faultDesc.getD (faultDie s) none with
  | none => true
  | some desc =>
    pages.any fun p => (s.cur.declined.any fun q => q.asn == p.asn && q.page == p.page) && recordDeclines s desc p

/-- Pages added to a batch, each once with its strongest kind (R59): store or atomic, engine write, load, engine read,
fetch. -/
def kindRank : Nat → Nat
  | 1 => 5 | 2 => 5 | 5 => 4 | 0 => 3 | 4 => 2 | _ => 1

/-- One page added. -/
def addPage (ps : List FaultPage) (p : FaultPage) : List FaultPage :=
  if ps.any fun q => q.asn == p.asn && q.page == p.page then
    ps.map fun q =>
      if q.asn == p.asn && q.page == p.page && decide (kindRank q.kind < kindRank p.kind) then { q with kind := p.kind } else q
  else ps ++ [p]

/-- Several pages added. -/
def addPages (ps qs : List FaultPage) : List FaultPage := qs.foldl addPage ps

/-- The poisoned lanes of a vector register in run-ahead. -/
def RunAhead.poison (ra : RunAhead) (r : Nat) : Word := (assocGet ra.poisonV r).getD 0

/-- The poisoned bits of a mask register in run-ahead. -/
def RunAhead.poisonMask (ra : RunAhead) (r : Nat) : Word := (assocGet ra.poisonM r).getD 0

/-- The lanes in which the sources of an instruction are poisoned. -/
def RunAhead.poisoned (ra : RunAhead) (rs : List RegId) : Word :=
  rs.foldl (fun m r => match r with
    | .v n => m ||| ra.poison n
    | .s n => if ra.poisonS.contains n then BitVec.allOnes 32 else m
    | .m n => m ||| ra.poisonMask n
    | .a _ => m) 0

/-- The destinations of an instruction become poisoned in the bad ones of the lanes that it writes, and clean in the others of
them; a scalar is poisoned whole. -/
def RunAhead.mark (ra : RunAhead) (rs : List RegId) (wrote bad : Word) : RunAhead :=
  rs.foldl (fun x r => match r with
    | .v n => { x with poisonV := assocSet x.poisonV n ((x.poison n &&& ~~~wrote) ||| (bad &&& wrote)) }
    | .s n =>
      let rest := x.poisonS.filter fun k => k != n
      { x with poisonS := if bad = 0 ∨ n = 0 then rest else n :: rest }
    | .m n => { x with poisonM := assocSet x.poisonM n ((x.poisonMask n &&& ~~~wrote) ||| (bad &&& wrote)) }
    | .a _ => x) ra

/-- The lanes that an instruction writes in its destinations: the active ones, and in a mask register all of them but for
comparisons and `vote`, which keep the other bits (R141, R152, R154). -/
def wroteLanes (i : Instr) (s : State) : Word :=
  match i with
  | .icmp .. | .icmp64 .. | .fcmp .. | .vote .. => s.m0
  | _ => if (hdr i).writes.any fun r => match r with | .m _ => true | .v _ | .s _ | .a _ => false then BitVec.allOnes 32 else s.m0

/-- Run-ahead starts where the slot stands: its checkpoint, with what the unfinished instructions will write poisoned (R60). -/
def startRunAhead (pages : List FaultPage) (s : State) : State :=
  let c := s.cur
  let ra : RunAhead :=
    { pc := c.pc, m0 := c.m0, bank := c.bank, cj := c.cj, gc := c.gc, windows := c.windows, vregs := s.w.vregs,
      poisonV := [], poisonS := [], poisonM := [], count := 0, pages := pages }
  let all := BitVec.allOnes 32
  s.onCur fun d => { d with
    ra := some (c.flights.foldl (fun x f => x.mark (hdr f.instr).writes all all) ra)
    stalled := false, replaying := false }

/-- Run-ahead behind a short-latency instruction, which no replay queue holds: the checkpoint stands at it, and it issues
again (R60, R373). -/
def runAheadPast (i : Instr) (pages : List FaultPage) (s : State) : State :=
  let all := BitVec.allOnes 32
  stepPc i ((startRunAhead pages s).onCur fun d => { d with
    ra := d.ra.map fun ra => ra.mark (hdr i).writes all all
    windows := advanceWindows d.windows ++ ownWindow (hdr i) })

/-- Run-ahead ends: the slot's lanes, bank, PC and stack pointer return to the checkpoint, and its pages wait for their
batch, after which it completes its replay queue first (R60, R63). -/
def endRunAhead (ra : RunAhead) (s : State) : State :=
  let w := s.w
  let old : Wave := { w with vregs := ra.vregs }
  let w1 : Wave := { w with vregs := w.vregs.map fun p =>
    (p.1, mkLanes fun l => if ra.m0.getLsbD l then old.vreg p.1 l else w.vreg p.1 l) }
  { s with w := { w1 with cur := { w1.cur with
    pc := ra.pc, m0 := ra.m0, bank := ra.bank, cj := ra.cj, gc := ra.gc, windows := ra.windows, ra := none,
    missing := addPages w1.cur.missing ra.pages, stalled := false, staging := none, replaying := true } } }

/-- What run-ahead keeps of a performed instruction: registers, PC, caches and TLBs. -/
def raKeep (s t : State) (store : Bool) : State :=
  { s with
    w := if store then { s.w with cur := { s.w.cur with pc := t.w.cur.pc } } else { t.w with lclock := s.w.lclock }
    tlb := t.tlb
    lines := if store then s.lines else t.lines
    mem := if store then s.mem else t.mem
    free := t.free }

/-- One more instruction has run ahead: the slot has issued, and leaves urgency (R352). -/
def raCount (s : State) (ra : RunAhead) : State :=
  s.onCur fun c => { c with
    ra := some { ra with count := ra.count + 1 }, stalled := false, waited := 0, urgent := none, yielded := false
    issuedAt := s.gts }

/-- Run-ahead ends at an instruction before it looks at memory (Table 2.7): its limits are reached, the instruction ends
it or would trap, or a branch condition is poisoned.  An instruction whose lanes take the batch past 64 pages adds all of its
pages, and run-ahead ends before the next one (log 54). -/
def raStops (i : Instr) (ra : RunAhead) (s : State) : Bool :=
  decide (4096 ≤ ra.count) || decide (64 ≤ ra.pages.length) || (issueTrap i s).isSome || (hdr i).ra == .stop
    || ((hdr i).ra == .brc && ra.poisoned (hdr i).reads &&& s.m0 != 0)

/-- One instruction in run-ahead (Table 2.7).  Where only some lanes of a load meet a page that is not present, its result is
poison in every active lane (log 54).  An access that would stall on the range scoreboard ends run-ahead (R104, log 54). -/
def runAhead (i : Instr) (body : State → Res) (ra : RunAhead) (s : State) : State :=
  let h := hdr i
  let bad := ra.poisoned (h.addr.getD h.reads)
  let wrote := wroteLanes i s
  let ended (t : State) : State := endRunAhead ra t
  let adv (t : State) : State := t.onCur fun c => { c with windows := windowsAfter i c, staging := none }
  if raStops i ra s then ended s
  else
    match h.ra with
    | .stop => ended s
    | .exec | .cross | .brc =>
      let lanes := if h.ra = .cross ∧ bad &&& s.m0 ≠ 0 then BitVec.allOnes 32 else bad
      match body s with
      | .done t =>
        let u := if h.ra = .brc then raKeep s t false else stepPc i (raKeep s t false)
        raCount (adv u) (ra.mark h.writes wrote lanes)
      | .jump t =>
        if h.ra = .brc ∧ t.m0 ≠ s.m0 then ended s else raCount (adv (raKeep s t false)) (ra.mark h.writes wrote lanes)
      | _ => ended s
    | .load | .store =>
      let clean := s.m0 &&& ~~~bad
      if clean = 0 then raCount (adv (stepPc i s)) (ra.mark h.writes wrote bad)
      else
        match body (s.onCur fun c => { c with m0 := clean }) with
        | .done t =>
          let u := (raKeep s t (h.ra == .store)).onCur fun c => { c with m0 := s.m0 }
          raCount (adv (stepPc i u)) (ra.mark h.writes wrote bad)
        | .page ps _ _ _ =>
          if pageTraps s ps then ended s
          else
            raCount (adv (stepPc i s)) ({ ra with pages := addPages ra.pages ps }.mark h.writes wrote (BitVec.allOnes 32))
        | _ => ended s

/-! ### The issue itself -/

/-- Pages that a slot waits for without run-ahead (R61). -/
def awaitPages (ps : List FaultPage) (s : State) : State :=
  s.onCur fun c => { c with missing := addPages c.missing ps, stalled := false }

/-- The slot is held, and attempts again. -/
def stall (s : State) : State := s.onCur fun c => { c with stalled := true }

/-- What an instruction came to, made the state's.  A wait of a cancelled launch ends its wave (R364). -/
def conclude (i : Instr) (s : State) (r : Res) : State :=
  match r with
  | .done t => retire i (stepPc i t)
  | .jump t => retire i t
  | .settled t => t
  | .hold t =>
    if t.cancelled then endWave t t.w.wid
    else if isWait i ∧ (hdr i).la.getD 0 ≠ 0 then leaveUnfinished i t none true
    else if postedOut t i t.cur.pc ∧ (hdr i).la.getD 0 ≠ 0 then leaveUnfinished i t none false
    else stall t
  | .trap t => raise s t
  | .trapIn u t => raise u t
  | .after t tr =>
    let u := retire i (stepPc i t)
    takeTrap u { tr with pc := some t.cur.pc } u.cur.pc
  | .page ps mask laddr words =>
    if pageTraps s ps then raise s (Trap.lanes causePageFault mask laddr)
    else if (hdr i).la.isSome then startRunAhead ps (leaveUnfinished i s words (isWait i))
    else runAheadPast i ps s
  | .fetchPage p addr =>
    if pageTraps s [p] then raise s (Trap.whole causePageFault addr) else awaitPages [p] s
  | .lfault cause addr info => slotLaunchFault s cause addr info

/-- The registers of the 8-B granule of scalars or masks that starts at this one; `s0` and `m0` lie in no storage of their
own (R12, log 49). -/
def granuleRegs : RegId → List RegId
  | .s n => if n = 0 then [.s 1] else [.s n, .s (n + 1)]
  | .m n => if n = 0 then [.m 1] else [.m n, .m (n + 1)]
  | r => [r]

/-- An instruction's results cover the whole granule of scalars or masks. -/
def coversGranule (h : Hdr) (r : RegId) : Bool :=
  match r with
  | .s _ | .m _ => (granuleRegs r).all fun x => h.writes.contains x
  | .v _ | .a _ => false

/-- An instruction reads a bad granule of the register files, or writes one in part, which counts as a read of it
(R97, R98). -/
def badSource (h : Hdr) (s : State) : Bool :=
  (s.w.badRegs.any fun p =>
      let lo := s.m0.getLsbD p.2
      let hi := s.m0.getLsbD (p.2 + 1)
      ((lo || hi) && h.reads.contains (.v p.1)) || (lo != hi && h.writes.contains (.v p.1)))
    || s.cur.bank.bad.any fun r =>
      let g := granuleRegs r
      meets g h.reads || (meets g h.writes && !coversGranule h r)

/-- The marks that the instruction's results in the lanes of a mask clear: of granules that they cover (R97). -/
def clearBadRegs (h : Hdr) (mask : Word) (s : State) : State :=
  if s.w.badRegs.isEmpty && s.cur.bank.bad.isEmpty then s
  else s.onWave fun w => { w with
    badRegs := w.badRegs.filter fun p => !(mask.getLsbD p.2 && mask.getLsbD (p.2 + 1) && h.writes.contains (.v p.1))
    cur := { w.cur with bank := { w.cur.bank with
      bad := w.cur.bank.bad.filter fun r => !coversGranule h r } } }

/-- The instruction issues and is performed, or is left unfinished; a store that `defer` has posted is performed (R288). -/
def perform (i : Instr) (body : State → Res) (s : State) : State :=
  if badSource (hdr i) s then killGroup s s.w.gid causeRegUe
  else
    match body s with
    | .done t =>
      if s.defer ∧ t.defer ∧ deferrable i then leaveUnfinished i s t.cur.staging false
      else conclude i s (.done (clearBadRegs (hdr i) s.m0 t))
    | .jump t => conclude i s (.jump (clearBadRegs (hdr i) s.m0 t))
    | r => conclude i s r

/-- It closes the slot's windows before it looks at its operands; `fget` may still have to check `v127` against them
(R24, R27). -/
def closesFirst (i : Instr) : Bool :=
  match i with
  | .fget .. => false
  | _ => (hdr i).closes

/-- An instruction of the slot in hand that is not in run-ahead. -/
def issueNow (i : Instr) (body : State → Res) (s : State) : State :=
  if s.cancelled ∧ (cancelPoint s i ∨ waitsForStores i s) then endWave s s.w.wid
  else
    match issueTrap i s with
    | some t => raise s t
    | none =>
      let s0 := if closesFirst i then s.onCur fun c => { c with windows := [] } else s
      if held i s then stall s0
      else
        match impreciseTrap i s with
        | some (t, rest) => raise (s.onCur fun c => { c with imprecise := rest }) t
        | none => perform i body s0

/-- One attempt of the slot in hand to issue an instruction. -/
def issue (i : Instr) (body : State → Res) (s : State) : Host.Outcome State Fault Refusal :=
  if !s.cur.live then .fault .noSlot
  else
    match s.cur.ra with
    | some ra => .next (runAhead i body ra s)
    | none => .next (issueNow i body s)

end Sys2Proof.Machine
end

