-- ==== Sys2Proof/Machine/IntAlu.lean ====
section
/-! DEFINITION. The integer instructions of the lanes (R133 to R143). -/
namespace Sys2Proof.Machine

/-- Each active lane's destination from one source. -/
def vec1 (d a : Nat) (f : Word → Word) (s : State) : Res := .done (s.setV d fun l => f (s.v a l))
/-- From two sources. -/
def vec2 (d a b : Nat) (f : Word → Word → Word) (s : State) : Res := .done (s.setV d fun l => f (s.v a l) (s.v b l))
/-- From three sources. -/
def vec3 (d a b c : Nat) (f : Word → Word → Word → Word) (s : State) : Res :=
  .done (s.setV d fun l => f (s.v a l) (s.v b l) (s.v c l))
/-- A pair from two pairs. -/
def vecPair (d a b : Nat) (f : DWord → DWord → DWord) (s : State) : Res :=
  .done (s.setV64 d fun l => f (s.v64 a l) (s.v64 b l))
/-- The second source of a 16-bit word: a vector register, or a scalar in every lane (R143). -/
def src16 (k : Bool) (v : Nat) (s : State) (l : Nat) : Word := if k then s.sreg v else s.v v l
/-- A 16-bit word: the destination is the first source (R143). -/
def vec16 (k : Bool) (v d : Nat) (f : Word → Word → Word) (s : State) : Res :=
  .done (s.setV d fun l => f (s.v d l) (src16 k v s l))

/-- Amount bits [4:0] (R133). -/
def amt (b : Word) : Nat := b.toNat % 32
def shlW (a b : Word) : Word := a <<< amt b
def shrW (a b : Word) : Word := a >>> amt b
def sraW (a b : Word) : Word := a.sshiftRight (amt b)
def minI (a b : Word) : Word := if a.toInt ≤ b.toInt then a else b
def maxI (a b : Word) : Word := if b.toInt ≤ a.toInt then a else b
def minN (a b : Word) : Word := if a.toNat ≤ b.toNat then a else b
def maxN (a b : Word) : Word := if b.toNat ≤ a.toNat then a else b
/-- The high word of the exact product (Table 6.1). -/
def mulhiI (a b : Word) : Word := BitVec.ofInt 32 (a.toInt * b.toInt / 2 ^ 32)
def mulhiN (a b : Word) : Word := BitVec.ofNat 32 (a.toNat * b.toNat / 2 ^ 32)
/-- Leading zero bits (Table 6.2). -/
def clzW (a : Word) : Word := BitVec.ofNat 32 (if a.toNat = 0 then 32 else 31 - Nat.log2 a.toNat)
/-- One bits. -/
def popcount (a : Word) : Nat := (lanesOf a).length
/-- The bits in reverse order. -/
def brevW (a : Word) : Word := maskWhere fun i => a.getLsbD (31 - i)
def absW (a : Word) : Word := if a.toInt < 0 then -a else a
/-- An immediate as a word (Table 1.6). -/
def immW (i : Int) : Word := BitVec.ofInt 32 i

def execAdd (d a b : Nat) (s : State) := issue (.add d a b) (vec2 d a b fun x y => x + y) s
def execSub (d a b : Nat) (s : State) := issue (.sub d a b) (vec2 d a b fun x y => x - y) s
def execMul (d a b : Nat) (s : State) := issue (.mul d a b) (vec2 d a b fun x y => x * y) s
def execMulhiI32 (d a b : Nat) (s : State) := issue (.mulhiI32 d a b) (vec2 d a b mulhiI) s
def execMulhiN32 (d a b : Nat) (s : State) := issue (.mulhiN32 d a b) (vec2 d a b mulhiN) s
def execAnd (d a b : Nat) (s : State) := issue (.and d a b) (vec2 d a b fun x y => x &&& y) s
def execOr (d a b : Nat) (s : State) := issue (.or d a b) (vec2 d a b fun x y => x ||| y) s
def execXor (d a b : Nat) (s : State) := issue (.xor d a b) (vec2 d a b fun x y => x ^^^ y) s
def execAndn (d a b : Nat) (s : State) := issue (.andn d a b) (vec2 d a b fun x y => x &&& ~~~y) s
def execShl (d a b : Nat) (s : State) := issue (.shl d a b) (vec2 d a b shlW) s
def execShr (d a b : Nat) (s : State) := issue (.shr d a b) (vec2 d a b shrW) s
def execSra (d a b : Nat) (s : State) := issue (.sra d a b) (vec2 d a b sraW) s
def execMinI32 (d a b : Nat) (s : State) := issue (.minI32 d a b) (vec2 d a b minI) s
def execMaxI32 (d a b : Nat) (s : State) := issue (.maxI32 d a b) (vec2 d a b maxI) s
def execMinN32 (d a b : Nat) (s : State) := issue (.minN32 d a b) (vec2 d a b minN) s
def execMaxN32 (d a b : Nat) (s : State) := issue (.maxN32 d a b) (vec2 d a b maxN) s

def execClz (d a : Nat) (s : State) := issue (.clz d a) (vec1 d a clzW) s
def execPopc (d a : Nat) (s : State) := issue (.popc d a) (vec1 d a fun x => BitVec.ofNat 32 (popcount x)) s
def execBrev (d a : Nat) (s : State) := issue (.brev d a) (vec1 d a brevW) s
def execAbs (d a : Nat) (s : State) := issue (.abs d a) (vec1 d a absW) s

def execAdd64 (d a b : Nat) (s : State) := issue (.add64 d a b) (vecPair d a b fun x y => x + y) s
def execSub64 (d a b : Nat) (s : State) := issue (.sub64 d a b) (vecPair d a b fun x y => x - y) s
def execShl64 (d a b : Nat) (s : State) :=
  issue (.shl64 d a b) (fun s => .done (s.setV64 d fun l => s.v64 a l <<< ((s.v b l).toNat % 64))) s
def execShr64 (d a b : Nat) (s : State) :=
  issue (.shr64 d a b) (fun s => .done (s.setV64 d fun l => s.v64 a l >>> ((s.v b l).toNat % 64))) s
def execMin64I (d a b : Nat) (s : State) :=
  issue (.min64I d a b) (vecPair d a b fun x y => if x.toInt ≤ y.toInt then x else y) s
def execMax64I (d a b : Nat) (s : State) :=
  issue (.max64I d a b) (vecPair d a b fun x y => if y.toInt ≤ x.toInt then x else y) s
def execMin64N (d a b : Nat) (s : State) :=
  issue (.min64N d a b) (vecPair d a b fun x y => if x.toNat ≤ y.toNat then x else y) s
def execMax64N (d a b : Nat) (s : State) :=
  issue (.max64N d a b) (vecPair d a b fun x y => if y.toNat ≤ x.toNat then x else y) s

def execMad (d a b c : Nat) (s : State) := issue (.mad d a b c) (vec3 d a b c fun x y z => x * y + z) s
def execAddi (d a : Nat) (i : Int) (s : State) := issue (.addi d a i) (vec1 d a fun x => x + immW i) s
def execAndi (d a : Nat) (i : Int) (s : State) := issue (.andi d a i) (vec1 d a fun x => x &&& immW i) s
def execOri (d a : Nat) (i : Int) (s : State) := issue (.ori d a i) (vec1 d a fun x => x ||| immW i) s
def execXori (d a : Nat) (i : Int) (s : State) := issue (.xori d a i) (vec1 d a fun x => x ^^^ immW i) s

/-- A shift or rotation by a constant (R137). -/
def shiftBy (k : ShKind) (n : Nat) (x : Word) : Word :=
  match k with
  | .shl => x <<< n
  | .shr => x >>> n
  | .sra => x.sshiftRight n
  | .rotl => if n = 0 then x else (x <<< n) ||| (x >>> (32 - n))

def execShi (k : ShKind) (d a n : Nat) (s : State) := issue (.shi k d a n) (vec1 d a (shiftBy k n)) s

/-- The position, effective width and mask of a field control (R138). -/
def fieldPos (b : Word) : Nat := b.toNat % 32
def fieldLen (b : Word) : Nat := min (min (b.toNat / 256 % 64) 32) (32 - fieldPos b)
def fieldMask (b : Word) : Word := BitVec.ofNat 32 (2 ^ fieldLen b - 1)
/-- `bfe.n` (R138). -/
def bfeNW (a b : Word) : Word := (a >>> fieldPos b) &&& fieldMask b
/-- `bfe.i` (R138). -/
def bfeIW (a b : Word) : Word :=
  if fieldLen b = 0 then 0 else BitVec.ofInt 32 (signed (fieldLen b) (bfeNW a b).toNat)
/-- `bfi` (R138). -/
def bfiW (a b d : Word) : Word :=
  (d &&& ~~~(fieldMask b <<< fieldPos b)) ||| ((a &&& fieldMask b) <<< fieldPos b)
/-- `perm` (R139): byte k of the result. -/
def permByte (a b d : Word) (k : Nat) : Nat :=
  let sel := b.toNat / 16 ^ k % 16
  let q := (a.toNat + 2 ^ 32 * d.toNat) / 256 ^ (sel % 8) % 256
  if sel < 8 then q else if 128 ≤ q then 255 else 0
def permW (a b d : Word) : Word :=
  BitVec.ofNat 32 (permByte a b d 0 + 256 * permByte a b d 1 + 65536 * permByte a b d 2 + 16777216 * permByte a b d 3)

def execBfeN (d a b : Nat) (s : State) := issue (.bfeN d a b) (vec2 d a b bfeNW) s
def execBfeI (d a b : Nat) (s : State) := issue (.bfeI d a b) (vec2 d a b bfeIW) s
def execBfi (d a b : Nat) (s : State) := issue (.bfi d a b) (vec3 d a b d bfiW) s
def execPerm (d a b : Nat) (s : State) := issue (.perm d a b) (vec3 d a b d permW) s
def execSel (m d a b : Nat) (s : State) :=
  issue (.sel m d a b) (fun s => .done (s.setV d fun l => if (s.mreg m).getLsbD l then s.v a l else s.v b l)) s

def execIcmp (c : ICond) (m a b : Nat) (s : State) :=
  issue (.icmp c m a b) (fun s => .done (s.setMaskBits m fun l => ICond.holds c 32 (s.v a l).toNat (s.v b l).toNat)) s
def execIcmp64 (c : ICond) (m a b : Nat) (s : State) :=
  issue (.icmp64 c m a b)
    (fun s => .done (s.setMaskBits m fun l => ICond.holds c 64 (s.v64 a l).toNat (s.v64 b l).toNat)) s

def execMovi (d : Nat) (i : Int) (s : State) := issue (.movi d i) (fun s => .done (s.setV d fun _ => immW i)) s
def execMovh (d i : Nat) (s : State) :=
  issue (.movh d i) (vec1 d d fun x => BitVec.ofNat 32 (x.toNat % 65536 + 65536 * i)) s

def execMov16 (k : Bool) (v d : Nat) (s : State) := issue (.mov16 k v d) (vec16 k v d fun _ y => y) s
def execAdd16 (k : Bool) (v d : Nat) (s : State) := issue (.add16 k v d) (vec16 k v d fun x y => x + y) s
def execSub16 (k : Bool) (v d : Nat) (s : State) := issue (.sub16 k v d) (vec16 k v d fun x y => x - y) s
def execAnd16 (k : Bool) (v d : Nat) (s : State) := issue (.and16 k v d) (vec16 k v d fun x y => x &&& y) s
def execOr16 (k : Bool) (v d : Nat) (s : State) := issue (.or16 k v d) (vec16 k v d fun x y => x ||| y) s
def execXor16 (k : Bool) (v d : Nat) (s : State) := issue (.xor16 k v d) (vec16 k v d fun x y => x ^^^ y) s
def execShl16 (k : Bool) (v d : Nat) (s : State) := issue (.shl16 k v d) (vec16 k v d shlW) s
def execShr16 (k : Bool) (v d : Nat) (s : State) := issue (.shr16 k v d) (vec16 k v d shrW) s
def execSra16 (k : Bool) (v d : Nat) (s : State) := issue (.sra16 k v d) (vec16 k v d sraW) s
def execMinI3216 (k : Bool) (v d : Nat) (s : State) := issue (.minI3216 k v d) (vec16 k v d minI) s
def execMaxI3216 (k : Bool) (v d : Nat) (s : State) := issue (.maxI3216 k v d) (vec16 k v d maxI) s

end Sys2Proof.Machine
end

