-- ==== Sys2Proof/Machine/Float.lean ====
section
/-! DEFINITION. The floating formats of Table 5.1, exact values, the rounding of Table 5.2 and the arithmetic of R144
(05_number_formats, 06_lane_arithmetic). -/
namespace Sys2Proof.Machine

/-- A floating format: significand bits with the hidden one, emin and emax (Table 5.1). -/
structure FFmt where
  p : Nat
  emin : Int
  emax : Int
  deriving DecidableEq, Repr

def FFmt.b32 : FFmt := ⟨24, -126, 127⟩
def FFmt.b16 : FFmt := ⟨11, -14, 15⟩
def FFmt.bf16 : FFmt := ⟨8, -126, 127⟩

/-- Width of the exponent field. -/
def FFmt.expBits (f : FFmt) : Nat := if f.emax = 15 then 5 else 8
/-- Position of the sign bit. -/
def FFmt.signBit (f : FFmt) : Nat := f.p - 1 + f.expBits
/-- The pattern of +∞. -/
def FFmt.infBits (f : FFmt) : Nat := (2 ^ f.expBits - 1) * 2 ^ (f.p - 1)
/-- The default NaN. -/
def FFmt.nan (f : FFmt) : Nat := f.infBits + 2 ^ (f.p - 2)
/-- The pattern of the largest finite value. -/
def FFmt.maxBits (f : FFmt) : Nat := f.infBits - 1
/-- A magnitude pattern with its sign. -/
def FFmt.signed (f : FFmt) (neg : Bool) (mag : Nat) : Nat := if neg then 2 ^ f.signBit + mag else mag

/-- A value of a floating format: m × 2^e with its sign, an infinity, or a NaN (R113). -/
inductive FVal where
  | nan
  | inf (neg : Bool)
  | fin (neg : Bool) (m : Nat) (e : Int)
  deriving DecidableEq, Repr

/-- The value of a pattern (R113). -/
def FFmt.value (f : FFmt) (bits : Nat) : FVal :=
  let neg := bits / 2 ^ f.signBit % 2 == 1
  let field := bits / 2 ^ (f.p - 1) % 2 ^ f.expBits
  let frac := bits % 2 ^ (f.p - 1)
  let low : Int := f.emin - ((f.p : Int) - 1)
  if field = 2 ^ f.expBits - 1 then (if frac = 0 then .inf neg else .nan)
  else if field = 0 then .fin neg frac low
  else .fin neg (frac + 2 ^ (f.p - 1)) (low + ((field : Int) - 1))

/-- n × 2^k, or a little more where `sticky`, rounded to an integer (R115). -/
def rndNat (rm : Rm) (neg : Bool) (n : Nat) (k : Int) (sticky : Bool) : Nat :=
  if 0 ≤ k then n * 2 ^ k.toNat
  else
    let d := 2 ^ (-k).toNat
    let q := n / d
    let r := n % d
    let up :=
      match rm with
      | .rne => decide (d < 2 * r) || (decide (d = 2 * r) && (sticky || q % 2 == 1))
      | .rtz => false
      | .rup => !neg && (r != 0 || sticky)
      | .rdn => neg && (r != 0 || sticky)
    if up then q + 1 else q

/-- The pattern of the sign and n × 2^k (n not 0), or a little more where `sticky`, rounded into a format (Table 5.2).  Where a
number that is not zero rounds to zero, Table 5.2 names no sign of that zero: the model keeps the number's (log 61). -/
def FFmt.round (f : FFmt) (rm : Rm) (neg : Bool) (n : Nat) (k : Int) (sticky : Bool) : Nat :=
  let lead : Int := (Nat.log2 n : Int) + k
  let top := max lead f.emin
  let m := rndNat rm neg n (k - (top - ((f.p : Int) - 1))) sticky
  let mag := (top - f.emin).toNat * 2 ^ (f.p - 1) + m
  if mag < f.infBits then f.signed neg mag
  else
    let toInf :=
      match rm with
      | .rne => true
      | .rtz => false
      | .rup => !neg
      | .rdn => neg
    f.signed neg (if toInf then f.infBits else f.maxBits)

/-- A signed number m × 2^k rounded into a format; an exact zero gives +0 (R115). -/
def FFmt.roundInt (f : FFmt) (rm : Rm) (m k : Int) : Nat :=
  if m = 0 then 0 else f.round rm (decide (m < 0)) m.natAbs k false

/-- A signed number m × 2^k rounded to an integer (R115). -/
def rndInt (rm : Rm) (m k : Int) : Int :=
  let neg := decide (m < 0)
  let r : Nat := rndNat rm neg m.natAbs k false
  if neg then -(r : Int) else (r : Int)

/-- The sign of a value. -/
def FVal.neg? : FVal → Bool
  | .nan => false
  | .inf n => n
  | .fin n _ _ => n

/-- The value with its sign changed. -/
def FVal.negate : FVal → FVal
  | .nan => .nan
  | .inf n => .inf (!n)
  | .fin n m e => .fin (!n) m e

/-- The value is a zero. -/
def FVal.isZero : FVal → Bool
  | .fin _ m _ => m == 0
  | .nan | .inf _ => false

/-- The exact product (R144): a zero times an infinity is no number. -/
def FVal.mul : FVal → FVal → FVal
  | .nan, _ => .nan
  | _, .nan => .nan
  | .inf a, .inf b => .inf (a != b)
  | .inf a, .fin b m _ => if m = 0 then .nan else .inf (a != b)
  | .fin a m _, .inf b => if m = 0 then .nan else .inf (a != b)
  | .fin a m e, .fin b n k => .fin (a != b) (m * n) (e + k)

/-- The exact sum of finite terms as m × 2^e. -/
def exactSum (ts : List FVal) : Int × Int :=
  let low := ts.foldl (fun (acc : Int) t => match t with | .fin _ _ e => min acc e | .nan | .inf _ => acc) 4096
  (ts.foldl (fun (acc : Int) t => match t with
    | .fin n m e => let v : Int := ((m * 2 ^ (e - low).toNat : Nat) : Int); if n then acc - v else acc + v
    | .nan | .inf _ => acc) 0, low)

/-- The sum of the terms of an instruction, rounded once (Table 6.4). -/
def FFmt.sum (f : FFmt) (rm : Rm) (ts : List FVal) : Nat :=
  if ts.contains .nan then f.nan
  else
    match ts.contains (.inf false), ts.contains (.inf true) with
    | true, true => f.nan
    | true, false => f.infBits
    | false, true => f.signed true f.infBits
    | false, false =>
      let (m, e) := exactSum ts
      if m = 0 then
        if ts.all fun t => t.isZero && !t.neg? then 0
        else if ts.all fun t => t.isZero && t.neg? then f.signed true 0
        else if rm = .rdn then f.signed true 0 else 0
      else f.roundInt rm m e

def FFmt.addBits (f : FFmt) (rm : Rm) (a b : Nat) : Nat := f.sum rm [f.value a, f.value b]
def FFmt.subBits (f : FFmt) (rm : Rm) (a b : Nat) : Nat := f.sum rm [f.value a, (f.value b).negate]
def FFmt.mulBits (f : FFmt) (rm : Rm) (a b : Nat) : Nat := f.sum rm [(f.value a).mul (f.value b)]
def FFmt.fmaBits (f : FFmt) (rm : Rm) (a b c : Nat) : Nat := f.sum rm [(f.value a).mul (f.value b), f.value c]

/-- A number that orders values as R149 compares them: both zeros alike. -/
def FFmt.ltVal : FVal → FVal → Bool
  | .fin a m e, .fin b n k =>
    let low := min e k
    let x : Int := (m * 2 ^ (e - low).toNat : Nat)
    let y : Int := (n * 2 ^ (k - low).toNat : Nat)
    decide ((if a then -x else x) < (if b then -y else y))
  | .inf a, .inf b => a && !b
  | .inf a, .fin _ _ _ => a
  | .fin _ _ _, .inf b => !b
  | .nan, _ => false
  | _, .nan => false

/-- A pattern as a number in which −0 lies below +0 (R146). -/
def orderKey (bits : Nat) : Int := if bits < 2 ^ 31 then (bits : Int) else -((bits - 2 ^ 31 : Nat) : Int) - 1

def isNan32 (a : Nat) : Bool := FFmt.b32.value a == .nan

/-- `fmin` (R146). -/
def fminBits (a b : Nat) : Nat :=
  match isNan32 a, isNan32 b with
  | true, true => FFmt.b32.nan
  | true, false => b
  | false, true => a
  | false, false => if orderKey b < orderKey a then b else a

/-- `fmax` (R146). -/
def fmaxBits (a b : Nat) : Nat :=
  match isNan32 a, isNan32 b with
  | true, true => FFmt.b32.nan
  | true, false => b
  | false, true => a
  | false, false => if orderKey a < orderKey b then b else a

/-- `fldexp` (R146). -/
def ldexpBits (rm : Rm) (a : Nat) (n : Int) : Nat :=
  match FFmt.b32.value a with
  | .nan => FFmt.b32.nan
  | .inf _ => a
  | .fin neg m e => if m = 0 then a else FFmt.b32.round rm neg m (e + max (-1024) (min n 1024)) false

/-- A condition of `fcmp` (R149). -/
def FCond.holds (c : FCond) (a b : Nat) : Bool :=
  let x := FFmt.b32.value a
  let y := FFmt.b32.value b
  let ord := x != .nan && y != .nan
  let lt := FFmt.ltVal x y
  let gt := FFmt.ltVal y x
  match c with
  | .eq => ord && !lt && !gt
  | .ne => !ord || lt || gt
  | .lt => ord && lt
  | .le => ord && !gt
  | .gt => ord && gt
  | .ge => ord && !lt
  | .ord => ord
  | .uno => !ord

/-- The value of a binary32 pattern. -/
def val32 (x : Nat) : FVal := FFmt.b32.value x

/-- A sum of terms rounded to nearest in binary32. -/
def rneSum (ts : List FVal) : Nat := FFmt.b32.sum .rne ts

/-- n/d × 2^e rounded to nearest in binary32, d not 0; an exact zero is +0 (R115). -/
def rneRatio (n d e : Int) : Nat :=
  if n = 0 then 0
  else
    let k := 64 + Nat.log2 d.natAbs
    FFmt.b32.round .rne (decide (n < 0) != decide (d < 0)) (n.natAbs * 2 ^ k / d.natAbs) (e - k)
      (n.natAbs * 2 ^ k % d.natAbs != 0)

/-- The terms' sum rounded to nearest once, in an entry that names no sign for zeros: an exact zero is +0 (R115). -/
def rneZero (ts : List FVal) : Nat :=
  let odd := ts.any fun t => match t with
    | .nan | .inf _ => true
    | .fin _ _ _ => false
  if !odd && (exactSum ts).1 == 0 then 0 else rneSum ts

/-- A quotient that the manual gives no value: any pattern but a NaN other than the default one (R114, log 1). -/
def openResult (x y : Nat) : Nat :=
  let q := Config.openQuotient x y % 2 ^ 32
  if isNan32 q then FFmt.b32.nan else q

/-- x/y rounded to nearest in binary32: a NaN gives the default NaN (R114), an exact zero is +0 (R115), and the result for an
infinite operand or a zero divisor is free, but for its pattern where it is a NaN (log 1). -/
def quotient (x y : Nat) : Nat :=
  match val32 x, val32 y with
  | .nan, _ => FFmt.b32.nan
  | _, .nan => FFmt.b32.nan
  | .inf _, _ | .fin _ _ _, .inf _ => openResult x y
  | .fin a m e, .fin b n k =>
    if n = 0 then openResult x y
    else rneRatio (if a then -(m : Int) else m) (if b then -(n : Int) else n) (e - k)

/-- The pattern with its sign changed. -/
def negBits (x : Nat) : Nat := if x < 2 ^ 31 then x + 2 ^ 31 else x - 2 ^ 31

/-- floor(log2 |x|) of a finite value that is not zero. -/
def FVal.log2 : FVal → Int
  | .fin _ m e => (Nat.log2 m : Int) + e
  | .nan | .inf _ => 0

end Sys2Proof.Machine
end

