-- ==== Sys2Proof/Machine/Special.lean ====
section
/-! DEFINITION. The special functions of R150 to R154: exact values taken to 320 fraction bits and rounded once.  Where the
exact value is rational it is found exactly; elsewhere it is irrational and 320 bits decide the rounding (log 7). -/
namespace Sys2Proof.Machine

/-- Fraction bits of a fixed-point value. -/
def fxBits : Nat := 320
/-- One, in fixed point. -/
def fxOne : Nat := 2 ^ fxBits
/-- The fixed-point product. -/
def fxMul (a b : Nat) : Nat := a * b / fxOne

/-- floor(sqrt n) by bits, from 2^k on. -/
def isqrtFrom : Nat → Nat → Nat → Nat
  | 0, n, r => if (r + 1) * (r + 1) ≤ n then r + 1 else r
  | k + 1, n, r =>
    let c := r + 2 ^ (k + 1)
    isqrtFrom k n (if c * c ≤ n then c else r)

/-- floor(sqrt n). -/
def isqrt (n : Nat) : Nat := if n = 0 then 0 else isqrtFrom (Nat.log2 n / 2 + 1) n 0

/-- Σ z^(2k+1)/(2k+1) for z = 1/d, with alternating signs where `alt`: atanh or atan of 1/d in fixed point. -/
def atanSeries (d : Nat) (alt : Bool) : Nat → Nat → Nat → Int
  | 0, _, _ => 0
  | fuel + 1, k, pow =>
    let term : Int := (pow / (2 * k + 1) : Nat)
    (if alt && k % 2 == 1 then -term else term) + atanSeries d alt fuel (k + 1) (pow / (d * d))

/-- ln 2 = 2 atanh(1/3). -/
def fxLn2 : Nat := (2 * atanSeries 3 false 104 0 (fxOne / 3)).toNat

/-- π = 16 atan(1/5) − 4 atan(1/239). -/
def fxPi : Nat := (16 * atanSeries 5 true 72 0 (fxOne / 5) - 4 * atanSeries 239 true 24 0 (fxOne / 239)).toNat

/-- Σ t^k/k! from k on. -/
def expSeries (t : Nat) : Nat → Nat → Nat → Nat
  | 0, _, term => term
  | fuel + 1, k, term => term + expSeries t fuel (k + 1) (fxMul term t / k)

/-- sin t for 0 ≤ t ≤ π/2. -/
def sinSeries (t2 : Nat) : Nat → Nat → Nat → Int
  | 0, _, term => (term : Int)
  | fuel + 1, k, term => (term : Int) - sinSeries t2 fuel (k + 1) (fxMul term t2 / ((2 * k) * (2 * k + 1)))

/-- Σ z^(2k+1)/(2k+1) for a fixed-point z. -/
def atanhSeries (z2 : Nat) : Nat → Nat → Nat → Nat
  | 0, _, _ => 0
  | fuel + 1, k, pow => pow / (2 * k + 1) + atanhSeries z2 fuel (k + 1) (fxMul pow z2)

/-- The value m × 2^e in fixed point, exactly, for e ≥ −320. -/
def toFx (m : Nat) (e : Int) : Nat := m * 2 ^ (e + fxBits).toNat

/-- `frcp`: 1/x (Table 6.6). -/
def frcpBits (a : Nat) : Nat :=
  match FFmt.b32.value a with
  | .nan => FFmt.b32.nan
  | .inf neg => FFmt.b32.signed neg 0
  | .fin neg m e =>
    if m = 0 then FFmt.b32.signed neg FFmt.b32.infBits
    else FFmt.b32.round .rne neg (2 ^ 96 / m) (-96 - e) (2 ^ 96 % m != 0)

/-- `frsq`: 1/√x (Table 6.6). -/
def frsqBits (a : Nat) : Nat :=
  match FFmt.b32.value a with
  | .nan => FFmt.b32.nan
  | .inf neg => if neg then FFmt.b32.nan else 0
  | .fin neg m e =>
    if m = 0 then FFmt.b32.signed neg FFmt.b32.infBits
    else if neg then FFmt.b32.nan
    else
      let odd := e % 2 != 0
      let m' := if odd then 2 * m else m
      let half := (if odd then e - 1 else e) / 2
      let r := isqrt (2 ^ 160 / m')
      FFmt.b32.round .rne false r (-80 - half) (r * r * m' != 2 ^ 160)

/-- `fsqrt` (Table 6.6). -/
def fsqrtBits (rm : Rm) (a : Nat) : Nat :=
  match FFmt.b32.value a with
  | .nan => FFmt.b32.nan
  | .inf neg => if neg then FFmt.b32.nan else a
  | .fin neg m e =>
    if m = 0 then a
    else if neg then FFmt.b32.nan
    else
      let odd := e % 2 != 0
      let n := (if odd then 2 * m else m) * 2 ^ 80
      let half := (if odd then e - 1 else e) / 2
      let r := isqrt n
      FFmt.b32.round rm false r (half - 40) (r * r != n)

/-- `fexp2` (Table 6.6). -/
def fexp2Bits (a : Nat) : Nat :=
  match FFmt.b32.value a with
  | .nan => FFmt.b32.nan
  | .inf neg => if neg then 0 else FFmt.b32.infBits
  | .fin neg m e =>
    if m = 0 then 0x3F800000
    else if (Nat.log2 m : Int) + e ≥ 8 then (if neg then 0 else FFmt.b32.infBits)
    else
      let x := toFx m e
      let n : Int := if neg then -((x / fxOne : Nat) : Int) else ((x / fxOne : Nat) : Int)
      let f := x % fxOne
      let (n, f) := if neg && f != 0 then (n - 1, fxOne - f) else (n, f)
      if n < -150 ∨ (n = -150 ∧ f = 0) then 0
      else if f = 0 then FFmt.b32.round .rne false 1 n false
      else FFmt.b32.round .rne false (expSeries (fxMul f fxLn2) 90 1 fxOne) (n - fxBits) true

/-- `flog2` (Table 6.6). -/
def flog2Bits (a : Nat) : Nat :=
  match FFmt.b32.value a with
  | .nan => FFmt.b32.nan
  | .inf neg => if neg then FFmt.b32.nan else a
  | .fin neg m e =>
    if m = 0 then FFmt.b32.signed true FFmt.b32.infBits
    else if neg then FFmt.b32.nan
    else
      let lg := Nat.log2 m
      let n : Int := (lg : Int) + e
      if m = 2 ^ lg then FFmt.b32.roundInt .rne n 0
      else
        let z := (m - 2 ^ lg) * fxOne / (m + 2 ^ lg)
        let ln := 2 * atanhSeries (fxMul z z) 104 0 z
        let v : Int := n * (fxOne : Int) + ((ln * fxOne / fxLn2 : Nat) : Int)
        FFmt.b32.round .rne (decide (v < 0)) v.natAbs (-(fxBits : Int)) true

/-- sin(π r) rounded, for a fixed-point r in [0, 2), with the sign of an exact zero. -/
def sinPi (r : Nat) (zeroNeg flip : Bool) : Nat :=
  let second := decide (fxOne ≤ r)
  let u := r % fxOne
  let v := if 2 * u ≤ fxOne then u else fxOne - u
  let neg := second != flip
  if v = 0 then FFmt.b32.signed zeroNeg 0
  else if 2 * v = fxOne then FFmt.b32.signed neg 0x3F800000
  else
    let t := fxMul v fxPi
    FFmt.b32.round .rne neg (sinSeries (fxMul t t) 44 1 t).toNat (-(fxBits : Int)) true

/-- `fsin`: sin(π x) (Table 6.6). -/
def fsinBits (a : Nat) : Nat :=
  match FFmt.b32.value a with
  | .nan | .inf _ => FFmt.b32.nan
  | .fin neg m e => sinPi (toFx m e % (2 * fxOne)) neg neg

/-- `fcos`: cos(π x) (Table 6.6). -/
def fcosBits (a : Nat) : Nat :=
  match FFmt.b32.value a with
  | .nan | .inf _ => FFmt.b32.nan
  | .fin _ m e => sinPi ((toFx m e + fxOne / 2) % (2 * fxOne)) false false

/-- `frnd` (R153). -/
def frndBits (rm : Rm) (a : Nat) : Nat :=
  match FFmt.b32.value a with
  | .nan => FFmt.b32.nan
  | .inf _ => a
  | .fin neg m e =>
    let n := rndNat rm neg m e false
    if m = 0 then a else if n = 0 then FFmt.b32.signed neg 0 else FFmt.b32.round .rne neg n 0 false

/-- `fclass` (R154). -/
def fclassBits (a : Nat) : Nat :=
  match FFmt.b32.value a with
  | .nan => 2 ^ 8
  | .inf neg => if neg then 2 ^ 0 else 2 ^ 7
  | .fin neg m _ =>
    if m = 0 then (if neg then 2 ^ 3 else 2 ^ 4)
    else if m < 2 ^ 23 then (if neg then 2 ^ 2 else 2 ^ 5)
    else if neg then 2 ^ 1 else 2 ^ 6

end Sys2Proof.Machine
end

