-- ==== Sys2Proof/Machine/FloatAlu.lean ====
section
/-! DEFINITION. The floating instructions of the lanes (R143 to R154) and the conversions (R123 to R129). -/
namespace Sys2Proof.Machine

/-- FPMODE.RM of the slot (Table 1.4). -/
def State.rm (s : State) : Rm := Rm.ofCode (s.cur.bank.fpmode.toNat % 4)
/-- The element format of the packed forms, by FPMODE.PK (R147). -/
def State.pk (s : State) : FFmt := if s.cur.bank.fpmode.getLsbD 2 then FFmt.bf16 else FFmt.b16

/-- A binary operation on patterns as one on words. -/
def bits2 (f : Nat → Nat → Nat) (x y : Word) : Word := BitVec.ofNat 32 (f x.toNat y.toNat)
/-- The same for one operand. -/
def bits1 (f : Nat → Nat) (x : Word) : Word := BitVec.ofNat 32 (f x.toNat)

/-- The two halves of a word (R147). -/
def half (x : Word) (k : Nat) : Nat := x.toNat / 65536 ^ k % 65536
/-- A word from its halves. -/
def ofHalves (a b : Nat) : Word := BitVec.ofNat 32 (a % 65536 + 65536 * (b % 65536))

def faddW (rm : Rm) : Word → Word → Word := bits2 (FFmt.b32.addBits rm)
def fsubW (rm : Rm) : Word → Word → Word := bits2 (FFmt.b32.subBits rm)
def fmulW (rm : Rm) : Word → Word → Word := bits2 (FFmt.b32.mulBits rm)
def fminW : Word → Word → Word := bits2 fminBits
def fmaxW : Word → Word → Word := bits2 fmaxBits

def execFadd (d a b : Nat) (s : State) := issue (.fadd d a b) (fun s => vec2 d a b (faddW s.rm) s) s
def execFsub (d a b : Nat) (s : State) := issue (.fsub d a b) (fun s => vec2 d a b (fsubW s.rm) s) s
def execFmul (d a b : Nat) (s : State) := issue (.fmul d a b) (fun s => vec2 d a b (fmulW s.rm) s) s
def execFmin (d a b : Nat) (s : State) := issue (.fmin d a b) (vec2 d a b fminW) s
def execFmax (d a b : Nat) (s : State) := issue (.fmax d a b) (vec2 d a b fmaxW) s
def execFcopysign (d a b : Nat) (s : State) :=
  issue (.fcopysign d a b) (vec2 d a b fun x y => (x &&& 0x7FFFFFFF) ||| (y &&& 0x80000000)) s
def execFldexp (d a b : Nat) (s : State) :=
  issue (.fldexp d a b) (fun s => vec2 d a b (fun x y => BitVec.ofNat 32 (ldexpBits s.rm x.toNat y.toInt)) s) s
def execFadd2 (d a b : Nat) (s : State) :=
  issue (.fadd2 d a b)
    (fun s => vec2 d a b (fun x y =>
      ofHalves (s.pk.addBits s.rm (half x 0) (half y 0)) (s.pk.addBits s.rm (half x 1) (half y 1))) s) s
def execFmul2 (d a b : Nat) (s : State) :=
  issue (.fmul2 d a b)
    (fun s => vec2 d a b (fun x y =>
      ofHalves (s.pk.mulBits s.rm (half x 0) (half y 0)) (s.pk.mulBits s.rm (half x 1) (half y 1))) s) s
def execFdot2 (d a b : Nat) (s : State) :=
  issue (.fdot2 d a b)
    (fun s => vec3 d a b d (fun x y z =>
      BitVec.ofNat 32 (FFmt.b32.sum s.rm
        [(s.pk.value (half x 0)).mul (s.pk.value (half y 0)), (s.pk.value (half x 1)).mul (s.pk.value (half y 1)),
         FFmt.b32.value z.toNat])) s) s
def execFfma (d a b c : Nat) (s : State) :=
  issue (.ffma d a b c)
    (fun s => vec3 d a b c (fun x y z => BitVec.ofNat 32 (FFmt.b32.fmaBits s.rm x.toNat y.toNat z.toNat)) s) s
def execFfma2 (d a b c : Nat) (s : State) :=
  issue (.ffma2 d a b c)
    (fun s => vec3 d a b c (fun x y z =>
      ofHalves (s.pk.fmaBits s.rm (half x 0) (half y 0) (half z 0))
        (s.pk.fmaBits s.rm (half x 1) (half y 1) (half z 1))) s) s
def execFcmp (c : FCond) (m a b : Nat) (s : State) :=
  issue (.fcmp c m a b) (fun s => .done (s.setMaskBits m fun l => FCond.holds c (s.v a l).toNat (s.v b l).toNat)) s

def execFadd16 (k : Bool) (v d : Nat) (s : State) :=
  issue (.fadd16 k v d) (fun s => vec16 k v d (faddW s.rm) s) s
def execFsub16 (k : Bool) (v d : Nat) (s : State) :=
  issue (.fsub16 k v d) (fun s => vec16 k v d (fsubW s.rm) s) s
def execFmul16 (k : Bool) (v d : Nat) (s : State) :=
  issue (.fmul16 k v d) (fun s => vec16 k v d (fmulW s.rm) s) s
def execFmin16 (k : Bool) (v d : Nat) (s : State) := issue (.fmin16 k v d) (vec16 k v d fminW) s
def execFmax16 (k : Bool) (v d : Nat) (s : State) := issue (.fmax16 k v d) (vec16 k v d fmaxW) s

/-! ### Special functions -/

def execFrcp (la d a : Nat) (s : State) := issue (.frcp la d a) (vec1 d a (bits1 frcpBits)) s
def execFrsq (la d a : Nat) (s : State) := issue (.frsq la d a) (vec1 d a (bits1 frsqBits)) s
def execFsqrt (la : Nat) (r : Rm) (d a : Nat) (s : State) := issue (.fsqrt la r d a) (vec1 d a (bits1 (fsqrtBits r))) s
def execFexp2 (la d a : Nat) (s : State) := issue (.fexp2 la d a) (vec1 d a (bits1 fexp2Bits)) s
def execFlog2 (la d a : Nat) (s : State) := issue (.flog2 la d a) (vec1 d a (bits1 flog2Bits)) s
def execFsin (la d a : Nat) (s : State) := issue (.fsin la d a) (vec1 d a (bits1 fsinBits)) s
def execFcos (la d a : Nat) (s : State) := issue (.fcos la d a) (vec1 d a (bits1 fcosBits)) s
def execFrnd (la : Nat) (r : Rm) (d a : Nat) (s : State) := issue (.frnd la r d a) (vec1 d a (bits1 (frndBits r))) s
def execFclass (la d a : Nat) (s : State) := issue (.fclass la d a) (vec1 d a (bits1 fclassBits)) s

/-! ### Conversions -/

/-- An integer rounded into binary32 (R125). -/
def cvtFromInt (r : Rm) (x : Int) : Word := BitVec.ofNat 32 (FFmt.b32.roundInt r x 0)

/-- A number held between two bounds. -/
def clampInt (lo hi x : Int) : Int := if x < lo then lo else if hi < x then hi else x

/-- The range of an n-bit integer type (Table 5.3). -/
def intLo (n : Nat) (isSigned : Bool) : Int := if isSigned then -(2 ^ (n - 1)) else 0
def intHi (n : Nat) (isSigned : Bool) : Int := if isSigned then 2 ^ (n - 1) - 1 else 2 ^ n - 1

/-- binary32 to an n-bit integer (R125). -/
def cvtToInt (n : Nat) (isSigned sat : Bool) (r : Rm) (a : Nat) : Nat :=
  match FFmt.b32.value a with
  | .nan => 0
  | .inf neg => if sat then truncTo n (if neg then intLo n isSigned else intHi n isSigned) else 0
  | .fin neg m e =>
    let y := rndInt r (if neg then -(m : Int) else (m : Int)) e
    truncTo n (if sat then clampInt (intLo n isSigned) (intHi n isSigned) y else y)

/-- binary32 to a 16-bit format (R125). -/
def cvtNarrow (f : FFmt) (sat : Bool) (r : Rm) (a : Nat) : Nat :=
  match FFmt.b32.value a with
  | .nan => f.nan
  | .inf neg => f.signed neg (if sat then f.maxBits else f.infBits)
  | .fin neg m e =>
    if m = 0 then 0
    else
      let h := f.round r neg m e false
      if sat ∧ h % 2 ^ f.signBit = f.infBits then f.signed neg f.maxBits else h

/-- A 16-bit format to binary32 (R125), exact. -/
def cvtWiden (f : FFmt) (h : Nat) : Nat :=
  match f.value (h % 65536) with
  | .nan => FFmt.b32.nan
  | .inf neg => FFmt.b32.signed neg FFmt.b32.infBits
  | .fin neg m e => if m = 0 then FFmt.b32.signed neg 0 else FFmt.b32.round .rne neg m e false

/-- A word narrowed to n bits and extended again (R125). -/
def cvtNarrowInt (n : Nat) (isSigned sat : Bool) (x : Word) : Word :=
  let q := truncTo n (if sat then clampInt (intLo n isSigned) (intHi n isSigned) x.toInt else x.toInt)
  if isSigned then BitVec.ofInt 32 (signed n q) else BitVec.ofNat 32 q

/-- A 64-bit integer rounded into binary32. -/
def cvtFrom64 (isSigned : Bool) (r : Rm) (x : DWord) : Word :=
  cvtFromInt r (if isSigned then x.toInt else (x.toNat : Int))
/-- binary32 to a 64-bit integer. -/
def cvtTo64 (isSigned sat : Bool) (r : Rm) (x : Word) : DWord := BitVec.ofNat 64 (cvtToInt 64 isSigned sat r x.toNat)

def execCvtF32I32 (la : Nat) (r : Rm) (d a : Nat) (s : State) :=
  issue (.cvtF32I32 la r d a) (vec1 d a fun x => cvtFromInt r x.toInt) s
def execCvtF32N32 (la : Nat) (r : Rm) (d a : Nat) (s : State) :=
  issue (.cvtF32N32 la r d a) (vec1 d a fun x => cvtFromInt r (x.toNat : Int)) s
def execCvtI32F32 (la : Nat) (sat : Bool) (r : Rm) (d a : Nat) (s : State) :=
  issue (.cvtI32F32 la sat r d a) (vec1 d a (bits1 (cvtToInt 32 true sat r))) s
def execCvtN32F32 (la : Nat) (sat : Bool) (r : Rm) (d a : Nat) (s : State) :=
  issue (.cvtN32F32 la sat r d a) (vec1 d a (bits1 (cvtToInt 32 false sat r))) s
def execCvtF16F32 (la : Nat) (sat : Bool) (r : Rm) (d a : Nat) (s : State) :=
  issue (.cvtF16F32 la sat r d a) (vec1 d a (bits1 (cvtNarrow FFmt.b16 sat r))) s
def execCvtBf16F32 (la : Nat) (sat : Bool) (r : Rm) (d a : Nat) (s : State) :=
  issue (.cvtBf16F32 la sat r d a) (vec1 d a (bits1 (cvtNarrow FFmt.bf16 sat r))) s
def execCvtF32F16 (la d a : Nat) (s : State) := issue (.cvtF32F16 la d a) (vec1 d a (bits1 (cvtWiden FFmt.b16))) s
def execCvtF32Bf16 (la d a : Nat) (s : State) := issue (.cvtF32Bf16 la d a) (vec1 d a (bits1 (cvtWiden FFmt.bf16))) s
def doCvtFrom64 (isSigned : Bool) (r : Rm) (d a : Nat) (s : State) : Res :=
  .done (s.setV d fun l => cvtFrom64 isSigned r (s.v64 a l))
def doCvtTo64 (isSigned sat : Bool) (r : Rm) (d a : Nat) (s : State) : Res :=
  .done (s.setV64 d fun l => cvtTo64 isSigned sat r (s.v a l))
def execCvtF32I64 (la : Nat) (r : Rm) (d a : Nat) (s : State) := issue (.cvtF32I64 la r d a) (doCvtFrom64 true r d a) s
def execCvtF32N64 (la : Nat) (r : Rm) (d a : Nat) (s : State) := issue (.cvtF32N64 la r d a) (doCvtFrom64 false r d a) s
def execCvtI64F32 (la : Nat) (sat : Bool) (r : Rm) (d a : Nat) (s : State) :=
  issue (.cvtI64F32 la sat r d a) (doCvtTo64 true sat r d a) s
def execCvtN64F32 (la : Nat) (sat : Bool) (r : Rm) (d a : Nat) (s : State) :=
  issue (.cvtN64F32 la sat r d a) (doCvtTo64 false sat r d a) s
def execCvtI8I32 (la : Nat) (sat : Bool) (d a : Nat) (s : State) :=
  issue (.cvtI8I32 la sat d a) (vec1 d a (cvtNarrowInt 8 true sat)) s
def execCvtN8I32 (la : Nat) (sat : Bool) (d a : Nat) (s : State) :=
  issue (.cvtN8I32 la sat d a) (vec1 d a (cvtNarrowInt 8 false sat)) s
def execCvtI16I32 (la : Nat) (sat : Bool) (d a : Nat) (s : State) :=
  issue (.cvtI16I32 la sat d a) (vec1 d a (cvtNarrowInt 16 true sat)) s
def execCvtN16I32 (la : Nat) (sat : Bool) (d a : Nat) (s : State) :=
  issue (.cvtN16I32 la sat d a) (vec1 d a (cvtNarrowInt 16 false sat)) s

/-- Bits of an element of `pack` and `unpack` (R126). -/
def PackTy.bits : PackTy → Nat
  | .i8 | .n8 => 8
  | .f16 | .bf16 | .i16 | .n16 => 16

/-- One element packed (R126). -/
def packElem (t : PackTy) (x : Word) : Nat :=
  match t with
  | .f16 => cvtNarrow FFmt.b16 false .rne x.toNat
  | .bf16 => cvtNarrow FFmt.bf16 false .rne x.toNat
  | .i16 => truncTo 16 (clampInt (intLo 16 true) (intHi 16 true) x.toInt)
  | .i8 => truncTo 8 (clampInt (intLo 8 true) (intHi 8 true) x.toInt)
  | .n16 => truncTo 16 (clampInt 0 (intHi 16 false) x.toInt)
  | .n8 => truncTo 8 (clampInt 0 (intHi 8 false) x.toInt)

/-- One element unpacked (R126). -/
def unpackElem (t : PackTy) (q : Nat) : Word :=
  match t with
  | .f16 => BitVec.ofNat 32 (cvtWiden FFmt.b16 q)
  | .bf16 => BitVec.ofNat 32 (cvtWiden FFmt.bf16 q)
  | .i16 => BitVec.ofInt 32 (signed 16 q)
  | .i8 => BitVec.ofInt 32 (signed 8 q)
  | .n16 | .n8 => BitVec.ofNat 32 q

/-- `pack` (R126). -/
def doPack (t : PackTy) (d a : Nat) (s : State) : Res :=
  let n := PackTy.bits t
  .done (s.setV d fun l =>
    BitVec.ofNat 32 ((List.range (32 / n)).foldl (fun acc k => acc + packElem t (s.v (a + k) l) * 2 ^ (n * k)) 0))

/-- `unpack` (R126). -/
def doUnpack (t : PackTy) (d a : Nat) (s : State) : Res :=
  let n := PackTy.bits t
  .done ((List.range (32 / n)).foldl
    (fun u k => u.setV (d + k) fun l => unpackElem t (fieldAt (s.v a l).toNat (n * k) n)) s)

def execPack (la : Nat) (t : PackTy) (d a : Nat) (s : State) := issue (.pack la t d a) (doPack t d a) s
def execUnpack (la : Nat) (t : PackTy) (d a : Nat) (s : State) := issue (.unpack la t d a) (doUnpack t d a) s

/-- `bfpx`: one lane (R129). -/
def bfpxW (w : Nat) (y : Word) : Word :=
  let c := fieldAt y.toNat 8 8
  if c = 255 then BitVec.ofNat 32 FFmt.b32.nan
  else BitVec.ofNat 32 (FFmt.b32.roundInt .rne (signed w y.toNat) ((c : Int) - 127 - ((w : Int) - 2)))

/-- A finite value as a signed number and its exponent. -/
def FVal.parts : FVal → Int × Int
  | .fin neg m e => (if neg then -(m : Int) else (m : Int), e)
  | .nan | .inf _ => (0, 0)

/-- The value is a finite one that is not zero. -/
def FVal.nonzero : FVal → Bool
  | .fin _ m _ => m != 0
  | .nan | .inf _ => false

/-- The mantissas of a block for exponent e and fraction width f (R120, R128). -/
def mantissas (xs : List FVal) (f e : Int) : List Int :=
  xs.map fun x => let (m, k) := x.parts; rndInt .rne m (k + f - e)

/-- The largest exponent of a block's elements, or emin if every one is zero (R120, R128). -/
def blockExp (xs : List FVal) (emin : Int) (whenZero : Int) : Int :=
  if xs.any FVal.nonzero then
    (xs.filter FVal.nonzero).foldl (fun acc x => max acc (max x.log2 emin)) emin
  else whenZero

/-- `bfpq`: the exponent and the mantissas of a block (R128). -/
def bfpqBlock (w : Nat) (xs : List FVal) : Int × List Int :=
  let f : Int := (w : Int) - 2
  let lim : Int := 2 ^ (w - 1) - 1
  let e := blockExp xs (-126) (-127)
  let ms := mantissas xs f e
  if ms.any fun m => decide (lim < m.natAbs) then
    if e < 127 then (e + 1, mantissas xs f (e + 1)) else (e, ms.map (clampInt (-lim) lim))
  else (e, ms)

/-- `bfpq` (R128). -/
def doBfpq (w d a : Nat) (s : State) : Res :=
  let ls := lanesOf s.m0
  let xs := ls.map fun l => FFmt.b32.value (s.v a l).toNat
  let (e, ms) := bfpqBlock w xs
  let out := (ls.zip (xs.zip ms)).map fun p =>
    let nf : Nat := match p.2.1 with | .fin _ _ _ => 0 | .nan | .inf _ => 1
    (p.1, BitVec.ofNat 32 (nf * 65536 + (e + 127).toNat * 256 + truncTo 8 p.2.2))
  .done (s.setV d fun l => (assocGet out l).getD 0)

def execBfpx (la w d a : Nat) (s : State) := issue (.bfpx la w d a) (vec1 d a (bfpxW w)) s
def execBfpq (la w d a : Nat) (s : State) := issue (.bfpq la w d a) (doBfpq w d a) s

end Sys2Proof.Machine
end

