-- ==== Sys2Proof/Machine/Formats.lean ====
section
/-! DEFINITION. The operand formats of the matrix engine (Table 5.4), bit strings (R118) and format blocks
(R172 to R175). -/
namespace Sys2Proof.Machine

/-- What a format's elements are (Table 5.4). -/
inductive FKind where
  | bfp | f32 | f16 | bf16 | int | uint | ter | sgn | acc
  deriving DecidableEq, Repr

/-- A row of Table 5.4: stored bits, admitted mantissa width w, fraction bits f. -/
structure Fmt where
  kind : FKind
  bits : Nat
  w : Nat
  f : Nat
  roleAB : Bool
  roleC : Bool
  roleD : Bool
  deriving DecidableEq, Repr

/-- Table 5.4 by code; codes 28 to 31 are reserved. -/
def fmtOf (code : Nat) : Option Fmt :=
  match code with
  | 0 => some ⟨.bfp, 2, 2, 0, true, true, true⟩
  | 1 => some ⟨.bfp, 4, 3, 1, true, true, true⟩
  | 2 => some ⟨.bfp, 4, 4, 2, true, true, true⟩
  | 3 => some ⟨.bfp, 8, 5, 3, true, true, true⟩
  | 4 => some ⟨.bfp, 8, 6, 4, true, true, true⟩
  | 5 => some ⟨.bfp, 8, 7, 5, true, true, true⟩
  | 6 => some ⟨.bfp, 8, 8, 6, true, true, true⟩
  | 7 => some ⟨.bfp, 16, 9, 7, true, false, false⟩
  | 8 => some ⟨.bfp, 16, 12, 10, true, false, false⟩
  | 9 => some ⟨.bfp, 16, 16, 14, true, false, false⟩
  | 10 => some ⟨.bfp, 32, 25, 23, true, false, false⟩
  | 11 => some ⟨.f32, 32, 25, 23, true, true, true⟩
  | 12 => some ⟨.f16, 16, 12, 10, true, true, true⟩
  | 13 => some ⟨.bf16, 16, 9, 7, true, true, true⟩
  | 14 => some ⟨.int, 2, 2, 0, true, false, false⟩
  | 15 => some ⟨.int, 4, 4, 0, true, false, false⟩
  | 16 => some ⟨.int, 8, 6, 0, true, false, false⟩
  | 17 => some ⟨.int, 8, 8, 0, true, false, false⟩
  | 18 => some ⟨.int, 16, 16, 0, true, false, false⟩
  | 19 => some ⟨.int, 32, 32, 0, false, true, true⟩
  | 20 => some ⟨.uint, 2, 3, 0, true, false, false⟩
  | 21 => some ⟨.uint, 4, 5, 0, true, false, false⟩
  | 22 => some ⟨.uint, 8, 9, 0, true, false, false⟩
  | 23 => some ⟨.ter, 2, 2, 0, true, false, false⟩
  | 24 => some ⟨.sgn, 1, 2, 0, true, false, false⟩
  | 25 => some ⟨.acc, 32, 0, 0, false, true, true⟩
  | 26 => some ⟨.acc, 64, 0, 0, false, true, true⟩
  | 27 => some ⟨.acc, 64, 0, 0, false, true, true⟩
  | _ => none

/-- Block length by BLEN (Table 7.2). -/
def blenOf (n : Nat) : Nat := 8 * 2 ^ n

/-- An A, B or C format block, none where R174 raises FMT_RESERVED; `c` for the role of C. -/
def fmtBlock (x : Nat) (c : Bool) : Option FmtBlock :=
  let code := fieldAt x 0 5
  match fmtOf code with
  | none => none
  | some t =>
    if fieldAt x 56 8 ≠ 0 ∨ fieldAt x 18 14 ≠ 0 ∨ (if c then !t.roleC else !t.roleAB) then none
    else
      some { fmt := code, blen := blenOf (fieldAt x 5 2), sbase := fieldAt x 7 7, sel := fieldAt x 14 2,
             scen := fieldAt x 16 1 == 1, space := 1 + fieldAt x 17 1, stride := fieldAt x 32 24 }

/-- A D format block, none where R174 raises FMT_RESERVED. -/
def dBlock (x : Nat) : Option DBlock :=
  let accf := fieldAt x 0 5
  let ofmt := fieldAt x 5 5
  if fieldAt x 15 49 ≠ 0 ∨ accf < 25 ∨ 27 < accf ∨ !(fmtOf ofmt).any Fmt.roleD then none
  else
    some { accf := accf, ofmt := ofmt, osat := fieldAt x 10 1 == 1, oblen := blenOf (fieldAt x 11 2),
           nfz := fieldAt x 13 1 == 1, evtrap := fieldAt x 14 1 == 1 }

/-- The row of Table 5.4 that a captured block names. -/
def FmtBlock.info (b : FmtBlock) : Fmt :=
  (fmtOf b.fmt).getD { kind := .int, bits := 8, w := 8, f := 0, roleAB := false, roleC := false, roleD := false }

/-- The block reads codes or scale bytes from the scale registers (R175). -/
def FmtBlock.reads (b : FmtBlock) : Bool := b.info.kind == .bfp || (b.info.kind != .acc && b.scen)

/-- Bytes of a row of k elements (R178). -/
def FmtBlock.rowBytes (b : FmtBlock) (k : Nat) : Nat := (k * b.info.bits + 7) / 8

/-- Element i of the bit string that bytes hold, s bits each (R118). -/
def elemAt (bytes : Nat) (i bits : Nat) : Nat := fieldAt bytes (i * bits) bits

/-- W of an accumulator format (Table 8.1). -/
def accW (af : Nat) : Nat := 32 + 16 * af
/-- Bytes of a mantissa in the store (R169). -/
def accBytes (af : Nat) : Nat := 4 + 2 * af

end Sys2Proof.Machine
end

