-- ==== Sys2Proof/Machine/Tensor.lean ====
section
/-! DEFINITION. Tensor records: reading, checking, coordinates, hulls (R66 to R70), and the range scoreboard (R74). -/
namespace Sys2Proof.Machine

/-- The product of a list. -/
def prodOf (xs : List Nat) : Nat := xs.foldl (· * ·) 1

namespace TRec

/-- Elements of a tile. -/
def elems (t : TRec) : Nat := prodOf t.tile
/-- Bytes of an element. -/
def width (t : TRec) : Nat := 2 ^ t.esize
/-- Bytes of a copy (R69). -/
def total (t : TRec) : Nat := t.tcount * t.elems * t.width

/-- The record that its sixteen 8-B words hold (Table 3.1). -/
def ofWords (ws : List Nat) : TRec :=
  let w (k : Nat) : Nat := ws.getD k 0
  let u32 (off : Nat) : Nat := fieldAt (w (off / 8)) (8 * (off % 8)) 32
  let u16 (off : Nat) : Nat := fieldAt (w (off / 8)) (8 * (off % 8)) 16
  let ctl := fieldAt (w 1) 0 32
  { base := signed 64 (w 0), tcount := fieldAt ctl 16 16, stepdim := fieldAt ctl 10 3, shd := fieldAt ctl 8 1 == 1,
    space := fieldAt ctl 6 2, esize := fieldAt ctl 3 3, rank := fieldAt ctl 0 3,
    dim := (List.range 5).map fun i => u32 (0x10 + 4 * i),
    stride := (List.range 5).map fun i => signed 48 (w (5 + i)),
    tile := (List.range 5).map fun i => u16 (0x50 + 2 * i),
    origin := (List.range 5).map fun i => u32 (0x60 + 4 * i) }

/-- The reserved bits of the words are zero (Table 3.1). -/
def rsvdOk (ws : List Nat) : Bool :=
  let w (k : Nat) : Nat := ws.getD k 0
  fieldAt (w 1) 13 3 == 0 && fieldAt (w 1) 9 1 == 0 && fieldAt (w 1) 32 32 == 0 && fieldAt (w 4) 32 32 == 0
    && ((List.range 5).all fun i => fieldAt (w (5 + i)) 48 16 == 0)
    && fieldAt (w 11) 16 48 == 0 && fieldAt (w 14) 32 32 == 0 && w 15 == 0

/-- The checks of R67 on a record; `dest` for a destination. -/
def ok (ws : List Nat) (dest : Bool) : Bool :=
  let t := ofWords ws
  rsvdOk ws && decide (1 ≤ t.rank) && decide (t.rank ≤ 5) && decide (t.esize ≤ 4) && t.tcount != 0
    && decide (t.stepdim < t.rank)
    && ((List.range 5).all fun i =>
      if i < t.rank then t.dim.getD i 0 != 0 && t.tile.getD i 0 != 0
      else t.dim.getD i 0 == 1 && t.tile.getD i 0 == 1 && t.stride.getD i 0 == 0 && t.origin.getD i 0 == 0)
    && decide (t.elems * t.width ≤ 2 ^ 24)
    && !(t.shd && (!dest || t.space != 0))

/-- The coordinates of element e of tile n (R68). -/
def coords (t : TRec) (n e : Nat) : List Nat :=
  let step (acc : List Nat × Nat) (i : Nat) : List Nat × Nat :=
    let ti := t.tile.getD i 1
    let c := t.origin.getD i 0 + acc.2 % ti + (if i = t.stepdim then n * ti else 0)
    (acc.1 ++ [c], acc.2 / ti)
  ((List.range 5).foldl step ([], e)).1

/-- The coordinates are in bounds. -/
def inb (t : TRec) (c : List Nat) : Bool := (List.range 5).all fun i => decide (c.getD i 0 < t.dim.getD i 0)

/-- The address of coordinates (R68). -/
def addr (t : TRec) (c : List Nat) : Int :=
  (List.range 5).foldl (fun acc i => acc + (c.getD i 0 : Nat) * t.stride.getD i 0) t.base

/-- The range of a coordinate that the tiles occupy, cut to the bounds (R70). -/
def span (t : TRec) (i : Nat) : Option (Nat × Nat) :=
  let o := t.origin.getD i 0
  let ti := t.tile.getD i 1
  let n := if i = t.stepdim then t.tcount else 1
  let d := t.dim.getD i 0
  if o < d then some (o, min (o + n * ti) d - 1) else none

/-- The footprint hull: first and last byte (R70). -/
def hull (t : TRec) : Option (Int × Int) :=
  (List.range 5).foldl
    (fun acc i =>
      match acc, span t i with
      | some (lo, hi), some (a, b) =>
        let x : Int := (a : Int) * t.stride.getD i 0
        let y : Int := (b : Int) * t.stride.getD i 0
        some (lo + min x y, hi + max x y)
      | _, _ => none) (some (t.base, t.base + t.width - 1))

end TRec

/-- The bytes of a space that a record may use (R70). -/
def recLimit (l : LaunchRec) (space : Nat) : Nat :=
  match space with
  | 0 => 2 ^ 55
  | 1 => l.scratch
  | 2 => l.cluster
  | _ => 2 ^ 25

/-- The hull stays in its space (R70). -/
def TRec.inRange (l : LaunchRec) (t : TRec) : Bool :=
  match t.hull with
  | none => true
  | some (lo, hi) => decide (0 ≤ lo) && decide (hi < recLimit l t.space)

/-- The within-cluster index that places a wave's `.c` bytes: its core's for a cluster group, else 0 (R90). -/
def coreIndex (s : State) (gid core : Nat) : Nat :=
  match s.group? gid with
  | some g => if g.isCluster then core % 4 else 0
  | none => 0

/-- The core of a cluster that holds offset o of the cluster-shared window (R91). -/
def windowCore (o : Nat) : Nat := o / 2 ^ 8 % 4

/-- The offset within that core's lent part (R91). -/
def windowOffset (o : Nat) : Nat := o / 2 ^ 10 * 2 ^ 8 + o % 2 ^ 8

/-- The place of an offset of a group's space, as space codes of Table 3.1 name it, by group, within-cluster index and
die (R90 to R92). -/
def scratchAt (gid k die space off : Nat) : Loc :=
  match space with
  | 1 => ⟨.core, (gid * 4 + k) * 2 ^ 19 + off⟩
  | 2 => ⟨.window, (gid * 4 + windowCore off) * 2 ^ 18 + windowOffset off⟩
  | _ => ⟨.chip, die * 2 ^ 25 + off⟩

/-- The place of an offset of a space of the slot in hand. -/
def scratchLoc (s : State) (space off : Nat) : Loc :=
  scratchAt s.w.gid (coreIndex s s.w.gid s.w.core) s.w.die space off

/-- A scoreboard entry: its group, core index and space, its hull, and whether it is a destination (R74). -/
structure ScoreEntry where
  id : Nat
  gid : Nat
  k : Nat
  space : Nat
  lo : Int
  hi : Int
  dest : Bool
  deriving DecidableEq, Repr

/-- The entry that a record holds for a group's core. -/
def entryOf (id gid k : Nat) (t : TRec) (dest : Bool) : List ScoreEntry :=
  if t.space = 1 ∨ t.space = 2 then
    match t.hull with
    | some (lo, hi) => [⟨id, gid, if t.space = 1 then k else 0, t.space, lo, hi, dest⟩]
    | none => []
  else []

/-- The entries that a copy holds (R74). -/
def copyEntries (c : Copy) : List ScoreEntry := entryOf c.id c.gid c.k c.dst true ++ entryOf c.id c.gid c.k c.src false

/-- A group is not saved: its copies and entries hold their places (R78, R193). -/
def groupHere (s : State) (gid : Nat) : Bool := ((s.group? gid).map fun g => g.onCore).getD true

/-- The scoreboard entries that copies hold in a cluster. -/
def copyBoard (s : State) (cluster : Nat) : List ScoreEntry :=
  (s.copies.filter fun c => c.core / 4 == cluster && groupHere s c.gid).flatMap copyEntries

/-- An access of a group to the bytes lo to hi of a scratchpad space meets one of these entries (Table 3.2). -/
def meetsEntries (es : List ScoreEntry) (gid k space : Nat) (lo hi : Int) (write : Bool) : Bool :=
  (space == 1 || space == 2)
    && es.any fun e =>
      (e.dest || write) && e.gid == gid && e.space == space && (space == 2 || e.k == k)
        && decide (e.lo ≤ hi) && decide (lo ≤ e.hi)

/-- The hull of A's rows (R179): none for an empty row set. -/
def hullA (a : FmtBlock) (base k : Nat) (rows : List (Nat × Nat)) : Option (Int × Int) :=
  match rows.map fun r => base + r.2 * a.stride with
  | [] => none
  | x :: xs =>
    some ((xs.foldl min x : Nat), ((xs.foldl max x + a.rowBytes k : Nat) : Int) - 1)

/-- The hull of B's columns in a scratchpad (R179). -/
def hullB (b : FmtBlock) (base k n : Nat) : Int × Int :=
  ((base : Nat), ((base + (n - 1) * b.stride + b.rowBytes k : Nat) : Int) - 1)

/-- The source entries that a posted `mma` holds until its last pass has read its operands (R184). -/
def mmaEntries (s : State) (e : Entry) : List ScoreEntry :=
  match e.work with
  | .mma a b _ k baseA baseB trec rows _ _ =>
    if e.done then []
    else
      let n := ((s.tiles.find? fun t => t.id == e.tile).map fun t => t.n).getD 128
      let entry (space : Nat) (h : Int × Int) : ScoreEntry := ⟨e.id, e.gid, if space = 1 then e.kc else 0, space, h.1, h.2, false⟩
      (match hullA a baseA k rows with
        | some h => [entry a.space h]
        | none => [])
        ++ (match trec with
          | none => [entry b.space (hullB b baseB k n)]
          | some _ => [])
  | .aload .. | .azero _ | .anorm _ | .ahead .. | .astore .. | .rela | .wait => []

/-- The entries of a cluster that an access of its cores can meet. -/
def board (s : State) (cluster : Nat) : List ScoreEntry :=
  copyBoard s cluster ++ (s.entries.filter fun e => e.core / 4 == cluster && groupHere s e.gid).flatMap (mmaEntries s)

/-- An access of the slot in hand to the bytes lo to hi of a scratchpad space stalls (Table 3.2). -/
def scoreStalls (s : State) (space : Nat) (lo hi : Int) (write : Bool) : Bool :=
  (!s.copies.isEmpty || !s.entries.isEmpty)
    && meetsEntries (board s s.w.cluster) s.w.gid (coreIndex s s.w.gid s.w.core) space lo hi write

end Sys2Proof.Machine
end

