-- ==== Sys2Proof/Machine/Effects.lean ====
section
/-! DEFINITION. What a write to memory brings about besides the bytes: storage-error marks cleared (R97, R99), sleeping
`wfe` slots woken (R380), doorbells posted (R349), the lines a launch wrote (R356, R357). -/
namespace Sys2Proof.Machine

/-- An agent that writes: a slot of a wave, or none of them (R268). -/
abbrev Agent := Option (Nat × Bool)

/-- The issuing slot as an agent. -/
def State.agent (s : State) : Agent := some (s.w.wid, s.w.curSec)

/-- The 128-B block of a place (R380). -/
def Loc.block (l : Loc) : Loc := { l with addr := l.addr / 128 * 128 }

/-- A slot completes the `wfe` it sleeps in (R380). -/
def Slot.endWfe (c : Slot) : Slot :=
  { c with wfe := none, pc := (c.pc + 4) % 2 ^ 56, windows := [], waited := 0, urgent := none, stalled := false }

/-- One slot of a wave changed, by which slot it is. -/
def Wave.onSlot (w : Wave) (sec : Bool) (f : Slot → Slot) : Wave :=
  if w.curSec = sec then { w with cur := f w.cur } else { w with sib := f w.sib }

/-- The slot of a wave. -/
def Wave.slot (w : Wave) (sec : Bool) : Slot := if w.curSec = sec then w.cur else w.sib

/-- A sleeping `wfe` of a slot completes, and counts as retired. -/
def Wave.endWfe (w : Wave) (sec : Bool) : Wave :=
  { w.onSlot sec Slot.endWfe with lclock := w.lclock + 1 }

/-- A slot sleeps in `wfe` on one of these blocks. -/
def Slot.watches (c : Slot) (blocks : List Loc) : Bool :=
  c.live && c.wfe.isSome && match c.bank.monitor with
    | some b => blocks.contains b
    | none => false

/-- Slots of a wave that other agents' writes to these blocks wake. -/
def wakeWave (agent : Agent) (blocks : List Loc) (w : Wave) : Wave :=
  let go (w : Wave) (sec : Bool) : Wave :=
    if agent != some (w.wid, sec) && (w.slot sec).watches blocks then w.endWfe sec else w
  go (go w false) true

/-- Some slot sleeps in `wfe`. -/
def anySleeper (s : State) : Bool := s.waves.any fun w => w.cur.wfe.isSome || w.sib.wfe.isSome

/-- Writes by an agent wake the slots that monitor the blocks (R380). -/
def wakeWatchers (s : State) (agent : Agent) (ls : List Loc) : State :=
  if anySleeper s then s.mapWaves (wakeWave agent ((ls.map Loc.block).eraseDups)) else s

/-- Dies whose descriptor's RESOLVE word a write touches: the fault service reacts to it next (R63). -/
def noteResolve (s : State) (ls : List Loc) : State :=
  if s.faultDesc.all fun d => d.isNone then s
  else
    { s with agenda := s.agenda ++ ((List.range 4).filterMap fun d =>
        match s.faultDesc.getD d none with
        | some a =>
          if ls.any fun l => l.area == .hbm && l.addr / 4 == (a + 0x1C) / 4 then
            some (.event (.resolve d (s.num ⟨.hbm, a + 0x1C⟩ 4)))
          else none
        | none => none) }

/-- The array of n bytes at a virtual address of a root's space holds one of these places. -/
def inArray (s : State) (root va n : Nat) (ls : List Loc) : Bool :=
  (arraySpans s root va n).any fun p => ls.any (inSpan p)

/-- Some launch has tape areas (R234). -/
def anyTape (s : State) : Bool := s.launches.any fun l => l.attr.tapesize != 0

/-- The tape area of a live wave holds one of these places. -/
def hitsTape (s : State) (ls : List Loc) (w : Wave) : Bool :=
  w.live && match s.launch? w.lid with
    | some l => l.attr.tapesize != 0 && inArray s l.attr.root (tapeArea s l.attr w) l.attr.tapesize ls
    | none => false

/-- A write to these places breaks what R267 asks for a command's arrays. -/
def UpdCmd.hit (s : State) (ls : List Loc) (u : UpdCmd) : Bool :=
  match s.launch? u.lid with
  | some l => (u.w :: u.g :: u.m :: (if u.mode = 0 then [] else [u.v])).any fun a => inArray s l.attr.root a (4 * u.count) ls
  | none => false

/-- A write to these places breaks what R302 asks for a collective's arrays, from `col` to its record. -/
def Coll.hit (s : State) (ls : List Loc) (c : Coll) : Bool :=
  c.outcome.isNone && (inArray s c.root c.src (4 * c.params.count) ls || inArray s c.root c.dst (4 * c.params.count) ls)

/-- A write to arrays of an outstanding command or collective, or to the tape area of a live wave, leaves open what these
give from here on (R10, R235, R267, R302).  An engine's writes of its own are no such breach: it keeps its own mark. -/
def spoil (s : State) (ls : List Loc) : State :=
  if s.updates.isEmpty && s.colls.isEmpty && !anyTape s then s
  else
    let s1 := s.mapWaves fun w => if hitsTape s ls w then { w with tape := { w.tape with spoiled := true } } else w
    { s1 with
      updates := s.updates.map fun u => { u with spoiled := u.spoiled || u.hit s ls }
      colls := s.colls.map fun c => { c with spoiled := c.spoiled || c.hit s ls } }

/-- Bytes of an ended wave's tape area that are written again hold what is written. -/
def OldTape.rewrite (ls : List Loc) (t : OldTape) : OldTape :=
  { t with again := ((ls.filter (inSpan (t.start, t.size))) ++ t.again).eraseDups }

/-- A byte of an ended wave's tape area that nothing has written since (R412). -/
def OldTape.hides (l : Loc) (t : OldTape) : Bool := inSpan (t.start, t.size) l && !t.again.contains l

/-- Bytes written by an agent, in order; a host line that the L2 holds becomes dirty (R277). -/
def writeCells (s : State) (agent : Agent) (cells : List (Loc × Byte)) : State :=
  let ls := cells.map fun c => c.1
  let s1 := (cells.foldl (fun t c => t.setByte c.1 c.2) (spoil s ls)).markDirty ls
  let s2 := if s1.oldTapes.isEmpty then s1 else { s1 with oldTapes := s1.oldTapes.map (OldTape.rewrite ls) }
  noteResolve (wakeWatchers (s2.clearBad ls) agent ls) ls

/-- A group as a writer of lines: an attempt that starts a killed group again is the same group, and no two other groups are
(R98, R356). -/
def writerOf (s : State) (gid : Nat) : Option Nat :=
  (s.group? gid).map fun g =>
    match g.task, g.frag with
    | some t, _ => 3 * t.made + 1
    | none, some f => 3 * f.made + 2
    | none, none => 3 * g.lin

/-- The lines of HBM4 that a launch's agents wrote are noted, each once (R357), and with WCHK the lines of the L2 with the
groups that wrote them (R356). -/
def noteWrites (s : State) (lid : Nat) (writer : Option Nat) (ws : List (Nat × Loc)) : State :=
  let lines := (ws.filterMap fun p => if p.2.area = .hbm then some (p.1 / 128, p.2.addr / 128) else none).eraseDups
  let inL2 := (ws.filterMap fun p => if p.2.area = .hbm ∨ p.2.area = .host then some p.2.block else none).eraseDups
  if inL2.isEmpty then s
  else s.updLaunch lid fun l =>
    { l with
      wrote := lines.foldl (fun acc p => if acc.any fun q => q.2 == p.2 then acc else acc ++ [p]) l.wrote
      writers := match l.attr.wchk, writer with
        | true, some n => inL2.foldl (fun acc x => if acc.contains (x, n) then acc else acc ++ [(x, n)]) l.writers
        | _, _ => l.writers }

/-- The physical place of a launch's doorbell word, on a TYPE 0 page (R349).  R349 names no consequence of a breach, which
R10 leaves open: a word on another page is bound to no mailbox here (DESIGN CHOICE, log 57). -/
def doorbellOf (s : State) (l : Launch) : Option Loc :=
  if !l.attr.mboxen then none
  else
    match walk s l.attr.root l.attr.mboxaddr with
    | .ok x => if pteType x.pte = 0 then some (x.loc l.attr.mboxaddr) else none
    | .error _ => none

/-- The deque of a core. -/
def dequeOf (s : State) (core : Nat) : List TaskRec := (assocGet s.deques core).getD []

/-- A record pushed on top of a core's deque (R348); a cancelled launch discards its tasks (R364). -/
def pushTask (s : State) (core : Nat) (t : TaskRec) : State :=
  if (s.launch? t.lid).any fun l => l.cancelled then s else
  let s1 := s.updLaunch t.lid fun l => { l with tasks := l.tasks + 1 }
  { s1 with deques := assocSet s1.deques core ({ t with made := s.serial } :: dequeOf s1 core), serial := s.serial + 1 }

/-- Posts of a mailbox's handler that have not started. -/
def pendingPosts (s : State) (lid : Nat) : Nat :=
  (s.deques.map fun d => d.2.countP fun t => t.posted && t.lid == lid).foldl (· + ·) 0 + s.postQueue.countP fun t => t.lid == lid

/-- The first deque of D0 with room for a record (R348). -/
def roomOnD0 (s : State) : Option Nat := (List.range 96).find? fun c => decide ((dequeOf s c).length < 4096)

/-- Posts that waited for room take it, as far as there is room (R349, log 57). -/
def drainPosts (s : State) : State :=
  s.postQueue.foldl
    (fun u t =>
      match roomOnD0 u with
      | some c => { u with postQueue := u.postQueue.drop 1, deques := assocSet u.deques c (t :: dequeOf u c) }
      | none => u) s

/-- A post of a message to the mailbox of a launch (R349): a task record on a deque of D0 with room.  With no room on any of
them, a case the manual does not name, the record waits for it (log 57). -/
def postMessage (s : State) (lid : Nat) (msg : Nat) : State :=
  match s.launch? lid with
  | none => s
  | some l =>
    if 65536 ≤ pendingPosts s lid then launchFault s lid 0x85 0x4A0 0 0 0 (BitVec.ofNat 64 l.attr.mboxaddr) 0
    else
      let t : TaskRec :=
        { code := l.attr.code, frame := 0, joinc := 0, lid := lid, arg := BitVec.ofNat 64 (msg % 2 ^ 32), key := l.posts,
          prio := l.attr.prio, isGroup := true, n := l.attr.waves, posted := true, made := s.serial }
      let s1 :=
        match roomOnD0 s with
        | some core => pushTask s core t
        | none => { { s with serial := s.serial + 1 }.updLaunch lid (fun x => { x with tasks := x.tasks + 1 }) with postQueue := s.postQueue ++ [t] }
      s1.updLaunch lid fun x => { x with posts := x.posts + 1 }

/-- The handler launch bound to a mailbox (R349). -/
def boundTo (s : State) (num : Nat) : Option Launch :=
  s.launches.find? fun l => l.attr.mboxen && l.attr.mboxnum == num && !l.cancelled

/-- A 4-B store that writes a bound doorbell word posts its message (R349). -/
def ringDoorbells (s : State) (writes : List (Loc × Nat)) : State :=
  if s.launches.any fun l => l.attr.mboxen then
    writes.foldl (fun t w =>
      match t.launches.find? fun l => l.attr.mboxen && !l.cancelled && doorbellOf t l == some w.1 with
      | some l => postMessage t l.lid w.2
      | none => t) s
  else s

end Sys2Proof.Machine
end

