-- ==== Sys2Proof/Machine/Fetch.lean ====
section
/-! DEFINITION. Fetching and decoding the slot's next instruction (R20, R53, R61, R99). -/
namespace Sys2Proof.Machine

/-- What the bytes at a slot's PC come to. -/
inductive Fetched where
  | ok (i : Instr)
  /-- They are no instruction (R23). -/
  | illegal
  /-- A fetch fault with this cause, reported at this address, on the unit at the other one (R20). -/
  | fault (cause addr unit : Nat)
  deriving DecidableEq, Repr

/-- The translations of an access, kept by the TLBs. -/
def fillTlbs (s : State) (u : Mmu) (a : ASpace) (xs : List Xlat) : State := xs.foldl (fun t x => fillTlb t u a x) s

/-- The code bytes from an address on. -/
def codeBytes (s : State) (va n : Nat) : Except Nat (List Byte × List Xlat) :=
  if !addrOk va n then .error causeNoncanon
  else
    match places s (.core s.w.core) s.aspace .fetch va n with
    | .error (c, _) => .error c
    | .ok (ls, xs) =>
      if ls.any fun l => s.isBad l then .error causeMemPoison else .ok (ls.map fun l => s.byte l, xs)

/-- The instruction at an address: its first halfword tells its length (R20).  A fault on either halfword is reported at
the first one; the page to be filled is that of the unit that met it (R61). -/
def fetchAt (s : State) (pc : Nat) : Fetched × List Xlat :=
  match codeBytes s pc 2 with
  | .error c => (.fault c pc pc, [])
  | .ok (lo, xs) =>
    if (lo.getD 0 0).getLsbD 0 then
      match codeBytes s (pc + 2) 2 with
      | .error c => (.fault c pc (pc + 2), xs)
      | .ok (hi, ys) =>
        match decode (lo ++ hi) with
        | .ok (i, _) => (.ok i, xs ++ ys)
        | .error _ => (.illegal, xs ++ ys)
    else
      match decode lo with
      | .ok (i, _) => (.ok i, xs)
      | .error _ => (.illegal, xs)

/-- The page of a fetch fault (R61). -/
def fetchPageOf (s : State) (va : Nat) : FaultPage :=
  ⟨s.attr.asn, s.attr.root, va / 65536, AccKind.fetch.code, s.w.cluster⟩

/-- A fetch fault of the slot in hand (R24, R61): it ends run-ahead, whose batch takes a page that is not present, and
otherwise traps or waits for its page. -/
def fetchFault (s : State) (cause addr unit : Nat) : State :=
  let page := fetchPageOf s unit
  match s.cur.ra with
  | some ra => endRunAhead (if cause = causePageFault then { ra with pages := addPage ra.pages page } else ra) s
  | none =>
    if cause = causePageFault then conclude .fetchFault s (.fetchPage page (pcWord addr))
    else raise s (Trap.whole cause (pcWord addr))

/-- The lines of code bytes pass through the L2 into the core's instruction cache (Table 0.3, log 46). -/
def fetchLines (s : State) (pc : Nat) (xs : List Xlat) : State :=
  let spot (va : Nat) : List Loc :=
    (xs.filter fun x => decide (x.base ≤ va) && decide (va < x.base + x.size)).map fun x => x.loc va
  let ls := (spot pc).take 1 ++ (spot (pc + 2)).take 1
  (State.linesOf ls).foldl
    (fun t p => if p.1 = .hbm ∨ p.1 = .host then t.touchCode s.w.core p.1 p.2 else t) s

/-- The slot in hand has fetched: its core's TLBs and instruction cache hold what it used. -/
def afterFetch (s : State) (pc : Nat) (xs : List Xlat) : State :=
  fetchLines (fillTlbs s (.core s.w.core) s.aspace xs) pc xs

/-- ILLEGAL_INSTR at the slot's PC (R23). -/
def illegalHere (s : State) : State :=
  match s.cur.ra with
  | some ra => endRunAhead ra s
  | none => raise s (Trap.whole causeIllegal 0)

/-- FETCH_FAULT of the slot in hand: the fetch is made again, and what it meets is delivered. -/
def execFetchFault (s : State) : Host.Outcome State Fault Refusal :=
  if !s.cur.live then .fault .noSlot
  else
    match (fetchAt s s.cur.pc).1 with
    | .fault c a u => .next (fetchFault s c a u)
    | .ok _ | .illegal => .next s

end Sys2Proof.Machine
end

