-- ==== Sys2Proof/Machine/Operands.lean ====
section
/-! DEFINITION. Memory operands of lanes and scalars: addresses (R101), range checks (R102), translation and its order of
causes (R57), storage errors (R97 to R99), and the reads and writes themselves (R103). -/
namespace Sys2Proof.Machine

/-- The first offset past a space, for the slot in hand (Table 4.3). -/
def spaceLimit (s : State) (sp : Space) : Nat :=
  match sp with
  | .p => if s.cur.inHandler then s.w.priv + Config.hwArea else s.w.priv
  | .c => s.attr.scratch
  | .k => s.attr.cluster
  | .x => 2 ^ 25
  | .g => 2 ^ 55

/-- The space codes of Table 3.1 for `.c`, `.k` and `.x`. -/
def spaceCode (sp : Space) : Nat :=
  match sp with
  | .c => 1
  | .k => 2
  | .x => 3
  | .p | .g => 0

/-- The n bytes at an address lie in the space (Table 4.3). -/
def rangeOk (s : State) (sp : Space) (a : Int) (n : Nat) : Bool := withinLimit a n (spaceLimit s sp)

/-- The cause of a failed range check (Table 4.3). -/
def rangeCause (sp : Space) : Nat := if sp = .g then causeNoncanon else causeSpaceRange

/-- The pieces of an access that lie in one 64-KiB page each. -/
def pieces (a n : Nat) : List (Nat × Nat) :=
  let room := 65536 - a % 65536
  if n ≤ room then [(a, n)] else [(a, room), (a + room, n - room)]

/-- An access of one lane to one space: its places, the translations it used, or the causes it met (R57). -/
structure LaneAcc where
  lane : Nat
  addr : Int
  places : List Loc
  xlats : List Xlat
  /-- The first cause in R57's order, if any. -/
  cause : Option Nat
  /-- Pages not present. -/
  pages : List Nat
  deriving DecidableEq, Repr

/-- The cause that comes first.  Between PAGE_PROT and ATOM_HOST_OP, which R57 ranks alike, the model raises that of the
lowest lane (log 53). -/
def firstCause (a b : Option Nat) : Option Nat :=
  match a, b with
  | none, y => y
  | x, none => x
  | some x, some y => if causeRank y < causeRank x then some y else some x

/-- A global access of one lane. -/
def laneGlobal (s : State) (u : Mmu) (a : ASpace) (k : AccKind) (lane : Nat) (addr : Int) (n : Nat) : LaneAcc :=
  (pieces addr.toNat n).foldl
    (fun acc p =>
      match places s u a k p.1 p.2 with
      | .ok (ls, xs) => { acc with places := acc.places ++ ls, xlats := acc.xlats ++ xs }
      | .error (c, va) =>
        { acc with
          cause := firstCause acc.cause (some c)
          pages := if c = causePageFault then acc.pages ++ [va / 65536] else acc.pages })
    ⟨lane, addr, [], [], none, []⟩

/-- An access of one lane to a space of the slot in hand. -/
def laneAccess (s : State) (sp : Space) (k : AccKind) (a : ASpace) (lane : Nat) (addr : Int) (n : Nat) : LaneAcc :=
  match sp with
  | .g => laneGlobal s (.core s.w.core) a k lane addr n
  | .p => ⟨lane, addr, (List.range n).map fun i => laneLoc s.w lane (addr.toNat + i), [], none, []⟩
  | .c | .k | .x =>
    let ls := (List.range n).map fun i => scratchLoc s (spaceCode sp) (addr.toNat + i)
    ⟨lane, addr, ls, [], if k.writes && ls.any Loc.inDeviceRegion then some causePageProt else none, []⟩

/-- What a whole access of an instruction comes to before it is performed. -/
inductive Access where
  /-- Every checked lane passed: each lane's access. -/
  | ok (ls : List LaneAcc)
  | stop (r : Res)

/-- A precise trap of the lanes that meet a cause, with their addresses. -/
def laneTrap (cause : Nat) (ls : List (Nat × Int)) : Res :=
  .trap (Trap.lanes cause (maskOf (ls.map fun p => p.1)) fun l => BitVec.ofInt 64 ((assocGet ls l).getD 0))

/-- The fault pages of an access (R59). -/
def pagesOf (s : State) (a : ASpace) (k : AccKind) (ls : List LaneAcc) : List FaultPage :=
  addPages [] (ls.flatMap fun x => x.pages.map fun p => ⟨a.asn, a.root, p, k.code, s.w.cluster⟩)

/-- R57 over the lanes that are checked: the first cause in order, met by its lanes. -/
def lanesStop (s : State) (a : ASpace) (k : AccKind) (ls : List LaneAcc) : Option Res :=
  match ls.foldl (fun acc x => firstCause acc x.cause) none with
  | none => none
  | some c =>
    let hit := ls.filter fun x => x.cause == some c
    let who := hit.map fun x => (x.lane, x.addr)
    if c = causePageFault then
      some (.page (pagesOf s a k ls) (maskOf (who.map fun p => p.1)) fun l => BitVec.ofInt 64 ((assocGet who l).getD 0))
    else some (laneTrap c who)

/-- A place in the part's own on-chip storage (R98). -/
def Loc.onChip (l : Loc) : Bool :=
  match l.area with
  | .chip | .core | .window | .lane => true
  | .hbm | .host | .l2 | .peer => false

/-- A bad granule of on-chip storage among the places: the cause of the kill (R98). -/
def killCause (s : State) (ls : List Loc) : Option Nat :=
  if s.bad.isEmpty then none
  else
    match ls.find? fun l => l.onChip && s.isBad l with
    | some l => some (if l.area = .lane then causeRegUe else causeScratchUe)
    | none => none

/-- Some of the places are poisoned, in HBM4 or in the L2's copy of a host line (R99). -/
def poisoned (s : State) (ls : List Loc) : Bool := !s.bad.isEmpty && ls.any fun l => !l.onChip && s.isBad l

/-- Storage errors of the lanes that are read, or that are written in part (R97 to R99). -/
def storageStop (s : State) (ls : List (LaneAcc × List Loc)) : Option Res :=
  match killCause s (ls.flatMap fun p => p.2) with
  | some c => some (.settled (killGroup s s.w.gid c))
  | none =>
    let hit := ls.filter fun p => poisoned s p.2
    if hit.isEmpty then none else some (laneTrap causeMemPoison (hit.map fun p => (p.1.lane, p.1.addr)))

/-- The lanes that `demote` made helpers, among those of a mask (R329). -/
def State.helperLane (s : State) (l : Nat) : Bool := s.w.helper.getLsbD l

/-- Lanes whose checks count: active and not demoted (R102). -/
def checkedLanes (s : State) : List Nat := (lanesOf s.m0).filter fun l => !s.helperLane l

/-- The checks of R102 and R283 on the lanes listed: range, then alignment where it is required, then R57. -/
def checkLanes (s : State) (sp : Space) (k : AccKind) (a : ASpace) (n align : Nat) (lanes : List (Nat × Int)) : Access :=
  let out := lanes.filter fun p => !rangeOk s sp p.2 n
  if !out.isEmpty then .stop (laneTrap (rangeCause sp) out)
  else
    let odd := lanes.filter fun p => p.2 % (align : Int) != 0
    if !odd.isEmpty then .stop (laneTrap causeAtomAlign odd)
    else
      let ls := lanes.map fun p => laneAccess s sp k a p.1 p.2 n
      match lanesStop s a k ls with
      | some r => .stop r
      | none => .ok ls

/-- An access of lanes stalls on the range scoreboard (R74, R104). -/
def lanesStall (s : State) (sp : Space) (n : Nat) (write : Bool) (lanes : List (Nat × Int)) : Bool :=
  (sp == .c || sp == .k)
    && lanes.any fun p => scoreStalls s (spaceCode sp) p.2 (p.2 + n - 1) write

/-- The translations of an access, kept by the core's TLBs. -/
def keepXlats (s : State) (a : ASpace) (ls : List LaneAcc) : State :=
  if s.cur.live then fillTlbs s (.core s.w.core) a (ls.flatMap fun x => x.xlats) else s

/-- A place in an HBM4 stack that is not backed (Table 17.1): the manual does not say what it reads as (log 40). -/
def State.unbackedAt (s : State) (l : Loc) : Bool :=
  !s.unbacked.isEmpty && l.area == .hbm
    && s.unbacked.contains (3 * (l.addr / Config.hbmDie) + Config.stackHash (l.addr / 256) % 3)

/-- A place holds unspecified contents for a program: in the device region, for a launch without the system flag (R93), in the
tape area of a live wave (R235) or of one that has ended (R412), and in a stack that is not backed. -/
def State.opaquePlace (s : State) (sys : Bool) (l : Loc) : Bool :=
  (l.inDeviceRegion && !sys) || s.unbackedAt l || (anyTape s && s.waves.any fun w => hitsTape s [l] w) || s.oldTapes.any (OldTape.hides l)

/-- The byte at a place as a launch reads it: unspecified contents may differ from one reader to the next. -/
def State.byteFor (s : State) (sys : Bool) (reader : Nat) (l : Loc) : Byte :=
  if s.opaquePlace sys l then Config.freeByte s.free (2 ^ 56 * reader + l.addr) else s.byte l

/-- A free value has been used up if unspecified contents were read here. -/
def State.afterFree (s : State) (sys : Bool) (ls : List Loc) : State :=
  if ls.any (s.opaquePlace sys) then { s with free := s.free + 1 } else s

/-- A posted store of the slot in hand. -/
def mine (s : State) (p : Posted) : Bool := p.wid == s.w.wid && p.sec == s.w.curSec

/-- What the slot's latest posted store of a byte stored, if it has not been answered (R104). -/
def ownPosted (s : State) (l : Loc) : Option Byte :=
  if s.posted.isEmpty then none
  else ((s.posted.filter (mine s)).flatMap fun p => p.data).foldl (fun acc c => if c.1 = l then some c.2 else acc) none

/-- The byte that the slot in hand reads at a place (R93, R104). -/
def slotByte (s : State) (lane : Nat) (l : Loc) : Byte := (ownPosted s l).getD (s.byteFor s.attr.sys lane l)

/-- The slot in hand has a posted store of one of these bytes. -/
def meetsPosted (s : State) (ls : List Loc) : Bool :=
  s.posted.any fun p => mine s p && p.data.any fun c => ls.contains c.1

/-- The number that a lane of the slot in hand reads from places. -/
def slotRead (s : State) (lane : Nat) (ls : List Loc) : Nat := leOf (ls.map (slotByte s lane))

/-- After a read: caches and TLBs filled, and a free value used up where one was (R93, R95). -/
def afterRead (s : State) (a : ASpace) (ls : List LaneAcc) (h : Hint) : State :=
  let ps := ls.flatMap fun x => x.places
  ((keepXlats s a ls).touchAll s.w.core ps h false).afterFree s.attr.sys ps

/-- The addresses of the lanes of an M-format access (R101). -/
def memAddr (s : State) (sp : Space) (vi sb l : Nat) : Int :=
  if sp = .g then (s.s64 sb).toInt + (if vi = 63 then 0 else (s.v vi l).toInt)
  else ((s.sreg sb).toNat + (if vi = 63 then 0 else (s.v vi l).toNat) : Nat)

/-- The address of an access that names a vector pair or register (R283). -/
def vecAddr (s : State) (sp : Space) (a l : Nat) : Int :=
  if sp = .g then (s.v64 a l).toInt else ((s.v a l).toNat : Int)

/-- The address of a scalar access (R106). -/
def scalAddr (s : State) (sp : Space) (a : Nat) : Int :=
  if sp = .g then (s.s64 a).toInt else ((s.sreg a).toNat : Int)

/-- A place outside the part: host or peer memory. -/
def Loc.outside (l : Loc) : Bool := l.area == .host || l.area == .peer

/-- A write of an instruction of the slot in hand: bytes, marks, caches, doorbells and notes.  `post` for 4-B stores; with
`sent` the bytes outside the part are on their way and the others are written. -/
def performWrites (s : State) (a : ASpace) (ls : List (LaneAcc × List Byte)) (h : Hint) (plain post : Bool)
    (sent : Bool := false) : State :=
  let cells := (ls.flatMap fun p => p.1.places.zip p.2).filter fun c => !(sent && c.1.outside)
  let s1 := keepXlats s a (ls.map fun p => p.1)
  let s2 := s1.touchAll s.w.core (cells.map fun c => c.1) h true
  let s3 := writeCells s2 s.agent cells
  let vas := ls.flatMap fun p => (List.range p.1.places.length).zip p.1.places |>.map fun q => (p.1.addr.toNat + q.1, q.2)
  let s4 := noteWrites s3 s.w.lid (if plain then writerOf s s.w.gid else none)
    (if ls.any fun p => !p.1.xlats.isEmpty then vas.filter fun x => !(sent && x.2.outside) else [])
  if post then ringDoorbells s4 (ls.filterMap fun p => p.1.places.head?.map fun l => (l, leOf p.2)) else s4

/-- A store of the slot in hand: with `defer` its bytes outside the package are posted, lane by lane, and answered later
(R288, R296), and so are they where an earlier posted store of the slot has yet to write one of them (R104). -/
def performStores (s : State) (a : ASpace) (ls : List (LaneAcc × List Byte)) (h : Hint) (post : Bool) : State :=
  let out := ls.filter fun p => p.1.places.any Loc.outside
  if !out.isEmpty && (s.defer || meetsPosted s (out.flatMap fun p => p.1.places)) then
    out.foldl
      (fun t p =>
        let sent : Posted :=
          { id := t.serial, wid := s.w.wid, sec := s.w.curSec, lid := s.w.lid, gid := s.w.gid, core := s.w.core,
            lin := s.linOf s.w, waveid := s.w.waveid, pc := s.cur.pc, addr := BitVec.ofInt 64 p.1.addr, size := p.1.places.length, hint := h,
            writer := writerOf s s.w.gid, data := (p.1.places.zip p.2).filter fun c => c.1.outside }
        { t with posted := t.posted ++ [sent], serial := t.serial + 1 })
      (performWrites { s with defer := false } a ls h true post true)
  else performWrites s a ls h true post

/-- Words of a number, least significant first. -/
def wordAt (n k : Nat) : Word := BitVec.ofNat 32 (n / 2 ^ (32 * k))

end Sys2Proof.Machine
end

