-- ==== Sys2Proof/Machine/LoadStore.lean ====
section
/-! DEFINITION. Loads and stores of lanes and scalars (R100 to R106) and cache control (R107 to R112). -/
namespace Sys2Proof.Machine

/-- Bits read, extended as the width says (Table 1.11). -/
def extendLoad (w : LdWidth) (bits : Nat) : Nat :=
  match w with
  | .i8 => truncTo 32 (signed 8 bits)
  | .i16 => truncTo 32 (signed 16 bits)
  | .n8 | .n16 | .b32 | .b64 | .b128 => bits

/-- A lane's accesses that R102 lets through: a helper lane that fails a check, poison among them, reads 0 (R102, R103). -/
def helperLoads (s : State) (sp : Space) (a : ASpace) (n : Nat) (addr : Nat → Int) : List LaneAcc :=
  ((lanesOf s.m0).filter s.helperLane).filterMap fun l =>
    if rangeOk s sp (addr l) n then
      let x := laneAccess s sp .load a l (addr l) n
      if x.cause.isNone && !poisoned s x.places then some x else none
    else none

/-- A lane load (R103). -/
def doLd (sp : Space) (w : LdWidth) (vi sb d : Nat) (s : State) : Res :=
  let n := w.bytes
  let a := s.viewSpace
  let addr := memAddr s sp vi sb
  let lanes := (checkedLanes s).map fun l => (l, addr l)
  match checkLanes s sp .load a n 1 lanes with
  | .stop r => r
  | .ok ls =>
    let all := ls ++ helperLoads s sp a n addr
    if lanesStall s sp n false (all.map fun x => (x.lane, x.addr)) then .hold s
    else
      match storageStop s (all.map fun x => (x, x.places)) with
      | some r => r
      | none =>
        let vals := all.map fun x => (x.lane, extendLoad w (slotRead s x.lane x.places))
        let s1 := afterRead s a all .nm
        .done ((List.range w.regs).foldl
          (fun t k => t.setV (d + k) fun l => wordAt ((assocGet vals l).getD 0) k) s1)

/-- The bytes that a lane stores from the registers from d on. -/
def storeBytes (s : State) (n d l : Nat) : List Byte :=
  leBytes n ((s.v d l).toNat + (if 4 < n then 2 ^ 32 * (s.v (d + 1) l).toNat else 0)
    + (if 8 < n then 2 ^ 64 * (s.v (d + 2) l).toNat + 2 ^ 96 * (s.v (d + 3) l).toNat else 0))

/-- A lane store (R103).  Whether a write covers the whole of a bad granule (R97) is judged for each lane's element by itself
(DESIGN CHOICE, log 72). -/
def doSt (sp : Space) (w : StWidth) (vi sb d : Nat) (s : State) : Res :=
  let n := w.bytes
  let lanes := (checkedLanes s).map fun l => (l, memAddr s sp vi sb l)
  match checkLanes s sp .store s.aspace n 1 lanes with
  | .stop r => r
  | .ok ls =>
    if lanesStall s sp n true lanes then .hold s
    else
      match storageStop s (ls.map fun x => (x, s.partBad x.places)) with
      | some r => r
      | none =>
        .done (performStores s s.aspace (ls.map fun x => (x, storeBytes s n d x.lane)) .nm (sp == .g && n == 4))

def execLdP (la : Nat) (w : LdWidth) (vi sb d : Nat) (s : State) := issue (.ldP la w vi sb d) (doLd .p w vi sb d) s
def execLdC (la : Nat) (w : LdWidth) (vi sb d : Nat) (s : State) := issue (.ldC la w vi sb d) (doLd .c w vi sb d) s
def execLdK (la : Nat) (w : LdWidth) (vi sb d : Nat) (s : State) := issue (.ldK la w vi sb d) (doLd .k w vi sb d) s
def execLdX (la : Nat) (w : LdWidth) (vi sb d : Nat) (s : State) := issue (.ldX la w vi sb d) (doLd .x w vi sb d) s
def execLdG (la : Nat) (w : LdWidth) (vi sb d : Nat) (s : State) := issue (.ldG la w vi sb d) (doLd .g w vi sb d) s
def execStP (la : Nat) (w : StWidth) (vi sb d : Nat) (s : State) := issue (.stP la w vi sb d) (doSt .p w vi sb d) s
def execStC (la : Nat) (w : StWidth) (vi sb d : Nat) (s : State) := issue (.stC la w vi sb d) (doSt .c w vi sb d) s
def execStK (la : Nat) (w : StWidth) (vi sb d : Nat) (s : State) := issue (.stK la w vi sb d) (doSt .k w vi sb d) s
def execStX (la : Nat) (w : StWidth) (vi sb d : Nat) (s : State) := issue (.stX la w vi sb d) (doSt .x w vi sb d) s
def execStG (la : Nat) (w : StWidth) (vi sb d : Nat) (s : State) := issue (.stG la w vi sb d) (doSt .g w vi sb d) s

/-- A cause met by an instruction as a whole, in every lane of the slot (R420). -/
def wholeRes (s : State) (addr : Int) (r : Res) : Res :=
  match r with
  | .trap t => .trap (Trap.whole t.cause (BitVec.ofInt 64 addr))
  | .page ps _ _ ws => .page ps s.m0 (fun _ => BitVec.ofInt 64 addr) ws
  | other => other

/-- A scalar load (R106). -/
def doLdu (sp : Space) (h : Hint) (w : LdWidth) (ra d : Nat) (s : State) : Res :=
  let n := w.bytes
  let a := s.viewSpace
  let addr := scalAddr s sp ra
  match checkLanes s sp .load a n 1 [(0, addr)] with
  | .stop r => wholeRes s addr r
  | .ok ls =>
    if lanesStall s sp n false [(0, addr)] then .hold s
    else
      match storageStop s (ls.map fun x => (x, x.places)) with
      | some r => wholeRes s addr r
      | none =>
        let ps := ls.flatMap fun x => x.places
        let x := extendLoad w (slotRead s 0 ps)
        let s1 := (afterRead s a ls h).onCur fun c => { c with bank := { c.bank with monitor := ps.head?.map Loc.block } }
        .done (if w = .b64 then s1.setS64 d (BitVec.ofNat 64 x) else s1.setS d (BitVec.ofNat 32 x))

/-- A scalar store (R106). -/
def doStu (sp : Space) (h : Hint) (w : StWidth) (ra d : Nat) (s : State) : Res :=
  let n := w.bytes
  let addr := scalAddr s sp ra
  match checkLanes s sp .store s.aspace n 1 [(0, addr)] with
  | .stop r => wholeRes s addr r
  | .ok ls =>
    if lanesStall s sp n true [(0, addr)] then .hold s
    else
      match storageStop s (ls.map fun x => (x, s.partBad x.places)) with
      | some r => wholeRes s addr r
      | none =>
        let data := leBytes n (if w = .b64 then (s.s64 d).toNat else (s.sreg d).toNat)
        .done (performStores s s.aspace (ls.map fun x => (x, data)) h (sp == .g && n == 4))

def execLdu (la : Nat) (sp : Space) (h : Hint) (w : LdWidth) (a d : Nat) (s : State) :=
  issue (.ldu la sp h w a d) (doLdu sp h w a d) s
def execStu (la : Nat) (sp : Space) (h : Hint) (w : StWidth) (a d : Nat) (s : State) :=
  issue (.stu la sp h w a d) (doStu sp h w a d) s

/-! ### Cache control -/

/-- The lines that the active lanes name, each once, with the translation each lane found (R108). -/
def namedLines (s : State) (a : Nat) (needRd : Bool) : List (Loc × Nat × Xlat) :=
  let one (l : Nat) : Option (Loc × Nat × Xlat) :=
    let va := (s.v64 a l).toInt
    if addrOk va 1 then
      match xlate s (.core s.w.core) s.aspace va.toNat with
      | .ok x => if needRd && !pteRd x.pte then none else some (x.loc va.toNat, va.toNat, x)
      | .error _ => none
    else none
  ((lanesOf s.m0).filterMap one).foldl
    (fun acc p => if acc.any fun q => q.1.area == p.1.area && q.1.line == p.1.line then acc else acc ++ [p]) []

/-- `pf` (R109): fills in the L2 and, for level 1, in the core's L1.  In run-ahead it finds missing pages (Table 2.7). -/
def doPf (l1 : Bool) (h : Hint) (a : Nat) (s : State) : Res :=
  let missing := (lanesOf s.m0).filterMap fun l =>
    let va := (s.v64 a l).toInt
    if addrOk va 1 then
      match xlate s (.core s.w.core) s.aspace va.toNat with
      | .error c => if c = causePageFault then some va.toNat else none
      | .ok _ => none
    else none
  if s.cur.ra.isSome && !missing.isEmpty then
    .page (missing.map fun va => ⟨s.attr.asn, s.attr.root, va / 65536, AccKind.load.code, s.w.cluster⟩) s.m0 fun _ => 0
  else
    .done ((namedLines s a true).foldl
      (fun t p =>
        let u := fillTlb t (.core s.w.core) s.aspace p.2.2
        if p.1.area = .hbm ∨ p.1.area = .host then
          let u1 := u.touchIn none p.1.area p.1.line h false
          if l1 then u1.touchIn (some s.w.core) p.1.area p.1.line h false else u1
        else u) s)

/-- The lanes whose address fails R46, for `cinv` and `cwb` (R108). -/
def badPairs (s : State) (a : Nat) : List (Nat × Int) :=
  ((lanesOf s.m0).map fun l => (l, (s.v64 a l).toInt)).filter fun p => !addrOk p.2 1

/-- The line is claimed by an open scatter epoch (R253). -/
def claimedLine (s : State) (l : Loc) : Bool := l.area == .hbm && s.claims.any fun c => c.line == l.line

/-- A line removed from every cache, written back first if it is dirty (R110). -/
def dropLine (s : State) (l : Loc) : State := (s.writeBack l.area l.line).removeLine l.area l.line fun _ => true

/-- `cinv` (R110). -/
def doCinv (relax : Bool) (a : Nat) (s : State) : Res :=
  let out := badPairs s a
  if !out.isEmpty then laneTrap causeNoncanon out
  else
    .done ((namedLines s a false).foldl
      (fun t p =>
        if relax then
          { t with lines := t.lines.map fun x =>
              if x.area == p.1.area && x.line == p.1.line && x.prio == .el then { x with prio := .nm } else x }
        else if claimedLine t p.1 then t else dropLine t p.1) s)

/-- `cwb` (R111). -/
def doCwb (a : Nat) (s : State) : Res :=
  let out := badPairs s a
  if !out.isEmpty then laneTrap causeNoncanon out
  else
    .done ((namedLines s a false).foldl
      (fun t p => if claimedLine t p.1 then t else (t.writeBack p.1.area p.1.line).markClean p.1.area p.1.line) s)

def execPf (la : Nat) (l1 : Bool) (h : Hint) (a : Nat) (s : State) := issue (.pf la l1 h a) (doPf l1 h a) s
def execCinv (la : Nat) (relax : Bool) (a : Nat) (s : State) := issue (.cinv la relax a) (doCinv relax a) s
def execCwb (la a : Nat) (s : State) := issue (.cwb la a) (doCwb a) s

end Sys2Proof.Machine
end

