-- ==== Sys2Proof/Machine/Atomics.lean ====
section
/-! DEFINITION. Atomics and fences (R270, R275, R280 to R286). -/
namespace Sys2Proof.Machine

/-- An acquire at a scope empties the issuing core's L1 where R275 says so. -/
def acquireAt (s : State) (sc : Scope) : State :=
  match sc with
  | .gp => match s.group? s.w.gid with
    | some g => if g.isCluster then s.emptyL1 s.w.core else s
    | none => s
  | .cl | .di | .dev | .ms | .sys | .fab => s.emptyL1 s.w.core

/-- A release at a scope: every access of this model has been performed, and host lines are written back for `.sys` and
`.fab` (Table 12.2). -/
def releaseAt (s : State) (sc : Scope) : State :=
  match sc with
  | .sys | .fab => s.flushHost
  | .gp | .cl | .di | .dev | .ms => s

/-- The release part of an order, before the access. -/
def Osc.before (o : Osc) (s : State) : State :=
  match o with
  | .rel x | .ar x | .sc x => releaseAt s x
  | .rlx | .acq _ | .arWv | .arLn => s

/-- The acquire part of an order, after the access. -/
def Osc.after (o : Osc) (s : State) : State :=
  match o with
  | .acq x | .ar x | .sc x => acquireAt s x
  | .rlx | .rel _ | .arWv | .arLn => s

/-- Bytes of an `atom`'s operand (R284). -/
def atomBytes (op : AtomOp) : Nat := if Wf.atom64 op then 8 else 4

/-- The new value of an `atom` (Table 12.4), on patterns of its size. -/
def atomNew (op : AtomOp) (old x : Nat) : Nat :=
  match op with
  | .addI32 => (old + x) % 2 ^ 32
  | .addF32 => FFmt.b32.addBits .rne old x
  | .minI32 => if signed 32 old ≤ signed 32 x then old else x
  | .maxI32 => if signed 32 x ≤ signed 32 old then old else x
  | .minN32 | .minN64 => min old x
  | .maxN32 | .maxN64 => max old x
  | .andB32 => old &&& x
  | .orB32 => old ||| x
  | .xorB32 => old ^^^ x
  | .xchgB32 | .xchgB64 => x
  | .addI64 => (old + x) % 2 ^ 64
  | .minI64 => if signed 64 old ≤ signed 64 x then old else x
  | .maxI64 => if signed 64 x ≤ signed 64 old then old else x

/-- The operation has a PCIe AtomicOp equivalent (R53). -/
def atomHostOk (op : AtomOp) : Bool :=
  match op with
  | .addI32 | .addI64 | .xchgB32 | .xchgB64 => true
  | .minI32 | .maxI32 | .minN32 | .maxN32 | .andB32 | .orB32 | .xorB32 | .addF32 | .minI64 | .maxI64 | .minN64
  | .maxN64 => false

/-- An atomic on host memory is performed there: the L2 gives up its copy first, written back if it holds newer data
(R53, R272, log 8). -/
def atomPrepare (s : State) (ls : List Loc) : State :=
  match ls.head? with
  | some l => if l.area = .host then dropLine s l else s
  | none => s

/-- One single-copy-atomic step of a lane: the old value, and the state with the new one, if any, written. -/
def atomStep (s : State) (agent : Agent) (ls : List Loc) (n : Nat) (f : Nat → Option Nat) : Nat × State :=
  let s1 := atomPrepare s ls
  let old := leOf (ls.map fun l => s1.byte l)
  match f old with
  | some new => (old, writeCells s1 agent (ls.zip (leBytes n new)))
  | none => (old, s1)

/-- The lanes of an atomic, ascending: each lane's old value, and the state after them all (R284, R285). -/
def atomLanes (s : State) (n : Nat) (f : Nat → Nat → Option Nat) : List LaneAcc → List (Nat × Nat) × State
  | [] => ([], s)
  | x :: rest =>
    let (old, s1) := atomStep s s.agent x.places n (f x.lane)
    let s2 := noteWrites s1 s.w.lid none
      (if (f x.lane old).isSome && !x.xlats.isEmpty then [(x.addr.toNat, x.places.headD ⟨.lane, 0⟩)] else [])
    let (olds, s3) := atomLanes s2 n f rest
    ((x.lane, old) :: olds, s3)

/-- What `atom` and `cas` share: the checks of R283, and the lanes in ascending order. -/
def doRmw (o : Osc) (sp : Space) (hostOk : Bool) (n a d : Nat) (reject : LaneAcc → Bool) (f : Nat → Nat → Option Nat)
    (s : State) : Res :=
  let lanes := (checkedLanes s).map fun l => (l, vecAddr s sp a l)
  let k := AccKind.atom hostOk
  match checkLanes s sp k s.aspace n n lanes with
  | .stop r => r
  | .ok ls =>
    if lanesStall s sp n true lanes || meetsPosted s (ls.flatMap fun x => x.places) then .hold s
    else
      match storageStop s (ls.map fun x => (x, x.places)) with
      | some r => r
      | none =>
        let run := ls.filter fun x => !reject x
        let out := ls.filter reject
        let s1 := keepXlats (Osc.before o s) s.aspace ls
        let s2 := s1.touchAll s.w.core ((run.flatMap fun x => x.places).filter fun l => l.area != .host) .nm true
        let (olds, s3) := atomLanes s2 n f run
        let mask := maskOf (run.map fun x => x.lane)
        let old (l : Nat) : Nat := (assocGet olds l).getD 0
        let s4 := (List.range (n / 4)).foldl (fun t k => t.setVMask mask (d + k) fun l => wordAt (old l) k) s3
        let s5 := Osc.after o s4
        if out.isEmpty then .done s5
        else
          let who := out.map fun x => (x.lane, x.addr)
          .after s5 (Trap.lanes 0x40 (maskOf (who.map fun p => p.1)) fun l => BitVec.ofInt 64 ((assocGet who l).getD 0))

/-- A number of n bytes from the registers from r on. -/
def regNum (s : State) (n r l : Nat) : Nat := (s.v r l).toNat + (if n = 8 then 2 ^ 32 * (s.v (r + 1) l).toNat else 0)

/-- `atom` (R283, R284); a floating one outside DET is rejected in lanes on a claimed line (R280). -/
def doAtom (o : Osc) (sp : Space) (op : AtomOp) (a d : Nat) (s : State) : Res :=
  let n := atomBytes op
  let reject (x : LaneAcc) : Bool :=
    op == .addF32 && !s.attr.det && x.places.any fun l => claimedLine s l
  doRmw o sp (atomHostOk op) n a d reject (fun l old => some (atomNew op old (regNum s n d l))) s

/-- `cas` (R285). -/
def doCas (o : Osc) (sp : Space) (wide : Bool) (a d : Nat) (s : State) : Res :=
  let n := if wide then 8 else 4
  doRmw o sp true n a d (fun _ => false)
    (fun l old => if old = regNum s n d l then some (regNum s n (d + n / 4) l) else none) s

/-- The chain value of the wave's queue (R357). -/
def queueChain (s : State) : Nat :=
  match s.launch? s.w.lid with
  | some l => match l.queue with
    | some q => (s.queues.getD q HostQueue.zero).chain
    | none => 0
  | none => 0

/-- The scope of an order, if it has one of Table 12.1 from `.gp` on. -/
def Osc.scope : Osc → Option Scope
  | .acq x | .rel x | .ar x | .sc x => some x
  | .rlx | .arWv | .arLn => none

/-- A scope that contains `.dev`. -/
def Scope.device : Scope → Bool
  | .dev | .ms | .sys | .fab => true
  | .gp | .cl | .di => false

/-- `fence` (R286); at `.dev` or wider it also fixes the wave's chain value (R357). -/
def doFence (o : Osc) (s : State) : Res :=
  let s1 := Osc.after o (Osc.before o s)
  .done (if (Osc.scope o).any Scope.device then s1.onWave fun w => { w with chain := queueChain s } else s1)

def execAtom (la : Nat) (o : Osc) (sp : Space) (op : AtomOp) (a d : Nat) (s : State) :=
  issue (.atom la o sp op a d) (doAtom o sp op a d) s
def execCas (la : Nat) (o : Osc) (sp : Space) (wide : Bool) (a d : Nat) (s : State) :=
  issue (.cas la o sp wide a d) (doCas o sp wide a d) s
def execFence (la : Nat) (o : Osc) (s : State) := issue (.fence la o) (doFence o) s

end Sys2Proof.Machine
end

