-- ==== Sys2Proof/Machine/Sync.lean ====
section
/-! DEFINITION. Barriers of a group (R366) and what a wave's end means to them (R330, R366). -/
namespace Sys2Proof.Machine

/-- A wave's slots that wait at a barrier leave it: the instruction completes and retires (R353, R366). -/
def releaseBar (which : BarWait → Bool) (w : Wave) : Wave :=
  let go (w : Wave) (sec : Bool) : Wave :=
    let c := w.slot sec
    if c.live && which c.barWait then
      { w.onSlot sec fun c => { c with
          barWait := .none, pc := (c.pc + 4) % 2 ^ 56, waited := 0, urgent := none, yielded := false, stalled := false }
        with lclock := w.lclock + 1 }
    else w
  go (go w false) true

/-- The wave has a slot waiting at such a barrier. -/
def Wave.waitsBar (w : Wave) (which : BarWait → Bool) : Bool :=
  (w.cur.live && which w.cur.barWait) || (w.sib.live && which w.sib.barWait)

/-- A slot waits at group barrier n. -/
def atBar (n : Nat) : BarWait → Bool
  | .bar k => k == n
  | .none | .barc _ _ => false

/-- A slot waits at counted barrier n. -/
def atBarc (n : Nat) : BarWait → Bool
  | .barc k _ => k == n
  | .none | .bar _ => false

/-- Completion of a barrier acquires: at `.cl`, for the cores of the waves, in a cluster group, and for `barc` in a gang
instance too; at `.gp`, which removes no line, otherwise (R275, R366). -/
def barAcquire (s : State) (counted : Bool) (ws : List Wave) : State :=
  ws.foldl (fun t w =>
    if ((t.group? w.gid).any fun g => g.isCluster) || (counted && (t.launch? w.lid).any fun l => l.attr.gang) then
      t.emptyL1 w.core
    else t) s

/-- Group barrier n of a group completes when every wave of it that has not ended has arrived there (R366). -/
def settleBar (s : State) (gid n : Nat) : State :=
  let ws := s.waves.filter fun w => w.gid == gid
  let some_ := ws.any fun w => w.waitsBar (atBar n)
  let all := ws.all fun w => w.arrived && w.waitsBar (atBar n)
  if some_ ∧ all then barAcquire (s.mapWaves fun w => if w.gid = gid then releaseBar (atBar n) w else w) false ws else s

/-- The instance that a group's counted barriers belong to (R335, R366). -/
def instOf (s : State) (gid : Nat) : Nat := ((s.group? gid).map fun g => g.inst).getD gid

/-- The counted barriers of an instance. -/
def barcsOf (s : State) (inst : Nat) : Vector Barc 16 := (assocGet s.barcs inst).getD (Vector.replicate 16 ⟨0, []⟩)

/-- The counted barrier n of an instance. -/
def barcOf (s : State) (inst n : Nat) : Barc := (barcsOf s inst).getD n ⟨0, []⟩

/-- Counted barrier n of an instance, set. -/
def setBarc (s : State) (inst n : Nat) (b : Barc) : State :=
  { s with barcs := assocSet s.barcs inst ((barcsOf s inst).setIfInBounds n b) }

/-- The count that a wave's slots brought to counted barrier n. -/
def Wave.barcCount (w : Wave) (n : Nat) : Option Nat :=
  let one (c : Slot) : Option Nat := match c.barWait with
    | .barc k m => if c.live && k == n then some m else none
    | .none | .bar _ => none
  (one w.cur).or (one w.sib)

/-- The slot in which a wave waits at counted barrier n. -/
def Wave.barcSlot (w : Wave) (n : Nat) : Bool := !((w.slot false).live && atBarc n (w.slot false).barWait)

/-- A cause raised in a slot that waits, at the instruction where it stands; the slot in hand stays in hand. -/
def trapWaiting (s : State) (wid : Nat) (sec : Bool) (t : Trap) : State :=
  let u := s.bring wid sec
  (takeTrap u t u.cur.pc).bring s.w.wid s.w.curSec

/-- A wave that has arrived at counted barrier n is counted; one that comes with another count, as its other slot parks, takes
BAR_COUNT (R366). -/
def countArrival (inst n : Nat) (s : State) (w : Wave) : State :=
  let b := barcOf s inst n
  let m := (w.barcCount n).getD 0
  if b.arrived.contains w.wid then s
  else if b.arrived.isEmpty then setBarc s inst n ⟨m, [w.wid]⟩
  else if b.count = m then setBarc s inst n ⟨m, b.arrived ++ [w.wid]⟩
  else trapWaiting s w.wid (w.barcSlot n) (Trap.whole 0x8D 0)

/-- Waves that have arrived at counted barrier n are counted, and the barrier completes at its count (R366). -/
def settleBarc (s : State) (inst n : Nat) : State :=
  let ws := s.waves.filter fun w => instOf s w.gid == inst && w.arrived && (w.barcCount n).isSome
  let t := ws.foldl (countArrival inst n) s
  let b := barcOf t inst n
  if b.arrived.isEmpty ∨ b.arrived.length < b.count then t
  else
    barAcquire ((setBarc t inst n ⟨0, []⟩).mapWaves fun w => if b.arrived.contains w.wid then releaseBar (atBarc n) w else w)
      true (ws.filter fun w => b.arrived.contains w.wid)

/-- Barriers that some wave of the group waits at are looked at again. -/
def settleBarriers (s : State) (gid : Nat) : State :=
  let ws := s.waves.filter fun w => instOf s w.gid == instOf s gid
  if ws.any fun w => w.cur.barWait != .none || w.sib.barWait != .none then
    let s1 := (List.range 16).foldl (fun t n => settleBar t gid n) s
    (List.range 16).foldl (fun t n => settleBarc t (instOf s gid) n) s1
  else s

/-- A wave ends, and its group's barriers no longer wait for it (R330, R366). -/
def finishWave (s : State) (wid : Nat) : State :=
  match s.wave? wid with
  | none => s
  | some w => settleBarriers (endWave s wid) w.gid

end Sys2Proof.Machine
end

