-- ==== Sys2Proof/Machine/Barrier.lean ====
section
/-! DEFINITION. `bar`, `barc`, `lclk` and `lsync` (R354, R366, R367). -/
namespace Sys2Proof.Machine

/-- The other live slot of the wave waits at a barrier other than this one (R366). -/
def mismatch (s : State) (mine : BarWait → Bool) : Bool :=
  s.w.sib.live && s.w.sib.barWait != .none && !mine s.w.sib.barWait

/-- The slot arrives at a barrier. -/
def arrive (s : State) (b : BarWait) : Res :=
  .settled (settleBarriers
    (s.onCur fun c => { c with
      barWait := b, waited := 0, urgent := none, yielded := false, issuedAt := s.gts, stalled := false, staging := none }) s.w.gid)

/-- `bar` (R366). -/
def doBar (n : Nat) (s : State) : Res :=
  if mismatch s (atBar n) then .trap (Trap.whole 0x8C 0) else arrive s (.bar n)

/-- The count that the wave's other slot brought to the barrier differs. -/
def otherCount (s : State) (n count : Nat) : Bool :=
  match s.w.sib.barWait with
  | .barc k m => s.w.sib.live && k == n && m != count
  | .none | .bar _ => false

/-- `barc` (R366).  A wave arrives with the second of its slots, and its count is held against the round's then. -/
def doBarc (rs n : Nat) (s : State) : Res :=
  let count := (s.sreg rs).toNat
  let b := barcOf s (instOf s s.w.gid) n
  if mismatch s (atBarc n) then .trap (Trap.whole 0x8C 0)
  else if count = 0 ∨ 4096 < count ∨ otherCount s n count ∨ (s.w.sib.arrived ∧ !b.arrived.isEmpty ∧ b.count ≠ count) then
    .trap (Trap.whole 0x8D 0)
  else arrive s (.barc n count)

/-- `lclk` (R367). -/
def doLclk (r : Nat) (s : State) : Res := .done (s.setS64 r (BitVec.ofNat 64 s.w.lclock))

def execBar (i : Nat) (s : State) := issue (.bar i) (doBar i) s
def execBarc (r i : Nat) (s : State) := issue (.barc r i) (doBarc r i) s
def execLclk (r : Nat) (s : State) := issue (.lclk r) (doLclk r) s
def execLsync (s : State) := issue .lsync (fun s => .done s) s

end Sys2Proof.Machine
end

