-- ==== Sys2Proof/Machine/Place.lean ====
section
/-! DEFINITION. Room on cores, and starting groups, cluster groups, gang instances, tasks and fragment waves
(R14, R89, R90, R220, R234, R334, R335, R339, R346). -/
namespace Sys2Proof.Machine

/-- What work takes of a core: waves, bytes of registers, of lane-private store and of scratchpad. -/
structure Use where
  waves : Nat
  regs : Nat
  lane : Nat
  scr : Nat
  deriving DecidableEq, Repr

/-- Nothing. -/
def Use.none : Use := ⟨0, 0, 0, 0⟩
/-- The sum of two. -/
def Use.plus (a b : Use) : Use := ⟨a.waves + b.waves, a.regs + b.regs, a.lane + b.lane, a.scr + b.scr⟩
/-- It fits on an empty core (Table 0.1). -/
def Use.fits (a : Use) : Bool :=
  decide (a.waves ≤ 64) && decide (a.regs ≤ 2 ^ 19) && decide (a.lane ≤ 2 ^ 18) && decide (a.scr ≤ 393216)

/-- Bytes that each core lends to the cluster-shared window (R90). -/
def lent (l : LaunchRec) : Nat := (l.cluster + 1023) / 1024 * 256

/-- What n waves of budget B and an allocation take of a core (R89, R90, R234). -/
def useOf (l : LaunchRec) (budget n alloc : Nat) : Use :=
  ⟨n, n * budget * 128, n * 32 * (l.priv + Config.hwArea), n * l.quire + alloc⟩

/-- What a group takes of the core with within-cluster index k, relative to its own core (R90). -/
def shareOf (l : LaunchRec) (budget waves : Nat) (cl : Bool) (k : Nat) : Use :=
  if cl then useOf l budget ((waves + 3 - k) / 4) (l.scratch + lent l) else useOf l budget waves l.scratch

/-- The register budget of a group. -/
def groupBudget (l : LaunchRec) (g : Group) : Nat :=
  if l.gang then (l.roles.getD g.role (0, l.budget, 0)).2.1 else l.budget

/-- What a group takes of a core. -/
def groupUse (s : State) (g : Group) (core : Nat) : Use :=
  match s.launch? g.lid with
  | none => Use.none
  | some l =>
    if !g.onCore then Use.none
    else if g.isCluster then
      if g.core / 4 = core / 4 then shareOf l.attr (groupBudget l.attr g) g.waves true (core % 4) else Use.none
    else if g.core = core then shareOf l.attr (groupBudget l.attr g) g.waves false 0
    else Use.none

/-- What the resident work takes of a core. -/
def coreUse (s : State) (core : Nat) : Use := s.groups.foldl (fun u g => u.plus (groupUse s g core)) Use.none

/-- The die's compute is fenced (R392). -/
def fenced (s : State) (die : Nat) : Bool := s.health.getLsbD (24 + die)

/-- The live dies, ascending (R339). -/
def liveDies (s : State) : List Nat := (List.range 4).filter fun d => !fenced s d

/-- The dies in ring order from one on (R340). -/
def ringFrom (d : Nat) : List Nat :=
  match d with
  | 0 => [0, 1, 3, 2]
  | 1 => [1, 3, 2, 0]
  | 3 => [3, 2, 0, 1]
  | _ => [2, 0, 1, 3]

/-- A group fits on a core, or on the cluster that starts there, beside what is used. -/
def fitsAt (used : Nat → Use) (l : LaunchRec) (budget waves : Nat) (cl : Bool) (core : Nat) : Bool :=
  if cl then
    core % 4 == 0 && (List.range 4).all fun k => ((used (core + k)).plus (shareOf l budget waves true k)).fits
  else ((used core).plus (shareOf l budget waves false 0)).fits

/-- The cores of a die, ascending. -/
def coresOf (die : Nat) : List Nat := (List.range 96).map fun k => 96 * die + k

/-- The use of cores with one more group placed on one of them. -/
def useWith (used : Nat → Use) (l : LaunchRec) (budget waves : Nat) (cl : Bool) (core : Nat) (c : Nat) : Use :=
  if cl then (if c / 4 = core / 4 then (used c).plus (shareOf l budget waves true (c % 4)) else used c)
  else if c = core then (used c).plus (shareOf l budget waves false 0) else used c

/-- The lowest-numbered of these cores with room for a group (R339). -/
def coreFor (used : Nat → Use) (l : LaunchRec) (budget waves : Nat) (cl : Bool) (cores : List Nat) : Option Nat :=
  cores.find? fun c => fitsAt used l budget waves cl c

/-- The groups of a gang instance: role, ordinal and budget (R335). -/
def instanceGroups (l : LaunchRec) : List (Nat × Nat × Nat) :=
  ((List.range l.roles.length).zip l.roles).flatMap fun p => (List.range p.2.2.2).map fun k => (p.1, k, p.2.2.1)

/-- The cores of a cluster on which the groups of an instance fit, in order; none if some group does not fit. -/
def placeInstance (used : Nat → Use) (l : LaunchRec) (base : Nat) : List (Nat × Nat × Nat) → Option (List Nat)
  | [] => some []
  | g :: gs =>
    match coreFor used l g.2.2 l.waves false ((List.range 4).map fun k => base + k) with
    | none => none
    | some c => (placeInstance (useWith used l g.2.2 l.waves false c) l base gs).map fun cs => c :: cs

/-- The lowest-numbered cluster of a die that has room for an instance, with the cores of its groups. -/
def instanceFor (used : Nat → Use) (l : LaunchRec) (die : Nat) : Option (List Nat) :=
  ((List.range 24).filterMap fun j => placeInstance used l (96 * die + 4 * j) (instanceGroups l)).head?

/-! ### Starting a group -/

/-- A slot at wave start (R14, R334). -/
def startSlot (pc : Nat) (lanes : Word) : Slot := { Slot.off with live := true, pc := pc, m0 := lanes }

/-- A wave at its start (R14, R334). -/
def startWave (l : Launch) (wid gid waveid core budget pc prio gts fill : Nat) (lanes : Word) : Wave :=
  { Wave.off with
    wid := wid
    gid := gid
    lid := l.lid
    waveid := waveid
    core := core
    live := true
    onCore := true
    cur := startSlot pc lanes
    fill := fill
    budget := budget
    priv := l.attr.priv
    started := lanes
    trapvec := l.attr.trapvec
    since := gts
    prio := prio }

/-- A group as it starts. -/
structure GroupStart where
  lin : Nat
  gx : Nat
  gy : Nat
  gz : Nat
  core : Nat
  isCluster : Bool
  code : Nat
  budget : Nat
  waves : Nat
  lanes : Word
  role : Nat
  roleGrp : Nat
  /-- The instance it joins; none starts one of its own. -/
  inst : Option Nat
  task : Option TaskRec
  frag : Option Frag
  prio : Nat

/-- The core of wave i of a group (R90). -/
def waveCore (isCluster : Bool) (core i : Nat) : Nat := if isCluster then core + i % 4 else core

/-- A group starts; its waves acquire (Table 12.3). -/
def startGroup (s : State) (l : Launch) (p : GroupStart) : State :=
  let gid := s.serial
  let g : Group :=
    { gid := gid, lid := l.lid, lin := p.lin, gx := p.gx, gy := p.gy, gz := p.gz, isCluster := p.isCluster, core := p.core,
      waves := p.waves, role := p.role, roleGrp := p.roleGrp, inst := p.inst.getD gid, task := p.task, prio := p.prio,
      bcbs := Vector.replicate 16 ⟨0, none⟩, onCore := true, since := s.gts,
      evicted := 0, frag := p.frag }
  let ws := (List.range p.waves).map fun i =>
    startWave l (gid + 1 + i) gid i (waveCore p.isCluster p.core i) p.budget (pcOf p.code) p.prio s.gts (s.free + i) p.lanes
  let s1 := ws.foldl (fun t w => t.emptyL1 w.core) s
  { s1 with
    groups := s1.groups ++ [g]
    others := s1.others ++ ws
    serial := gid + 1 + p.waves
    free := s1.free + p.waves }

/-- The coordinates of a linear index (R334). -/
def coordsOf (l : LaunchRec) (lin : Nat) : Nat × Nat × Nat := (lin % l.gx, lin / l.gx % l.gy, lin / (l.gx * l.gy))

/-- An ordinary group of the grid starts on a core. -/
def startGrid (s : State) (l : Launch) (lin core : Nat) : State :=
  let (x, y, z) := coordsOf l.attr lin
  startGroup s l
    { lin := lin, gx := x, gy := y, gz := z, core := core, isCluster := decide (0 < l.attr.cluster), code := l.attr.code,
      budget := l.attr.budget, waves := l.attr.waves, lanes := BitVec.allOnes 32, role := 0, roleGrp := 0, inst := none,
      task := none, frag := none, prio := l.attr.prio }

/-- A gang instance starts on the cores of its groups (R335). -/
def startInstance (s : State) (l : Launch) (n : Nat) (cores : List Nat) : State :=
  let (x, y, z) := coordsOf l.attr n
  let gs := instanceGroups l.attr
  let inst := s.serial
  (((List.range gs.length).zip gs).zip cores).foldl
    (fun t p =>
      let role := p.1.2.1
      startGroup t l
        { lin := n * gs.length + p.1.1, gx := x, gy := y, gz := z, core := p.2, isCluster := false,
          code := (l.attr.roles.getD role (0, 0, 0)).1, budget := p.1.2.2.2, waves := l.attr.waves, lanes := BitVec.allOnes 32,
          role := role, roleGrp := p.1.2.2.1, inst := some inst, task := none, frag := none, prio := l.attr.prio }) s

/-- A task starts on a core (R346). -/
def startTask (s : State) (l : Launch) (t : TaskRec) (core : Nat) : State :=
  startGroup s l
    { lin := t.key, gx := 0, gy := 0, gz := 0, core := core, isCluster := false, code := t.code, budget := l.attr.budget,
      waves := if t.isGroup then t.n else 1,
      lanes := if t.isGroup then BitVec.allOnes 32 else BitVec.ofNat 32 (2 ^ t.n - 1), role := 0, roleGrp := 0, inst := none,
      task := some t, frag := none, prio := t.prio }

/-- The registers that the rasteriser fills in a fragment wave (R220). -/
def fragWave (f : Frag) (w : Wave) : Wave :=
  let val (k : Nat) (l : Nat) : Word :=
    match f.lanes.getD l (0, 0, 0, 0), k with
    | (p, _, _, _), 0 => p
    | (_, a, _, _), 1 => a
    | (_, _, b, _), 2 => b
    | (_, _, _, c), _ => c
  let m := w.started
  let w1 := (List.range 4).foldl (fun w k => w.setVreg m k (val k)) w
  let sr := ((w1.cur.bank.sregs.setIfInBounds 1 (BitVec.ofNat 32 f.prim)).setIfInBounds 2 f.user).setIfInBounds 3 (BitVec.ofNat 32 f.count)
  { w1 with cur := { w1.cur with bank := { w1.cur.bank with sregs := sr } } }

/-- A fragment wave starts on a core (R220). -/
def startFrag (s : State) (l : Launch) (f : Frag) (core : Nat) : State :=
  let gid := s.serial
  let t := startGroup s l
    { lin := f.prim * 2 ^ 16 + f.k, gx := f.k, gy := 0, gz := 0, core := core, isCluster := false, code := l.attr.code,
      budget := l.attr.budget, waves := 1, lanes := BitVec.ofNat 32 (2 ^ f.lanes.length - 1), role := 0, roleGrp := 0,
      inst := none, task := none, frag := some f, prio := l.attr.prio }
  { t with others := t.others.map fun w => if w.gid = gid then fragWave f w else w }

end Sys2Proof.Machine
end

