-- ==== Sys2Proof/Machine/Records.lean ====
section
/-! DEFINITION. Records, descriptors and words that an instruction or an engine reads from global memory as a whole
(R46, R53, R57, R84, R99, R358, R420). -/
namespace Sys2Proof.Machine

/-- The n bytes at an address, for a unit: their places and translations, or the first cause in R57's order with its address.
Poisoned bytes of HBM4 raise MEM_POISON (R99). -/
def access (s : State) (u : Mmu) (a : ASpace) (k : AccKind) (va : Int) (n : Nat) : Except (Nat × Nat) (List Loc × List Xlat) :=
  if !addrOk va n then .error (causeNoncanon, truncTo 64 va)
  else
    match places s u a k va.toNat n with
    | .error e => .error (firstInOrder s u a k va.toNat n e)
    | .ok (ls, xs) =>
      let seen := if k.writes then s.partBad ls else ls
      if poisoned s seen then .error (causeMemPoison, va.toNat) else .ok (ls, xs)

/-- A fault page of the slot in hand. -/
def pageOf (s : State) (k : AccKind) (va : Nat) : FaultPage := ⟨s.attr.asn, s.attr.root, va / 65536, k.code, s.w.cluster⟩

/-- A cause that the slot's instruction meets as a whole at an address (R420). -/
def wholeCause (s : State) (k : AccKind) (c va : Nat) (addr : DWord) : Res :=
  if c = causePageFault then .page [pageOf s k va] s.m0 fun _ => addr else .trap (Trap.whole c addr)

/-- An operand in global memory of an instruction that executes once per slot: R46, then alignment, then R57 (R358). -/
def operand (s : State) (k : AccKind) (va : Int) (n align cause : Nat) : Except Res (List Loc × List Xlat) :=
  let addr := BitVec.ofInt 64 va
  if !addrOk va n then .error (.trap (Trap.whole causeNoncanon addr))
  else if va.toNat % align ≠ 0 then .error (.trap (Trap.whole cause addr))
  else
    match access s (.core s.w.core) s.aspace k va n with
    | .error (c, at_) => .error (wholeCause s k c at_ addr)
    | .ok (ls, xs) =>
      match killCause s ls with
      | some c => .error (.settled (killGroup s s.w.gid c))
      | none => .ok (ls, xs)

/-- The 8-B words at places, as a launch with or without the system flag reads them (R93). -/
def wordsFor (s : State) (sys : Bool) (ls : List Loc) : List Nat :=
  (List.range (ls.length / 8)).map fun k => leOf (((ls.drop (8 * k)).take 8).map (s.byteFor sys 0))

/-- The 8-B words at places, as the slot in hand reads them: its own stores among them (R104). -/
def wordsAt (s : State) (ls : List Loc) : List Nat :=
  (List.range (ls.length / 8)).map fun k => leOf (((ls.drop (8 * k)).take 8).map (slotByte s 0))

/-- The number at places, as the slot in hand reads it as a whole. -/
def wholeRead (s : State) (ls : List Loc) : Nat := slotRead s 0 ls

/-- The TLBs and caches after the slot's own access to places, and a free value used up where a read took one. -/
def noteAccess (s : State) (ls : List Loc) (xs : List Xlat) (write : Bool) : State :=
  let t := (fillTlbs s (.core s.w.core) s.aspace xs).touchAll s.w.core ls .nm write
  if write then t else t.afterFree s.attr.sys ls

/-- The words of a record or descriptor that an instruction captures once: what it captured before it stalled or was left
unfinished, or what it reads now (R72, R84, R211). -/
def captured (s : State) (va : Int) (n align cause : Nat) : Except Res (List Nat × State) :=
  match s.cur.staging with
  | some ws => .ok (ws, s)
  | none => (operand s .load va n align cause).map fun p => (wordsAt s p.1, noteAccess s p.1 p.2 false)

/-- A field of a record given as 8-B words: n bits from bit lo of the word that starts at byte off. -/
def fieldOf (ws : List Nat) (off lo n : Nat) : Nat := fieldAt (ws.getD (off / 8) 0) (8 * (off % 8) + lo) n

end Sys2Proof.Machine
end

