-- ==== Sys2Proof/Machine/Tasks.lean ====
section
/-! DEFINITION. Task records, join objects, mailboxes, futures, `cancel` and `cwait` (R346 to R351, R358 to R365). -/
namespace Sys2Proof.Machine

/-- Bytes that an instruction of the slot in hand writes as one atomic step. -/
def atomicWrite (s : State) (va : Nat) (ls : List Loc) (data : List Byte) : State :=
  noteWrites (writeCells s s.agent (ls.zip data)) s.w.lid none ((List.range data.length).zip ls |>.map fun p => (va + p.1, p.2))

/-! ### Task records -/

/-- The launch that a launch reference names, by preference one of the given launch's address space (R346). -/
def launchNamed (s : State) (lid ref : Nat) : Option Launch :=
  let own := s.launch? lid
  if ref = 0 then own
  else
    let same (l : Launch) : Bool := own.any fun o => o.attr.asn == l.attr.asn
    (s.launches.find? fun l => l.ref == ref && same l).or (s.launches.find? fun l => l.ref == ref)

/-- The task that a record's eight words hold, none if it is malformed (R346). -/
def taskOf (s : State) (lid : Nat) (ws : List Nat) : Option TaskRec :=
  let n := fieldOf ws 0x28 0 6
  match launchNamed s lid (fieldOf ws 0x18 0 64) with
  | none => none
  | some l =>
    if fieldOf ws 0x28 6 9 ≠ 0 ∨ fieldOf ws 0x28 18 6 ≠ 0 ∨ fieldOf ws 0x30 0 64 ≠ 0 ∨ fieldOf ws 0x38 0 64 ≠ 0
        ∨ n = 0 ∨ 32 < n ∨ fieldOf ws 0x10 0 64 % 16 ≠ 0 ∨ l.attr.cluster ≠ 0 then none
    else
      some { code := fieldOf ws 0 0 64, frame := BitVec.ofNat 64 (fieldOf ws 8 0 64), joinc := fieldOf ws 0x10 0 64,
             lid := l.lid, arg := BitVec.ofNat 64 (fieldOf ws 0x20 0 64), key := fieldOf ws 0x28 24 40,
             prio := fieldOf ws 0x28 16 2, isGroup := fieldOf ws 0x28 15 1 == 1, n := n, posted := false, made := 0 }

/-- The core's deque has room (R348). -/
def dequeRoom (s : State) (core : Nat) : Bool := decide ((dequeOf s core).length < 4096)

/-- `fork` (R359). -/
def doFork (r : Nat) (s : State) : Res :=
  let va := (s.s64 r).toInt
  match operand s .load va 64 64 causeTaskMalformed with
  | .error e => e
  | .ok (ls, xs) =>
    match taskOf s s.w.lid (wordsAt s ls) with
    | none => .trap (Trap.whole causeTaskMalformed (BitVec.ofInt 64 va))
    | some t =>
      if !dequeRoom s s.w.core then .trap (Trap.whole 0x88 0)
      else .done (pushTask (noteAccess s ls xs false) s.w.core t)

/-! ### Join objects -/

/-- What a decrement of a join object comes to (R347). -/
inductive JoinRes where
  | ok (s : State)
  /-- COUNT was 0: nothing changed. -/
  | underflow
  /-- COUNT reached 0 and the continuation record is malformed. -/
  | malformed (s : State)
  /-- The continuation record cannot be read: cause and address; nothing changed. -/
  | fault (cause va : Nat)
  /-- The deque has no room for the continuation: nothing changed yet. -/
  | full

/-- One decrement of the object at these places, by an agent on a core (R347); on a host page it acts on host memory, as every
atomic does (R272). -/
def joinStep (s : State) (agent : Agent) (lid core : Nat) (a : ASpace) (ls : List Loc) : JoinRes :=
  let s0 := atomPrepare s ls
  let count := leOf ((ls.take 8).map fun l => s0.byte l)
  let cont := leOf ((ls.drop 8).map fun l => s0.byte l)
  if count = 0 then .underflow
  else
    let s1 := writeCells s0 agent (ls.zip (leBytes 8 (count - 1)))
    if count ≠ 1 ∨ cont = 0 then .ok s1
    else if addrOk (signed 64 cont) 64 ∧ cont % 64 ≠ 0 then .malformed s1
    else
      match access s1 (.core core) a .load (signed 64 cont) 64 with
      | .error (c, va) => .fault c va
      | .ok (rs, _) =>
        match taskOf s1 lid (wordsFor s1 ((s1.launch? lid).any fun l => l.attr.sys) rs) with
        | none => .malformed s1
        | some t => if dequeRoom s1 core then .ok (pushTask s1 core t) else .full

/-- `join` (R360): one decrement, an atomic at `.ar.dev` (R347). -/
def doJoin (r : Nat) (s : State) : Res :=
  let va := (s.s64 r).toInt
  match operand s (.atom true) va 16 16 causeAtomAlign with
  | .error e => e
  | .ok (ls, xs) =>
    let s1 := noteAccess s (ls.filter fun l => l.area != .host) xs true
    match joinStep s1 s.agent s.w.lid s.w.core s.aspace ls with
    | .ok t => .done ((noteWrites t s.w.lid none ((ls.take 1).map fun l => (va.toNat, l))).emptyL1 s.w.core)
    | .underflow => .trap (Trap.whole causeJoinUnderflow (BitVec.ofInt 64 va))
    | .malformed t => .trapIn t (Trap.whole causeTaskMalformed (BitVec.ofInt 64 va))
    | .fault c at_ => wholeCause s .load c at_ (BitVec.ofNat 64 at_)
    | .full => .hold s

/-! ### Mailboxes and futures -/

/-- `mbox` (R362). -/
def doMbox (rb ra : Nat) (s : State) : Res :=
  match boundTo s ((s.sreg ra).toNat % 4096) with
  | none => .trap (Trap.whole 0x84 0)
  | some l => .done (postMessage s l.lid (s.sreg rb).toNat)

/-- STATE of a future (Table 15.4). -/
def futState (s : State) (ls : List Loc) : Nat := (leOf ((ls.drop 8).map fun l => s.byte l)) % 4

/-- The cell that `fget` or `fput` names: 16-B aligned, on a TYPE 0 page (R350, R363). -/
def futCell (s : State) (r : Nat) : Except Res (List Loc × List Xlat) :=
  let va := (s.s64 r).toInt
  match operand s (.atom true) va 16 16 0x8B with
  | .error e => .error e
  | .ok (ls, xs) => if ls.all fun l => l.area == .hbm then .ok (ls, xs) else .error (.trap (Trap.whole 0x8A (BitVec.ofInt 64 va)))

/-- The slot goes to FUTHANDLER as `call` does (R351), once `v127` has been checked (R24). -/
def futureEmpty (s : State) (va : DWord) : Res :=
  if s.attr.futhandler = 0 then .trap (Trap.whole 0x89 va)
  else if s.w.budget < 128 then .trap (Trap.whole causeRegRange 0)
  else if hitsWindow s [] [.v 127] then .trap (Trap.whole causeLookahead 0)
  else
    .settled ((clearBadRegs { writes := [.v 127] } s.m0 (s.setV 127 fun _ => BitVec.ofNat 32 s.cur.pc)).onCur fun c => { c with
      futaddr := va, pc := pcOf s.attr.futhandler, windows := [], waited := 0, urgent := none, yielded := false,
      issuedAt := s.gts, stalled := false, staging := none })

/-- The bytes of a future with STATE changed in its low two bits. -/
def stateByte (s : State) (ls : List Loc) (st : Nat) : List Byte :=
  [BitVec.ofNat 8 ((leOf ((ls.drop 8).map fun l => s.byte l)) % 256 / 4 * 4 + st)]

/-- `fget` (R363, Table 15.4). -/
def doFget (r d : Nat) (s : State) : Res :=
  let va := s.s64 r
  match futCell s r with
  | .error e => e
  | .ok (ls, xs) =>
    match futState s ls with
    | 0 => futureEmpty s va
    | 1 =>
      let x := BitVec.ofNat 64 (leOf ((ls.take 8).map fun l => s.byte l))
      let s1 := noteAccess s ls xs true
      let s2 := atomicWrite s1 (va.toNat + 8) (ls.drop 8) (stateByte s ls 2)
      .done ((s2.setV64 d fun _ => x).emptyL1 s.w.core)
    | _ => .trap (Trap.whole 0x8A va)

/-- `fput` (R363, Table 15.4). -/
def doFput (r d : Nat) (s : State) : Res :=
  let va := s.s64 r
  match futCell s r with
  | .error e => e
  | .ok (ls, xs) =>
    if futState s ls ≠ 0 then .trap (Trap.whole 0x8A va)
    else
      let x := s.v64 d ((lowestLane s.m0).getD 0)
      .done (atomicWrite (noteAccess s ls xs true) va.toNat ls (leBytes 8 x.toNat ++ stateByte s ls 1))

/-! ### `cancel` and `cwait` -/

/-- The counter of a launch that a level of `cancel` compares (R364). -/
def levelCounter (v : CancelLevel) (l : LaunchRec) : Nat :=
  match v with
  | .launch => l.compl
  | .graph => l.graphc
  | .phase => l.phasec
  | .job => l.jobc

/-- `cancel` (R364); a cancelled job's gate opens (R305). -/
def doCancel (r : Nat) (v : CancelLevel) (s : State) : Res :=
  let x := (s.s64 r).toNat
  if x = 0 then .done s
  else
    let hit := s.launches.filter fun l =>
      levelCounter v l.attr == x && (s.attr.sys || l.attr.jobid == s.attr.jobid) && !l.cancelled
    let s1 := hit.foldl (fun t l => cancelLaunch t l.lid) s
    .done (if v = .job then
      { s1 with
        gates := s1.gates.filter fun g => !(hit.any fun l => l.attr.jobid == g.1)
        unclear := s1.unclear.filter fun j => !(hit.any fun l => l.attr.jobid == j) }
      else s1)

/-- `cwait` (R365). -/
def doCwait (rb ra : Nat) (s : State) : Res :=
  match operand s .load (s.s64 ra).toInt 8 8 causeAtomAlign with
  | .error e => e
  | .ok (ls, xs) =>
    let s1 := noteAccess s ls xs false
    if wholeRead s ls = (s.s64 rb).toNat then .done (s1.emptyL1 s.w.core) else .hold s1

def execFork (r : Nat) (s : State) := issue (.fork r) (doFork r) s
def execJoin (r : Nat) (s : State) := issue (.join r) (doJoin r) s
def execMbox (b r : Nat) (s : State) := issue (.mbox b r) (doMbox b r) s
def execFget (r d : Nat) (s : State) := issue (.fget r d) (doFget r d) s
def execFput (r d : Nat) (s : State) := issue (.fput r d) (doFput r d) s
def execCancel (r : Nat) (v : CancelLevel) (s : State) := issue (.cancel r v) (doCancel r v) s
def execCwait (b r : Nat) (s : State) := issue (.cwait b r) (doCwait b r) s

end Sys2Proof.Machine
end

