-- ==== Sys2Proof/Machine/Launch.lean ====
section
/-! DEFINITION. Launch records and their acceptance (R332, R333, R335, R336, R342, R355), `spawn` (R361) and the words that
the device writes on its own (R419). -/
namespace Sys2Proof.Machine

/-- A 32-bit two's-complement field of a record. -/
def sfield32 (ws : List Nat) (off : Nat) : Int := signed 32 (fieldOf ws off 0 32)

/-- The record that 32 words hold (Table 15.1). -/
def launchOf (ws : List Nat) : LaunchRec :=
  let f := fieldOf ws
  { code := f 0x00 0 64, trapvec := f 0x08 0 64, futhandler := f 0x10 0 64, args := BitVec.ofNat 64 (f 0x18 0 64),
    root := f 0x20 13 39 * 2 ^ 13, asn := f 0x20 0 12, shpool := f 0x28 0 64, tapebase := f 0x30 0 64,
    scatsize := f 0x38 32 32, tapesize := f 0x38 0 32, scatbase := f 0x40 0 64, gx := f 0x48 0 24 + 1,
    gy := f 0x48 24 24 + 1, gz := f 0x50 0 24 + 1, mboxen := f 0x50 44 1 == 1, mboxnum := f 0x50 32 12,
    priv := 64 * f 0x58 48 16, quire := 64 * f 0x58 32 16, scratch := 256 * f 0x58 16 16, cluster := 256 * f 0x58 0 16,
    jobid := f 0x60 32 32, wchk := f 0x60 23 1 == 1, sys := f 0x60 22 1 == 1, idem := f 0x60 21 1 == 1,
    det := f 0x60 20 1 == 1, gang := f 0x60 19 1 == 1, ndep := f 0x60 16 3, prio := f 0x60 14 2,
    budget := 8 * (f 0x60 5 4 + 1), waves := f 0x60 0 5 + 1, phase := f 0x68 0 32, mboxaddr := f 0x70 0 64,
    wcbase := f 0x78 0 64,
    deps := (List.range 4).map fun i =>
      (sfield32 ws (0x80 + 12 * i), sfield32 ws (0x84 + 12 * i), sfield32 ws (0x88 + 12 * i)),
    compl := f 0xB0 0 64, graphc := f 0xB8 0 64, phasec := f 0xC0 0 64, jobc := f 0xC8 0 64,
    roles := (List.range 3).map fun r => (f (0xD0 + 16 * r) 0 64, 8 * (f (0xD8 + 16 * r) 20 4 + 1), f (0xD8 + 16 * r) 0 16) }

/-- The `rsvd` bits of the record are zero (Table 15.1). -/
def launchRsvdOk (ws : List Nat) : Bool :=
  let z (off lo n : Nat) : Bool := fieldOf ws off lo n == 0
  z 0x20 52 12 && z 0x20 12 1 && z 0x48 48 16 && z 0x50 45 19 && z 0x50 24 8 && z 0x60 24 8 && z 0x60 9 5
    && z 0x68 32 32 && (List.range 3).all fun r => z (0xD8 + 16 * r) 24 40 && z (0xD8 + 16 * r) 16 4

/-- Groups of an instance of a gang (R335). -/
def instanceSize (l : LaunchRec) : Nat := (l.roles.map fun r => r.2.2).foldl (· + ·) 0

/-- Points of the grid. -/
def gridPoints (l : LaunchRec) : Nat := l.gx * l.gy * l.gz

/-- The rules of R335 hold. -/
def gangOk (l : LaunchRec) : Bool :=
  let n := instanceSize l
  n != 0 && decide (n ≤ 16) && decide ((gridPoints l - 1) * n ≤ 2 ^ 40) && l.ndep == 0 && l.cluster == 0
    && (placeInstance (fun _ => Use.none) l 0 (instanceGroups l)).isSome

/-- Item 1 of R333 on a record and its fields; NDEP is checked before the components beyond it. -/
def recordOk (l : LaunchRec) (ws : List Nat) : Bool :=
  launchRsvdOk ws && decide (l.priv ≤ 4096) && decide (64 ≤ l.quire) && decide (l.quire ≤ 4096)
    && decide (l.scratch ≤ 393216) && decide (l.cluster ≤ 2 ^ 20)
    && l.shpool % 64 == 0 && l.tapebase % 64 == 0 && l.scatbase % 4096 == 0 && l.compl % 16 == 0 && l.graphc % 8 == 0
    && l.phasec % 8 == 0 && l.jobc % 8 == 0 && l.tapesize % 64 == 0
    && decide (l.root + 8192 ≤ Config.hbmEnd) && decide (gridPoints l ≤ 2 ^ 40) && decide (l.ndep ≤ 4)
    && ((l.deps.drop l.ndep).all fun d => d == (0, 0, 0))
    && (!l.mboxen || (l.mboxaddr != 0 && l.mboxaddr % 4 == 0))
    && (!l.gang || gangOk l)

/-- Item 1 of R333. -/
def launchWellFormed (ws : List Nat) : Bool := recordOk (launchOf ws) ws

/-- Item 1 of R333 for a fragment launch, whose grid is ignored (R216). -/
def fragWellFormed (ws : List Nat) : Bool := recordOk { launchOf ws with gx := 1, gy := 1, gz := 1 } ws

/-- A dependence vector is non-zero and lexicographically negative (R342). -/
def depOk (d : Int × Int × Int) : Bool :=
  decide (d.1 < 0) || (d.1 == 0 && (decide (d.2.1 < 0) || (d.2.1 == 0 && decide (d.2.2 < 0))))

/-- How many groups of a launch an empty core, or an empty cluster, holds. -/
def perCore (l : LaunchRec) (cl : Bool) : Nat :=
  let u := shareOf l l.budget l.waves cl 0
  let by_ (cap x : Nat) : Nat := if x = 0 then 64 else cap / x
  min (min (by_ 64 u.waves) (by_ (2 ^ 19) u.regs)) (min (by_ (2 ^ 18) u.lane) (by_ 393216 u.scr))

/-- How many instances of a gang an empty cluster holds, up to a bound. -/
def perCluster (l : LaunchRec) : Nat → (Nat → Use) → Nat
  | 0, _ => 0
  | n + 1, used =>
    match placeInstance used l 0 (instanceGroups l) with
    | none => 0
    | some cs =>
      let after := ((instanceGroups l).zip cs).foldl (fun u p => useWith u l p.1.2.2 l.waves false p.2) used
      perCluster l n after + 1

/-- The groups of a DET launch could all be resident together on the enabled cores (R355). -/
def detFits (s : State) (l : LaunchRec) : Bool :=
  let dies := (liveDies s).length
  if l.gang then decide (gridPoints l ≤ perCluster l 256 (fun _ => Use.none) * 24 * dies)
  else if 0 < l.cluster then decide (gridPoints l ≤ perCore l true * 24 * dies)
  else decide (gridPoints l ≤ perCore l false * 96 * dies)

/-! ### Counters -/

/-- The places of an aligned word that the device updates on its own, or the cause met (R333, R419). -/
def deviceWord (s : State) (u : Mmu) (a : ASpace) (va n : Nat) : Except (Nat × Nat) (List Loc × List Xlat) :=
  access s u a (.atom true) va n

/-- LIVE of a counter object changed by one step (R336).  R10 leaves open what it holds when software has not set it to 0 or
writes it while a launch names it: the step adds to the bytes as they stand (DESIGN CHOICE, log 70). -/
def bumpLive (s : State) (u : Mmu) (a : ASpace) (va : Nat) (d : Int) : Except (Nat × Nat) State :=
  match deviceWord s u a va 8 with
  | .error e => .error e
  | .ok (ls, xs) => .ok (fillTlbs (atomStep s none ls 8 fun old => some (truncTo 64 ((old : Int) + d))).2 u a xs)

/-- The counters of a launch, in the order of R336. -/
def counters (l : LaunchRec) : List Nat := [l.compl, l.graphc, l.phasec, l.jobc].filter fun c => c != 0

/-- The increments of R336; a failure leaves the state as it was. -/
def bumpAll (u : Mmu) (a : ASpace) : List Nat → State → Except (Nat × Nat) State
  | [], s => .ok s
  | c :: cs, s =>
    match bumpLive s u a c 1 with
    | .error e => .error e
    | .ok t => bumpAll u a cs t

/-! ### Acceptance -/

/-- What acceptance comes to. -/
inductive Accepted where
  | ok (s : State)
  /-- Refused with a cause, at an address. -/
  | fail (cause va : Nat)
  /-- Nothing yet: a fifth sweep waits (R344). -/
  | wait

/-- Unstarted chunks dealt over the live dies (R339). -/
def dealChunks (s : State) (units : Nat) : List (Nat × Nat) :=
  let dies := liveDies s
  (List.range ((units + 63) / 64)).map fun c => (c, dies.getD (c % dies.length) 0)

/-- Launches with dependence vectors that are active. -/
def sweeps (s : State) : Nat := (s.launches.filter fun l => l.attr.ndep != 0).length

/-- A launch becomes active (R333), with its phase (R338). -/
def activate (s : State) (ref : Nat) (l : LaunchRec) (origin : Option QOrigin) (queue remote : Option Nat) (isFrag : Bool) :
    State :=
  let units := if isFrag then 0 else gridPoints l
  let x : Launch :=
    { lid := s.serial, ref := ref, attr := l, origin := origin, queue := queue, remote := remote, cancelled := false,
      fault := none, gsdone := 0, topEpoch := 0, total := if l.gang then units * instanceSize l else units, frags := [],
      isFrag := isFrag, chunks := dealChunks s units, waiting := [], retired := [], front := 0, told := [], kills := [],
      tasks := 0, posts := 0, wrote := [], writers := [], window := 0 }
  { s with
    launches := s.launches ++ [x]
    phases := if (assocGet s.phases l.jobid).isSome then s.phases else assocSet s.phases l.jobid l.phase
    serial := s.serial + 1 }

/-- Acceptance of a captured record (R333).  `job` is the issuing launch's job for `spawn` (R361); a remote launch's JOBC
was counted at its home (R361). -/
def accept (s : State) (u : Mmu) (ref : Nat) (ws : List Nat) (job : Option Nat) (origin : Option QOrigin)
    (queue remote : Option Nat) (isFrag : Bool) : Accepted :=
  let l := launchOf ws
  if !(if isFrag then fragWellFormed ws else launchWellFormed ws) ∨ (job.any fun j => j != l.jobid) then .fail causeLaunchMalformed ref
  else if !((l.deps.take l.ndep).all depOk) then .fail 0x81 ref
  else if s.launches.any fun x => x.attr.asn == l.asn && x.attr.root != l.root then .fail 0x82 ref
  else if l.mboxen ∧ (s.launches.any fun x => x.attr.mboxen && x.attr.mboxnum == l.mboxnum) then .fail 0x83 ref
  else if l.det ∧ !isFrag ∧ !detFits s l then .fail 0x42 ref
  else if l.ndep ≠ 0 ∧ 4 ≤ sweeps s then .wait
  else
    let cs := if remote.isSome then [l.compl, l.graphc, l.phasec].filter fun c => c != 0 else counters l
    match bumpAll u ⟨l.asn, l.root, none⟩ cs s with
    | .error (c, va) => .fail c va
    | .ok t => .ok (activate t ref l origin queue remote isFrag)

/-- A cause of acceptance at an instruction of the slot in hand (R333): a counter's page that is not present, in the record's
own address space, is waited for. -/
def acceptCause (s : State) (l : LaunchRec) (c va : Nat) : Res :=
  if c = causePageFault then
    .page [⟨l.asn, l.root, va / 65536, (AccKind.atom true).code, s.w.cluster⟩] s.m0 fun _ => BitVec.ofNat 64 va
  else .trap (Trap.whole c (BitVec.ofNat 64 va))

/-- The queue that launches spawned by the wave in hand inherit (R357). -/
def ownQueue (s : State) : Option Nat := (s.launch? s.w.lid).bind fun l => l.queue

/-- A remote enqueue (R361): JOBC is counted at home and the record sent. -/
def remoteSpawn (s : State) (va : Nat) (ws : List Nat) (peer pa : Nat) : Res :=
  let l := launchOf ws
  if l.jobid ≠ s.attr.jobid then .trap (Trap.whole causeLaunchMalformed (BitVec.ofNat 64 va))
  else
    let r := if l.jobc = 0 then .ok s else bumpLive s (.core s.w.core) s.aspace l.jobc 1
    match r with
    | .error (c, at_) => wholeCause s (.atom true) c at_ (BitVec.ofNat 64 at_)
    | .ok t => .done { t with outbox := .enqueue peer va pa (ws.flatMap (leBytes 8)) :: t.outbox }

/-- `spawn` (R333, R361). -/
def doSpawn (r : Nat) (s : State) : Res :=
  let va := (s.s64 r).toInt
  match operand s .load va 256 256 causeLaunchMalformed with
  | .error e => e
  | .ok (ls, xs) =>
    let s1 := noteAccess s ls xs false
    let ws := wordsAt s1 ls
    match ls.head? with
    | none => .done s
    | some l0 =>
      if l0.area = .peer then remoteSpawn s1 va.toNat ws (l0.addr / 2 ^ 52) (l0.addr % 2 ^ 52)
      else
        match accept s1 (.core s.w.core) va.toNat ws (some s.attr.jobid) none (ownQueue s) none false with
        | .ok t => .done t
        | .fail c at_ => acceptCause s (launchOf ws) c at_
        | .wait => .hold s1

def execSpawn (r : Nat) (s : State) := issue (.spawn r) (doSpawn r) s

/-! ### Words that the device writes on its own (R419) -/

/-- A completion word could not be written: an event record of KIND 6, and HERR (R419). -/
def completionFailed (s : State) (cause src lref va : Nat) : State :=
  setHerr (writeEvent s 6 cause src lref 0 0 0 (BitVec.ofNat 64 va) 0) cause

/-- Pages of words, by address and length, that are not present and not declined, while a descriptor is registered for
the die: the device waits for them as a copy does (R419). -/
def devPages (s : State) (u : Mmu) (a : ASpace) (words : List (Nat × Nat)) : List FaultPage :=
  if (s.faultDesc.getD u.die none).isNone then []
  else words.filterMap fun p =>
    match access s u a (.atom true) p.1 p.2 with
    | .error (c, va) =>
      let pg : FaultPage := ⟨a.asn, a.root, va / 65536, AccKind.engineWrite.code, u.cluster⟩
      if c = causePageFault ∧ !(s.devDeclined.any fun q => q.asn == pg.asn && q.page == pg.page) then some pg else none
    | .ok _ => none

/-- The device waits for pages, once those that it waits for already have come. -/
def devWait (s : State) (ps : List FaultPage) : State :=
  if s.devSleep.isEmpty then { s with devMissing := addPages s.devMissing ps } else s

/-- What the device does to a word is done. -/
def performDev (s : State) (x : DevWord) : State :=
  match x.act with
  | .write cells => writeCells s none cells
  | .bump ls d => (atomStep s none ls 8 fun old => some (truncTo 64 ((old : Int) + d))).2
  | .irq vec => raiseVec s vec

/-- The word lies with a peer, which answers (R295). -/
def DevWord.atPeer (x : DevWord) : Bool :=
  match x.act with
  | .write cells => cells.any fun c => c.1.area == .peer
  | .bump ls _ => ls.any fun l => l.area == .peer
  | .irq _ => false

/-- The words of a list are done up to the first one that a peer must answer. -/
def drainWords (s : State) : List DevWord → State
  | [] => { s with devQueue := [] }
  | x :: xs => if x.atPeer then { s with devQueue := x :: xs } else drainWords (performDev s x) xs

/-- One more word: at once, or in its turn behind those that wait for a peer's answer. -/
def sendDev (s : State) (src lref va : Nat) (act : DevAct) : State :=
  let x : DevWord := ⟨s.serial, src, lref, va, act⟩
  if s.devQueue.isEmpty && !x.atPeer then performDev s x
  else { s with devQueue := s.devQueue ++ [x], serial := s.serial + 1 }

/-- The first word has been answered: it is done, or could not be written for a cause. -/
def answerDev (s : State) (cause : Option Nat) : State :=
  match s.devQueue with
  | [] => s
  | x :: xs =>
    match cause with
    | none => drainWords (performDev s x) xs
    | some c => drainWords (completionFailed s c x.src x.lref x.va) xs

/-- Bytes that the device writes at an address on its own. -/
def deviceWrite (s : State) (u : Mmu) (a : ASpace) (src lref va : Nat) (data : List Byte) : State :=
  match access s u a .store va data.length with
  | .error (c, _) => completionFailed s c src lref va
  | .ok (ls, xs) => sendDev (fillTlbs s u a xs) src lref va (.write (ls.zip data))

/-- A 64-bit word that the device changes at an address on its own. -/
def deviceBump (s : State) (u : Mmu) (a : ASpace) (src lref va : Nat) (d : Int) : State :=
  match deviceWord s u a va 8 with
  | .error (c, _) => completionFailed s c src lref va
  | .ok (ls, xs) => sendDev (fillTlbs s u a xs) src lref va (.bump ls d)

end Sys2Proof.Machine
end

