-- ==== Sys2Proof/Machine/Copies.lean ====
section
/-! DEFINITION. Copies, byte-counting barriers, shadow sets and publishing (R66 to R87). -/
namespace Sys2Proof.Machine

/-! ### Byte-counting barriers (R75, R85) -/

/-- Barrier b of a group. -/
def bcbOf (s : State) (gid b : Nat) : Bcb := ((s.group? gid).map fun g => g.bcbs.getD b ⟨0, none⟩).getD ⟨0, none⟩

/-- Barrier b of a group, changed. -/
def updBcb (s : State) (gid b : Nat) (f : Bcb → Bcb) : State :=
  s.updGroup gid fun g => { g with bcbs := g.bcbs.setIfInBounds b (f (g.bcbs.getD b ⟨0, none⟩)) }

/-- A PEND that fits its 48 bits. -/
def pendOk (n : Int) : Bool := decide (-(2 ^ 47) ≤ n) && decide (n ≤ 2 ^ 47 - 1)

/-- `bcbini` and `bcbexp`: PEND becomes the value, or the value is added to it. -/
def doBcbSet (add : Bool) (b r : Nat) (s : State) : Res :=
  let x : Int := (s.sreg r).toNat
  let n := if add then (bcbOf s s.w.gid b).pend + x else x
  if pendOk n then .done (updBcb s s.w.gid b fun c => { c with pend := n }) else .trap (Trap.whole 0x53 0)

def execBcbini (la b r : Nat) (s : State) := issue (.bcbini la b r) (doBcbSet false b r) s
def execBcbexp (la b r : Nat) (s : State) := issue (.bcbexp la b r) (doBcbSet true b r) s

/-- `cpyq` (Table 3.5). -/
def doCpyq (b d : Nat) (s : State) : Res :=
  .done (s.setS d (BitVec.ofInt 32 (max (-(2 ^ 31)) (min (2 ^ 31 - 1) (bcbOf s s.w.gid b).pend))))

def execCpyq (la b d : Nat) (s : State) := issue (.cpyq la b d) (doCpyq b d) s

/-- `bcbwait` (R76, R77, R85). -/
def doBcbwait (b : Nat) (s : State) : Res :=
  let c := bcbOf s s.w.gid b
  match c.fault with
  | some f =>
    let t := updBcb s s.w.gid b fun c => { c with fault := none }
    .trapIn { t with failed := t.failed.filter fun x => !(x.gid == s.w.gid && x.b == b) }
      { cause := f.cause, laddr := fun _ => f.addr, info := pcWord f.pc }
  | none => if c.pend = 0 then .done (s.emptyL1 s.w.core) else .hold s

def execBcbwait (la b : Nat) (s : State) := issue (.bcbwait la b) (doBcbwait b) s

/-! ### `cpy` (R72, R83, R84) -/

/-- The place of what a read comes to in the order of causes (R57, R102). -/
def causeOrder (r : Res) : Nat :=
  match r with
  | .page _ _ _ _ => causeRank causePageFault
  | .trap t => if t.cause = causeMemPoison then 3 else causeRank t.cause
  | _ => 3

/-- What two reads that both fail come to: the first cause in the order, or the pages that both lack (R57, R60). -/
def firstOfTwo (a b : Res) : Res :=
  match a, b with
  | .page ps m f ws, .page qs _ _ _ => .page (addPages ps qs) m f ws
  | _, _ => if causeOrder b < causeOrder a then b else a

/-- Two records read at issue: their words, or the cause met (R72, R84).  A `cpy` that has stalled since it read them keeps
what it captured. -/
def twoRecords (s : State) (sa da : Int) : Except Res (List Nat × List Nat × State) :=
  match s.cur.staging with
  | some ws => .ok (ws.take 16, ws.drop 16, s)
  | none =>
  if !addrOk sa 128 then .error (.trap (Trap.whole causeNoncanon (BitVec.ofInt 64 sa)))
  else if !addrOk da 128 then .error (.trap (Trap.whole causeNoncanon (BitVec.ofInt 64 da)))
  else
    match operand s .load sa 128 1 0, operand s .load da 128 1 0 with
    | .error a, .error b => .error (firstOfTwo a b)
    | .error e, .ok _ => .error e
    | .ok _, .error e => .error e
    | .ok (ls, xs), .ok (ms, ys) =>
      .ok (wordsAt s ls, wordsAt s ms, noteAccess (noteAccess s ls xs false) ms ys false)

/-- Entries of the range scoreboard that a cluster has (R74). -/
def boardSize : Nat := 32

/-- The copy that a `cpy` of the slot in hand starts; in a cancelled launch it stops before its first byte (R79). -/
def newCopy (s : State) (src dst : TRec) (da b : Nat) : Copy :=
  { id := s.serial, gid := s.w.gid, lid := s.w.lid, wid := s.w.wid, src := src, dst := dst, dstAddr := da, b := b,
    pc := s.cur.pc, cursor := 0, core := s.w.core, k := coreIndex s s.w.gid s.w.core, stopping := s.cancelled, error := none,
    writer := writerOf s s.w.gid, back := [], sleep := [], missing := [], declined := [] }

/-- `cpy` (R84). -/
def doCpy (b d r : Nat) (s : State) : Res :=
  let sa := (s.s64 r).toInt
  let da := (s.s64 d).toInt
  match twoRecords s sa da with
  | .error e => e
  | .ok (ws, vs, s1) =>
    let src := TRec.ofWords ws
    let dst := TRec.ofWords vs
    let bad (cause : Nat) (a : Int) : Res := .trap (Trap.whole cause (BitVec.ofInt 64 a))
    if sa % 128 ≠ 0 ∨ !TRec.ok ws false then bad 0x50 sa
    else if da % 128 ≠ 0 ∨ !TRec.ok vs true then bad 0x50 da
    else if src.esize ≠ dst.esize ∨ src.tcount ≠ dst.tcount ∨ src.elems ≠ dst.elems then .trap (Trap.whole 0x51 0)
    else if !src.inRange s.attr then bad 0x52 sa
    else if !dst.inRange s.attr then bad 0x52 da
    else
      let c := newCopy s1 src dst da.toNat b
      let clear := s1.onCur fun x => { x with staging := none }
      if boardSize < (copyBoard s s.w.cluster).length + (copyEntries c).length then
        .hold (s1.onCur fun x => { x with staging := some (ws ++ vs) })
      else .done { clear with copies := s1.copies ++ [c], serial := s1.serial + 1 }

def execCpy (la b d r : Nat) (s : State) := issue (.cpy la b d r) (doCpy b d r) s

/-! ### Shadow sets (R80 to R82) -/

/-- A field of a shadow-pool descriptor (Table 3.3). -/
def poolField (s : State) (pool off n : Nat) : Nat := s.num ⟨.hbm, pool + off⟩ n

/-- A key lies in a 64-KiB frame of HBM4. -/
def inFrame (f key : Nat) : Bool := key % 8 == Area.hbm.code && decide (f ≤ key / 8) && decide (key / 8 < f + 65536)

/-- The place in one frame that stands where this one stands in another. -/
def moveTo (src dst : Nat) (l : Loc) : Loc := ⟨l.area, l.addr - src + dst⟩

/-- The bytes of a 64-KiB frame copied to another, whose granules are written whole (R97, R99). -/
def copyFrame (s : State) (src dst : Nat) : State :=
  let moved := s.mem.filter fun c => inFrame src c.1
  let kept := s.mem.filter fun c => !inFrame dst c.1
  { s with
    mem := moved.foldl (fun m c => Mem.put m (Loc.key ⟨.hbm, c.1 / 8 - src + dst⟩) c.2) kept
    bad := s.bad.filter fun g => !inFrame dst g
    oldTapes := (s.oldTapes.filter fun t => !inFrame dst t.start.key) ++ ((s.oldTapes.filter fun t => inFrame src t.start.key).map fun t =>
      { t with start := moveTo src dst t.start, again := t.again.map (moveTo src dst) }) }

/-- SHADOW_PAGE and SHADOW_POOL. -/
def causeShadowPage : Nat := 0x54
def causeShadowPool : Nat := 0x55

/-- The next frame of the free ring, or SHADOW_POOL (R80, R82). -/
def takeFrame (s : State) (pool : Nat) : Except Nat (Nat × State) :=
  let len := poolField s pool 0x08 4
  let head := poolField s pool 0x0C 4
  if len = 0 ∨ head % len = poolField s pool 0x10 4 % len then .error causeShadowPool
  else
    let f := s.num ⟨.hbm, poolField s pool 0x00 8 + 8 * (head % len)⟩ 8
    if f % 65536 ≠ 0 ∨ Config.hbmEnd < f + 65536 then .error causeShadowPool
    else .ok (f, writeCells s none (((List.range 4).map fun i => (⟨.hbm, pool + 0x0C + i⟩ : Loc)).zip (leBytes 4 ((head + 1) % len))))

/-- The checks of R80 on a leaf. -/
def shadowLeafOk (x : Xlat) : Bool := pteValid x.pte && pteW x.pte && pteShd x.pte && pteType x.pte == 0 && x.size == 65536

/-- The frame of a page in the set that an agent of a launch writes: the one the set holds, or a new one (R80).  Copying a page
that holds poison meets MEM_POISON (R99). -/
def shadowFrame (s : State) (lid gid asn wset page : Nat) (x : Xlat) : Except Nat (Nat × State) :=
  if !shadowLeafOk x then .error causeShadowPage
  else
    match s.shadows.find? fun p => p.asn == asn && p.page == page with
    | some p => if p.wset = wset then .ok (p.frame, s) else .error causeShadowPage
    | none =>
      match s.launch? lid with
      | none => .error causeShadowPool
      | some l =>
        if l.attr.shpool = 0 then .error causeShadowPool
        else if s.bad.any (inFrame (Xlat.loc { x with frame := none } (65536 * page)).addr) then .error causeMemPoison
        else if 4096 ≤ (s.shadows.filter fun p => p.lid == lid).length then .error causeShadowPool
        else
          match takeFrame s l.attr.shpool with
          | .error c => .error c
          | .ok (f, t) =>
            let old := (Xlat.loc { x with frame := none } (65536 * page)).addr
            let u := copyFrame t old f
            .ok (f, { u with shadows := u.shadows ++ [⟨asn, wset, lid, gid, page, x.leafAt, f, l.attr.shpool⟩] })

/-- The shadow frame of the page that holds an address.  A leaf with V = 0 fails R80's check. -/
def shadowFrameAt (s : State) (u : Mmu) (a : ASpace) (lid gid wset va : Nat) : Except Nat (Nat × State) :=
  match xlate s u a va with
  | .error c => .error (if c = causePageFault then causeShadowPage else c)
  | .ok x => shadowFrame (fillTlb s u a x) lid gid a.asn wset (va / 65536) x

/-- The places in shadow frames of bytes at an address, one piece for each page. -/
def shadowPieces (u : Mmu) (a : ASpace) (lid gid wset : Nat) : List (Nat × Nat) → State → Except (Nat × Nat) (List Loc × State)
  | [], s => .ok ([], s)
  | (va, n) :: ps, s =>
    match shadowFrameAt s u a lid gid wset va with
    | .error c => .error (c, va)
    | .ok (f, t) =>
      match shadowPieces u a lid gid wset ps t with
      | .error e => .error e
      | .ok (ls, v) => .ok (((List.range n).map fun i => (⟨.hbm, f + va % 65536 + i⟩ : Loc)) ++ ls, v)

/-! ### Deliveries (R69, R75, R77) -/

/-- The unit that translates a copy's global operands (R56, R71). -/
def Copy.mmu (c : Copy) : Mmu := if c.dst.space = 1 ∨ c.dst.space = 2 then .twe (c.core / 4) else .engine (c.core / 96)

/-- A copy's address space; version views do not affect copies (R244). -/
def copySpace (s : State) (c : Copy) : ASpace :=
  match s.launch? c.lid with
  | some l => ⟨l.attr.asn, l.attr.root, none⟩
  | none => ⟨0, 0, none⟩

/-- An element of a run: where its bytes come from, none for zeros, and where they go, none where it is suppressed. -/
structure Moved where
  src : Option (List Loc)
  dst : Option (List Loc)
  /-- Address of the destination. -/
  addr : Nat

/-- Places that an engine reads for a group, unless one of them lies in a bad granule (R98). -/
def unlessBad (ls : List Loc) (a : Int) (s : State) : Except (Nat × Nat) (List Loc × State) :=
  if (killCause s ls).isSome then .error (causeScratchUe, a.toNat) else .ok (ls, s)

/-- The source of one element. -/
def copySource (s : State) (c : Copy) (a : Int) : Except (Nat × Nat) (List Loc × State) :=
  let n := c.src.width
  if c.src.space = 0 then
    match access s c.mmu (copySpace s c) .engineRead a n with
    | .error e => .error e
    | .ok (ls, xs) => unlessBad ls a (fillTlbs s c.mmu (copySpace s c) xs)
  else unlessBad ((List.range n).map fun i => scratchAt c.gid c.k (c.core / 96) c.src.space (a.toNat + i)) a s

/-- The destination of one element. -/
def copyDest (s : State) (c : Copy) (a : Int) : Except (Nat × Nat) (List Loc × State) :=
  let n := c.dst.width
  if c.dst.space = 0 then
    if c.dst.shd then shadowPieces c.mmu (copySpace s c) c.lid c.gid c.dstAddr (pieces a.toNat n) s
    else
      match places s c.mmu (copySpace s c) .engineWrite a.toNat n with
      | .error e => .error e
      | .ok (ls, xs) => .ok (ls, fillTlbs s c.mmu (copySpace s c) xs)
  else
    let ls := (List.range n).map fun i => scratchAt c.gid c.k (c.core / 96) c.dst.space (a.toNat + i)
    if ls.any Loc.inDeviceRegion then .error (causePageProt, a.toNat) else .ok (ls, s)

/-- A cause that a copy meets: the cause, the address, and whether a write met it. -/
abbrev CopyCause := Nat × Nat × Bool

/-- A cause met by a read or by a write. -/
def sideOf {α : Type} (write : Bool) (r : Except (Nat × Nat) α) : Except CopyCause α :=
  match r with
  | .error (k, va) => .error (k, va, write)
  | .ok x => .ok x

/-- Elements of a run, each looked at before any is written. -/
def runElements (c : Copy) : List Nat → State → Except CopyCause (List Moved × State)
  | [], s => .ok ([], s)
  | k :: ks, s =>
    let cs := c.src.coords (k / c.src.elems) (k % c.src.elems)
    let cd := c.dst.coords (k / c.dst.elems) (k % c.dst.elems)
    let da := c.dst.addr cd
    let src : Except CopyCause (Option (List Loc) × State) :=
      if c.src.inb cs then (sideOf false (copySource s c (c.src.addr cs))).map fun p => (some p.1, p.2) else .ok (none, s)
    match src with
    | .error e => .error e
    | .ok (from_, s1) =>
      let dst : Except CopyCause (Option (List Loc) × State) :=
        if c.dst.inb cd then (sideOf true (copyDest s1 c da)).map fun p => (some p.1, p.2) else .ok (none, s1)
      match dst with
      | .error e => .error e
      | .ok (dest, s2) =>
        match runElements c ks s2 with
        | .error e => .error e
        | .ok (ms, t) => .ok (⟨from_, dest, da.toNat⟩ :: ms, t)

/-- The end of the run at the cursor: 128 B, or what remains (R75). -/
def Copy.runEnd (c : Copy) : Nat := min (c.cursor + 128) c.src.total

/-- The elements of the run at the cursor. -/
def Copy.run (c : Copy) : List Nat :=
  (List.range ((c.runEnd - c.cursor) / c.src.width)).map fun i => c.cursor / c.src.width + i

/-- What the run at the cursor comes to: its elements, or the cause and address that it meets.  A partial write of a bad
granule is a read of it (R97). -/
def copyRun (s : State) (c : Copy) : Except CopyCause (List Moved × State) :=
  match runElements c c.run s with
  | .error e => .error e
  | .ok (ms, t) =>
    let part := t.partBad (ms.flatMap fun m => m.dst.getD [])
    match part with
    | [] => .ok (ms, t)
    | l :: _ =>
      let at_ := ((ms.find? fun m => (m.dst.getD []).contains l).map fun m => m.addr).getD 0
      .error (if l.onChip then causeScratchUe else causeMemPoison, at_, true)

/-- The bytes that an element's destination takes, with their virtual addresses. -/
def movedCells (s : State) (sys : Bool) (i : Nat) (m : Moved) : List (Nat × Loc × Byte) :=
  match m.dst with
  | none => []
  | some ls =>
    let data : List Byte :=
      match m.src with
      | none => ls.map fun _ => 0
      | some ms => ms.map (s.byteFor sys i)
    ((List.range ls.length).map fun k => m.addr + k).zip (ls.zip data)

/-- The source number of the unit that carries a copy (R71, Table 16.8). -/
def Copy.source (c : Copy) : Nat :=
  match c.mmu with
  | .twe k => srcMatrix k
  | _ => srcCopy c.core c.id

/-- A fault record in a group's barrier, kept if none is there (R75, R77); a group that has retired takes it as a launch
fault.  R77 has a later fault on a flagged barrier counted and names no counter: the model counts it nowhere (DESIGN CHOICE,
log 74). -/
def flagBarrier (s : State) (c : Copy) (cause : Nat) (addr : DWord) : State :=
  match s.group? c.gid with
  | some _ =>
    updBcb s c.gid c.b fun x => { x with fault := x.fault.or (some ⟨cause, c.pc, addr, c.wid, c.source⟩) }
  | none =>
    if (s.launch? c.lid).any fun l => !l.cancelled then launchFault s c.lid cause c.source 0 0 c.pc addr 0 else s

/-- A run is counted in PEND, clamped at −2^47 (R75). -/
def countRun (s : State) (c : Copy) (n : Nat) : State :=
  let p := (bcbOf s c.gid c.b).pend - n
  if p < -(2 ^ 47) then flagBarrier (updBcb s c.gid c.b fun x => { x with pend := -(2 ^ 47) }) c 0x53 0
  else updBcb s c.gid c.b fun x => { x with pend := p }

/-- The words that mailboxes are bound to. -/
def doorbells (s : State) : List Loc :=
  if s.launches.any fun l => l.attr.mboxen then (s.launches.filter fun l => !l.cancelled).filterMap (doorbellOf s) else []

/-- A byte of a bound doorbell word. -/
def inDoorbell (bells : List Loc) (l : Loc) : Bool :=
  bells.any fun d => d.area == l.area && decide (d.addr ≤ l.addr) && decide (l.addr < d.addr + 4)

/-- Writes that engines make, with the L2's lines (R95) and the launch's notes (R356, R357).  An engine agent of a group
also takes the copies of its lines from the issuing core's L1 (R275). -/
def engineWrites (s : State) (lid : Nat) (writer l1 : Option Nat) (cells : List (Loc × Byte)) (vas : List (Nat × Loc)) : State :=
  let ls := cells.map fun c => c.1
  let s1 := s.touchL2 ls true
  let s2 := match l1 with
    | some core => s1.dropL1 core ls
    | none => s1
  noteWrites (writeCells s2 none cells) lid writer vas

/-- Writes of a copy: bytes with their virtual addresses; a scratchpad's have none that count. -/
def copyWrites (s : State) (c : Copy) (cells : List (Nat × Loc × Byte)) : State :=
  engineWrites s c.lid c.writer (some c.core) (cells.map fun x => x.2)
    (if c.dst.space = 0 then cells.map fun x => (x.1, x.2.1) else [])

/-- The copy is over: its held-back writes of doorbell words are performed and post (R349), and it leaves. -/
def endCopy (s : State) (c : Copy) : State :=
  let s1 := if c.back.isEmpty then s else copyWrites s c c.back
  let hit := (doorbells s).filter fun d => c.back.any fun p => inDoorbell [d] p.2.1
  let s2 := if hit.isEmpty then s1 else ringDoorbells s1 (hit.map fun d => (d, s1.num d 4))
  { s2 with copies := s2.copies.filter fun x => x.id != c.id }

/-- An earlier copy or a posted `mma` holds back a copy's first byte (Table 3.2, R184). -/
def copyWaits (s : State) (c : Copy) : Bool :=
  let ahead := ((s.copies.filter fun x => x.id < c.id && x.core / 4 == c.core / 4 && groupHere s x.gid).flatMap copyEntries)
    ++ ((s.entries.filter fun e => e.id < c.id && e.core / 4 == c.core / 4 && groupHere s e.gid).flatMap (mmaEntries s))
  (copyEntries c).any fun e => meetsEntries ahead c.gid c.k e.space e.lo e.hi e.dest

/-- The addresses in global memory of the elements of tile n of a record. -/
def tileAddresses (t : TRec) (n : Nat) : List Nat :=
  (List.range t.elems).filterMap fun e => let c := t.coords n e; if t.inb c then some (t.addr c).toNat else none

/-- A TWE's TLB takes the translations of the pages of tile n of a record and of the 8 tiles after it (R56, log 73). -/
def walkAhead (s : State) (u : Mmu) (a : ASpace) (t : TRec) (n : Nat) : State :=
  if t.space ≠ 0 then s
  else
    let vas := (((List.range 9).map fun i => n + i).filter fun i => decide (i < t.tcount)).flatMap (tileAddresses t)
    ((vas.map fun va => va / 65536).eraseDups).foldl
      (fun v p => match xlate v u a (65536 * p) with
        | .ok x => fillTlb v u a x
        | .error _ => v) s

/-- The TLB of a TWE that carries a copy walks ahead of the tile at the cursor (R56, R71). -/
def copyAhead (s : State) (c : Copy) : State :=
  match c.mmu with
  | .twe _ =>
    let n (t : TRec) : Nat := c.cursor / t.width / t.elems
    walkAhead (walkAhead s c.mmu (copySpace s c) c.src (n c.src)) c.mmu (copySpace s c) c.dst (n c.dst)
  | _ => s

/-- A copy that can move bytes now. -/
def copyMoves (s : State) (c : Copy) : Bool :=
  !c.stopping && c.sleep.isEmpty && c.missing.isEmpty && groupHere s c.gid && !copyWaits s c

/-- COPY_DELIVERY: the run at the cursor is moved (R69, R75, R80); the last run completes the copy. -/
def execCopyDelivery (id : Nat) (s : State) : Host.Outcome State Fault Refusal :=
  match s.copies.find? fun c => c.id == id with
  | none => .next s
  | some c =>
    if !copyMoves s c then .next s
    else
      match copyRun s c with
      | .error _ => .next s
      | .ok (ms, s1) =>
        let sys := (s.launch? c.lid).any fun l => l.attr.sys
        let bells := doorbells s1
        let cells := ((List.range ms.length).zip ms).flatMap fun p => movedCells s1 sys p.1 p.2
        let now := cells.filter fun x => !inDoorbell bells x.2.1
        let from_ := ms.flatMap fun m => m.src.getD []
        let s2 := copyWrites ((copyAhead s1 c).touchL2 from_ false) c now
        let s3 := s2.afterFree sys from_
        let c1 : Copy :=
          { c with cursor := c.runEnd, back := c.back ++ cells.filter fun x => inDoorbell bells x.2.1, declined := [] }
        let s4 := countRun (s3.updCopy id fun _ => c1) c1 (c.runEnd - c.cursor)
        .next (if c.runEnd = c.src.total then endCopy s4 c1 else s4)

/-- The page of a copy's fault (R61, Table 2.6). -/
def copyPage (s : State) (c : Copy) (va : Nat) (write : Bool) : FaultPage :=
  let kind := if write then AccKind.engineWrite else AccKind.engineRead
  ⟨(copySpace s c).asn, (copySpace s c).root, va / 65536, kind.code, c.mmu.cluster⟩

/-- The run at the cursor touches memory outside the package, whose answer may be an error (R288, R296, R297). -/
def runOutside (s : State) (c : Copy) : Option Nat :=
  match copyRun s c with
  | .error _ => none
  | .ok (ms, _) => (ms.find? fun m => ((m.src.getD []) ++ (m.dst.getD [])).any Loc.outside).map fun m => m.addr

/-- A cause that an error answer of the host or of a peer brings. -/
def outsideCause (c : Nat) : Bool := c == causeHostFault || c == causePeerFault || c == causePeerTimeout

/-- COPY_FAULT: the run at the cursor meets a cause.  A page that the service may still bring is waited for, a bad granule
kills the group (R98), and every other cause stops the copy (R61, R77). -/
def execCopyFault (id cause : Nat) (s : State) : Host.Outcome State Fault Refusal :=
  match s.copies.find? fun c => c.id == id with
  | none => .next s
  | some c =>
    if !copyMoves s c then .next s
    else
      let stop (k va : Nat) : State := s.updCopy id fun x => { x with stopping := true, error := some (k, BitVec.ofNat 64 va) }
      match copyRun s c with
      | .error (k, va, write) =>
        let pg := copyPage s c va write
        if k ≠ cause then .next s
        else if k = causeScratchUe then .next (killGroupBy (stop k va) c.source c.gid k)
        else if k = causePageFault ∧ (s.faultDesc.getD (c.core / 96) none).isSome
            ∧ !(c.declined.any fun q => q.asn == pg.asn && q.page == pg.page) then
          .next (s.updCopy id fun x => { x with missing := addPages x.missing [pg] })
        else .next (stop k va)
      | .ok _ =>
        match runOutside s c with
        | some va => if outsideCause cause then .next (stop cause va) else .next s
        | none => .next s

/-- COPY_STOP: a stopping copy leaves at its cursor, and an error is recorded in its barrier (R77 to R79).  Writes of
doorbell words that it holds back are performed at a copy's completion (R349), which a stopped copy does not reach: the
model drops them, counted in PEND though they are (log 22). -/
def execCopyStop (id : Nat) (s : State) : Host.Outcome State Fault Refusal :=
  match s.copies.find? fun c => c.id == id with
  | none => .next s
  | some c =>
    if !c.stopping then .next s
    else
      let s1 : State := { s with copies := s.copies.filter fun x => x.id != id }
      match c.error with
      | none => .next s1
      | some (k, a) =>
        let s2 := flagBarrier s1 c k a
        .next (if c.dst.shd then
            { s2 with failed := s2.failed ++ [⟨c.id, (copySpace s c).asn, c.dstAddr, c.gid, c.b⟩] }
          else s2)

/-! ### Publishing (R86, R87, R242) -/

/-- PSEQ of a shadow set. -/
def pseqOf (s : State) (asn wset : Nat) : Nat := ((s.pseq.find? fun p => p.1 == (asn, wset)).map fun p => p.2).getD 0

/-- PSEQ of a shadow set advanced by one (R242). -/
def bumpPseq (s : State) (asn wset : Nat) : State :=
  { s with pseq := ((asn, wset), (pseqOf s asn wset + 1) % 2 ^ 32) :: s.pseq.filter fun p => p.1 != (asn, wset) }

/-- One page of a set is swapped: its leaf names the shadow frame, and the old frame is kept as a previous version. -/
def swapPage (n : Nat) (s : State) (p : ShadowPage) : State :=
  let leaf := s.num ⟨.hbm, p.leaf⟩ 8
  let new := leaf - pteFrame leaf * 2 ^ 16 + p.frame / 2 ^ 16 * 2 ^ 16
  let s1 := writeCells s none (((List.range 8).map fun i => (⟨.hbm, p.leaf + i⟩ : Loc)).zip (leBytes 8 new))
  { s1 with
    held := s1.held ++ [⟨s1.serial, p.asn, p.wset, p.page, pteFrame leaf * 2 ^ 16, n, p.pool, false⟩]
    tlb := s1.tlb.filter fun e => !(e.asn == p.asn && decide (e.base ≤ 65536 * p.page) && decide (65536 * p.page < e.base + e.size))
    serial := s1.serial + 1 }

/-- The point P of a publish (R86). -/
def publishSet (s : State) (asn wset : Nat) : State :=
  let n := pseqOf s asn wset
  let s1 := (s.shadows.filter fun p => p.asn == asn && p.wset == wset).foldl (swapPage n) s
  bumpPseq { s1 with shadows := s1.shadows.filter fun p => !(p.asn == asn && p.wset == wset) } asn wset

/-- `pub`: asks for its point P, and completes when that has come (R86). -/
def doPub (r : Nat) (s : State) : Res :=
  let v := s.s64 r
  let mine (p : PubReq) : Bool := p.wid == s.w.wid && p.sec == s.w.curSec && p.wset == v.toNat
  let done : State := { s with pubs := s.pubs.filter fun p => !mine p }
  match s.pubs.find? mine with
  | some p =>
    if p.incomplete then .trapIn done (Trap.whole 0x56 v) else if p.published then .done done else .hold s
  | none =>
    .hold { s with
      pubs := s.pubs ++ [⟨s.serial, s.w.wid, s.w.curSec, s.attr.asn, v.toNat, s.w.lid, false, false⟩]
      serial := s.serial + 1 }

def execPub (la r : Nat) (s : State) := issue (.pub la r) (doPub r) s

/-- A copy into the set of a `pub`, or an update command for it, came before and goes on (R86, R265).  A copy that pre-emption
has stopped (R78) has neither completed nor stopped under R77: the model's `pub` waits until it is restored and ends
(log 23). -/
def pubWaits (s : State) (p : PubReq) : Bool :=
  (s.copies.any fun c => c.dst.shd && (copySpace s c).asn == p.asn && c.dstAddr == p.wset && decide (c.id < p.id))
    || (s.pubs.any fun q => q.asn == p.asn && q.wset == p.wset && decide (q.id < p.id) && !q.published && !q.incomplete)
    || s.updates.any fun u =>
        ((s.launch? u.lid).map fun l => l.attr.asn) == some p.asn && u.wset == p.wset && decide (u.id < p.id)

/-- A copy into the set stopped with an error that no `bcbwait` has taken (R86). -/
def pubFails (s : State) (p : PubReq) : Bool :=
  s.failed.any fun f =>
    f.asn == p.asn && f.wset == p.wset && decide (f.id < p.id) && (bcbOf s f.gid f.b).fault.isSome

/-- PUBLISH_POINT (R86). -/
def execPublishPoint (id : Nat) (s : State) : Host.Outcome State Fault Refusal :=
  match s.pubs.find? fun p => p.id == id with
  | none => .next s
  | some p =>
    let set (f : PubReq → PubReq) (t : State) : State := { t with pubs := t.pubs.map fun q => if q.id = id then f q else q }
    if p.published ∨ p.incomplete ∨ pubWaits s p then .next s
    else if pubFails s p then .next (set (fun q => { q with incomplete := true }) s)
    else .next (set (fun q => { q with published := true }) (publishSet s p.asn p.wset))

/-- A folio's pin, or a version view, names a held frame: no frame of the page that a publish replaced earlier was still
visible at that count (R242, R243). -/
def pinned (s : State) (h : HeldFrame) : Bool :=
  let names (c : Nat) : Bool :=
    decide (c ≤ h.upto)
      && !(s.held.any fun g => !g.unseen && g.asn == h.asn && g.wset == h.wset && g.page == h.page && decide (c ≤ g.upto)
        && decide (g.upto < h.upto))
  !h.unseen && s.waves.any fun w =>
    ((s.launch? w.lid).any fun l => l.attr.asn == h.asn && !l.cancelled)
      && ((w.tape.quire ++ w.tape.area).any (fun i => match i with
          | .opening f => f.wset.toNat == h.wset && h.wset != 0 && names f.pseq
          | .data _ _ _ | .marker _ _ => false)
        || match w.tape.view with
          | some (ws, c) => ws == h.wset && names c
          | none => false)

/-- FRAME_RELEASE (R82): an unpinned old frame goes to the release ring, when the ring has room. -/
def execFrameRelease (id : Nat) (s : State) : Host.Outcome State Fault Refusal :=
  match s.held.find? fun h => h.id == id with
  | none => .next s
  | some h =>
    let len := poolField s h.pool 0x20 4
    let head := poolField s h.pool 0x24 4
    if pinned s h ∨ len = 0 ∨ (head + 1) % len = poolField s h.pool 0x28 4 % len then .next s
    else
      let entry := poolField s h.pool 0x18 8 + 8 * (head % len)
      let s1 := writeCells s none (((List.range 8).map fun i => (⟨.hbm, entry + i⟩ : Loc)).zip (leBytes 8 h.frame))
      let s2 := writeCells s1 none
        (((List.range 4).map fun i => (⟨.hbm, h.pool + 0x24 + i⟩ : Loc)).zip (leBytes 4 ((head + 1) % len)))
      .next { s2 with held := s2.held.filter fun x => x.id != id }

end Sys2Proof.Machine
end

