-- ==== Sys2Proof/Machine/CrossLane.lean ====
section
/-! DEFINITION. The cross-lane instructions (R155 to R161), the mask operations (R162) and the scalar instructions
(R163 to R166). -/
namespace Sys2Proof.Machine

/-- The lane whose value a lane receives (R156). -/
def laneFrom (m0 : Word) (l j : Nat) : Nat := if m0.getLsbD (j % 32) then j % 32 else l

def doShfl (d a b : Nat) (s : State) : Res :=
  .done (s.setV d fun l => s.v a (laneFrom s.m0 l (s.v b l).toNat))
def doBcast (d a x : Nat) (s : State) : Res :=
  .done (s.setV d fun l => s.v a (laneFrom s.m0 l (s.sreg x).toNat))

/-- The value of a vote (R157). -/
def voteOf (k : VoteKind) (ma act : Word) : Bool :=
  match k with
  | .any => ma &&& act != 0
  | .all => ma &&& act == act
  | .none => ma &&& act == 0

def doVote (k : VoteKind) (d a : Nat) (s : State) : Res :=
  .done (s.setMaskBits d fun _ => voteOf k (s.mreg a) s.m0)

/-- One level of the fixed tree (R158): neighbours combined, the left operand first. -/
def treeLevel (op : Word → Word → Word) : List (Option Word) → List (Option Word)
  | x :: y :: rest =>
    (match x, y with
      | none, r => r
      | l, none => l
      | some l, some r => some (op l r)) :: treeLevel op rest
  | xs => xs

/-- The fixed lane tree (R158). -/
def tree (op : Word → Word → Word) (xs : List (Option Word)) : Option Word :=
  ((treeLevel op (treeLevel op (treeLevel op (treeLevel op (treeLevel op xs))))).head?).join

/-- The operations of Table 6.8. -/
def RedOp.apply : RedOp → Word → Word → Word
  | .addI32 => fun x y => x + y
  | .addF32 => faddW .rne
  | .minI32 => minI
  | .maxI32 => maxI
  | .minN32 => minN
  | .maxN32 => maxN
  | .minF32 => fminW
  | .maxF32 => fmaxW
  | .and => fun x y => x &&& y
  | .or => fun x y => x ||| y
  | .xor => fun x y => x ^^^ y

/-- The exclusive identities of Table 6.8. -/
def RedOp.identity : RedOp → Word
  | .addI32 | .addF32 | .maxN32 | .and | .or | .xor => 0
  | .minI32 => 0x7FFFFFFF
  | .maxI32 => 0x80000000
  | .minN32 => 0xFFFFFFFF
  | .minF32 => 0x7F800000
  | .maxF32 => 0xFF800000

/-- The values of the lanes of a set, as the leaves of the tree. -/
def leaves (f : Nat → Word) (inSet : Nat → Bool) : List (Option Word) :=
  (List.range 32).map fun l => if inSet l then some (f l) else none

def doRedu (o : RedOp) (d a : Nat) (s : State) : Res :=
  let r := (tree (RedOp.apply o) (leaves (s.v a) fun l => s.m0.getLsbD l)).getD 0
  .done (s.setV d fun _ => r)

def doScan (excl : Bool) (o : RedOp) (d a : Nat) (s : State) : Res :=
  .done (s.setV d fun l =>
    (tree (RedOp.apply o)
      (leaves (s.v a) fun j => s.m0.getLsbD j && (if excl then decide (j < l) else decide (j ≤ l)))).getD (RedOp.identity o))

/-- The position of a lane among the lanes of the mask (R161). -/
def rankIn (m : Word) (l : Nat) : Nat := ((lanesOf m).filter fun j => decide (j < l)).length

def doCompact (d a : Nat) (s : State) : Res :=
  let q := (lanesOf s.m0).filter fun l => s.v a l != 0
  .done (s.setV d fun l => match q[rankIn s.m0 l]? with
    | some x => BitVec.ofNat 32 x
    | none => 0xFFFFFFFF)

def execShfl (la d a b : Nat) (s : State) := issue (.shfl la d a b) (doShfl d a b) s
def execBcast (la d a x : Nat) (s : State) := issue (.bcast la d a x) (doBcast d a x) s
def execVote (la : Nat) (k : VoteKind) (d a : Nat) (s : State) := issue (.vote la k d a) (doVote k d a) s
def execRedu (la : Nat) (o : RedOp) (d a : Nat) (s : State) := issue (.redu la o d a) (doRedu o d a) s
def execScan (la : Nat) (excl : Bool) (o : RedOp) (d a : Nat) (s : State) :=
  issue (.scan la excl o d a) (doScan excl o d a) s
def execCompact (la d a : Nat) (s : State) := issue (.compact la d a) (doCompact d a) s

/-! ### Mask operations -/

/-- A mask from two masks. -/
def mask2 (d a b : Nat) (f : Word → Word → Word) (s : State) : Res := .done (s.setM d (f (s.mreg a) (s.mreg b)))

/-- The lowest one bit, 32 for none (Table 6.9). -/
def firstBit (m : Word) : Word := BitVec.ofNat 32 ((lowestLane m).getD 32)

def execMand (d a b : Nat) (s : State) := issue (.mand d a b) (mask2 d a b fun x y => x &&& y) s
def execMor (d a b : Nat) (s : State) := issue (.mor d a b) (mask2 d a b fun x y => x ||| y) s
def execMxor (d a b : Nat) (s : State) := issue (.mxor d a b) (mask2 d a b fun x y => x ^^^ y) s
def execMnot (d a : Nat) (s : State) := issue (.mnot d a) (fun s => .done (s.setM d (~~~s.mreg a))) s
def execMpop (x a : Nat) (s : State) :=
  issue (.mpop x a) (fun s => .done (s.setS x (BitVec.ofNat 32 (popcount (s.mreg a))))) s
def execMfirst (x a : Nat) (s : State) := issue (.mfirst x a) (fun s => .done (s.setS x (firstBit (s.mreg a)))) s
def execMset (d x : Nat) (s : State) := issue (.mset d x) (fun s => .done (s.setM d (s.sreg x))) s
def execMget (x a : Nat) (s : State) := issue (.mget x a) (fun s => .done (s.setS x (s.mreg a))) s

/-! ### Scalar instructions -/

/-- A scalar from two scalars. -/
def scal2 (d a b : Nat) (f : Word → Word → Word) (s : State) : Res := .done (s.setS d (f (s.sreg a) (s.sreg b)))

def execSadd (d a b : Nat) (s : State) := issue (.sadd d a b) (scal2 d a b fun x y => x + y) s
def execSsub (d a b : Nat) (s : State) := issue (.ssub d a b) (scal2 d a b fun x y => x - y) s
def execSmul (d a b : Nat) (s : State) := issue (.smul d a b) (scal2 d a b fun x y => x * y) s
def execSand (d a b : Nat) (s : State) := issue (.sand d a b) (scal2 d a b fun x y => x &&& y) s
def execSor (d a b : Nat) (s : State) := issue (.sor d a b) (scal2 d a b fun x y => x ||| y) s
def execSxor (d a b : Nat) (s : State) := issue (.sxor d a b) (scal2 d a b fun x y => x ^^^ y) s
def execSshl (d a b : Nat) (s : State) := issue (.sshl d a b) (scal2 d a b shlW) s
def execSshr (d a b : Nat) (s : State) := issue (.sshr d a b) (scal2 d a b shrW) s
def execSsra (d a b : Nat) (s : State) := issue (.ssra d a b) (scal2 d a b sraW) s
def execSmin (d a b : Nat) (s : State) := issue (.smin d a b) (scal2 d a b minI) s
def execSmax (d a b : Nat) (s : State) := issue (.smax d a b) (scal2 d a b maxI) s
def execSmov (d a : Nat) (s : State) := issue (.smov d a) (fun s => .done (s.setS d (s.sreg a))) s
def execSaddi (d a : Nat) (i : Int) (s : State) := issue (.saddi d a i) (fun s => .done (s.setS d (s.sreg a + immW i))) s
def execSmovi (d : Nat) (i : Int) (s : State) := issue (.smovi d i) (fun s => .done (s.setS d (immW i))) s
def execScmp (c : ICond) (m a b : Nat) (s : State) :=
  issue (.scmp c m a b)
    (fun s => .done (s.setM m (if ICond.holds c 32 (s.sreg a).toNat (s.sreg b).toNat then 0xFFFFFFFF else 0))) s

end Sys2Proof.Machine
end

