-- ==== Sys2Proof/Machine/Shake.lean ====
section
/-! DEFINITION. SHAKE256, which R303, R357, R398 and R399 name, as FIPS 202 defines it (log 63).  The 1,600-bit state is 25
numbers of 64 bits, the number of column x and plane y at 5 y + x. -/
namespace Sys2Proof.Machine
namespace Shake

/-- The 64-bit numbers of the permutation's state. -/
abbrev Cells := List Nat

/-- A number turned left by n of its 64 bits. -/
def turn (n x : Nat) : Nat := x * 2 ^ (n % 64) % 2 ^ 64 + x / 2 ^ (64 - n % 64)

/-- A list begun k members later, going round. -/
def cyc (k : Nat) (xs : List Nat) : List Nat := xs.drop k ++ xs.take k

/-- Exclusive OR member by member. -/
def mix (xs ys : List Nat) : List Nat := List.zipWith (fun x y => x ^^^ y) xs ys

/-- The five planes of a state. -/
def planes (a : Cells) : List (List Nat) := (List.range 5).map fun y => (a.drop (5 * y)).take 5

/-- Every plane takes the parity of the column before and, turned, of the column after. -/
def spread (a : Cells) : Cells :=
  let parity := (planes a).foldl mix [0, 0, 0, 0, 0]
  let effect := mix (cyc 4 parity) ((cyc 1 parity).map (turn 1))
  (planes a).flatMap (mix effect)

/-- The walk that starts at column 1 of plane 0: step t turns the number it stands at by (t + 1)(t + 2) / 2 and carries it from
(x, y) to (y, 2 x + 3 y).  What it lays down, by place. -/
def walk (a : Cells) : Nat → Nat → Nat → Nat → List (Nat × Nat)
  | 0, _, _, _ => []
  | n + 1, t, x, y =>
    let z := (2 * x + 3 * y) % 5
    (5 * z + y, turn ((t + 1) * (t + 2) / 2) (a.getD (5 * y + x) 0)) :: walk a n (t + 1) y z

/-- All the numbers turned and carried; the one at (0, 0) stays. -/
def carry (a : Cells) : Cells :=
  let laid := (0, a.headD 0) :: walk a 24 0 1 0
  (List.range 25).map fun i => ((laid.find? fun p => p.1 == i).map fun p => p.2).getD 0

/-- Each number of a plane takes what the next lacks of the one after it. -/
def bend (row : List Nat) : List Nat :=
  mix row (List.zipWith (fun x y => (2 ^ 64 - 1 - x) &&& y) (cyc 1 row) (cyc 2 row))

/-- One step of the 8-bit register of x^8 + x^6 + x^5 + x^4 + 1. -/
def shiftReg (r : Nat) : Nat := if r < 128 then 2 * r else (2 * r) ^^^ 0x171

/-- The round constants of n rounds from a register on: seven bits of it, at the places 2^j − 1. -/
def marks : Nat → Nat → List Nat
  | 0, _ => []
  | n + 1, r =>
    let rs := (List.range 7).map fun j => (List.range j).foldl (fun x _ => shiftReg x) r
    ((List.range 7).map fun j => rs.getD j 0 % 2 * 2 ^ (2 ^ j - 1)).foldl (· + ·) 0 :: marks n (shiftReg (rs.getD 6 0))

/-- A round, with its constant. -/
def turnRound (a : Cells) (mark : Nat) : Cells := mix ((planes (carry (spread a))).flatMap bend) (mark :: List.replicate 24 0)

/-- The message with its end: the four bits of SHAKE, and the padding to blocks of 136 bytes. -/
def padded (m : List Byte) : List Byte :=
  let gap := 136 - m.length % 136
  m ++ if gap = 1 then [0x9F] else 0x1F :: List.replicate (gap - 2) 0 ++ [0x80]

/-- A little-endian number. -/
def numOf (bs : List Byte) : Nat := bs.foldr (fun b n => b.toNat + 256 * n) 0

/-- The blocks of a padded message taken in, so many of them. -/
def takeIn : Nat → List Byte → Cells → Cells
  | 0, _, a => a
  | n + 1, m, a =>
    let block := (List.range 25).map fun i => if i < 17 then numOf ((m.drop (8 * i)).take 8) else 0
    takeIn n (m.drop 136) ((marks 24 1).foldl turnRound (mix a block))

end Shake

/-- The first n bytes, at most 136, of SHAKE256 of a message. -/
def shake256 (n : Nat) (m : List Byte) : List Byte :=
  let p := Shake.padded m
  let out := Shake.takeIn (p.length / 136) p (List.replicate 25 0)
  (out.flatMap fun x => (List.range 8).map fun i => BitVec.ofNat 8 (x / 2 ^ (8 * i))).take n

end Sys2Proof.Machine
end

