-- ==== Sys2Proof/Machine/Distributor.lean ====
section
/-! DEFINITION. The distributors: accepting launches, starting groups and tasks, steals, retirement, completion and phases
(R251, R336 to R349, R355 to R357, R361). -/
namespace Sys2Proof.Machine

/-! ### Completion records of queue entries (R289) -/

/-- An entry of a queue is completed: its record, its interrupt, and its place among the unfinished ones. -/
def finishEntry (s : State) (o : QOrigin) (status cause : Nat) : State :=
  let q := s.queues.getD o.q HostQueue.zero
  let a : ASpace := ⟨q.qasn, q.qroot, none⟩
  let u := Mmu.mailbox o.q
  let s1 :=
    if o.compl = 0 then s
    else
      let t := deviceWrite s u a 0x4A0 0 (o.compl + 8) (leBytes 4 (status + 256 * cause) ++ leBytes 4 0)
      deviceBump (if (access t u a (.atom true) o.compl 8).toOption.isSome then t.flushHost else t) u a 0x4A0 0 o.compl 1
  let s2 := if o.irq then sendDev s1 0x4A0 0 o.compl (.irq o.vec) else s1
  s2.updQueue o.q fun q => { q with unfinished := q.unfinished.filter fun k => k != o.seq }

/-- Pages that the completion record of an entry waits for (R419). -/
def entryPages (s : State) (o : QOrigin) : List FaultPage :=
  let q := s.queues.getD o.q HostQueue.zero
  if o.compl = 0 then [] else devPages s (.mailbox o.q) ⟨q.qasn, q.qroot, none⟩ [(o.compl, 16)]

/-- An entry is over: it is completed now, or when the page of its record has come. -/
def completeEntry (s : State) (o : QOrigin) (status cause : Nat) : State :=
  let ps := entryPages s o
  if ps.isEmpty then finishEntry { s with devDeclined := [] } o status cause
  else { devWait s ps with finishing := s.finishing ++ [(o, status, cause)] }

/-- The entries whose record waited for a page are completed, or wait on. -/
def flushFinishing (s : State) : State :=
  s.finishing.foldl (fun t f => completeEntry t f.1 f.2.1 f.2.2) { s with finishing := [] }

/-- The entry at QHEAD is accepted: QHEAD moves on. -/
def advanceHead (s : State) (q : Nat) : State :=
  s.updQueue q fun x => { x with qhead := if x.qsize = 0 then x.qhead else (x.qhead + 1) % x.qsize, busy := false }

/-! ### Acceptance of submitted records -/

/-- LAUNCH_ACCEPT (R333, R341): the master takes a submitted record.  A record from another package that is refused is
reported in its launch counter object, and its JOBC is still decremented (R361). -/
def execLaunchAccept (id : Nat) (s : State) : Host.Outcome State Fault Refusal :=
  match s.submissions.find? fun x => x.id == id with
  | none => .next s
  | some x =>
    if (liveDies s).isEmpty then .next s
    else
      let u := Mmu.walker ((liveDies s).headD 0)
      let done (t : State) : State := { t with submissions := t.submissions.filter fun y => y.id != id }
      match accept s u x.ref (x.words.map fun w => w.toNat) none x.origin x.queue x.remote false with
      | .ok t =>
        .next (done (match x.origin with
          | some o => advanceHead t o.q
          | none => t))
      | .wait => .next s
      | .fail c _ =>
        match x.origin with
        | some o => .next (done (completeEntry (advanceHead s o.q) o 2 c))
        | none =>
          let l := launchOf (x.words.map fun w => w.toNat)
          let a : ASpace := ⟨l.asn, l.root, none⟩
          let src := 0x488 + (liveDies s).headD 0
          let words := (if l.compl = 0 then [] else [(l.compl, 16)]) ++ (if l.jobc = 0 then [] else [(l.jobc, 8)])
          let pages := devPages s u a words
          if !pages.isEmpty then .next (devWait s pages)
          else
            let s0 : State := { s with devDeclined := [] }
            let s1 := if l.compl = 0 then s0 else deviceWrite s0 u a src x.ref (l.compl + 8) (leBytes 8 (2 + 256 * c))
            .next (done (if l.jobc = 0 then s1 else deviceBump s1 u a src x.ref l.jobc (-1)))

/-! ### Which groups may start -/

/-- Linear indices of a launch's groups with stores outstanding, whose identities are quarantined (R383). -/
def quarantined (s : State) (lid : Nat) : List Nat := (s.posted.filter fun p => p.lid == lid).map fun p => p.lin

/-- The launch may start groups now: it is not cancelled and its phase has come (R338). -/
def mayStart (s : State) (l : Launch) : Bool :=
  !l.cancelled && match assocGet s.phases l.attr.jobid with
    | some p => decide (l.attr.phase ≤ p)
    | none => true

/-- A group of a sweep has retired as a die knows it (R344). -/
def knownRetired (l : Launch) (die lin : Nat) : Bool := decide (lin < l.front) || l.told.contains (die, lin)

/-- A group is released on a die (R343, R344). -/
def released (l : Launch) (die lin : Nat) : Bool :=
  let a := l.attr
  if a.ndep = 0 then true
  else
    let (x, y, z) := coordsOf a lin
    decide (lin < l.front + 2 ^ 20)
      && (a.deps.take a.ndep).all fun d =>
        let px := (x : Int) + d.2.2
        let py := (y : Int) + d.2.1
        let pz := (z : Int) + d.1
        !(decide (0 ≤ px) && decide (px < a.gx) && decide (0 ≤ py) && decide (py < a.gy) && decide (0 ≤ pz) && decide (pz < a.gz))
          || knownRetired l die (px.toNat + a.gx * (py.toNat + a.gy * pz.toNat))

/-- The lowest of a list. -/
def lowest (xs : List Nat) : Option Nat :=
  match xs with
  | [] => none
  | x :: xs => some (xs.foldl min x)

/-- Units of the grid: groups, or instances of a gang. -/
def unitsOf (l : Launch) : Nat := if l.isFrag then 0 else gridPoints l.attr

/-- The units of a chunk. -/
def chunkUnits (l : Launch) (c : Nat) : List Nat := (List.range 64).filterMap fun k => if 64 * c + k < unitsOf l then some (64 * c + k) else none

/-- A unit of the grid whose groups all have their identities free (R383). -/
def unitFree (busy : List Nat) (l : Launch) (n : Nat) : Bool :=
  let size := if l.attr.gang then instanceSize l.attr else 1
  !(busy.any fun lin => lin / size == n)

/-- The lowest unstarted unit of a launch that a die can start (R339), but for those whose identities are quarantined
(R383). -/
def nextUnit (busy : List Nat) (l : Launch) (die : Nat) : Option Nat :=
  let started := (l.waiting.filter fun p => p.1 == die && released l die p.2 && unitFree busy l p.2).map fun p => p.2
  let chunk := (l.chunks.filter fun c => c.2 == die).filterMap fun c => lowest ((chunkUnits l c.1).filter (released l die))
  lowest (started ++ chunk)

/-- A unit leaves the unstarted ones: its chunk has a started group from now on (R340). -/
def takeUnit (s : State) (lid die n : Nat) : State :=
  s.updLaunch lid fun l =>
    if l.waiting.contains (die, n) then { l with waiting := l.waiting.erase (die, n) }
    else
      { l with
        chunks := l.chunks.filter fun c => c.1 != n / 64
        waiting := l.waiting ++ ((chunkUnits l (n / 64)).filter fun k => k != n).map fun k => (die, k) }

/-- Where a unit of a launch fits on a die. -/
inductive Spot where
  | core (c : Nat)
  | cores (cs : List Nat)

/-- The place for one more unit on a die. -/
def spotFor (used : Nat → Use) (l : LaunchRec) (die : Nat) : Option Spot :=
  if l.gang then (instanceFor used l die).map .cores
  else (coreFor used l l.budget l.waves (decide (0 < l.cluster)) (coresOf die)).map .core

/-- A unit starts at a place. -/
def startUnit (s : State) (l : Launch) (n : Nat) (p : Spot) : State :=
  match p with
  | .core c => startGrid s l n c
  | .cores cs => startInstance s l n cs

/-- Launches in the order in which distributors serve them: by priority, then as accepted (R339). -/
def served (s : State) : List Launch :=
  ([3, 2, 1, 0] : List Nat).flatMap fun p => s.launches.filter fun l => l.attr.prio == p

/-- Evicted groups that a live die could restore now come before unstarted ones of their priority (R390). -/
def restoreFirst (s : State) (prio : Nat) : Bool :=
  s.groups.any fun g => !g.onCore && decide (prio ≤ g.prio) && match s.launch? g.lid with
    | some l => !l.cancelled && (liveDies s).any fun d =>
        (coreFor (coreUse s) l.attr (groupBudget l.attr g) g.waves g.isCluster (coresOf d)).isSome
    | none => false

/-- The task that a core takes next from these deques, its own first (R348). -/
def taskFrom (s : State) (core : Nat) (from_ : Nat) : Option (TaskRec × Launch) :=
  let d := dequeOf s from_
  match (if from_ = core then d.head? else d.getLast?) with
  | none => none
  | some t =>
    match s.launch? t.lid with
    | none => none
    | some l =>
      if mayStart s l && !(quarantined s t.lid).contains t.key
          && fitsAt (coreUse s) l.attr l.attr.budget (if t.isGroup then t.n else 1) false core then some (t, l)
      else none

/-- The deque of a core offers a task of at least this priority that can start there (R348). -/
def dequeFirst (s : State) (core prio : Nat) : Bool :=
  match taskFrom s core core with
  | some (t, _) => decide (prio ≤ t.prio)
  | none => false

/-- The cores that a unit takes at a place: of a cluster group, those of its cluster. -/
def Spot.coresTaken (l : LaunchRec) : Spot → List Nat
  | .core c => if 0 < l.cluster then (List.range 4).map fun k => c + k else [c]
  | .cores cs => cs

/-- A core of the place takes its deque's record before a unit of the launch (R348). -/
def dequesFirst (s : State) (l : LaunchRec) (p : Spot) : Bool := (p.coresTaken l).any fun c => dequeFirst s c l.prio

/-- The groups of a DET launch that have not started, each with the die that owns it. -/
def detUnits (l : Launch) : List (Nat × Nat) := l.waiting ++ l.chunks.flatMap fun c => (chunkUnits l c.1).map fun n => (c.2, n)

/-- The place of a unit on the dies in ring order from its own. -/
def spotNear (s : State) (l : Launch) (die : Nat) : Option Spot :=
  ((ringFrom die).filter fun d => !fenced s d).findSome? fun d => spotFor (coreUse s) l.attr d

/-- The unit starts somewhere on the dies in ring order from its own. -/
def startNear (s : State) (l : Launch) (die n : Nat) : Option State := (spotNear s l die).map fun p => startUnit s l n p

/-- All the unstarted groups of a DET launch start together, if they fit (R355). -/
def startDet (l : Launch) : List (Nat × Nat) → State → Option State
  | [], s => some s
  | (d, n) :: rest, s =>
    match spotNear s l d with
    | none => none
    | some p => if dequesFirst s l.attr p then none else startDet l rest (takeUnit (startUnit s l n p) l.lid d n)

/-- A die starts something of a launch, if it can. -/
def startOf (s : State) (die : Nat) (l : Launch) : Option State :=
  if !mayStart s l ∨ restoreFirst s l.attr.prio then none
  else
    match l.frags with
    | f :: rest =>
      if (quarantined s l.lid).contains (f.prim * 2 ^ 16 + f.k) then none
      else
        match coreFor (coreUse s) l.attr l.attr.budget 1 false (coresOf die) with
        | none => none
        | some c =>
          if dequeFirst s c l.attr.prio then none
          else some ((startFrag s l f c).updLaunch l.lid fun x => { x with frags := rest })
    | [] =>
      if l.attr.det then
        if (detUnits l).isEmpty || (detUnits l).any (fun p => !unitFree (quarantined s l.lid) l p.2) then none
        else startDet l (detUnits l) s
      else
        match nextUnit (quarantined s l.lid) l die, spotFor (coreUse s) l.attr die with
        | some n, some p =>
          if dequesFirst s l.attr p then none else some (startUnit (takeUnit s l.lid die n) l n p)
        | _, _ => none

/-- What a die's distributor starts next. -/
def startNext (s : State) (die : Nat) : Option State :=
  if fenced s die then none else (served s).findSome? fun l => startOf s die l

/-- GROUP_START on a die (R334, R335, R339, R355). -/
def execGroupStart (die : Nat) (s : State) : Host.Outcome State Fault Refusal :=
  .next ((startNext s die).getD s)

/-! ### Tasks -/

/-- A record leaves a deque: the top one of its owner, the bottom one for a thief (R348). -/
def popDeque (s : State) (core : Nat) (top : Bool) : State :=
  let d := dequeOf s core
  { s with deques := assocSet s.deques core (if top then d.drop 1 else d.dropLast) }

/-- Cores whose deques a core looks at, in order: its own, its die's in ring order, then the other dies', a fenced one's
among them (R341, R348). -/
def dequeOrder (core : Nat) : List Nat :=
  let die := core / 96
  ((List.range 96).map fun i => 96 * die + (core % 96 + i) % 96)
    ++ ((ringFrom die).drop 1).flatMap coresOf

/-- A die's distributor has a group of more than this priority that it can start: it goes before a core's own record (R348). -/
def groupFirst (s : State) (die prio : Nat) : Bool :=
  (served s).any fun l => decide (prio < l.attr.prio) && (startOf s die l).isSome

/-- TASK_START on a core (R346, R348): a deque of another core is looked at only when the core's own offers nothing and its
distributor can start no group.  Posts that wait for room take it first. -/
def execTaskStart (core : Nat) (s0 : State) : Host.Outcome State Fault Refusal :=
  let s := drainPosts s0
  if 384 ≤ core ∨ fenced s (core / 96) then .next s
  else
    let pick :=
      match taskFrom s core core with
      | some (t, _) => if groupFirst s (core / 96) t.prio then none else some core
      | none =>
        if (startNext s (core / 96)).isNone then ((dequeOrder core).drop 1).find? fun c => (taskFrom s core c).isSome else none
    match pick with
    | none => .next s
    | some c =>
      match taskFrom s core c with
      | none => .next s
      | some (t, l) => .next (startTask (popDeque s c (c == core)) l t core)

/-! ### Steals -/

/-- Unstarted chunks of a launch on a die. -/
def chunksOf (l : Launch) (die : Nat) : List Nat := (l.chunks.filter fun c => c.2 == die).map fun c => c.1

/-- The highest-numbered half, rounded up, of a victim's chunks (R340). -/
def stolen (l : Launch) (die : Nat) : List Nat :=
  let cs := chunksOf l die
  let keep := cs.length / 2
  cs.filter fun c => decide (keep ≤ (cs.filter fun d => d < c).length)

/-- STEAL_REQUEST of a die that can start no group (R340). -/
def execStealRequest (die : Nat) (s : State) : Host.Outcome State Fault Refusal :=
  if fenced s die ∨ (startNext s die).isSome then .next s
  else
    let ls := (served s).filter fun l => mayStart s l && !l.attr.det
    let victims := ((ringFrom die).drop 1).filter fun d => !fenced s d
    match victims.findSome? fun d => (ls.find? fun l => !(chunksOf l d).isEmpty).map fun l => (d, l) with
    | none => .next s
    | some (d, l) =>
      let cs := stolen l d
      .next (s.updLaunch l.lid fun x =>
        { x with chunks := x.chunks.map fun c => if c.2 == d && cs.contains c.1 then (c.1, die) else c })

/-! ### Retirement -/

/-- FRONT moves past retired groups (R344). -/
def advanceFront : Nat → Launch → Launch
  | 0, l => l
  | n + 1, l =>
    if l.retired.contains l.front then
      advanceFront n { l with retired := l.retired.erase l.front, front := l.front + 1 }
    else l

/-- A group of the grid is noted as retired, as its die knows it (R343, R344). -/
def noteRetired (die lin : Nat) (l : Launch) : Launch :=
  let x := advanceFront (l.retired.length + 1) { l with retired := l.retired ++ [lin] }
  if l.attr.ndep = 0 then x
  else { x with told := ((die, lin) :: x.told).filter fun p => decide (x.front ≤ p.2) }

/-- The first fault that a group's byte-counting barriers hold (R77). -/
def barrierFault (g : Group) : Option FaultRec := (g.bcbs.toList.filterMap fun b => b.fault).head?

/-- A group's waves have all ended and none of their stores is outstanding (R383). -/
def canRetire (s : State) (g : Group) : Bool :=
  !(s.waves.any fun w => w.gid == g.gid) && !(s.posted.any fun p => p.gid == g.gid)

/-- The decrement of a retiring task's join object; a cause met there is a launch fault (R347). -/
def retireJoin (s : State) (g : Group) : Option State :=
  match g.task, s.launch? g.lid with
  | some t, some l =>
    if t.joinc = 0 then some s
    else
      let a : ASpace := ⟨l.attr.asn, l.attr.root, none⟩
      let bad (u : State) (c : Nat) : State := launchFault u g.lid c (0x488 + g.core / 96) g.lin 0 0 (BitVec.ofNat 64 t.joinc) 0
      match access s (.core g.core) a (.atom true) t.joinc 16 with
      | .error (c, _) => some (bad s c)
      | .ok (ls, _) =>
        match joinStep s none g.lid g.core a ls with
        | .ok u => some ((noteWrites u g.lid none [(t.joinc, ls.headD ⟨.hbm, 0⟩)]).emptyL1 g.core)
        | .underflow => some (bad s causeJoinUnderflow)
        | .malformed u => some (bad u causeTaskMalformed)
        | .fault c _ => some (bad s c)
        | .full => none
  | _, _ => some s

/-- GROUP_RETIRE (R77, R343, R346, R347). -/
def execGroupRetire (gid : Nat) (s : State) : Host.Outcome State Fault Refusal :=
  match s.group? gid with
  | none => .next s
  | some g =>
    if !canRetire s g then .next s
    else
      match retireJoin s g with
      | none => .next s
      | some s1 =>
        let s2 := dropBarcs { s1 with groups := s1.groups.filter fun x => x.gid != gid }
        let s3 := s2.updLaunch g.lid fun l =>
          if g.task.isSome then { l with tasks := l.tasks - 1 }
          else if g.frag.isSome then l
          else noteRetired (g.core / 96) g.lin l
        match barrierFault g with
        | none => .next s3
        | some f =>
          if (s3.launch? g.lid).any fun l => l.cancelled then .next s3
          else .next (launchFault s3 g.lid f.cause f.src g.lin 0 f.pc f.addr 0)

/-- RETIREMENT_MESSAGE: the other dies learn that a group of a sweep has retired (R344). -/
def execRetirementMessage (lid lin : Nat) (s : State) : Host.Outcome State Fault Refusal :=
  .next (s.updLaunch lid fun l =>
    if l.attr.ndep ≠ 0 ∧ l.told.any fun p => p.2 == lin then
      { l with told := (List.range 4).foldl (fun acc d => if acc.contains (d, lin) then acc else (d, lin) :: acc) l.told }
    else l)

/-! ### Completion -/

/-- All the work of a launch has finished (R337). -/
def workDone (s : State) (l : Launch) : Bool :=
  let engines := !(s.copies.any fun c => c.lid == l.lid) && !(s.entries.any fun e => e.lid == l.lid && !e.done)
    && !(s.updates.any fun u => u.lid == l.lid) && !(s.colls.any fun c => c.lid == l.lid && c.outcome.isNone)
    && !(s.pubs.any fun p => p.lid == l.lid && !p.published) && !(s.groups.any fun g => g.lid == l.lid)
    && !(s.posted.any fun p => p.lid == l.lid)
  if l.cancelled then engines
  else
    engines && !l.attr.mboxen && l.tasks == 0 && l.frags.isEmpty && decide (l.total ≤ l.front)
      && !(s.contribs.any fun c => c.lid == l.lid) && l.gsdone == l.topEpoch + 1

/-- STATUS of a launch counter object (R336). -/
def statusWord (l : Launch) : Nat :=
  match l.fault with
  | some c => 1 + 256 * c
  | none => if l.cancelled then 2 else 0

/-- The digest of one line (R357). -/
def lineHash (s : State) (p : Nat × Nat) : Nat :=
  leOf (shake256 16 (leBytes 8 (128 * p.1) ++ s.bytes ⟨.hbm, 128 * p.2⟩ 128))

/-- A launch's digest D (R357). -/
def digest (s : State) (l : Launch) : Nat := ((l.wrote.map (lineHash s)).foldl (· + ·) 0) % 2 ^ 128

/-- A queue's chain value after a completion (R357). -/
def chainAfter (s : State) (c : Nat) (l : Launch) : Nat :=
  leOf (shake256 32 (leBytes 32 c ++ leBytes 8 l.ref ++ leBytes 16 (digest s l)))

/-- The lines that two groups wrote in the open window, once each (R356). -/
def doubleLines (l : Launch) : List Loc :=
  (l.writers.map fun p => p.1).eraseDups.filter fun n => decide (2 ≤ (l.writers.filter fun p => p.1 == n).length)

/-- One report appended to the ring at WCBASE (R356); a ring that cannot be reached takes none.  DROP counts the reports that
overwrite another: HEAD counts all that the ring has taken. -/
def writeReport (l : Launch) (s : State) (line : Loc) : State :=
  let a : ASpace := ⟨l.attr.asn, l.attr.root, none⟩
  let u := Mmu.walker 0
  match access s u a .store l.attr.wcbase 16 with
  | .error _ => s
  | .ok (hs, _) =>
    let len := leOf ((hs.take 4).map fun x => s.byte x)
    let head := leOf (((hs.drop 4).take 4).map fun x => s.byte x)
    let drop_ := leOf ((hs.drop 8).map fun x => s.byte x)
    if len = 0 then s
    else
      match access s u a .store (l.attr.wcbase + 16 + 16 * (head % len)) 16 with
      | .error _ => s
      | .ok (ls, _) =>
        let s1 := writeCells s none (ls.zip (leBytes 8 (line.addr % 2 ^ 52) ++ leBytes 8 l.window))
        let full := decide (len ≤ head) || drop_ != 0
        writeCells s1 none (hs.zip (leBytes 4 len ++ leBytes 4 (head + 1) ++ leBytes 8 (if full then drop_ + 1 else drop_)))

/-- A counting window of a launch closes (R356). -/
def closeWindow (s : State) (l : Launch) : State :=
  if !l.attr.wchk then s
  else
    let s1 := if l.attr.wcbase = 0 then s else (doubleLines l).foldl (writeReport l) s
    s1.updLaunch l.lid fun x => { x with writers := [], window := x.window + 1 }

/-- The words that a completion writes in the launch's address space (R336). -/
def completionWords (l : LaunchRec) : List (Nat × Nat) :=
  (if l.compl = 0 then [] else [(l.compl, 16)]) ++ (([l.graphc, l.phasec, l.jobc].filter fun c => c != 0).map fun c => (c, 8))

/-- STATUS is written and each LIVE decremented (R336, R419). -/
def completeCounters (s : State) (u : Mmu) (src : Nat) (l : Launch) (status : Nat) : State :=
  let a : ASpace := ⟨l.attr.asn, l.attr.root, none⟩
  let s1 := s.flushHost
  let s2 := if l.attr.compl = 0 then s1 else deviceWrite s1 u a src l.ref (l.attr.compl + 8) (leBytes 8 status)
  (counters l.attr).foldl (fun t c => deviceBump t u a src l.ref c (-1)) s2

/-- The launch leaves the machine. -/
def dropLaunch (s : State) (lid : Nat) : State :=
  { s with
    launches := s.launches.filter fun l => l.lid != lid
    entries := s.entries.filter fun e => e.lid != lid
    tiles := s.tiles.filter fun t => t.lid != lid
    colls := s.colls.filter fun c => c.lid != lid
    pubs := s.pubs.filter fun p => p.lid != lid
    postQueue := s.postQueue.filter fun t => t.lid != lid
    deques := s.deques.map fun d => (d.1, d.2.filter fun t => t.lid != lid) }

/-- STATUS and cause of the completion record of a launch's queue entry (R289). -/
def entryStatus (l : Launch) : Nat × Nat :=
  match l.fault with
  | some c => (1, c)
  | none => if l.cancelled then (3, causeCancelled) else (0, 0)

/-- The die of the master distributor (R341). -/
def master (s : State) : Nat := (liveDies s).headD 0

/-- A launch completes, or waits for the pages of its completion words.  With every die fenced the controller acts for the
distributors, and the queue's chain stays (R393). -/
def completeLaunch (s : State) (l : Launch) : State :=
  let gone := (liveDies s).isEmpty
  let u := Mmu.walker (master s)
  let a : ASpace := ⟨l.attr.asn, l.attr.root, none⟩
  let own := devPages s u a (completionWords l.attr)
  let qs := match l.origin with
    | some o => entryPages s o
    | none => []
  let pages := own ++ qs
  if !pages.isEmpty then devWait s pages
  else
    let s0 : State := { s with devDeclined := [] }
    let s1 := if gone then s0 else closeWindow s0 l
    let s2 := match l.queue with
      | some q => if gone then s1 else s1.updQueue q fun x => { x with chain := chainAfter s1 x.chain l }
      | none => s1
    let s3 := completeCounters s2 u (if gone then 0x4A8 else 0x488 + master s) l (statusWord l)
    let s4 := match l.origin with
      | some o => finishEntry s3 o (entryStatus l).1 (entryStatus l).2
      | none => s3
    dropLaunch s4 l.lid

/-- LAUNCH_COMPLETE (R289, R336, R337, R356, R357, R393, R419). -/
def execLaunchComplete (lid : Nat) (s : State) : Host.Outcome State Fault Refusal :=
  match s.launch? lid with
  | none => .next s
  | some l => if workDone s l then .next (completeLaunch s l) else .next s

/-! ### Phases -/

/-- The gate of a job is open (R305): no divergence holds it, and every `.sync` collective of it has cleared; one that
stopped or was withdrawn never does (log 29). -/
def gateOpen (s : State) (job : Nat) : Bool :=
  !(s.gates.any fun g => g.1 == job) && !s.unclear.contains job
    && !(s.colls.any fun c => c.job == job && c.params.sync && c.outcome.isNone)

/-- PHASE_ADVANCE of a job (R338). -/
def execPhaseAdvance (job : Nat) (s : State) : Host.Outcome State Fault Refusal :=
  match assocGet s.phases job with
  | none => .next s
  | some p =>
    let mine := (s.launches.filter fun l => l.attr.jobid == job).map fun l => l.attr.phase
    match lowest (mine.filter fun q => decide (p < q)) with
    | none => .next s
    | some q => if mine.contains p ∨ !gateOpen s job then .next s else .next { s with phases := assocSet s.phases job q }

end Sys2Proof.Machine
end

