-- ==== Sys2Proof/Machine/Fabric.lean ====
section
/-! DEFINITION. Watermarks, `wmreg`, `wmread`, `wmchk`, `col`, `colw` and the all-reduce engines (R298 to R308). -/
namespace Sys2Proof.Machine

/-! ### Watermarks (R303, R308) -/

/-- The region with a number of a job. -/
def regionOf (s : State) (job n : Nat) : Option WmRegion := (s.regions.find? fun r => r.1 == (job, n)).map fun r => r.2

/-- The sum of the lines of one page from a line on (R303): h is 128 bits of SHAKE256 over K, VA and the line. -/
def sumLines (s : State) (key : List Byte) (place : Loc) (va : Nat) : Nat → Nat
  | 0 => 0
  | n + 1 =>
    let off := 128 * n
    leOf (shake256 16 (key ++ leBytes 8 (va + off) ++ s.bytes (place.plus off) 128)) + sumLines s key place va n

/-- A package's watermark of a region: the digest of its visible bytes (R303). -/
def watermark (s : State) (r : WmRegion) : Nat :=
  ((List.range (r.size / 65536)).foldl
    (fun acc k =>
      let va := r.base + 65536 * k
      match walk s r.root va with
      | .ok x => acc + sumLines s r.key (x.loc va) va 512
      | .error _ => acc) 0) % 2 ^ 128

/-- The sixteen watermarks of a job (R304). -/
def snapshot (s : State) (job : Nat) : List (Option Nat) := (List.range 16).map fun n => (regionOf s job n).map (watermark s)

/-- A page that a region may hold: valid, TYPE 0, REP (R308). -/
def regionPageOk (s : State) (va : Nat) : Bool :=
  match xlate s (.core s.w.core) s.aspace va with
  | .ok x => pteType x.pte == 0 && pteRep x.pte
  | .error _ => false

/-- `wmreg` (R308). -/
def doWmreg (g r : Nat) (s : State) : Res :=
  let va := (s.s64 r).toInt
  match operand s .load va 32 32 0x95 with
  | .error e => e
  | .ok (ls, xs) =>
    let ws := wordsAt s ls
    let base := ws.getD 0 0
    let size := ws.getD 1 0
    let s1 := noteAccess s ls xs false
    let rest := s1.regions.filter fun x => x.1 != (s.attr.jobid, g)
    if size = 0 then .done { s1 with regions := rest }
    else if base % 65536 ≠ 0 ∨ size % 65536 ≠ 0 ∨ 2 ^ 55 < base + size then .trap (Trap.whole 0x95 (BitVec.ofInt 64 va))
    else
      match (List.range (size / 65536)).find? fun k => !regionPageOk s1 (base + 65536 * k) with
      | some k => .trap (Trap.whole 0x94 (BitVec.ofNat 64 (base + 65536 * k)))
      | none =>
        .done { s1 with regions :=
          ((s.attr.jobid, g), ⟨base, size, leBytes 8 (ws.getD 2 0) ++ leBytes 8 (ws.getD 3 0), s.attr.asn, s.attr.root, 0,
            s1.serial⟩) :: rest, serial := s1.serial + 1 }

/-- `wmread` (R308). -/
def doWmread (g d : Nat) (s : State) : Res :=
  let x := ((regionOf s s.attr.jobid g).map (watermark s)).getD 0
  .done ((List.range 4).foldl (fun t k => t.setV (d + k) fun _ => wordAt x k) s)

/-- `wmchk` (R308). -/
def doWmchk (g d : Nat) (s : State) : Res := .done (s.setS d (((regionOf s s.attr.jobid g).map fun r => r.last).getD 0))

def execWmreg (la g r : Nat) (s : State) := issue (.wmreg la g r) (doWmreg g r) s
def execWmread (la g d : Nat) (s : State) := issue (.wmread la g d) (doWmread g d) s
def execWmchk (la g d : Nat) (s : State) := issue (.wmchk la g d) (doWmchk g d) s

/-! ### `col` and `colw` (R307) -/

/-- COL_MALFORMED and COL_MISMATCH. -/
def causeColMalformed : Nat := 0x90
def causeColMismatch : Nat := 0x91

/-- The part of a descriptor that can be checked by itself (Table 13.6, R307). -/
def colDescOk (ws : List Nat) : Bool :=
  let count := if fieldOf ws 0x28 40 2 = 2 then 0 else 4 * (fieldOf ws 0x28 0 28 + 1)
  let q (off : Nat) : Nat := fieldOf ws off 0 64
  fieldOf ws 0x28 48 16 == 0 && fieldOf ws 0x28 28 8 == 0 && fieldOf ws 0x30 40 24 == 0 && q 0x38 == 0
    && fieldOf ws 0x28 40 2 != 3 && decide (fieldOf ws 0x28 36 3 < 4) && decide (fieldOf ws 0x28 42 6 ≤ 40)
    && q 0x00 % 4 == 0 && q 0x08 % 4 == 0 && q 0x10 % 64 == 0
    && decide (q 0x00 + count ≤ 2 ^ 55) && decide (q 0x08 + count ≤ 2 ^ 55) && decide (q 0x10 + 0x40 ≤ 2 ^ 55)
    && decide (q 0x20 + 16 ≤ 2 ^ 55)

/-- The header of a communicator record (Table 13.7). -/
def commHeadOk (ws : List Nat) : Bool :=
  let p := fieldOf ws 0 0 16
  fieldOf ws 0 32 16 == 0 && decide (1 ≤ p) && decide (p ≤ 1024) && decide (fieldOf ws 0 16 16 < p)
    && (List.range 7).all fun k => ws.getD (k + 1) 0 == 0

/-- The ids of a communicator record. -/
def commIds (s : State) (ls : List Loc) (p : Nat) : List Nat :=
  (List.range p).map fun r => leOf (((ls.drop (0x40 + 2 * r)).take 2).map (slotByte s 0))

/-- The parameters of a collective from its descriptor and communicator (R299). -/
def colParams (ws : List Nat) (ids : List Nat) (p rank : Nat) (sync arr : Bool) : ColParams :=
  let kind := fieldOf ws 0x28 40 2
  let sublog := fieldOf ws 0x28 42 6
  let subpos := fieldOf ws 0x30 0 40
  { ranks := p, ids := ids, kind := kind, op := fieldOf ws 0x28 36 3, nfpol := fieldOf ws 0x28 39 1 == 1, sync := sync,
    arr := arr, count := if kind = 2 then 0 else fieldOf ws 0x28 0 28 + 1, rank := rank, sublog := sublog,
    subpos := if sublog = 0 ∧ subpos = 0 then rank else subpos }

/-- A message taken by a collective that has not completed: contributions and reports count at rank 0, its decision and its
word that all is written elsewhere, and the first stop everywhere (R301, R302). -/
def takeMessage (m : ColMsg) (c : Coll) : Coll :=
  match m with
  | .contribution p d w => if c.params.rank = 0 then { c with got := c.got ++ [(p, d, w)] } else c
  | .decision _ _ _ _ _ _ => if c.params.rank = 0 then c else { c with decision := c.decision.or (some m) }
  | .stop _ =>
    match c.decision with
    | some (.stop _) => c
    | some _ | none => if c.finish then c else { c with decision := some m }
  | .written r => if c.params.rank = 0 then { c with heard := r :: c.heard } else c
  | .finish => if c.params.rank = 0 then c else { c with finish := true }

/-- `col` (R307).  The slot's earlier writes of host pages are performed at `.fab` (Table 12.2). -/
def doCol (sync arr : Bool) (r : Nat) (s : State) : Res :=
  let va := (s.s64 r).toInt
  let bad : Res := .trap (Trap.whole causeColMalformed (BitVec.ofInt 64 va))
  match operand s .load va 64 64 causeColMalformed with
  | .error e => e
  | .ok (ls, xs) =>
    let ws := wordsAt s ls
    if !colDescOk ws then bad
    else
      let comm := fieldOf ws 0x10 0 64
      match operand s .load (comm : Nat) 0x40 1 causeColMalformed with
      | .error e => e
      | .ok (hs, _) =>
        let cw := wordsAt s hs
        let p := fieldOf cw 0 0 16
        let rank := fieldOf cw 0 16 16
        if !commHeadOk cw ∨ 2 ^ 55 < comm + 0x40 + 2 * p then bad
        else
          match operand s .load (comm : Nat) (0x40 + 2 * p) 1 causeColMalformed with
          | .error e => e
          | .ok (cs, ys) =>
            let ids := commIds s cs p
            if (ids.any fun i => decide (1024 ≤ i)) ∨ ids.eraseDups.length ≠ p ∨ ids.getD rank 0 ≠ s.pkgId then bad
            else
              let commid := fieldOf cw 0 48 16
              let seq := fieldOf ws 0x18 0 64
              let c : Coll :=
                { id := s.serial, lid := s.w.lid, wid := s.w.wid, gid := s.w.gid, die := s.w.die, job := s.attr.jobid, asn := s.attr.asn,
                  root := s.attr.root, comm := commid, seq := seq, params := colParams ws ids p rank sync arr,
                  src := fieldOf ws 0x00 0 64, dst := fieldOf ws 0x08 0 64, done := fieldOf ws 0x20 0 64, got := [],
                  decision := none, sent := false, marks := [], sentAt := 0, written := 0, told := false, heard := [], finish := false, spoiled := false,
                  sleep := [], missing := [], declined := [], outcome := none }
              let s1 := (noteAccess (noteAccess s ls xs false) cs ys false).flushHost
              let mine (m : Nat × Nat × ColMsg) : Bool := m.1 == commid && m.2.1 == seq
              let mail := s1.colMail.filter mine
              let c1 := mail.foldl (fun c m => takeMessage m.2.2 c) c
              .done ({ s1 with
                colls := s1.colls ++ [c1]
                colMail := s1.colMail.filter fun m => !mine m
                serial := s1.serial + 1 }.onCur fun x => { x with colls := x.colls ++ [(va.toNat, c.id)] })

def execCol (la : Nat) (sync arr : Bool) (r : Nat) (s : State) := issue (.col la sync arr r) (doCol sync arr r) s

/-- `colw` (R305, R307).  The completion that ends the wait acquires, whatever it raises; the reference of
WATERMARK_DIVERGENCE is this package's id (log 29).  The wait for a collective that cancellation withdrew ends with CANCELLED. -/
def doColw (r : Nat) (s : State) : Res :=
  let va := (s.s64 r).toInt
  let mine (p : Nat × Nat) : Bool := decide ((p.1 : Int) = va)
  match (s.cur.colls.filter mine).getLast? with
  | none => .done s
  | some (_, id) =>
    match operand s .load (va + 0x20) 8 1 0 with
    | .error e => e
    | .ok (ls, xs) =>
      let taken (t : State) : State := t.onCur fun c => { c with colls := c.colls.filter fun p => !mine p }
      match s.colls.find? fun c => c.id == id with
      | none => if s.cancelled then .hold s else .done (taken s)
      | some c =>
        match c.outcome with
        | none => .hold s
        | some (out, cause, diverged, split) =>
          let t := (noteAccess (taken { s with colls := s.colls.filter fun x => x.id != id }) ls xs false).emptyL1 s.w.core
          if out = 2 then .trapIn t (Trap.whole cause 0)
          else if split then .trapIn t (Trap.whole 0x93 0)
          else if diverged then .trapIn t (Trap.whole 0x92 (BitVec.ofNat 64 s.pkgId))
          else .done t

def execColw (la r : Nat) (s : State) := issue (.colw la r) (doColw r) s

/-! ### The engines -/

/-- The unit that translates for a collective, and its address space (R419). -/
def Coll.mmu (c : Coll) : Mmu := .walker c.die
def Coll.space (c : Coll) : ASpace := ⟨c.asn, c.root, none⟩

/-- A collective changed. -/
def updColl (s : State) (id : Nat) (f : Coll → Coll) : State :=
  { s with colls := s.colls.map fun c => if c.id = id then f c else c }

/-- A fault of an engine's own access. -/
structure ColFault where
  cause : Nat
  va : Nat
  wrote : Bool
  deriving DecidableEq, Repr

/-- The launch of a collective has the system flag. -/
def Coll.sys (c : Coll) (s : State) : Bool := (s.launch? c.lid).any fun l => l.attr.sys

/-- n words of an array, with their places (R300).  A bad granule that a TYPE 3 page reaches stops the read (R98). -/
def colRead (s : State) (c : Coll) : Nat → Nat → Except ColFault (List Word × List Loc)
  | _, 0 => .ok ([], [])
  | va, n + 1 =>
    match access s c.mmu c.space .engineRead va 4 with
    | .error (k, a) => .error ⟨k, a, false⟩
    | .ok (ls, _) =>
      match killCause s ls with
      | some k => .error ⟨k, va, false⟩
      | none =>
        match colRead s c (va + 4) n with
        | .error e => .error e
        | .ok (ws, ps) => .ok (BitVec.ofNat 32 (leOf (ls.map (s.byteFor (c.sys s) 0))) :: ws, ls ++ ps)

/-- The elements that this participant contributes: none for a barrier, and rank 0's alone for a broadcast (R301). -/
def ownCount (p : ColParams) : Nat := if p.kind = 0 ∨ (p.kind = 1 ∧ p.rank = 0) then p.count else 0

/-- op of R300. -/
def colOp (op : Nat) (x y : Word) : Word :=
  match op with
  | 0 => BitVec.ofNat 32 (FFmt.b32.addBits .rne x.toNat y.toNat)
  | 1 => BitVec.ofNat 32 (fminBits x.toNat y.toNat)
  | 2 => BitVec.ofNat 32 (fmaxBits x.toNat y.toNat)
  | _ => x + y

/-- A contribution's leaves and its value. -/
structure Leaf where
  log : Nat
  pos : Nat
  val : Word

/-- Some leaf of a contribution lies in the subtree of 2^level leaves at pos. -/
def Leaf.within (x : Leaf) (level pos : Nat) : Bool := decide (x.log ≤ level) && x.pos / 2 ^ (level - x.log) == pos

/-- node(level, pos) of R300. -/
def colNode (op : Nat) (xs : List Leaf) : Nat → Nat → Option Word
  | level, pos =>
    match xs.find? fun x => x.log == level && x.pos == pos with
    | some x => some x.val
    | none =>
      if !(xs.any fun x => x.within level pos) then none
      else
        match level with
        | 0 => none
        | n + 1 =>
          match colNode op xs n (2 * pos), colNode op xs n (2 * pos + 1) with
          | some a, some b => some (colOp op a b)
          | some a, none => some a
          | none, b => b

/-- Arrival mode: two of the values at a time are combined, which ones being free (R300, log 1). -/
def colArrival (op free k : Nat) : Nat → List Word → Word
  | 0, xs => xs.headD 0
  | fuel + 1, xs =>
    if xs.length ≤ 1 then xs.headD 0
    else
      let i := Config.freeNat free (4096 * k + 2 * fuel) % xs.length
      let rest := xs.eraseIdx i
      let j := Config.freeNat free (4096 * k + 2 * fuel + 1) % rest.length
      colArrival op free k fuel (colOp op (xs.getD i 0) (rest.getD j 0) :: rest.eraseIdx j)

/-- The result of the contributions (R300, R301). -/
def colResult (s : State) (p : ColParams) (got : List (ColParams × List Word × List (Option Nat))) : List Word :=
  match p.kind with
  | 0 =>
    (List.range p.count).map fun k =>
      if p.arr then colArrival p.op s.free k got.length (got.map fun g => g.2.1.getD k 0)
      else (colNode p.op (got.map fun g => ⟨g.1.sublog, g.1.subpos, g.2.1.getD k 0⟩) 40 0).getD 0
  | 1 => ((got.find? fun g => g.1.rank == 0).map fun g => g.2.1).getD []
  | _ => []

/-- The root decides to skip (R301). -/
def colSkips (p : ColParams) (data : List Word) : Bool :=
  p.nfpol && decide (p.op < 3) && data.any fun x => match FFmt.b32.value x.toNat with
    | .nan | .inf _ => true
    | .fin _ _ _ => false

/-- Two participants agree (R299). -/
def paramsAgree (a b : ColParams) : Bool :=
  a.ranks == b.ranks && a.ids == b.ids && a.kind == b.kind && a.op == b.op && a.count == b.count && a.nfpol == b.nfpol
    && a.sync == b.sync && a.arr == b.arr

/-- The leaves of a rank: the first and the one past the last. -/
def leavesOf (p : ColParams) : Nat × Nat := (p.subpos * 2 ^ p.sublog, (p.subpos + 1) * 2 ^ p.sublog)

/-- Subtrees lie in the leaf space and share no leaf, and each rank takes part once (R299). -/
def leavesOk (ps : List ColParams) : Bool :=
  (ps.all fun p => decide ((leavesOf p).2 ≤ 2 ^ 40))
    && decide (ps.Pairwise fun a b =>
      a.rank ≠ b.rank ∧ ((leavesOf a).2 ≤ (leavesOf b).1 ∨ (leavesOf b).2 ≤ (leavesOf a).1))

/-- The value held by more than half of the participants (R304). -/
def majorityOf (vals : List (Option Nat)) : Option (Option Nat) :=
  vals.find? fun v => decide (vals.length < 2 * (vals.filter fun x => x == v).length)

/-- What a comparison finds for one region: its majority, and the packages whose value differs (R304). -/
def compareRegion (marks : List (Nat × List (Option Nat))) (n : Nat) : Option (Option Nat) × List Nat :=
  let vals := marks.map fun m => (m.1, m.2.getD n none)
  match majorityOf (vals.map fun v => v.2) with
  | some m => (some m, (vals.filter fun v => v.2 != m).map fun v => v.1)
  | none => (none, vals.map fun v => v.1)

/-- The root's decision over all contributions (R301, R304). -/
def decide_ (s : State) (p : ColParams) (got : List (ColParams × List Word × List (Option Nat))) : ColMsg :=
  if !(got.all fun g => paramsAgree p g.1) ∨ !leavesOk (got.map fun g => g.1) then .stop causeColMismatch
  else
    let data := colResult s p got
    let skip := colSkips p data
    let out := if skip then [] else data
    if !p.sync then .decision skip out [] 0 0 []
    else
      let marks := got.map fun g => (p.ids.getD g.1.rank 0, g.2.2)
      let rs := (List.range 16).map (compareRegion marks)
      let div := (rs.flatMap fun r => r.2).eraseDups
      .decision skip out (rs.map fun r => r.1) ((lowest div).getD 0) div.length (rs.map fun r => lowest r.2)

/-- The `wmchk` word of a region after a comparison (R308). -/
def checkWord (mine : Option Nat) (major : Option (Option Nat)) (low : Option Nat) : Word :=
  let bit (b : Bool) (n : Nat) : Nat := if b then 2 ^ n else 0
  BitVec.ofNat 32 (2 ^ 31 + bit low.isNone 30 + bit (major != some mine) 29 + bit major.isNone 28 + low.getD 0 % 1024)

/-- The comparison's outcome on this package: the words of the regions that it compared, which have not been registered anew
since point Q, and the gate (R305, R308). -/
def noteComparison (s : State) (c : Coll) (major : List (Option (Option Nat))) (low : List (Option Nat)) : State :=
  let regions := s.regions.map fun r =>
    let n := r.1.2
    if r.1.1 = c.job ∧ (c.marks.getD n none).isSome ∧ r.2.made < c.sentAt then
      (r.1, { r.2 with last := checkWord (c.marks.getD n none) (major.getD n none) (low.getD n none) })
    else r
  let held := (List.range 16).filter fun n => (low.getD n none).isSome && !s.gates.contains (c.job, n)
  { s with regions := regions, gates := s.gates ++ held.map fun n => (c.job, n) }

/-- The completion record of a collective (Table 13.8), and its outcome. -/
def endColl (s : State) (c : Coll) (out cause div ndiv : Nat) (diverged split : Bool) : State :=
  let src := 0x490 + c.die
  let lref := ((s.launch? c.lid).map fun l => l.ref).getD 0
  let word := cause % 256 + div % 1024 * 2 ^ 8 + out % 4 * 2 ^ 30 + ndiv % 2 ^ 32 * 2 ^ 32
  let s1 := deviceWrite { s with devDeclined := [] } c.mmu c.space src lref (c.done + 8) (leBytes 8 word)
  let s2 := deviceBump s1 c.mmu c.space src lref c.done 1
  { updColl s2 c.id fun x => { x with outcome := some (out, cause, diverged, split) } with
    unclear := if out = 2 ∧ c.params.sync then c.job :: s2.unclear else s2.unclear }

/-- A word that a collective contributes or writes: one that R302 leaves unspecified, once something else has written its
arrays (R10, log 59). -/
def Coll.gives (s : State) (c : Coll) (k : Nat) (x : Word) : Word := if c.spoiled then Config.freeWord s.free k else x

/-- Elements of DST from one on, at most n of them (R301).  The engine's own writes leave its mark as it was (R302). -/
def colWrite (c : Coll) : Nat → List Word → State → State × Option ColFault
  | 0, _, s => (s, none)
  | n + 1, data, s =>
    let k := ((s.colls.find? fun x => x.id == c.id).map fun x => x.written).getD 0
    match data.drop k with
    | [] => (s, none)
    | x :: _ =>
      match access s c.mmu c.space .engineWrite (c.dst + 4 * k : Nat) 4 with
      | .error (e, a) => (s, some ⟨e, a, true⟩)
      | .ok (ls, _) =>
        let s1 := engineWrites s c.lid none none (ls.zip (leBytes 4 (c.gives s k x).toNat))
          (((List.range 4).map fun i => c.dst + 4 * k + i).zip ls)
        let s2 := if c.spoiled then { s1 with free := s1.free + 1 } else s1
        colWrite c n data (updColl s2 c.id fun y => { y with written := k + 1, declined := [], spoiled := c.spoiled })

/-- The page of a fault, if the service may still bring it. -/
def colPage (s : State) (c : Coll) (e : ColFault) : Option FaultPage :=
  let kind := if e.wrote then AccKind.engineWrite.code else AccKind.engineRead.code
  if e.cause = causePageFault ∧ (s.faultDesc.getD c.die none).isSome
      ∧ !(c.declined.any fun q => q.asn == c.asn && q.page == e.va / 65536) then
    some ⟨c.asn, c.root, e.va / 65536, kind, c.mmu.cluster⟩
  else none

/-- The collective waits for the page of a fault, or stays as it is for its stop. -/
def colPause (s : State) (c : Coll) (e : ColFault) : State :=
  match colPage s c e with
  | some pg => updColl s c.id fun x => { x with missing := addPages x.missing [pg] }
  | none => s

/-- Pages of the completion record that the device waits for (R419). -/
def colRecordPages (s : State) (c : Coll) : List FaultPage := devPages s c.mmu c.space [(c.done, 16)]

/-- Point Q has come: the update commands that the wave issued before are over (R304). -/
def pointQ (s : State) (c : Coll) : Bool := !c.params.sync || !(s.updates.any fun u => u.wid == c.wid && decide (u.id < c.id))

/-- The participant forms its contribution; rank 0 keeps its own, the others send theirs (R300, R304).  Once something else has
written SRC or DST, which R302 forbids, what is contributed is free (`Coll.gives`, log 59). -/
def sendContribution (s : State) (c : Coll) : State :=
  if !pointQ s c then s
  else
    match colRead s c c.src (ownCount c.params) with
    | .error e => colPause s c e
    | .ok (read, ps) =>
      let data := (List.range read.length).map fun k => c.gives s k (read.getD k 0)
      let marks := if c.params.sync then snapshot s c.job else []
      let m : ColMsg := .contribution c.params data marks
      let s0 := if c.spoiled then { s with free := s.free + 1 } else s
      let s1 := updColl ((s0.touchL2 ps false).afterFree (c.sys s) ps) c.id fun x =>
        { takeMessage m x with sent := true, marks := marks, sentAt := s.serial, declined := [] }
      if c.params.rank = 0 then s1 else { s1 with outbox := .collective c.comm c.seq m :: s1.outbox }

/-- Every other participant has told the root that it has carried out the decision. -/
def allWritten (c : Coll) : Bool := ((List.range c.params.ranks).drop 1).all fun r => c.heard.contains r

/-- DST is written here: a participant tells the root, and the root tells the others once all have (R302, R307, log 29). -/
def report (s : State) (c : Coll) : State :=
  if c.params.rank ≠ 0 then
    if c.told then s
    else { updColl s c.id fun x => { x with told := true } with outbox := .collective c.comm c.seq (.written c.params.rank) :: s.outbox }
  else if allWritten c then
    { updColl s c.id fun x => { x with finish := true } with
      outbox := if 1 < c.params.ranks then .collective c.comm c.seq .finish :: s.outbox else s.outbox }
  else s

/-- The collective completes here: what a comparison found, and the record (R304, R305). -/
def recordResult (s : State) (c : Coll) (skip : Bool) (major : List (Option (Option Nat))) (div ndiv : Nat)
    (low : List (Option Nat)) : State :=
  let pages := colRecordPages s c
  if !pages.isEmpty then devWait s pages
  else
    let split := c.params.sync && major.any fun m => m.isNone
    let own := c.params.sync && (List.range 16).any fun n => major.getD n none != some (c.marks.getD n none)
    let s1 := if c.params.sync then noteComparison s c major low else s
    endColl s1 c (if skip then 1 else if 0 < ndiv then 3 else 0) 0 div ndiv own split

/-- A decision carried out: DST, the reports, then the record (R301, R302, R305). -/
def carryOut (s : State) (c : Coll) (skip : Bool) (data : List Word) (major : List (Option (Option Nat))) (div ndiv : Nat)
    (low : List (Option Nat)) : State :=
  let data := if skip then [] else data.take c.params.count
  if c.written < data.length then
    let (t, e) := colWrite c 32 data s
    match e, (t.colls.find? fun x => x.id == c.id) with
    | some e, some x => if x.written = c.written then colPause t x e else t
    | _, _ => t
  else if !c.finish then report s c
  else recordResult s c skip major div ndiv low

/-- COLLECTIVE_COMPLETE: a participant's engine takes its next step, the last of which completes the collective here
(R300, R301, R304, R305). -/
def execCollectiveComplete (id : Nat) (s : State) : Host.Outcome State Fault Refusal :=
  match s.colls.find? fun c => c.id == id with
  | none => .next s
  | some c =>
    if c.outcome.isSome ∨ !c.sleep.isEmpty ∨ !c.missing.isEmpty then .next s
    else
      match c.decision with
      | some (.decision skip data major div ndiv low) => .next (carryOut s c skip data major div ndiv low)
      | some _ => .next s
      | none =>
        if !c.sent then .next (sendContribution s c)
        else if c.params.rank = 0 ∧ (c.params.ranks ≤ c.got.length ∨ !(c.got.all fun g => paramsAgree c.params g.1)) then
          let m := decide_ s c.params c.got
          let s1 := updColl s id fun x => { x with decision := some m }
          .next { s1 with
            outbox := match m with
              | .decision .. => if 1 < c.params.ranks then .collective c.comm c.seq m :: s1.outbox else s1.outbox
              | _ => s1.outbox
            free := s1.free + 1 }
        else .next s

/-- COLLECTIVE_MESSAGE: a message of another participant (R299 to R302). -/
def execCollectiveMessage (comm seq : Nat) (m : ColMsg) (s : State) : Host.Outcome State Fault Refusal :=
  match s.colls.find? fun c => c.comm == comm && c.seq == seq && c.outcome.isNone with
  | some c => .next (updColl s c.id (takeMessage m))
  | none => .next { s with colMail := s.colMail ++ [(comm, seq, m)] }

/-- The fault that the participant's next access meets, other than a page to wait for. -/
def colStops (s : State) (c : Coll) : Option ColFault :=
  let e : Option ColFault :=
    match c.decision with
    | some (.decision skip data _ _ _ _) =>
      if skip ∨ data.length ≤ c.written then none else (colWrite c 1 data s).2
    | some _ => none
    | none =>
      if c.sent then none
      else match colRead s c c.src (ownCount c.params) with
        | .error e => some e
        | .ok _ => none
  match e with
  | some x => if (colPage s c x).isSome then none else some x
  | none => none

/-- COLLECTIVE_STOP: a participant records OUT = 2 (R302), for a stop it was sent, its own fault, or an error answer of a
transfer; the root tells the others, all that took part (R299), and a participant the root.  A bad granule kills the issuing
group (R98). -/
def execCollectiveStop (id cause : Nat) (s : State) : Host.Outcome State Fault Refusal :=
  match s.colls.find? fun c => c.id == id with
  | none => .next s
  | some c =>
    let told := match c.decision with
      | some (.stop k) => k == cause
      | some _ | none => false
    let own := match colStops s c with
      | some e => e.cause == cause
      | none => outsideCause cause && !c.finish && (match c.decision with
        | some (.stop _) => false
        | some _ | none => true)
    let pages := colRecordPages s c
    if c.outcome.isSome ∨ !c.sleep.isEmpty ∨ !c.missing.isEmpty ∨ !(told || own) then .next s
    else if !pages.isEmpty then .next (devWait s pages)
    else
      let s1 : State :=
        if (told ∧ c.params.rank ≠ 0) ∨ (c.params.ranks ≤ 1 ∧ c.got.length ≤ 1) then s
        else { s with outbox := .collective c.comm c.seq (.stop cause) :: s.outbox }
      let s2 := endColl s1 c 2 cause 0 0 false false
      .next (if own && cause == causeScratchUe then killGroupBy s2 (0x490 + c.die) c.gid cause else s2)

end Sys2Proof.Machine
end

