-- ==== Sys2Proof/Machine/FaultService.lean ====
section
/-! DEFINITION. The page-fault service (R58 to R64) and the end of run-ahead (R60). -/
namespace Sys2Proof.Machine

/-- RUN_AHEAD_END of the slot in hand (R60, Table 2.7): its next instruction ends run-ahead, or cannot be fetched. -/
def execRunAheadEnd (s : State) : Host.Outcome State Fault Refusal :=
  match s.cur.ra with
  | none => .next s
  | some ra =>
    match (fetchAt s s.cur.pc).1 with
    | .ok i => if raStops i ra s then .next (endRunAhead ra s) else .next s
    | .illegal => .next (endRunAhead ra s)
    | .fault c a u => .next (fetchFault s c a u)

/-! ### The descriptor (Table 2.5) -/

/-- A 4-B word of a die's descriptor. -/
def descWord (s : State) (desc off : Nat) : Nat := s.num ⟨.hbm, desc + off⟩ 4

/-- Records that the ring has room for: one place stays free, so that PROD = CONS means empty. -/
def ringRoom (s : State) (desc : Nat) : Nat :=
  let size := descWord s desc 0x08
  if size = 0 then 0 else (descWord s desc 0x10 % size + size - descWord s desc 0x0C % size - 1) % size

/-- NTARGET names a target that exists (R58). -/
def targetOk (s : State) (desc : Nat) : Bool :=
  let w := descWord s desc 0x14
  if fieldAt w 31 1 = 0 then decide (fieldAt w 0 12 < 2048) else (boundTo s (fieldAt w 0 12)).isSome

/-- The notification of a batch (R58, R59): an MSI-X vector, or a mailbox post of an unstated message. -/
def notify (s : State) (desc : Nat) : State :=
  let w := descWord s desc 0x14
  let n := fieldAt w 0 12
  if !targetOk s desc then setHerr s 0x97
  else if fieldAt w 31 1 = 0 then raiseVec s n
  else
    match boundTo s n with
    | some l => postMessage { s with free := s.free + 1 } l.lid (Config.freeWord s.free 0).toNat
    | none => s

/-! ### Prefetch spans (R62) -/

/-- A page counts as resident: its leaf is valid with TYPE 0. -/
def resident (s : State) (root page : Nat) : Bool :=
  (walk s root (65536 * page)).toOption.any fun x => pteType x.pte == 0

/-- The span grows from 2^k pages at `base` while its doubled block is resident enough. -/
def growSpan (s : State) (root thr limit : Nat) : Nat → Nat → Nat → Nat × Nat
  | 0, base, k => (base, k)
  | fuel + 1, base, k =>
    if limit ≤ k + 16 then (base, k)
    else
      let e := base / 2 ^ (k + 1) * 2 ^ (k + 1)
      let n := ((List.range (2 ^ (k + 1))).filter fun i =>
        (decide (base ≤ e + i) && decide (e + i < base + 2 ^ k)) || resident s root (e + i)).length
      if thr * 2 ^ (k + 1) ≤ n * 16 then growSpan s root thr limit fuel e (k + 1) else (base, k)

/-- SPANVA and SPANLOG of a page's record. -/
def spanOf (s : State) (desc : Nat) (p : FaultPage) : Nat × Nat :=
  let w := descWord s desc 0x18
  let block := max 16 (min 26 (fieldAt w 8 5))
  let thr := min 16 (fieldAt w 0 5)
  let (base, k) := growSpan s p.root thr block 10 p.page 0
  (65536 * base, 16 + k)

/-! ### Writing a batch -/

/-- The batches of a die in which a page has a pending record (R59). -/
def pendingIn (s : State) (die : Nat) (p : FaultPage) : List Nat :=
  (s.batches.filter fun b => b.die == die && b.pages.any fun q => q.1.asn == p.asn && q.1.page == p.page).map fun b => b.id

/-- One record written at PROD (Table 2.6). -/
def writeRecord (s : State) (die desc id : Nat) (p : FaultPage) : State × Nat :=
  let size := descWord s desc 0x08
  let k := if size = 0 then 0 else descWord s desc 0x0C % size
  let (va, log) := spanOf s desc p
  let kind := p.asn % 4096 + p.kind % 8 * 2 ^ 12 + die % 4 * 2 ^ 16 + p.cluster % 128 * 2 ^ 18
  let at_ : Loc := ⟨.hbm, recordAt s desc k⟩
  let data := leBytes 8 (65536 * p.page) ++ leBytes 4 kind ++ leBytes 4 id ++ leBytes 8 va ++ leBytes 4 log ++ leBytes 4 0
  let s1 := writeCells s none (((List.range 32).map at_.plus).zip data)
  (s1.setNum ⟨.hbm, desc + 0x0C⟩ 4 (if size = 0 then 0 else (k + 1) % size), k)

/-- Records of a batch, in order. -/
def writeRecords (die desc id : Nat) : List FaultPage → State → State × List (FaultPage × Nat)
  | [], s => (s, [])
  | p :: ps, s =>
    let (t, k) := writeRecord s die desc id p
    let (u, ks) := writeRecords die desc id ps t
    (u, (p, k) :: ks)

/-- The batch of a waiter's missing pages: what it sleeps on, and the pages that the ring had no room for (R59).  The manual
does not say what a batch of more pages than the ring has room for becomes: the model writes the first of them as one batch,
and the rest as another, with an id and a notification of its own, once there is room (log 54). -/
def batchFor (s : State) (die : Nat) (pages : List FaultPage) : State × List (Nat × Nat) × List FaultPage :=
  match s.faultDesc.getD die none with
  | none => (s, [], pages)
  | some desc =>
    let known := pages.flatMap (pendingIn s die)
    let new := pages.filter fun p => (pendingIn s die p).isEmpty
    let now := new.take (ringRoom s desc)
    let rest := new.drop now.length
    let waits := known.eraseDups.map fun b => (die, b)
    if now.isEmpty then (s, waits, rest)
    else
      let id := s.batchNext.getD die 0
      let (s1, ks) := writeRecords die desc id now s
      let s2 : State := { s1 with
        batches := s1.batches ++ [⟨die, id, ks⟩]
        batchNext := s1.batchNext.setIfInBounds die ((id + 1) % 2 ^ 32) }
      (notify s2 desc, waits ++ [(die, id)], rest)

/-- A slot that waits for its batch to be written. -/
def slotMissing (die : Nat) (w : Wave) (sec : Bool) : Bool :=
  w.die == die && (w.slot sec).live && (w.slot sec).ra.isNone && !(w.slot sec).missing.isEmpty

/-- The first slot of a die that waits for its batch to be written. -/
def firstMissing (s : State) (die : Nat) : Option (Wave × Bool) :=
  s.waves.findSome? fun w =>
    if slotMissing die w false then some (w, false) else if slotMissing die w true then some (w, true) else none

/-- FAULT_BATCH_WRITE on a die (R59): the batch of one waiter, slots before engines. -/
def execFaultBatchWrite (die : Nat) (s : State) : Host.Outcome State Fault Refusal :=
  match firstMissing s die with
  | some (w, sec) =>
    let (t, ids, rest) := batchFor s die (w.slot sec).missing
    .next (t.updWave w.wid fun w => w.onSlot sec fun c => { c with sleep := c.sleep ++ ids, missing := rest })
  | none =>
    match s.copies.find? fun c => c.core / 96 == die && !c.missing.isEmpty with
    | some c =>
      let (t, ids, rest) := batchFor s die c.missing
      .next (t.updCopy c.id fun x => { x with sleep := x.sleep ++ ids, missing := rest })
    | none =>
      match s.entries.find? fun e => e.core / 96 == die && !e.missing.isEmpty with
      | some e =>
        let (t, ids, rest) := batchFor s die e.missing
        .next (t.updEntry e.id fun x => { x with sleep := x.sleep ++ ids, missing := rest })
      | none =>
        match s.updates.find? fun u => u.die == die && !u.missing.isEmpty with
        | some u =>
          let (t, ids, rest) := batchFor s die u.missing
          .next { t with updates := t.updates.map fun x =>
            if x.id = u.id then { x with sleep := x.sleep ++ ids, missing := rest } else x }
        | none =>
        match s.colls.find? fun c => c.die == die && !c.missing.isEmpty with
        | some c =>
          let (t, ids, rest) := batchFor s die c.missing
          .next { t with colls := t.colls.map fun x =>
            if x.id = c.id then { x with sleep := x.sleep ++ ids, missing := rest } else x }
        | none =>
          let mine := s.devMissing.filter fun p => p.cluster / 24 == die
          if !mine.isEmpty then
            let (t, ids, rest) := batchFor s die mine
            .next { t with
              devSleep := t.devSleep ++ ids
              devMissing := (t.devMissing.filter fun p => p.cluster / 24 != die) ++ rest }
          else .next s

/-! ### Resolution -/

/-- The pages of a batch that software declined, with STATUS 2 or 3 (Table 2.6), and those that it did not. -/
def verdicts (s : State) (die : Nat) (b : Batch) : List FaultPage × List FaultPage :=
  match s.faultDesc.getD die none with
  | none => ([], [])
  | some desc =>
    let no (p : FaultPage × Nat) : Bool := decide (2 ≤ fieldAt (s.num ⟨.hbm, recordAt s desc p.2 + 0x18⟩ 4) 8 2)
    ((b.pages.filter no).map (·.1), (b.pages.filter fun p => !no p).map (·.1))

/-- A waiter's batches without one, and its declined pages with those that the batch declined and without those that it
resolved. -/
def wakeLists (die b : Nat) (no yes : List FaultPage) (sleep : List (Nat × Nat)) (declined : List FaultPage) :
    List (Nat × Nat) × List FaultPage :=
  if sleep.contains (die, b) then
    (sleep.filter fun x => x != (die, b),
      (addPages declined no).filter fun p => !(yes.any fun q => q.asn == p.asn && q.page == p.page))
  else (sleep, declined)

/-- RESOLVE of a batch on a die (R63). -/
def execResolve (die b : Nat) (s : State) : Host.Outcome State Fault Refusal :=
  match s.batches.find? fun x => x.die == die && x.id == b with
  | none => .next s
  | some batch =>
    let (no, yes) := verdicts s die batch
    let slot (c : Slot) : Slot :=
      let (sl, de) := wakeLists die b no yes c.sleep c.declined
      { c with sleep := sl, declined := de }
    let s1 := s.mapWaves fun w => { w with cur := slot w.cur, sib := slot w.sib }
    .next (flushFinishing { s1 with
      batches := s1.batches.filter fun x => !(x.die == die && x.id == b)
      copies := s1.copies.map fun c =>
        let (sl, de) := wakeLists die b no yes c.sleep c.declined
        { c with sleep := sl, declined := de }
      entries := s1.entries.map fun e =>
        let (sl, de) := wakeLists die b no yes e.sleep e.declined
        { e with sleep := sl, declined := de }
      updates := s1.updates.map fun u =>
        let (sl, de) := wakeLists die b no yes u.sleep u.declined
        { u with sleep := sl, declined := de }
      colls := s1.colls.map fun c =>
        let (sl, de) := wakeLists die b no yes c.sleep c.declined
        { c with sleep := sl, declined := de }
      devSleep := (wakeLists die b no yes s1.devSleep s1.devDeclined).1
      devDeclined := (wakeLists die b no yes s1.devSleep s1.devDeclined).2 })

end Sys2Proof.Machine
end

