-- ==== Sys2Proof/Machine/Flow.lean ====
section
/-! DEFINITION. Divergence, reconvergence and control flow (14_control_flow, R417). -/
namespace Sys2Proof.Machine

/-- KIND of a reconvergence stack entry (Table 14.2). -/
inductive EntryKind where
  | join | arm | split | reserved
  deriving DecidableEq, Repr

/-- A reconvergence stack entry (Table 14.2). -/
structure StackEntry where
  kind : EntryKind
  pc : Nat
  join : Nat
  mask : Word
  /-- A reserved bit or kind is set, so what it gives is unspecified (R310). -/
  spoiled : Bool
  deriving DecidableEq, Repr

/-- The place of entry k of the stack (R310). -/
def stackLoc (w : Wave) (k : Nat) : Loc := laneLoc w (k / 4) (w.priv + 256 + 32 * (k % 4))

/-- The number of the entry at depth d of a slot's stack, d from 0 (R310). -/
def stackIndex (sec : Bool) (d : Nat) : Nat := if sec then 127 - d else d

/-- KIND as Table 14.2 codes it. -/
def EntryKind.code : EntryKind → Nat
  | .join => 0 | .arm => 1 | .split => 2 | .reserved => 3
/-- KIND from its code. -/
def EntryKind.ofCode : Nat → EntryKind
  | 0 => .join | 1 => .arm | 2 => .split | _ => .reserved

/-- The entry at depth d of a slot's stack. -/
def readEntry (s : State) (sec : Bool) (d : Nat) : StackEntry :=
  let l := stackLoc s.w (stackIndex sec d)
  let k := s.num (l.plus 20) 4
  { kind := EntryKind.ofCode (k % 4), pc := s.num l 8, join := s.num (l.plus 8) 8,
    mask := BitVec.ofNat 32 (s.num (l.plus 16) 4),
    spoiled := k % 4 == 3 || k / 4 != 0 || s.num (l.plus 24) 8 != 0 }

/-- An entry written at depth d of a slot's stack. -/
def writeEntry (s : State) (sec : Bool) (d : Nat) (e : StackEntry) : State :=
  s.setBytes (stackLoc s.w (stackIndex sec d))
    (leBytes 8 e.pc ++ leBytes 8 e.join ++ leBytes 4 e.mask.toNat ++ leBytes 4 e.kind.code ++ leBytes 8 0)

/-- The top entry of the issuing slot's stack. -/
def topEntry (s : State) : Option StackEntry :=
  if s.cur.depth = 0 then none else some (readEntry s s.w.curSec (s.cur.depth - 1))

/-- An entry pushed on the issuing slot's stack. -/
def pushEntry (s : State) (e : StackEntry) : State :=
  (writeEntry s s.w.curSec s.cur.depth e).onCur fun c => { c with depth := c.depth + 1 }

/-- The top entry popped. -/
def popEntry (s : State) : State := s.onCur fun c => { c with depth := c.depth - 1 }

/-- An entry as the hardware writes it. -/
def mkEntry (k : EntryKind) (pc join : Nat) (mask : Word) : StackEntry := ⟨k, pc, join, mask, false⟩

/-- The mask and PC that a popped entry gives: free values where the entry is spoiled (R310). -/
def entryGives (s : State) (e : StackEntry) : Word × Nat × State :=
  if e.spoiled then
    let other := if s.w.sib.live then s.w.sib.m0 else 0
    (Config.freeWord s.free 0 &&& s.w.started &&& ~~~other, pcOf (Config.freeNat s.free 1 : Nat),
      { s with free := s.free + 1 })
  else (e.mask, pcOf e.pc, s)

/-! ### Merging, waiting, parking -/

/-- The other slot stands at this SPLIT entry: waiting at a `conv` there, or parked (R315). -/
def standsAtSplit (c : Slot) : Bool :=
  c.live && match c.status with
    | .waiting _ | .parked => true
    | .running => false

/-- The top entry of the other slot. -/
def otherTop (s : State) : Option StackEntry :=
  if s.w.sib.depth = 0 then none else some (readEntry s (!s.w.curSec) (s.w.sib.depth - 1))

/-- How many of the two slots wait at a `conv`, which retires at the merge (R353). -/
def waitingConvs (w : Wave) : Nat :=
  let one (c : Slot) : Nat := match c.status with | .waiting _ => 1 | .running | .parked => 0
  one w.cur + one w.sib

/-- The two slots become one (R315): the primary, with its own bank unless every lane of it has exited; its SPLIT entry gives a
free value where it is spoiled (R310). -/
def mergeSlots (s : State) (e : StackEntry) : State :=
  let mask := if e.spoiled then Config.freeWord s.free 0 &&& s.w.started else e.mask
  let w := s.w.sel false
  let cur : Slot := { w.cur with
    bank := if mask &&& ~~~w.secLanes &&& ~~~w.exited = 0 then w.sib.bank else w.cur.bank
    m0 := mask &&& ~~~w.exited
    depth := w.cur.depth - 1
    gc := 0
    status := .running
    pc := pcOf e.join
    stalled := false
    imprecise := w.cur.imprecise ++ w.sib.imprecise
    colls := w.cur.colls ++ w.sib.colls }
  { s with
    w := { w with cur := cur, sib := Slot.off, lclock := w.lclock + waitingConvs s.w }
    free := if e.spoiled then s.free + 1 else s.free
    posted := s.posted.map fun p => if p.wid = w.wid then { p with sec := false } else p }

/-- Both slots stand at SPLIT entries. -/
def bothStand (s : State) : Option (StackEntry × StackEntry) :=
  if standsAtSplit s.w.cur && standsAtSplit s.w.sib then
    match topEntry s, otherTop s with
    | some a, some b => some (a, b)
    | _, _ => none
  else none

/-- RECONV_DEADLOCK (R317), raised in the primary slot, or in the secondary if the primary is parked. -/
def deadlock (s : State) : State :=
  let w0 := s.w.sel false
  let w := if w0.cur.status = .parked then w0.sel true else w0
  let other := w.sib.pc
  let t : State := { s with w := { w with cur := { w.cur with status := .running } } }
  raise t { cause := 0x10, info := pcWord other }

/-- What `conv` and the end of a region come to for the slot in hand. -/
inductive Joined where
  /-- Nothing left on top: on at the instruction after the `conv`. -/
  | past (s : State)
  /-- PC and mask are set. -/
  | at_ (s : State)
  /-- The slot waits, parks or is gone. -/
  | stands (s : State)

/-- The slot takes the next work from its own stack (R316). -/
def takeWork : Nat → State → Joined
  | 0, s => .stands s
  | fuel + 1, s =>
    match topEntry s with
    | none => .stands (s.onCur fun c => { c with live := false, gc := 0 })
    | some e =>
      let (mask, pc, s1) := entryGives s e
      match e.kind with
      | .arm | .reserved =>
        if mask = 0 then takeWork fuel (popEntry s1)
        else .at_ ((popEntry s1).onCur fun c => { c with m0 := mask, pc := pc, gc := 0 })
      | .join =>
        let m := mask &&& ~~~s1.w.exited
        if m = 0 then takeWork fuel (popEntry s1)
        else .at_ (s1.onCur fun c => { c with m0 := m, pc := pcOf e.join, gc := 0 })
      | .split => .stands (s.onCur fun c => { c with status := .parked, gc := 0 })

/-- The loop of R314 at address a. -/
def convLoop (a : Nat) : Nat → State → Joined
  | 0, s => .past s
  | fuel + 1, s =>
    match topEntry s with
    | none => .past s
    | some e =>
      if e.join ≠ a then .past s
      else
        let (mask, pc, s1) := entryGives s e
        match e.kind with
        | .arm | .reserved => .at_ ((popEntry s1).onCur fun c => { c with m0 := mask, pc := pc, gc := 0 })
        | .join =>
          let m := mask &&& ~~~s1.w.exited
          let s2 := (popEntry s1).onCur fun c => { c with m0 := m, gc := 0 }
          if m = 0 then takeWork 130 s2 else convLoop a fuel s2
        | .split => .stands (s.onCur fun c => { c with status := .waiting a })

/-- A slot that has come to stand: the wave ends, merges or deadlocks, or waits (R315 to R317); where both slots are parked and
lanes of the region still wait at its join, they merge (log 51). -/
def settleStand (s : State) : State :=
  if !s.w.cur.live ∧ !s.w.sib.live then finishWave s s.w.wid
  else if !s.w.cur.live then settleBarriers { s with w := s.w.sel (!s.w.curSec) } s.w.gid
  else
    match bothStand s with
    | none => settleBarriers s s.w.gid
    | some (a, b) =>
      if a.join = b.join ∧ a.mask = b.mask then
        let t := mergeSlots s (if s.w.curSec then b else a)
        if t.m0 = 0 then finishWave t t.w.wid
        else
          match convLoop (pcOf a.join) 130 t with
          | .past u => u.onCur fun c => { c with pc := (c.pc + 4) % 2 ^ 56 }
          | .at_ u => u
          | .stands u => settleBarriers u u.w.gid
      else if s.w.cur.status = .parked ∧ s.w.sib.status = .parked ∧ s.w.started &&& ~~~s.w.exited = 0 then finishWave s s.w.wid
      else deadlock s

/-! ### Transfers of control -/

/-- Groups of lanes by target, ascending (R311). -/
def groupTargets (m0 : Word) (target : Nat → Nat) : List (Nat × Word) :=
  (lanesOf m0).foldl (fun acc l => assocSet acc (target l) ((assocGet acc (target l)).getD 0 ||| BitVec.ofNat 32 (2 ^ l))) []

/-- The groups from the third, or the second, on are pushed, the last first. -/
def pushArms (join : Nat) (gs : List (Nat × Word)) (s : State) : State :=
  gs.reverse.foldl (fun t g => pushEntry t (mkEntry .arm g.1 join g.2)) s

/-- An unfinished instruction that a split leaves to both slots, a wait for a barrier or a tile (R28).  Any other is completed
before the slots part, so that both see its results (R26). -/
def mayPart (f : Flight) : Bool :=
  match f.instr with
  | .bcbwait .. | .mwait .. => f.waits
  | _ => false

/-- The secondary slot's parts of the waits at a split, with the count that the transfer which splits leaves of them (R28). -/
def partWaits (s : State) : List Flight :=
  (s.cur.flights.filter fun f => f.waits).map fun f => { f with copied := true, left := f.left - 1 }

/-- The entries of the waits for tiles that both slots go on with at a split, beside the primary's. -/
def partEntries (s : State) : State :=
  let mine (e : Entry) : Bool := e.wid == s.w.wid && e.sec == s.w.curSec && e.work == .wait
  if s.entries.any mine then
    { s with
      entries := s.entries.flatMap fun e => if mine e then [e, { e with id := s.serial + e.id, sec := !e.sec }] else [e]
      serial := 2 * s.serial }
  else s

/-- A split (R312): g1 stays in the primary slot, g2 goes to the secondary one. -/
def splitSlots (join : Nat) (g1 g2 : Nat × Word) (rest : List (Nat × Word)) (s : State) : State :=
  let u := s.m0
  let s1 := pushArms join rest (pushEntry s (mkEntry .split 0 join u))
  let s2 := writeEntry s1 true 0 (mkEntry .split 0 join u)
  let c := s2.cur
  let sec : Slot := { Slot.off with
    live := true
    pc := g2.1
    m0 := g2.2
    bank := c.bank
    depth := 1
    windows := advanceWindows c.windows
    flights := partWaits s
    trap := if c.inHandler then { c.trap with splitOff := true } else TrapRegs.zero }
  partEntries { s2 with w := { s2.w with
    cur := { c with pc := g1.1, m0 := g1.2, cj := none, gc := 0 }
    sib := sec
    secLanes := g2.2 } }

/-- A serialised divergence (R313). -/
def serialise (join : Nat) (g1 : Nat × Word) (rest : List (Nat × Word)) (s : State) : State :=
  let s1 := pushArms join rest (pushEntry s (mkEntry .join 0 join s.m0))
  s1.onCur fun c => { c with pc := g1.1, m0 := g1.2, cj := none, gc := 0 }

/-- A transfer to several groups, in order (R311 to R313). -/
def diverge (join : Nat) (gs : List (Nat × Word)) (s : State) : Res :=
  match gs with
  | [] => .jump s
  | [g] => .jump (s.onCur fun c => { c with pc := g.1, cj := none })
  | g1 :: g2 :: rest =>
    if Config.stackEntries < s.w.cur.depth + s.w.sib.depth + gs.length then .trap (Trap.whole 0x11 0)
    else if s.w.sib.live then .jump (serialise join g1 (g2 :: rest) s)
    else if !(s.cur.flights.all mayPart) then .hold s
    else .jump (splitSlots join g1 g2 rest s)

/-- The target of an offset in halfwords from the slot's instruction (R20). -/
def branchTarget (s : State) (o : Int) : Nat := pcOf ((s.cur.pc : Int) + 2 * o)

/-- A backward taken branch counts in GC (R318). -/
def countBackward (s : State) (o : Int) : State :=
  if o ≤ 0 then s.onCur fun c => { c with gc := min 65536 (c.gc + 1) } else s

def execBr (o : Int) (s : State) :=
  issue (.br o) (fun s => .jump ((countBackward s o).onCur fun c => { c with pc := branchTarget s o })) s

/-- `brc` (R323). -/
def doBrc (o : Int) (neg : Bool) (m : Nat) (s : State) : Res :=
  let taken := brcTaken s neg m
  let stay := s.m0 &&& ~~~taken
  let target := branchTarget s o
  let next := (s.cur.pc + 4) % 2 ^ 56
  if taken = 0 then .jump (s.onCur fun c => { c with pc := next, cj := none })
  else if stay = 0 then .jump ((countBackward s o).onCur fun c => { c with pc := target, cj := none })
  else
    match s.cur.cj with
    | none => .trap (Trap.whole 0x12 0)
    | some j => diverge j [(next, stay), (target, taken)] s

def execBrc (o : Int) (neg : Bool) (m : Nat) (s : State) := issue (.brc o neg m) (doBrc o neg m) s

/-- One word of a target table, read as an instruction fetch (R326). -/
def tableWord (s : State) (a : Int) : Except Res Nat :=
  if !addrOk a 4 then .error (.trap (Trap.whole causeNoncanon (BitVec.ofInt 64 a)))
  else
    match codeBytes s a.toNat 4 with
    | .ok (bs, _) => .ok (leOf bs)
    | .error c =>
      .error (if c = causePageFault then .fetchPage (fetchPageOf s a.toNat) (BitVec.ofInt 64 a)
        else .trap (Trap.whole c (BitVec.ofInt 64 a)))

/-- Words of a target table, in the order of their numbers. -/
def tableWords (s : State) (t : Int) : List Nat → Except Res (List (Nat × Nat))
  | [] => .ok []
  | k :: ks =>
    match tableWord s (t + 4 * k) with
    | .error r => .error r
    | .ok w =>
      match tableWords s t ks with
      | .error r => .error r
      | .ok ws => .ok ((k, w) :: ws)

/-- `brx` and `callx` (R326). -/
def doBrx (o : Int) (v : Nat) (call : Bool) (s : State) : Res :=
  let t : Int := (s.cur.pc : Int) + 2 * o
  if t % 4 ≠ 0 then .trap (Trap.whole 0x13 (BitVec.ofInt 64 t))
  else
    match tableWord s t with
    | .error r => r
    | .ok w0 =>
      if w0 / 65536 ≠ 0 then .trap (Trap.whole 0x13 (BitVec.ofInt 64 t))
      else
        let ls := lanesOf s.m0
        let bad := ls.filter fun l => decide (w0 ≤ (s.v v l).toNat)
        if !bad.isEmpty then laneTrap 0x13 (bad.map fun l => (l, t))
        else
          let named := (ls.foldl (fun acc l => assocSet acc (s.v v l).toNat 0) ([] : List (Nat × Nat))).map fun p => p.1
          match tableWords s t (1 :: named.map fun k => k + 2) with
          | .error r => r
          | .ok ws =>
            let off (k : Nat) : Int := signed 32 ((assocGet ws k).getD 0)
            let target (l : Nat) : Nat := (t + 2 * off (2 + (s.v v l).toNat) + 2 ^ 57).toNat
            let join := pcOf (t + 2 * off 1)
            let gs := (groupTargets s.m0 target).map fun g => (g.1 % 2 ^ 56, g.2)
            let s1 := if call then s.setV 127 fun _ => BitVec.ofNat 32 (s.cur.pc + 4) else s
            match diverge join gs s1 with
            | .hold _ => .hold s
            | r => r

def execBrx (o : Int) (v : Nat) (s : State) := issue (.brx o v) (doBrx o v false) s
def execCallx (o : Int) (v : Nat) (s : State) := issue (.callx o v) (doBrx o v true) s

/-- The slot acts as `call` does: the return address in `v127`, and on at a target (R327). -/
def callTo (s : State) (target : Nat) : State :=
  (s.setV 127 fun _ => BitVec.ofNat 32 (s.cur.pc + 4)).onCur fun c => { c with pc := target }

def execCall (o : Int) (s : State) := issue (.call o) (fun s => .jump (callTo s (branchTarget s o))) s

/-- `ret` (R328). -/
def doRet (r : Nat) (s : State) : Res :=
  let target (l : Nat) : Nat := s.cur.pc / 2 ^ 32 * 2 ^ 32 + (s.v r l).toNat / 2 * 2
  match (lanesOf s.m0).map target with
  | [] => .done s
  | t :: rest =>
    if rest.all fun x => x == t then .jump (s.onCur fun c => { c with pc := t }) else .trap (Trap.whole 0x14 0)

def execRet (r : Nat) (s : State) := issue (.ret r) (doRet r) s

def execConvat (o : Int) (s : State) :=
  issue (.convat o) (fun s => .done (s.onCur fun c => { c with cj := some (branchTarget s o) })) s

/-- `conv` (R314). -/
def doConv (s : State) : Res :=
  match convLoop s.cur.pc 130 s with
  | .past t => .done t
  | .at_ t => .jump t
  | .stands t =>
    match t.cur.status with
    | .waiting _ => .settled (settleStand (issued .conv [] t))
    | .running | .parked => .settled (settleStand (retire .conv t))

def execConv (s : State) := issue .conv doConv s

def execDemote (s : State) :=
  issue .demote (fun s => .done (s.onWave fun w => { w with helper := w.helper ||| w.cur.m0 })) s

/-- `exit` (R316, R330, R374). -/
def doExit (s : State) : Res :=
  let s1 := s.onWave fun w => { w with
    exited := w.exited ||| w.cur.m0
    cur := { w.cur with m0 := 0, trap := { w.cur.trap with cause := w.cur.trap.cause &&& 0x7FFFFFFF } } }
  match takeWork 130 s1 with
  | .past t | .at_ t => .jump t
  | .stands t => .settled (settleStand (retire .exit t))

def execExit (s : State) := issue .exit doExit s
def execNop (s : State) := issue .nop (fun s => .done s) s

/-- The two paths of R318 swapped, when the top entry is an ARM entry. -/
def swapPaths (s : State) : State :=
  match topEntry s with
  | some e =>
    if e.kind = .arm then
      let (mask, pc, s1) := entryGives s e
      let s2 := popEntry s1
      let s3 := pushEntry s2 (mkEntry .arm s.cur.pc e.join s.m0)
      s3.onCur fun c => { c with m0 := mask, pc := pc, gc := 0, staging := none }
    else s
  | none => s

/-- `yield` (R331): the swap is made with the path resuming behind the `yield`. -/
def doYield (s : State) : Res := .jump (swapPaths (stepPc .yield s))

def execYield (s : State) := issue .yield doYield s

/-- The starvation guard acts before the slot issues again (R318). -/
def swapDue (s : State) : Bool :=
  s.cur.live && s.cur.ra.isNone && s.cur.entering.isNone && decide (s.w.sguard.toNat ≤ s.cur.gc) && match topEntry s with
    | some e => e.kind == .arm
    | none => false

/-- STARVATION_SWAP of the slot in hand (R318). -/
def execStarvationSwap (s : State) : Host.Outcome State Fault Refusal :=
  .next (if swapDue s then swapPaths s else s)

end Sys2Proof.Machine
end

