-- ==== Sys2Proof/Machine/HostIf.lean ====
section
/-! DEFINITION. The host interface: BAR0 and BAR2, the host queues with the mailbox engine, and the controller's messages
(R58, R287 to R291, R294, R297, R305, R418, R419). -/
namespace Sys2Proof.Machine

/-- The part answers the host as after a whole reset (R397). -/
def hostUp (s : State) : Bool := s.powered && !s.recovery

/-! ### BAR0 -/

/-- The value a 32-bit word of BAR0 holds for a partial write; a write-one-to-clear word counts as zeros. -/
def bar0Word (s : State) (off : Nat) : Nat :=
  let q := s.queues.getD ((off - 0x1000) / 0x40) HostQueue.zero
  if off = 0x100 then s.apbase % 4 * 2 ^ 30
  else if off = 0x104 then s.apbase / 4
  else if 0x1000 ≤ off ∧ off < 0x2000 then
    match (off - 0x1000) % 0x40 with
    | 0x00 => q.qbase % 2 ^ 32
    | 0x04 => q.qbase / 2 ^ 32
    | 0x08 => q.qsize
    | 0x18 => q.qroot % 2 ^ 32 / 2 ^ 13 * 2 ^ 13 + q.qasn
    | 0x1C => q.qroot / 2 ^ 32
    | _ => 0
  else if off = 0x4000 then s.attest.sel
  else if 0x4020 ≤ off ∧ off < 0x4040 then leOf ((s.attest.nonce.drop (off - 0x4020)).take 4)
  else 0

/-- A queue's registers with a word written; they keep their value while QHEAD ≠ QTAIL (Table 13.2). -/
def queueWord (off v : Nat) (q : HostQueue) : HostQueue :=
  if q.qhead ≠ q.qtail then q
  else
    match off with
    | 0x00 => { q with qbase := q.qbase / 2 ^ 32 * 2 ^ 32 + v }
    | 0x04 => { q with qbase := v * 2 ^ 32 + q.qbase % 2 ^ 32 }
    | 0x08 => { q with qsize := v }
    | 0x18 => { q with qroot := q.qroot / 2 ^ 32 * 2 ^ 32 + v / 2 ^ 13 * 2 ^ 13, qasn := v % 2 ^ 12 }
    | 0x1C => { q with qroot := v % 2 ^ 20 * 2 ^ 32 + q.qroot % 2 ^ 32 }
    | _ => q

/-- A 32-bit word of BAR0 written: the fields of Tables 13.2 and 17.2 that software may write. -/
def bar0Store (s : State) (off v : Nat) : State :=
  if 0x4000 ≤ off ∧ off < 0x4040 then
    if off = 0x4000 then { s with attest := { s.attest with sel := v % 128 } }
    else if 0x4020 ≤ off then
      { s with attest := { s.attest with
          nonce := s.attest.nonce.take (off - 0x4020) ++ leBytes 4 v ++ s.attest.nonce.drop (off - 0x4020 + 4) } }
    else s
  else if s.recovery then s
  else if off = 0x100 then { s with apbase := s.apbase / 4 * 4 + v / 2 ^ 30 }
  else if off = 0x104 then { s with apbase := v % 2 ^ 20 * 4 + s.apbase % 4 }
  else if 0x1000 ≤ off ∧ off < 0x2000 then s.updQueue ((off - 0x1000) / 0x40) (queueWord ((off - 0x1000) % 0x40) v)
  else if off = 0x2000 then { s with herr := s.herr &&& ~~~(BitVec.ofNat 32 v) }
  else s

/-- A number with some of its bytes replaced by those of another. -/
def mergeBytes (old new at_ n : Nat) : Nat :=
  leOf ((List.range 4).map fun i =>
    if at_ ≤ i ∧ i < at_ + n then BitVec.ofNat 8 (new / 256 ^ (i - at_)) else BitVec.ofNat 8 (old / 256 ^ i))

/-- The words that a write of n bytes touches: the word's offset, the first byte in it, how many, and the value's bytes
from there on. -/
def wordParts (off n v : Nat) : List (Nat × Nat × Nat × Nat) :=
  (List.range ((off % 4 + n + 3) / 4)).map fun k =>
    let lo := if k = 0 then off % 4 else 0
    let done := if k = 0 then 0 else 4 * k - off % 4
    (off / 4 * 4 + 4 * k, lo, min (4 - lo) (n - done), v / 256 ^ done)

/-- BAR0_REGISTER_WRITE of n bytes (R8, Tables 13.1, 13.2 and 17.2); RST and GO have steps of their own. -/
def execBar0RegisterWrite (off n v : Nat) (s : State) : Host.Outcome State Fault Refusal :=
  if !s.powered then .next s
  else if 0x100000 ≤ off ∧ off < 0x108000 then
    if s.recovery then .next s
    else
      .next (firePending (((List.range n).zip (leBytes n v)).foldl (fun t p => setMsixByte t (off - 0x100000 + p.1) p.2) s))
  else
    .next ((wordParts off n v).foldl
      (fun t p => bar0Store t p.1 (mergeBytes (bar0Word t p.1) p.2.2.2 p.2.1 p.2.2.1)) s)

/-- What a 32-bit word of BAR0 reads as: the fields of Tables 13.2 and 17.2, with those that are WO or `rsvd` as zero (R8); none
for an offset that the tables do not list. -/
def bar0Value (s : State) (off : Nat) : Option Nat :=
  let q := s.queues.getD ((off - 0x1000) / 0x40) HostQueue.zero
  let a := s.attest
  let part (bs : List Byte) (at_ : Nat) : Option Nat := some (leOf ((bs.drop (off - at_)).take 4))
  if off = 0x100 then some (s.apbase % 4 * 2 ^ 30)
  else if off = 0x104 then some (s.apbase / 4)
  else if 0x1000 ≤ off ∧ off < 0x2000 then
    match (off - 0x1000) % 0x40 with
    | 0x00 => some (q.qbase % 2 ^ 32)
    | 0x04 => some (q.qbase / 2 ^ 32)
    | 0x08 => some q.qsize
    | 0x0C => some q.qhead
    | 0x10 => some 0
    | 0x18 => some (q.qroot % 2 ^ 32 / 2 ^ 13 * 2 ^ 13 + q.qasn)
    | 0x1C => some (q.qroot / 2 ^ 32)
    | _ => none
  else if off = 0x2000 then some s.herr.toNat
  else if off = 0x4000 then some ((if a.busy then 2 ^ 29 else 0) + a.status * 2 ^ 14 + a.vstat * 2 ^ 12 + a.sel)
  else if 0x4020 ≤ off ∧ off < 0x4040 then part a.nonce 0x4020
  else if 0x4040 ≤ off ∧ off < 0x4060 then part a.meas 0x4040
  else if 0x4060 ≤ off ∧ off < 0x4080 then part a.msg 0x4060
  else if 0x4080 ≤ off ∧ off < 0x40C4 then part ((List.range 68).map Config.publicKey) 0x4080
  else if 0x4100 ≤ off ∧ off < 0x4C04 then part a.sig 0x4100
  else if off = 0x4C10 then some (2 ^ 20 - a.nextLeaf)
  else none

/-- A byte of the MSI-X pending-bit array, which follows the table (Table 13.1, log 58). -/
def pendingByte (s : State) (k : Nat) : Byte :=
  BitVec.ofNat 8 (((List.range 8).map fun b => if s.msixPending.contains (8 * k + b) then 2 ^ b else 0).foldl (· + ·) 0)

/-- A byte of BAR0 as the host reads it: in the recovery state only the block of Table 17.2 answers (R397); what an offset that
no table lists reads as is free (log 1). -/
def bar0Byte (s : State) (off : Nat) : Byte :=
  if s.recovery ∧ !(0x4000 ≤ off ∧ off < 0x4C14) then 0xFF
  else if 0x100000 ≤ off ∧ off < 0x108000 then msixByte s (off - 0x100000)
  else if 0x108000 ≤ off ∧ off < 0x108100 then pendingByte s (off - 0x108000)
  else
    match bar0Value s (off / 4 * 4) with
    | some v => BitVec.ofNat 8 (v / 256 ^ (off % 4))
    | none => Config.freeByte s.free off

/-- The host reads n bytes of BAR0 (R8, R287, R397). -/
def bar0Read (off n : Nat) (s : State) : State :=
  if !s.powered then s
  else { s with readData := (List.range n).map fun i => bar0Byte s (off + i), free := s.free + 1 }

/-! ### BAR2 (R279, R288) -/

/-- The physical address behind a BAR2 offset. -/
def bar2Place (s : State) (off : Nat) : Nat := s.apbase * 2 ^ 30 + off

/-- The host error log takes an event for which the manual gives no cause (R288, log 1). -/
def freeHerr (s : State) : State := { setHerr s (Config.freeNat s.free 0 % 256) with free := s.free + 1 }

/-- BAR2_READ: pages outside HBM4 read as ones; poisoned bytes, and those of a stack that is not backed, read as free values. -/
def execBar2Read (off n : Nat) (s : State) : Host.Outcome State Fault Refusal :=
  if !s.powered then .next s
  else if s.recovery then .next { s with readData := List.replicate n 0xFF }
  else
    let pa := bar2Place s off
    let byte (i : Nat) : Byte :=
      if Config.hbmEnd ≤ pa + i then 0xFF
      else if s.isBad ⟨.hbm, pa + i⟩ || s.unbackedAt ⟨.hbm, pa + i⟩ then Config.freeByte s.free (1 + i) else s.byte ⟨.hbm, pa + i⟩
    let t : State := { s with readData := (List.range n).map byte, free := s.free + 1 }
    .next (if Config.hbmEnd < pa + n then freeHerr t else t)

/-- BAR2_WRITE: a release at `.sys`; pages outside HBM4, and a stack that is not backed, drop the write. -/
def execBar2Write (off : Nat) (data : List Byte) (s : State) : Host.Outcome State Fault Refusal :=
  if !hostUp s then .next s
  else
    let pa := bar2Place s off
    let cells := ((List.range data.length).zip data).filterMap fun p =>
      if pa + p.1 < Config.hbmEnd ∧ s.unbackedAt ⟨.hbm, pa + p.1⟩ = false then some ((⟨.hbm, pa + p.1⟩ : Loc), p.2) else none
    let t := writeCells s none cells
    .next (if Config.hbmEnd < pa + data.length then freeHerr t else t)

/-! ### Queue entries (Table 13.3) -/

/-- A queue entry. -/
structure QEntry where
  kind : Nat
  arg0 : Nat
  arg1 : Nat
  arg2 : Nat
  compl : Nat
  irq : Bool
  vec : Nat
  rsvdOk : Bool
  deriving DecidableEq, Repr

/-- A number in the host's own memory. -/
def hostNum (s : State) (addr n : Nat) : Nat := leOf ((List.range n).map fun i => Mem.get s.mem (Loc.key ⟨.host, addr + i⟩))

/-- The entry at QHEAD of a queue. -/
def entryAt (s : State) (q : HostQueue) : QEntry :=
  let at_ := q.qbase + 64 * q.qhead
  let w (off : Nat) : Nat := hostNum s (at_ + off) 8
  { kind := w 0 % 256, arg0 := w 0x08, arg1 := w 0x10, arg2 := w 0x18, compl := w 0x20, irq := fieldAt (w 0x28) 16 1 == 1,
    vec := fieldAt (w 0x28) 0 11,
    rsvdOk := w 0 / 256 == 0 && fieldAt (w 0x28) 17 47 == 0 && fieldAt (w 0x28) 11 5 == 0 && w 0x30 == 0 && w 0x38 == 0 }

/-- An entry is there for the mailbox engine to begin. -/
def entryReady (s : State) (q : Nat) : Bool :=
  let x := s.queues.getD q HostQueue.zero
  hostUp s && decide (q < 64) && x.qsize != 0 && x.qhead != x.qtail % x.qsize && !x.busy

/-- The entry is not performed and refused with QENTRY_MALFORMED (R289). -/
def entryMalformed (e : QEntry) : Bool :=
  decide (3 < e.kind) || !e.rsvdOk || (e.compl != 0 && !addrOk (BitVec.ofNat 64 e.compl).toInt 16)
    || (e.kind == 0 && !addrOk (BitVec.ofNat 64 e.arg0).toInt 256)

/-- A message's opcode is not in Table 13.4. -/
def opcodeUnlisted (e : QEntry) : Bool := e.kind == 2 && !([1, 2, 3, 4, 5].contains (e.arg0 % 256))

def causeQentry : Nat := 0x96
def causeCtl : Nat := 0x97

/-- The mailbox engine begins the entry at QHEAD. -/
def beginEntry (s : State) (q : Nat) (e : QEntry) : State × QOrigin :=
  let x := s.queues.getD q HostQueue.zero
  (s.updQueue q fun y => { y with begun := y.begun + 1, unfinished := y.unfinished ++ [y.begun] },
    ⟨q, e.compl, e.irq, e.vec, x.begun⟩)

/-- The entry at QHEAD is over at once, with a STATUS and a cause. -/
def endEntry (s : State) (q : Nat) (e : QEntry) (status cause : Nat) : State :=
  let (t, o) := beginEntry s q e
  completeEntry (advanceHead t q) o status cause

/-- What the steps of the mailbox engine share: an entry that is refused is refused by whichever of them comes, and
otherwise the step performs the entry of its kind (R289, R291, R393). -/
def queueStep (s : State) (q : Nat) (mine : QEntry → Bool) (perform : QEntry → State) : Host.Outcome State Fault Refusal :=
  if !entryReady s q then .next s
  else
    let e := entryAt s (s.queues.getD q HostQueue.zero)
    if (liveDies s).isEmpty then .next (endEntry s q e 2 causeDieFenced)
    else if entryMalformed e then .next (endEntry s q e 2 causeQentry)
    else if opcodeUnlisted e then .next (endEntry s q e 2 causeCtl)
    else if mine e then .next (perform e)
    else .next s

/-- QTAIL of a queue written (R289). -/
def execQtail (q v : Nat) (s : State) : Host.Outcome State Fault Refusal :=
  if hostUp s ∧ q < 64 then .next (s.updQueue q fun x => { x with qtail := v % 2 ^ 32 }) else .next s

/-- A launch record read through the queue's address space goes to the distributors (R333, R418). -/
def submitEntry (s : State) (q : Nat) (e : QEntry) : State :=
  let x := s.queues.getD q HostQueue.zero
  let a : ASpace := ⟨x.qasn, x.qroot, none⟩
  if e.arg0 % 256 ≠ 0 then endEntry s q e 2 causeLaunchMalformed
  else
    match access s (.mailbox q) a .load e.arg0 256 with
    | .error (c, _) => endEntry s q e 2 c
    | .ok (ls, xs) =>
      let (s1, o) := beginEntry (fillTlbs s (.mailbox q) a xs) q e
      let sub : Submission :=
        { id := s1.serial, ref := e.arg0, asn := x.qasn, root := x.qroot,
          words := (wordsFor s1 true ls).map fun w => BitVec.ofNat 64 w, origin := some o, queue := some q, remote := none }
      { s1.updQueue q (fun y => { y with busy := true }) with submissions := s1.submissions ++ [sub], serial := s1.serial + 1 }

/-- QUEUE_LAUNCH (R289, R333, R418). -/
def execQueueLaunch (q : Nat) (s : State) : Host.Outcome State Fault Refusal :=
  queueStep s q (fun e => e.kind == 0) (submitEntry s q)

/-- MAILBOX_POST (R290). -/
def execMailboxPost (q : Nat) (s : State) : Host.Outcome State Fault Refusal :=
  queueStep s q (fun e => e.kind == 1) fun e =>
    match boundTo s (e.arg0 % 4096) with
    | none => endEntry s q e 2 0x84
    | some l => endEntry (postMessage s l.lid (e.arg0 / 2 ^ 32)) q e 0 0

/-- QUEUE_MARKER: it waits at QHEAD until every earlier entry has completed (R289). -/
def execQueueMarker (q : Nat) (s : State) : Host.Outcome State Fault Refusal :=
  queueStep s q (fun e => e.kind == 3) fun e =>
    if (s.queues.getD q HostQueue.zero).unfinished.isEmpty then endEntry s q e 0 0 else s

/-! ### Controller messages (Table 13.4) -/

/-- A controller message is performed: it changes the state, or is malformed and changes nothing. -/
def message (s : State) (q op : Nat) (f : QEntry → Option State) : Host.Outcome State Fault Refusal :=
  queueStep s q (fun e => e.kind == 2 && e.arg0 % 256 == op) fun e =>
    match f e with
    | some t => endEntry t q e 0 0
    | none => endEntry s q e 2 causeCtl

/-- FAULTSVC (R58). -/
def execFaultsvc (q : Nat) (s : State) : Host.Outcome State Fault Refusal :=
  message s q 1 fun e =>
    if e.arg1 < 4 ∧ e.arg2 + 64 ≤ Config.hbmEnd ∧ targetOk s e.arg2 then
      some { s with faultDesc := s.faultDesc.setIfInBounds e.arg1 (some e.arg2) }
    else none

/-- PEERTMO (R297). -/
def execPeertmo (q : Nat) (s : State) : Host.Outcome State Fault Refusal :=
  message s q 2 fun e => if 100 ≤ e.arg1 ∧ e.arg1 ≤ 100000 then some { s with peerTimeout := e.arg1 } else none

/-- An inbound window from its record (Table 13.5); none if the record is malformed. -/
def windowOf (s : State) (pa : Nat) : Option InWin :=
  let w (off : Nat) : Nat := s.num ⟨.hbm, pa + off⟩ 8
  let x := w 0x10
  if w 0 / 2 ^ 52 ≠ 0 ∨ w 0 % 65536 ≠ 0 ∨ Config.hbmEnd ≤ w 0 ∨ w 8 % 65536 ≠ 0 ∨ fieldAt x 22 10 ≠ 0 ∨ fieldAt x 33 31 ≠ 0
      ∨ w 0x18 ≠ 0 then none
  else
    some { base := w 0, size := w 8, hi := fieldAt x 12 10, lo := fieldAt x 2 10, w := fieldAt x 1 1 == 1,
           rd := fieldAt x 0 1 == 1, atm := fieldAt x 32 1 == 1 }

/-- INWIN (R294). -/
def execInwin (q : Nat) (s : State) : Host.Outcome State Fault Refusal :=
  message s q 3 fun e =>
    if 64 ≤ e.arg1 ∨ Config.hbmEnd < e.arg2 + 32 then none
    else (windowOf s e.arg2).map fun w => { s with inwins := s.inwins.setIfInBounds e.arg1 w }

/-- GATEOPEN (R305). -/
def execGateopen (q : Nat) (s : State) : Host.Outcome State Fault Refusal :=
  message s q 4 fun e =>
    if 2 ^ 32 ≤ e.arg1 ∨ 2 ^ 16 ≤ e.arg2 then none
    else some { s with gates := s.gates.filter fun g => !(g.1 == e.arg1 && fieldAt e.arg2 g.2 1 == 1) }

/-- PKGID (R291). -/
def execPkgid (q : Nat) (s : State) : Host.Outcome State Fault Refusal :=
  message s q 5 fun e =>
    if 1023 < e.arg1 ∨ !s.launches.isEmpty ∨ (s.colls.any fun c => c.outcome.isNone) then none
    else some { s with pkgId := e.arg1 }

end Sys2Proof.Machine
end

