-- ==== Sys2Proof/Machine/Matrix.lean ====
section
/-! DEFINITION. The matrix engine's instructions as they issue: `mma`, `acqa`, `rela`, `aload`, `mwait`, `azero`, `anorm`,
`ahead` and `astore` (R168 to R193, R200 to R208). -/
namespace Sys2Proof.Machine

def causeFmt : Nat := 0x60
def causeNonfinite : Nat := 0x61
def causeExpRange : Nat := 0x62
def causeRenorm : Nat := 0x63
def causeHandle : Nat := 0x64
def causeMmaShape : Nat := 0x66

/-- The tile that a handle of the wave in hand names. -/
def tileOf (s : State) (h : Nat) : Option Tile := (s.w.handle h).bind fun id => s.tiles.find? fun t => t.id == id

/-- The recorded cause of a tile, raised at an instruction of a holder; the flag clears on entry (R187). -/
def tileTrap (s : State) (id : Nat) (f : FaultRec) : Res :=
  .trapIn (s.updTile id fun t => { t with fault := none }) { cause := f.cause, laddr := fun _ => f.addr, info := pcWord f.pc }

/-! ### The scale-register map (R175) -/

/-- The registers that hold the codes of so many blocks. -/
def scaleRegs (b : FmtBlock) (blocks : Nat) : List Nat :=
  if b.reads then (List.range ((blocks + 127) / 128)).map fun i => b.sbase + i else []

/-- The code of block j (R175). -/
def scaleCode (s : State) (b : FmtBlock) (j : Nat) : Nat :=
  fieldAt (s.v (b.sbase + j / 128) (j % 32)).toNat (8 * ((j / 32 + b.sel) % 4)) 8

/-- The codes of the first n blocks. -/
def scaleCodes (s : State) (b : FmtBlock) (n : Nat) : List Nat :=
  if b.reads then (List.range n).map (scaleCode s b) else []

/-- A code of 255 is read as an exponent in one of these blocks (R119). -/
def badCode (s : State) (b : FmtBlock) (blocks : List Nat) : Bool :=
  b.info.kind == .bfp && blocks.any fun j => scaleCode s b j == 255

/-- What registers that an operand value names bring about before the instruction goes on: REG_RANGE,
LOOKAHEAD_VIOLATION, a bad granule, or the scoreboard (R14, R26, R97, R98).  Those in `whole` are read in all lanes (R176),
the others in the slot's lanes. -/
def namedRegs (s : State) (rs whole : List Nat) (writes : Bool) : Option Res :=
  let ids := rs.map RegId.v
  let g : Hdr := if writes then { writes := ids } else { reads := ids }
  let bad (p : Nat × Nat) : Bool :=
    let lo := s.m0.getLsbD p.2
    let hi := s.m0.getLsbD (p.2 + 1)
    whole.contains p.1 || (rs.contains p.1 && if writes then lo != hi else lo || hi)
  if rs.any fun r => decide (s.w.budget ≤ r) || decide (128 ≤ r) then some (.trap (Trap.whole causeRegRange 0))
  else if hitsWindow s g.reads g.writes then some (.trap (Trap.whole causeLookahead 0))
  else if s.w.badRegs.any bad then some (.settled (killGroup s s.w.gid causeRegUe))
  else if regHeld s g then some (.hold s)
  else none

/-! ### Holding tiles (R169, R170, R188) -/

/-- Bytes of a tile's two bands (R170). -/
def bandBytes (m n af : Nat) : Nat × Nat :=
  let b := accBytes af
  if m * n * b ≤ 2 ^ 19 then (m * n * b, 0) else (128 * n * b, (m - 128) * n * b)

/-- The partner cluster of band 1 (R170). -/
def partner (cluster : Nat) : Nat := cluster / 24 * 24 + (if cluster % 24 % 2 = 0 then cluster % 24 + 1 else cluster % 24 - 1)

/-- Bytes of a cluster's accumulator store that tiles use. -/
def storeUse (s : State) (cluster : Nat) : Nat :=
  (s.tiles.filter fun t => t.onCluster).foldl
    (fun acc t =>
      let (a, b) := bandBytes t.m t.n t.af
      acc + (if t.cluster = cluster then a else 0) + (if partner t.cluster = cluster then b else 0)) 0

/-- The bands of a tile fit. -/
def bandsFit (s : State) (cluster m n af : Nat) : Bool :=
  let (a, b) := bandBytes m n af
  decide (storeUse s cluster + a ≤ 2 ^ 19) && (b == 0 || decide (storeUse s (partner cluster) + b ≤ 2 ^ 19))

/-- An empty row (R194). -/
def emptyRow (n af : Nat) : Row := { mant := List.replicate n 0, x := 0, hr := accW af - 1, empty := true }

/-- A handle of the wave in hand names a tile, or none. -/
def setHandle (s : State) (h : Nat) (t : Option Nat) : State := s.onWave fun w => { w with handles := w.handles.setIfInBounds h t }

/-- `acqa` (R188). -/
def doAcqa (h r : Nat) (s : State) : Res :=
  let x := (s.sreg r).toNat
  let tag := fieldAt x 24 8
  let af := fieldAt x 8 2
  let n := 128 * (fieldAt x 4 2 + 1)
  let m := 32 * (fieldAt x 0 3 + 1)
  let shr := fieldAt x 23 1 == 1
  if (s.w.handle h).isSome then .trap (Trap.whole causeHandle 0)
  else if fieldAt x 10 13 ≠ 0 ∨ fieldAt x 6 2 ≠ 0 ∨ fieldAt x 3 1 ≠ 0 ∨ af = 3 then .trap (Trap.whole 0x65 0)
  else
    let fresh (t : State) : Res :=
      if !bandsFit t t.w.cluster m n af then .hold t
      else
        let tile : Tile :=
          { id := t.serial, lid := t.w.lid, gid := t.w.gid, cluster := t.w.cluster, tag := if shr then some tag else none,
            m := m, n := n, af := af, rows := List.replicate m (emptyRow n af), events := 0, fault := none,
            holders := [t.w.wid], onCluster := true }
        .done (setHandle { t with tiles := t.tiles ++ [tile], serial := t.serial + 1 } h (some t.serial))
    match s.tiles.find? fun t => shr && t.gid == s.w.gid && t.tag == some tag with
    | some t =>
      if t.m ≠ m ∨ t.n ≠ n ∨ t.af ≠ af then .trap (Trap.whole 0x65 0)
      else .done (setHandle (s.updTile t.id fun t =>
        { t with holders := if t.holders.contains s.w.wid then t.holders else t.holders ++ [s.w.wid] }) h (some t.id))
    | none => fresh s

def execAcqa (la h r : Nat) (s : State) := issue (.acqa la h r) (doAcqa h r) s

/-! ### Entries (R182, R183) -/

/-- An entry that the slot in hand posts on a tile. -/
def newEntry (s : State) (t : Tile) (work : EntryWork) : Entry :=
  { id := s.serial, tile := t.id, wid := s.w.wid, sec := s.w.curSec, gid := s.w.gid, lid := s.w.lid, pc := s.cur.pc,
    core := s.w.core, kc := coreIndex s s.w.gid s.w.core, work := work, posted := s.gts, index := globalIndex s s.w, rise := 0, granted := false, step := 0, nfz := false,
    done := false, view := s.w.tape.view, sleep := [], missing := [], declined := [] }

/-- An entry goes before another of its tile that was posted in the same cycle and has not been granted: the primary slot's
first, then the lower global wave index (R182). -/
def Entry.precedes (e x : Entry) : Bool :=
  x.tile == e.tile && x.posted == e.posted && !x.granted
    && ((!e.sec && x.sec) || (e.sec == x.sec && decide (e.index < x.index)))

/-- An entry in its place in the posting order. -/
def placeEntry (e : Entry) (xs : List Entry) : List Entry :=
  xs.takeWhile (fun x => !e.precedes x) ++ e :: xs.dropWhile fun x => !e.precedes x

/-- The entry posted.  Under DET the entries of a shared tile stand in the order in which R354 let their instructions issue
(R182, log 65). -/
def post (s : State) (t : Tile) (work : EntryWork) : State :=
  let e := newEntry s t work
  { s with
    entries := if s.attr.det && decide (1 < t.holders.length) then s.entries ++ [e] else placeEntry e s.entries
    serial := s.serial + 1 }

/-- The entry leaves the table. -/
def dropEntry (s : State) (id : Nat) : State := { s with entries := s.entries.filter fun e => e.id != id }

/-- The entry that the instruction at the slot's PC has posted, by a test on its work. -/
def myEntry (s : State) (p : EntryWork → Bool) : Option Entry :=
  s.entries.find? fun e => e.wid == s.w.wid && e.sec == s.w.curSec && e.pc == s.cur.pc && p e.work

/-- The entries of a tile that lie before an entry and have not completed. -/
def before (s : State) (e : Entry) : List Entry :=
  (s.entries.takeWhile fun x => x.id != e.id).filter fun x => x.tile == e.tile && !x.done && x.work != .wait && groupHere s x.gid

/-- Bytes of a readout's row: the record and containers of R207, or the elements of OFMT. -/
def outRowBytes (ofmt n : Nat) : Nat :=
  if ofmt = 25 then 8 + 4 * n else if ofmt = 26 ∨ ofmt = 27 then 8 + 8 * n
  else (n * ((fmtOf ofmt).map fun f => f.bits).getD 8 + 7) / 8

/-- The first and last byte of an `astore`'s rows, and of its exponent bytes. -/
def outHulls (d : DBlock) (n : Nat) (base : Int) (stride : Nat) (expBase : Int) (rows : List Nat) : List (Int × Int) :=
  match rows with
  | [] => []
  | r :: rs =>
    let lo := rs.foldl min r
    let hi := rs.foldl max r
    let per := n / d.oblen
    (base + (lo * stride : Nat), base + (hi * stride + outRowBytes d.ofmt n : Nat) - 1)
      :: (if d.ofmt ≤ 6 then [(expBase + (lo * per : Nat), expBase + ((hi + 1) * per : Nat) - 1)] else [])

/-- The entry's scratchpad operands meet an entry of the range scoreboard (R183, R205).  A later copy waits for the operands
that an `mma` holds (R184), and so does not hold it back. -/
def entryStalls (s : State) (e : Entry) : Bool :=
  let es := copyBoard s (e.core / 4)
  let n := ((s.tiles.find? fun t => t.id == e.tile).map fun t => t.n).getD 128
  match e.work with
  | .mma _ _ _ _ _ _ trec _ _ _ =>
    (mmaEntries s e).any (fun x => meetsEntries (es.filter fun y => decide (y.id < e.id)) e.gid e.kc x.space x.lo x.hi false)
      || match trec with
        | some t => (entryOf e.id e.gid e.kc t false).any fun x => meetsEntries es e.gid e.kc x.space x.lo x.hi false
        | none => false
  | .aload c base space _ rows _ =>
    rows.any fun m =>
      let lo := base + (m * c.stride : Nat)
      meetsEntries es e.gid e.kc space lo (lo + (outRowBytes c.fmt n : Nat) - 1) false
  | .astore d base space stride expBase rows =>
    (outHulls d n base stride expBase rows).any fun h =>
      meetsEntries (board s (e.core / 4)) e.gid e.kc space h.1 h.2 true
  | .azero _ | .anorm _ | .ahead .. | .rela | .wait => false

/-- The entry is eligible for a grant (R183). -/
def eligible (s : State) (e : Entry) : Bool := groupHere s e.gid && (before s e).isEmpty && !entryStalls s e

/-! ### `mma` (R185 to R187) -/

/-- The rows whose supplying lane is active in the issuing slot (R177). -/
def activeRows (s : State) (m : Nat) : List Nat := (List.range m).filter fun r => s.m0.getLsbD (r % 32)

/-- A hull lies in its space (R179). -/
def hullOk (s : State) (space : Nat) (h : Int × Int) : Bool := decide (0 ≤ h.1) && decide (h.2 < recLimit s.attr space)

/-- The tensor record of B: read, checked, and its size compared (R178, R186). -/
def recordB (s : State) (va : Int) (size : Nat) : Except Res (TRec × State) :=
  match operand s .load va 128 1 0 with
  | .error e => .error e
  | .ok (ls, xs) =>
    let ws := wordsAt s ls
    let t := TRec.ofWords ws
    let bad (c : Nat) (a : Int) : Except Res (TRec × State) := .error (.trap (Trap.whole c (BitVec.ofInt 64 a)))
    if va % 128 ≠ 0 ∨ !TRec.ok ws false then bad 0x50 va
    else if t.total ≠ size then bad 0x51 0
    else if !t.inRange s.attr then bad 0x52 va
    else .ok (t, noteAccess s ls xs false)

/-- `mma` once its handle and its formats have passed (R186 items 3 to 8). -/
def mmaChecked (k sf vi la : Nat) (bsrc : Bool) (t : Tile) (a b : FmtBlock) (d : DBlock) (s : State) : Res :=
  let rows := activeRows s t.m
  let ja := t.m * (k / a.blen)
  let jb := t.n * (k / b.blen)
  let regs := ((List.range (t.m / 32)).map fun i => vi + i) ++ scaleRegs a ja ++ scaleRegs b jb
  let baseA := (s.sreg (sf + 6)).toNat
  let baseB := if bsrc then 0 else (s.sreg (sf + 7)).toNat
  let idx := rows.map fun m => (m, (s.v (vi + m / 32) (m % 32)).toNat)
  let blocksA := rows.flatMap fun m => (List.range (k / a.blen)).map fun i => m * (k / a.blen) + i
  if d.accf - 25 ≠ t.af ∨ k % a.blen ≠ 0 ∨ k % b.blen ≠ 0 then .trap (Trap.whole causeMmaShape 0)
  else
    match namedRegs s regs (scaleRegs a ja ++ scaleRegs b jb) false with
    | some r => r
    | none =>
      if badCode s a blocksA ∨ badCode s b (List.range jb) then .trap (Trap.whole causeFmt 0)
      else if (hullA a baseA k idx).any (fun h => !hullOk s a.space h)
          ∨ (!bsrc ∧ !hullOk s b.space (hullB b baseB k t.n)) then .trap (Trap.whole causeSpaceRange 0)
      else
        let go (trec : Option TRec) (u : State) : Res :=
          .done (addWindow (post u t (.mma a b d k baseA baseB trec idx (scaleCodes s a ja) (scaleCodes s b jb))) la
            (regs.map RegId.v) [])
        if bsrc then
          match recordB s (s.s64 (sf + 8)).toInt (t.n * b.rowBytes k) with
          | .error r => r
          | .ok (x, u) => go (some x) u
        else go none s

/-- `mma` (R186). -/
def doMma (la kp sf : Nat) (bsrc : Bool) (h vi : Nat) (s : State) : Res :=
  match tileOf s h with
  | none => .trap (Trap.whole causeHandle 0)
  | some t =>
    match fmtBlock (s.s64 sf).toNat false, fmtBlock (s.s64 (sf + 2)).toNat false, dBlock (s.s64 (sf + 4)).toNat with
    | some a, some b, some d => mmaChecked (32 * (kp + 1)) sf vi la bsrc t a b d s
    | _, _, _ => .trap (Trap.whole causeFmt 0)

def execMma (la kp sf : Nat) (bsrc : Bool) (h vi : Nat) (s : State) := issue (.mma la kp sf bsrc h vi) (doMma la kp sf bsrc h vi) s

/-! ### `rela`, `mwait`, `azero`, `anorm`, `ahead` -/

/-- An instruction on the tile of a held handle. -/
def onTile (s : State) (h : Nat) (f : Tile → Res) : Res :=
  match tileOf s h with
  | none => .trap (Trap.whole causeHandle 0)
  | some t => f t

/-- The wave in hand holds its tile by another handle too, and so stays one of the tile's holders (R171, log 44). -/
def heldTwice (s : State) (h id : Nat) : Bool := (List.range 8).any fun k => k != h && s.w.handle k == some id

/-- `rela` (R188): its entry must be eligible. -/
def doRela (h : Nat) (s : State) : Res :=
  onTile s h fun t =>
    match myEntry s fun w => w == .rela with
    | none => .hold (post s t .rela)
    | some e =>
      if !eligible s e then .hold s
      else
        let s1 := dropEntry s e.id
        match t.fault with
        | some f => tileTrap s1 t.id f
        | none => .done (setHandle (if heldTwice s h t.id then s1 else (releaseTile s1 t.id s.w.wid).1) h none)

/-- `mwait` (R191). -/
def doMwait (h : Nat) (s : State) : Res :=
  onTile s h fun t =>
    let go (u : State) : Res :=
      match t.fault with
      | some f => tileTrap u t.id f
      | none => .done u
    match s.entries.find? fun e => e.wid == s.w.wid && e.sec == s.w.curSec && e.work == .wait && e.tile == t.id with
    | some e => if (before s e).isEmpty then go (dropEntry s e.id) else .hold s
    | none =>
      if s.entries.any fun e => e.tile == t.id && !e.done && e.work != .wait && groupHere s e.gid then .hold (post s t .wait)
      else go s

/-- `azero` (R201). -/
def doAzero (h : Nat) (s : State) : Res := onTile s h fun t => .done (post s t (.azero (activeRows s t.m)))

/-- `anorm` (R202). -/
def doAnorm (h : Nat) (s : State) : Res := onTile s h fun t => .done (post s t (.anorm (activeRows s t.m)))

/-- The entry of an instruction that waits for it: done, it leaves and the instruction completes. -/
def awaitEntry (s : State) (e : Entry) : Res := if e.done then .done (dropEntry s e.id) else .hold s

/-- The work is a readout of row state. -/
def isAhead : EntryWork → Bool
  | .ahead .. => true
  | _ => false

/-- The work is a readout to memory. -/
def isAstore : EntryWork → Bool
  | .astore .. => true
  | _ => false

/-- `ahead` (R203): it waits for its grant, at which its block is written. -/
def doAhead (la h d : Nat) (s : State) : Res :=
  onTile s h fun t =>
    match myEntry s isAhead with
    | some e =>
      if e.done then .done (addWindow (dropEntry s e.id) la [] ((List.range (t.m / 32 + 1)).map fun i => .v (d + i))) else .hold s
    | none =>
      match namedRegs s ((List.range (t.m / 32 + 1)).map fun i => d + i) [] true with
      | some r => r
      | none => .hold (post s t (.ahead d s.m0))

def execRela (la h : Nat) (s : State) := issue (.rela la h) (doRela h) s
def execMwait (la h : Nat) (s : State) := issue (.mwait la h) (doMwait h) s
def execAzero (la h : Nat) (s : State) := issue (.azero la h) (doAzero h) s
def execAnorm (la h : Nat) (s : State) := issue (.anorm la h) (doAnorm h) s
def execAhead (la h d : Nat) (s : State) := issue (.ahead la h d) (doAhead la h d) s

/-! ### `aload` (R189, R190) -/

/-- The range trap of Table 4.3 in a space of Table 7.5. -/
def tileRange (space : Nat) : Nat := if space = 0 then causeNoncanon else causeSpaceRange

/-- A 32-B descriptor of a tile instruction: its four words (R189, R204). -/
def tileDesc (s : State) (va : Int) : Except Res (List Nat × State) :=
  if va % 32 ≠ 0 then .error (.trap (Trap.whole causeNoncanon (BitVec.ofInt 64 va)))
  else captured s va 32 1 0

/-- `aload` once its descriptor has been read.  Codes of 255 count for the rows that are loaded, as in `mma` (R186): of a row
whose lane is not active no code is read (log 62). -/
def aloadChecked (la : Nat) (t : Tile) (ws : List Nat) (s : State) : Res :=
  let ctl := ws.getD 2 0
  let space := fieldAt ctl 0 2
  let base := signed 64 (ws.getD 0 0)
  match fmtBlock (ws.getD 1 0) true with
  | none => .trap (Trap.whole causeFmt 0)
  | some c =>
    if ctl / 8 ≠ 0 ∨ ws.getD 3 0 ≠ 0 then .trap (Trap.whole causeFmt 0)
    else if (25 ≤ c.fmt ∧ c.fmt - 25 ≠ t.af) ∨ t.n % c.blen ≠ 0 then .trap (Trap.whole causeMmaShape 0)
    else
      let per := t.n / c.blen
      let rows := activeRows s t.m
      let regs := scaleRegs c (t.m * per)
      let last := base + ((t.m - 1) * c.stride + outRowBytes c.fmt t.n : Nat) - 1
      match namedRegs s regs regs false with
      | some r => r
      | none =>
        if badCode s c (rows.flatMap fun m => (List.range per).map fun i => m * per + i) then .trap (Trap.whole causeFmt 0)
        else if !hullOk s space (base, last) then .trap (Trap.whole (tileRange space) 0)
        else
          .done (addWindow (post s t (.aload c base space (fieldAt ctl 2 1 == 1) rows (scaleCodes s c (t.m * per)))) la
            (regs.map RegId.v) [])

/-- `aload` (R190). -/
def doAload (la h r : Nat) (s : State) : Res :=
  onTile s h fun t =>
    match tileDesc s (s.s64 r).toInt with
    | .error e => e
    | .ok (ws, s1) => Res.capturing ws (aloadChecked la t ws s1)

def execAload (la h r : Nat) (s : State) := issue (.aload la h r) (doAload la h r) s

/-! ### `astore` (R204, R205) -/

/-- `astore` once its descriptor has been read: it posts its entry. -/
def astoreChecked (t : Tile) (ws : List Nat) (dw : Nat) (s : State) : Res :=
  let ctl := ws.getD 1 0
  let space := fieldAt ctl 32 2
  let stride := fieldAt ctl 0 32
  let base := signed 64 (ws.getD 0 0)
  let expBase := signed 64 (ws.getD 2 0)
  let rows := activeRows s t.m
  if ctl / 2 ^ 34 ≠ 0 ∨ ws.getD 3 0 ≠ 0 then .trap (Trap.whole causeFmt 0)
  else
    match dBlock dw with
    | none => .trap (Trap.whole causeFmt 0)
    | some d =>
      if d.accf - 25 ≠ t.af ∨ (25 ≤ d.ofmt ∧ d.ofmt - 25 ≠ t.af) then .trap (Trap.whole causeMmaShape 0)
      else if (outHulls d t.n base stride expBase rows).any fun h => !hullOk s space h then
        .trap (Trap.whole (tileRange space) 0)
      else .hold (post s t (.astore d base space stride expBase rows))

/-- `astore` (R205): a fault flag that is set when its entry becomes eligible is raised, and nothing is written. -/
def doAstore (h r : Nat) (s : State) : Res :=
  onTile s h fun t =>
    match myEntry s isAstore with
    | some e =>
      match t.fault with
      | some f => if eligible s e && !e.granted then tileTrap (dropEntry s e.id) t.id f else awaitEntry s e
      | none => awaitEntry s e
    | none =>
      match tileDesc s (s.s64 r).toInt with
      | .error e => e
      | .ok (ws, s1) => astoreChecked t ws (s.s64 (r + 2)).toNat s1

def execAstore (la h r : Nat) (s : State) := issue (.astore la h r) (doAstore h r) s

end Sys2Proof.Machine
end

