-- ==== Sys2Proof/Machine/Render.lean ====
section
/-! DEFINITION. The render units: descriptors and reads (R209 to R214), rasterisation and its adjoint (R215 to R222), edge
sampling (R223, R224). -/
namespace Sys2Proof.Machine

/-! ### Common rules -/

/-- Causes of this chapter. -/
def causeRdesc : Nat := 0x70
def causeRastRange : Nat := 0x71

/-- A descriptor's four words, read once (R211): an instruction that completes late has them captured. -/
def descriptor (r : Nat) (s : State) : Except Res (List Nat × State) := captured s (s.s64 r).toInt 32 32 causeRdesc

/-- A malformed descriptor (R211). -/
def badDescriptor (s : State) (r : Nat) : Res := .trap (Trap.whole causeRdesc (s.s64 r))

/-- The words of a descriptor at a byte offset. -/
def word64 (ws : List Nat) (off : Nat) : Nat := fieldOf ws off 0 64

/-- Bits of RSTAT set (Table 9.4). -/
def setRstat (s : State) (bits : Nat) : State := s.onWave fun w => { w with rstat := w.rstat ||| BitVec.ofNat 32 bits }

/-- Reads of a render instruction: lane, address and length of each (R212). -/
def renderReads (s : State) (want : List (Nat × Int × Nat)) : Except Res (List LaneAcc) :=
  let ls := want.map fun p => laneAccess s .g .load s.viewSpace p.1 p.2.1 p.2.2
  match lanesStop s s.viewSpace .load ls with
  | some r => .error r
  | none =>
    match storageStop s (ls.map fun x => (x, x.places)) with
    | some r => .error r
    | none => .ok ls

/-- What the reads returned, in their order. -/
def readValues (s : State) (ls : List LaneAcc) : List Nat :=
  ((List.range ls.length).zip ls).map fun p => slotRead s (4 * p.1) p.2.places

/-- Results of lanes written to the block from d on: for each lane the patterns of the block (R213). -/
def setBlock (s : State) (d n : Nat) (vals : List (Nat × List Nat)) : State :=
  (List.range n).foldl
    (fun t k => t.setV (d + k) fun l => BitVec.ofNat 32 (((assocGet vals l).getD []).getD k 0)) s

/-! ### Rasterisation (R215 to R221) -/

/-- A point in units of 2^−8 pixel. -/
structure Pt where
  x : Int
  y : Int
  deriving DecidableEq, Repr

/-- A screen coordinate (R215). -/
def screen (x : Word) : Int := signed 24 x.toNat

/-- The centre of a pixel (R215). -/
def centre (x y : Nat) : Pt := ⟨256 * x + 128, 256 * y + 128⟩

/-- A point from two registers of lane l. -/
def State.point (s : State) (r l : Nat) : Pt := ⟨screen (s.v r l), screen (s.v (r + 1) l)⟩

/-- The pixel of a coordinate register (R215). -/
def pixelOf (x : Word) : Nat × Nat := (x.toNat % 65536, x.toNat / 65536)

/-- A triangle in screen space. -/
structure Tri where
  v0 : Pt
  v1 : Pt
  v2 : Pt
  deriving DecidableEq, Repr

/-- The ends Va and Vb of edge i (R217). -/
def Tri.edge (t : Tri) (i : Nat) : Pt × Pt :=
  match i with
  | 0 => (t.v1, t.v2)
  | 1 => (t.v2, t.v0)
  | _ => (t.v0, t.v1)

/-- A (R217). -/
def Tri.area (t : Tri) : Int :=
  (t.v1.x - t.v0.x) * (t.v2.y - t.v0.y) - (t.v1.y - t.v0.y) * (t.v2.x - t.v0.x)

/-- E_i at a point (R217). -/
def Tri.e (t : Tri) (i : Nat) (p : Pt) : Int :=
  let (a, b) := t.edge i
  (b.x - a.x) * (p.y - a.y) - (b.y - a.y) * (p.x - a.x)

/-- toplft(i), for the sign of A (R217). -/
def Tri.topLeft (t : Tri) (i : Nat) : Bool :=
  let (a, b) := t.edge i
  let s : Int := if t.area < 0 then -1 else 1
  let dx := s * (a.y - b.y)
  let dy := s * (b.x - a.x)
  decide (0 < dx) || (dx == 0 && decide (0 < dy))

/-- covered(p), for the sign of A (R217). -/
def Tri.covers (t : Tri) (p : Pt) : Bool :=
  [0, 1, 2].all fun i =>
    let e := if t.area < 0 then -(t.e i p) else t.e i p
    decide (0 < e) || (e == 0 && t.topLeft i)

/-- A raster descriptor (Table 9.5). -/
structure RasterDesc where
  fraglr : Nat
  cull : Nat
  height : Nat
  width : Nat
  user : Word
  deriving DecidableEq, Repr

def RasterDesc.ofWords (ws : List Nat) : RasterDesc :=
  ⟨word64 ws 0, fieldOf ws 8 32 2, fieldOf ws 8 16 14 + 1, fieldOf ws 8 0 14 + 1, BitVec.ofNat 32 (fieldOf ws 0x10 0 32)⟩

/-- The checks of R211 on a raster descriptor. -/
def rasterOk (ws : List Nat) : Bool :=
  fieldOf ws 8 34 30 == 0 && fieldOf ws 8 30 2 == 0 && fieldOf ws 8 14 2 == 0 && fieldOf ws 8 32 2 != 3
    && fieldOf ws 0x10 32 32 == 0 && word64 ws 0x18 == 0 && word64 ws 0 % 256 == 0 && decide (word64 ws 0 + 256 ≤ 2 ^ 55)

/-- The primitive is drawn at all (R217). -/
def drawn (d : RasterDesc) (a : Int) : Bool := a != 0 && !(d.cull == 1 && decide (a < 0)) && !(d.cull == 2 && decide (0 < a))

/-- The range of pixels along one axis that a triangle's box and the viewport share: first and past the last. -/
def pixelRange (a b c : Int) (limit : Nat) : Nat × Nat :=
  ((max 0 (min a (min b c) / 256)).toNat, (min (limit : Int) (max a (max b c) / 256 + 1)).toNat)

/-- The covered pixels in the order of R219. -/
def coveredPixels (d : RasterDesc) (t : Tri) : List (Nat × Nat) :=
  if !drawn d t.area then []
  else
    let (x0, x1) := pixelRange t.v0.x t.v1.x t.v2.x d.width
    let (y0, y1) := pixelRange t.v0.y t.v1.y t.v2.y d.height
    let tile (ty tx : Nat) : List (Nat × Nat) :=
      (List.range 4).flatMap fun j => (List.range 8).filterMap fun i =>
        let x := 8 * tx + i
        let y := 4 * ty + j
        if x0 ≤ x ∧ x < x1 ∧ y0 ≤ y ∧ y < y1 ∧ t.covers (centre x y) then some (x, y) else none
    (List.range ((y1 + 3) / 4 - y0 / 4)).flatMap fun ty =>
      (List.range ((x1 + 7) / 8 - x0 / 8)).flatMap fun tx => tile (y0 / 4 + ty) (x0 / 8 + tx)

/-- b_i at a point (R218). -/
def Tri.bary (t : Tri) (i : Nat) (p : Pt) : Nat := rneRatio (t.e i p) t.area 0

/-- The lane of a fragment wave that a pixel fills (R220). -/
def fragLane (t : Tri) (p : Nat × Nat) : Word × Word × Word × Word :=
  let c := centre p.1 p.2
  let b (i : Nat) : Word := BitVec.ofNat 32 (t.bary i c)
  (BitVec.ofNat 32 (p.1 + 65536 * p.2), b 0, b 1, b 2)

/-- The fragment waves of a primitive (R219, R220). -/
def fragWaves (t : Tri) (id : Nat) (user : Word) (ps : List (Nat × Nat)) : List Frag :=
  (List.range ((ps.length + 31) / 32)).map fun k =>
    ⟨id, k, user, ps.length, ((ps.drop (32 * k)).take 32).map (fragLane t), 0⟩

/-- Fragment waves with serial numbers from one on.  MODEL. -/
def numberFrags (n : Nat) (fs : List Frag) : List Frag :=
  ((List.range fs.length).zip fs).map fun p => { p.2 with made := n + p.1 }

/-- The fragment waves join the fragment launch, which becomes active if it is not (R216, R221). -/
def emitFrags (s : State) (fraglr : Nat) (fs : List Frag) : Res :=
  if fs.isEmpty then .done s
  else
    match operand s .load fraglr 256 1 causeRdesc with
    | .error e => e
    | .ok (ls, xs) =>
      let ws := wordsAt s ls
      let s1 := noteAccess s ls xs false
      let asn := (launchOf ws).asn
      let mine (l : Launch) : Bool := l.isFrag && l.ref == fraglr && l.attr.asn == asn
      let add (t : State) (lid : Nat) : State :=
        { t with serial := t.serial + fs.length }.updLaunch lid fun l =>
          if l.cancelled then l else { l with frags := l.frags ++ numberFrags t.serial fs }
      match s1.launches.find? mine with
      | some l => .done (add s1 l.lid)
      | none =>
        match accept s1 (.core s.w.core) fraglr ws none none (ownQueue s) none true with
        | .ok t =>
          match t.launches.find? mine with
          | some l => .done (add t l.lid)
          | none => .done t
        | .fail c at_ => acceptCause s (launchOf ws) c at_
        | .wait => .hold s1

/-- The triangle in the source block of lane l. -/
def State.tri (s : State) (a l : Nat) : Tri := ⟨s.point a l, s.point (a + 2) l, s.point (a + 4) l⟩

/-- `rast` (R221). -/
def doRast (r a d : Nat) (s : State) : Res :=
  match descriptor r s with
  | .error e => e
  | .ok (ws, s1) =>
    if !rasterOk ws then badDescriptor s r
    else
      let desc := RasterDesc.ofWords ws
      let wide := (checkedLanes s).filter fun l => decide (2 ^ 24 ≤ (s.v (a + 6) l).toNat)
      if !wide.isEmpty then
        .trap (Trap.lanes causeRastRange (maskOf wide) fun l => BitVec.ofNat 64 (s.v (a + 6) l).toNat)
      else
        let prims := (checkedLanes s).map fun l => (l, coveredPixels desc (s.tri a l))
        let passed := prims.any fun p => decide (2 ^ 21 < p.2.length)
        let frags := (prims.filter fun p => decide (p.2.length ≤ 2 ^ 21)).flatMap fun p =>
          fragWaves (s.tri a p.1) (s.v (a + 6) p.1).toNat desc.user p.2
        Res.capturing ws <| (emitFrags s1 desc.fraglr frags).andThen fun t =>
          let t1 := t.setV d fun l =>
            match assocGet prims l with
            | none => 0
            | some ps => if 2 ^ 21 < ps.length then 0xFFFFFFFF else BitVec.ofNat 32 ps.length
          .done (if passed then setRstat t1 1 else t1)

def execRast (la r a d : Nat) (s : State) := issue (.rast la r a d) (doRast r a d) s

/-! ### `radj` (R222) -/

/-- rne of a product of two patterns, negated where `neg`. -/
def rneMul (neg : Bool) (x y : Nat) : Nat :=
  let p := (val32 x).mul (val32 y)
  rneSum [if neg then p.negate else p]

/-- rne(x*y + z). -/
def rneFma (x y z : Nat) : Nat := rneSum [(val32 x).mul (val32 y), val32 z]

/-- The results of one lane of `radj`. -/
def radjLane (t : Tri) (p : Pt) (g : Nat → Nat) : List Nat :=
  let area := t.area
  if area = 0 then List.replicate 6 0
  else
    let dx (i : Nat) : Nat := let (a, b) := t.edge i; rneRatio (b.x - a.x) 256 0
    let dy (i : Nat) : Nat := let (a, b) := t.edge i; rneRatio (b.y - a.y) 256 0
    let r := frcpBits (rneRatio area 65536 0)
    let along (f : Nat → Nat) : Nat := rneFma (g 2) (f 2) (rneFma (g 1) (f 1) (rneMul false (g 0) (f 0)))
    let gx := rneMul true (along dy) r
    let gy := rneMul false (along dx) r
    ([0, 1, 2] : List Nat).flatMap fun j => [rneMul true (t.bary j p) gx, rneMul true (t.bary j p) gy]

/-- `radj` (R222). -/
def doRadj (a d : Nat) (s : State) : Res :=
  let vals := (lanesOf s.m0).map fun l =>
    let (x, y) := pixelOf (s.v (a + 6) l)
    (l, radjLane (s.tri a l) (centre x y) fun i => (s.v (a + 7 + i) l).toNat)
  .done (setBlock s d 6 vals)

def execRadj (la a d : Nat) (s : State) := issue (.radj la a d) (doRadj a d) s

/-! ### `esamp` (R223, R224) -/

/-- One round of the hash: (lo, hi, k0, k1). -/
def hashRound (x : Nat × Nat × Nat × Nat) : Nat × Nat × Nat × Nat :=
  let (lo, hi, k0, k1) := x
  let p := lo * 0xC2B2AE3D
  ((p / 2 ^ 32 % 2 ^ 32) ^^^ hi ^^^ k0, (p % 2 ^ 32) ^^^ k1, (k0 + 0xBB67AE85) % 2 ^ 32, (k1 + 0x3C6EF372) % 2 ^ 32)

/-- hash(K, c, pix) (R223). -/
def hash (key : DWord) (c pix : Nat) : Nat :=
  let x := (List.range 6).foldl (fun x _ => hashRound x) (c, pix, key.toNat % 2 ^ 32, key.toNat / 2 ^ 32)
  x.1 ^^^ x.2.1

/-- √x / y × 2^e rounded to nearest in binary32, for x ≥ 0 and y not 0. -/
def rneRoot (neg : Bool) (x y : Nat) : Nat :=
  if x = 0 then 0
  else
    let k := 64 + Nat.log2 y
    let q := isqrt (x * 2 ^ (2 * k) / (y * y))
    FFmt.b32.round .rne neg q (-(k : Int)) (q * q * (y * y) != x * 2 ^ (2 * k))

/-- The range of s within one axis of the square, over the denominator m: none where the axis excludes the segment. -/
def clipAxis (m : Nat) (p d lo : Int) : Option (Int × Int) :=
  if d = 0 then if lo ≤ p ∧ p ≤ lo + 256 then some (0, m) else none
  else
    let at_ (x : Int) : Int := (x - p) * m / d
    let a := at_ lo
    let b := at_ (lo + 256)
    some (max 0 (min a b), min (m : Int) (max a b))

/-- One lane of `esamp` (R224). -/
def esampLane (key : DWord) (p q : Pt) (pix : Word) (c : Nat) : List Nat :=
  let zero := List.replicate 5 0
  let (px, py) := pixelOf pix
  let dx := q.x - p.x
  let dy := q.y - p.y
  let m := max 1 dx.natAbs * max 1 dy.natAbs
  match clipAxis m p.x dx (256 * px), clipAxis m p.y dy (256 * py) with
  | some (a0, a1), some (b0, b1) =>
    let s0 := max a0 b0
    let s1 := min a1 b1
    if (dx = 0 ∧ dy = 0) ∨ s1 ≤ s0 then zero
    else
      let u : Int := (hash key c pix.toNat / 256 : Nat)
      let st := s0 * 2 ^ 24 + u * (s1 - s0)
      let den : Int := (m : Int) * 2 ^ 24
      let len2 := (dx * dx + dy * dy).toNat
      let unit (n : Int) : Nat := if n = 0 then 0 else rneRoot (decide (n < 0)) ((n * n).toNat * len2) len2
      [rneRatio (p.x * den + st * dx) (256 * den) 0, rneRatio (p.y * den + st * dy) (256 * den) 0,
        rneRoot false (((s1 - s0) * (s1 - s0)).toNat * len2) (m * 256), unit dy, unit (-dx)]
  | _, _ => zero

/-- `esamp` (R224). -/
def doEsamp (r a d : Nat) (s : State) : Res :=
  let vals := (lanesOf s.m0).map fun l =>
    (l, esampLane (s.s64 r) (s.point a l) (s.point (a + 2) l) (s.v (a + 4) l) (s.v (a + 5) l).toNat)
  .done (setBlock s d 5 vals)

def execEsamp (la r a d : Nat) (s : State) := issue (.esamp la r a d) (doEsamp r a d) s

end Sys2Proof.Machine
end

