-- ==== Sys2Proof/Machine/Rays.lean ====
section
/-! DEFINITION. Ray traversal and its adjoint (R229 to R233). -/
namespace Sys2Proof.Machine

/-- Causes of this section. -/
def causeRtuRef : Nat := 0x72
def causeRtuDepth : Nat := 0x73

/-- A BVH descriptor (Table 9.8). -/
structure BvhDesc where
  nodes : Nat
  tris : Nat
  ntri : Nat
  nnode : Nat
  root : Nat
  deriving DecidableEq, Repr

def BvhDesc.ofWords (ws : List Nat) : BvhDesc :=
  ⟨word64 ws 0, word64 ws 8, fieldOf ws 0x10 32 32, fieldOf ws 0x10 0 32, fieldOf ws 0x18 0 32⟩

/-- The checks of R211 on a BVH descriptor. -/
def bvhOk (ws : List Nat) : Bool :=
  let d := BvhDesc.ofWords ws
  fieldOf ws 0x18 32 32 == 0 && d.nodes % 32 == 0 && d.tris % 4 == 0 && decide (d.nodes + 32 * d.nnode ≤ 2 ^ 55)
    && decide (d.tris + 36 * d.ntri ≤ 2 ^ 55)

/-- A vector of three patterns. -/
structure V3 where
  x : Nat
  y : Nat
  z : Nat
  deriving DecidableEq, Repr

def V3.get (v : V3) (i : Nat) : Nat :=
  match i with
  | 0 => v.x
  | 1 => v.y
  | _ => v.z

def V3.map (f : Nat → Nat) (v : V3) : V3 := ⟨f v.x, f v.y, f v.z⟩
def V3.zip (f : Nat → Nat → Nat) (a b : V3) : V3 := ⟨f a.x b.x, f a.y b.y, f a.z b.z⟩
def V3.list (v : V3) : List Nat := [v.x, v.y, v.z]

/-- Three words of a record from a byte offset on. -/
def v3At (raw off : Nat) : V3 :=
  let w (k : Nat) : Nat := raw / 2 ^ (8 * off + 32 * k) % 2 ^ 32
  ⟨w 0, w 1, w 2⟩

/-- Three registers of lane l. -/
def State.v3 (s : State) (r l : Nat) : V3 := ⟨(s.v r l).toNat, (s.v (r + 1) l).toNat, (s.v (r + 2) l).toNat⟩

/-- A ray. -/
structure Ray where
  o : V3
  d : V3
  tmin : Nat
  tmax : Nat
  deriving DecidableEq, Repr

/-- x ≤ y among patterns that are no NaN. -/
def leBits (x y : Nat) : Bool := !FFmt.ltVal (val32 y) (val32 x)

/-- The lower and the higher of two patterns that are no NaN. -/
def lower (x y : Nat) : Nat := if leBits x y then x else y
def higher (x y : Nat) : Nat := if leBits x y then y else x

/-- A node's box passes (R230). -/
def boxPasses (r : Ray) (lo hi : V3) : Bool :=
  let step (acc : Nat × Nat) (a : Nat) : Nat × Nat :=
    let inv := frcpBits (r.d.get a)
    let at_ (b : Nat) : Nat := rneMul false (FFmt.b32.subBits .rne b (r.o.get a)) inv
    let t1 := at_ (lo.get a)
    let t2 := at_ (hi.get a)
    if isNan32 t1 ∨ isNan32 t2 then acc else (higher acc.1 (lower t1 t2), lower acc.2 (higher t1 t2))
  let (tn, tf) := [0, 1, 2].foldl step (r.tmin, r.tmax)
  leBits tn tf

/-! ### The triangle test (R231) -/

/-- The magnitude of a pattern. -/
def magBits (x : Nat) : Nat := x % 2 ^ 31

/-- kz: the axis of the largest |d|, the lowest on a tie. -/
def majorAxis (d : V3) : Nat :=
  let m (i : Nat) : Nat := magBits (d.get i)
  if m 1 ≤ m 0 ∧ m 2 ≤ m 0 then 0 else if m 2 ≤ m 1 then 1 else 2

/-- An exact number m × 2^e. -/
structure Exact where
  m : Int
  e : Int
  deriving DecidableEq, Repr

/-- The exact value of terms that are finite numbers. -/
def exactOf (ts : List FVal) : Option Exact :=
  if ts.any (fun t => match t with | .nan | .inf _ => true | .fin _ _ _ => false) then none
  else let (m, e) := exactSum ts; some ⟨m, e⟩

def Exact.val (x : Exact) : FVal := .fin (decide (x.m < 0)) x.m.natAbs x.e

/-- What the test of a triangle finds. -/
structure TriHit where
  t : Nat
  b : Nat × Nat × Nat
  deriving DecidableEq, Repr

/-- t of a hit from U, V, W, the Z_i and det: an infinite Z_i counts as Table 6.4 has it (R231). -/
def hitT (u v w det : Exact) (z : Nat → Nat) : Nat :=
  let ts := [u.val.mul (val32 (z 0)), v.val.mul (val32 (z 1)), w.val.mul (val32 (z 2))]
  match exactOf ts with
  | some n => rneRatio n.m det.m (n.e - det.e)
  | none =>
    let sum := rneSum ts
    if isNan32 sum then sum else if det.m < 0 then negBits sum else sum

/-- The test of R231: none is a miss. -/
def triTest (o d : V3) (v : Nat → V3) : Option TriHit :=
  let kz := majorAxis d
  let k1 := (kz + 1) % 3
  let k2 := (k1 + 1) % 3
  let neg := decide (2 ^ 31 ≤ d.get kz) && !(val32 (d.get kz)).isZero
  let kx := if neg then k2 else k1
  let ky := if neg then k1 else k2
  let sx := quotient (d.get kx) (d.get kz)
  let sy := quotient (d.get ky) (d.get kz)
  let sz := frcpBits (d.get kz)
  let a (i : Nat) : V3 := V3.zip (FFmt.b32.subBits .rne) (v i) o
  let shear (s x y : Nat) : Nat := rneSum [val32 x, ((val32 s).mul (val32 y)).negate]
  let p (i : Nat) : Nat := shear sx ((a i).get kx) ((a i).get kz)
  let q (i : Nat) : Nat := shear sy ((a i).get ky) ((a i).get kz)
  let z (i : Nat) : Nat := rneMul false sz ((a i).get kz)
  let cross (i j : Nat) : Option Exact := exactOf [(val32 (p i)).mul (val32 (q j)), ((val32 (q i)).mul (val32 (p j))).negate]
  let nan := isNan32 sx || isNan32 sy || isNan32 sz
    || ([0, 1, 2] : List Nat).any fun i => (a i).list.any isNan32 || isNan32 (p i) || isNan32 (q i) || isNan32 (z i)
  if nan then none
  else
    match cross 2 1, cross 0 2, cross 1 0 with
    | some u, some v, some w =>
      if (u.m < 0 ∨ v.m < 0 ∨ w.m < 0) ∧ (0 < u.m ∨ 0 < v.m ∨ 0 < w.m) then none
      else
        let (dm, de) := exactSum [u.val, v.val, w.val]
        if dm = 0 then none
        else
          let b (x : Exact) : Nat := rneRatio x.m dm (x.e - de)
          let t := hitT u v w ⟨dm, de⟩ z
          if isNan32 t then none else some ⟨t, (b u, b v, b w)⟩
    | _, _, _ => none

/-! ### Traversal (R229, R232) -/

/-- What a lane's traversal found: its reads, its hits as (triangle, test), and the references that cannot be followed. -/
structure Visit where
  reads : List LaneAcc
  hits : List (Nat × TriHit)
  badRef : List Nat
  deep : List Nat

def Visit.none : Visit := ⟨[], [], [], []⟩
def Visit.plus (a b : Visit) : Visit := ⟨a.reads ++ b.reads, a.hits ++ b.hits, a.badRef ++ b.badRef, a.deep ++ b.deep⟩

/-- A record's bytes read for a lane: none where the read meets a cause. -/
def rayRead (s : State) (lane : Nat) (addr n : Nat) : LaneAcc × Option Nat :=
  let x := laneAccess s .g .load s.viewSpace lane addr n
  (x, if x.cause.isSome then none else some (slotRead s (4 * (32 * addr + lane)) x.places))

/-- The triangles of a leaf, tested in order. -/
def visitTris (s : State) (d : BvhDesc) (r : Ray) (lane : Nat) : List Nat → Visit
  | [] => Visit.none
  | i :: is =>
    let (x, raw) := rayRead s lane (d.tris + 36 * i) 36
    let hits :=
      match raw with
      | Option.none => []
      | some n =>
        match triTest r.o r.d fun k => v3At n (12 * k) with
        | Option.none => []
        | some h => if leBits r.tmin h.t ∧ leBits h.t r.tmax then [(i, h)] else []
    Visit.plus ⟨[x], hits, [], []⟩ (visitTris s d r lane is)

/-- A child reference followed, with the inner nodes that a path may still pass (R229, R232). -/
def visitRef (s : State) (d : BvhDesc) (r : Ray) (lane : Nat) : Nat → Nat → Visit
  | fuel, ref =>
    if ref = 0xFFFFFFFF then Visit.none
    else if 2 ^ 31 ≤ ref then
      let first := ref % 2 ^ 31 / 64
      let count := ref % 64 + 1
      if d.ntri < first + count then ⟨[], [], [ref], []⟩
      else visitTris s d r lane ((List.range count).map fun k => first + k)
    else if d.nnode ≤ ref then ⟨[], [], [ref], []⟩
    else
      let (x, raw) := rayRead s lane (d.nodes + 32 * ref) 32
      let here : Visit := ⟨[x], [], [], []⟩
      match raw with
      | Option.none => here
      | some n =>
        if !boxPasses r (v3At n 0) (v3At n 12) then here
        else
          match fuel with
          | 0 => ⟨[x], [], [], [ref]⟩
          | fuel + 1 =>
            here.plus ((visitRef s d r lane fuel (n / 2 ^ 192 % 2 ^ 32)).plus
              (visitRef s d r lane fuel (n / 2 ^ 224 % 2 ^ 32)))

/-- The ray can hit nothing (R232). -/
def deadRay (r : Ray) : Bool :=
  (r.o.list ++ r.d.list ++ [r.tmin, r.tmax]).any isNan32 || FFmt.ltVal (val32 r.tmax) (val32 r.tmin)
    || r.d.list.all fun x => (val32 x).isZero

/-- The better of two hits: the smaller pair (t, i). -/
def betterHit (a b : Nat × TriHit) : Nat × TriHit :=
  if FFmt.ltVal (val32 b.2.t) (val32 a.2.t) then b
  else if FFmt.ltVal (val32 a.2.t) (val32 b.2.t) then a
  else if b.1 < a.1 then b else a

/-- The results of a lane of `trace` (R232). -/
def traceResult (hits : List (Nat × TriHit)) : List Nat :=
  match hits with
  | [] => [0x7F800000, 0xFFFFFFFF, 0, 0]
  | h :: hs =>
    let b := hs.foldl betterHit h
    [b.2.t, b.1, b.2.b.2.1, b.2.b.2.2]

/-- The causes of lanes' reads in the order of R57, then poison, then references, then depth (R212, R229). -/
def visitStop (s : State) (vs : List (Nat × Visit)) : Option Res :=
  let reads := vs.flatMap fun p => p.2.reads
  let refs (f : Visit → List Nat) : List (Nat × Int) := vs.filterMap fun p => (f p.2).head?.map fun r => (p.1, (r : Int))
  match lanesStop s s.viewSpace .load reads with
  | some r => some r
  | none =>
    match storageStop s (reads.map fun x => (x, x.places)) with
    | some r => some r
    | none =>
      if !(refs Visit.badRef).isEmpty then some (laneTrap causeRtuRef (refs Visit.badRef))
      else if !(refs Visit.deep).isEmpty then some (laneTrap causeRtuDepth (refs Visit.deep))
      else none

/-- The ray of lane l. -/
def rayOf (s : State) (a l : Nat) : Ray := ⟨s.v3 a l, s.v3 (a + 3) l, (s.v (a + 6) l).toNat, (s.v (a + 7) l).toNat⟩

/-- `trace` (R232). -/
def doTrace (r a d : Nat) (s : State) : Res :=
  match descriptor r s with
  | .error e => e
  | .ok (ws, s1) =>
    if !bvhOk ws then badDescriptor s r
    else Res.capturing ws <|
      let desc := BvhDesc.ofWords ws
      let vs := (lanesOf s.m0).map fun l =>
        let ray := rayOf s a l
        (l, if deadRay ray then Visit.none else visitRef s1 desc ray l 64 desc.root)
      match visitStop s1 vs with
      | some e => e
      | none =>
        let s2 := afterRead s1 s1.viewSpace (vs.flatMap fun p => p.2.reads) .nm
        .done (setBlock s2 d 4 (vs.map fun p => (p.1, traceResult p.2.hits)))

def execTrace (la r a d : Nat) (s : State) := issue (.trace la r a d) (doTrace r a d) s

/-! ### `tradj` (R233) -/

/-- A cross product, each component rounded once. -/
def crossBits (a b : V3) : V3 :=
  let c (i j : Nat) : Nat := rneZero [(val32 (a.get i)).mul (val32 (b.get j)), ((val32 (a.get j)).mul (val32 (b.get i))).negate]
  ⟨c 1 2, c 2 0, c 0 1⟩

/-- A sum of products of patterns, rounded once. -/
def dotBits (ps : List (Nat × Nat)) : Nat := rneZero (ps.map fun p => (val32 p.1).mul (val32 p.2))

/-- The results of a lane of `tradj`, none where the test misses or D = 0 (R233), an exact zero of each step +0 (R115).  R233 cites
no table for infinite terms: the model takes Table 6.4's rows in the cross products, in D, in the inner sum and in the products
with lam (DESIGN CHOICE, log 68). -/
def tradjLane (o d : V3) (v : Nat → V3) (gt g1 g2 : Nat) : Option (List Nat) :=
  let dead := (o.list ++ d.list).any isNan32 || d.list.all fun x => (val32 x).isZero
  let sub (x y : Nat) : Nat := rneZero [val32 x, (val32 y).negate]
  let times (neg : Bool) (x y : Nat) : Nat :=
    let p := (val32 x).mul (val32 y)
    rneZero [if neg then p.negate else p]
  let e1 := V3.zip sub (v 1) (v 0)
  let e2 := V3.zip sub (v 2) (v 0)
  let c := d.map negBits
  let n := crossBits e1 e2
  let q1 := crossBits e2 c
  let q2 := crossBits c e1
  let det := dotBits (c.list.zip n.list)
  match if dead then none else triTest o d v with
  | none => none
  | some h =>
    if (val32 det).isZero then none
    else
      let lam (a : Nat) : Nat := quotient (dotBits [(gt, n.get a), (g1, q1.get a), (g2, q2.get a)]) det
      let axes (f : Nat → Nat) : List Nat := [f 0, f 1, f 2]
      some (axes (fun a => times true h.b.1 (lam a)) ++ axes (fun a => times true h.b.2.1 (lam a))
        ++ axes (fun a => times true h.b.2.2 (lam a)) ++ axes lam ++ axes fun a => times false h.t (lam a))

/-- `tradj` (R233). -/
def doTradj (r a d : Nat) (s : State) : Res :=
  match descriptor r s with
  | .error e => e
  | .ok (ws, s1) =>
    if !bvhOk ws then badDescriptor s r
    else Res.capturing ws <|
      let desc := BvhDesc.ofWords ws
      let idx (l : Nat) : Nat := (s.v (a + 6) l).toNat
      let out := (lanesOf s.m0).filter fun l => decide (desc.ntri ≤ idx l)
      if !out.isEmpty then laneTrap causeRtuRef (out.map fun l => (l, (idx l : Int)))
      else
        match renderReads s1 ((lanesOf s.m0).map fun l => (l, ((desc.tris + 36 * idx l : Nat) : Int), 36)) with
        | .error e => e
        | .ok ls =>
          let raws := (ls.map fun x => x.lane).zip (readValues s1 ls)
          let res := (lanesOf s.m0).map fun l =>
            let n := (assocGet raws l).getD 0
            (l, tradjLane (s.v3 a l) (s.v3 (a + 3) l) (fun k => v3At n (12 * k)) (s.v (a + 7) l).toNat
              (s.v (a + 8) l).toNat (s.v (a + 9) l).toNat)
          let s2 := afterRead s1 s1.viewSpace ls .nm
          let s3 := setBlock s2 d 15 (res.map fun p => (p.1, p.2.getD (List.replicate 15 0)))
          .done (if res.any fun p => p.2.isNone then setRstat s3 4 else s3)

def execTradj (la r a d : Nat) (s : State) := issue (.tradj la r a d) (doTradj r a d) s

end Sys2Proof.Machine
end

