-- ==== Sys2Proof/Machine/Scatter.lean ====
section
/-! DEFINITION. The gradient scatter units: keys, epochs, claims and closes (R250 to R258). -/
namespace Sys2Proof.Machine

/-- The key of a contribution (R250). -/
def scatterKey (lin waveid lane seq : Nat) : Nat := lin % 2 ^ 40 * 2 ^ 24 + waveid % 32 * 2 ^ 19 + lane % 32 * 2 ^ 14 + seq % 2 ^ 14

/-- The words of a line (R253). -/
def lineWords (s : State) (line : Nat) : List Word :=
  (List.range 32).map fun i => BitVec.ofNat 32 (s.num ⟨.hbm, 128 * line + 4 * i⟩ 4)

/-- A contribution takes its line: it joins its epoch's claim, claims a free line, or waits (R253). -/
def takeLine (s : State) (id : Nat) : State :=
  match s.contribs.find? fun c => c.id == id with
  | none => s
  | some c =>
    let line := c.pa / 128
    let yes (t : State) : State := { t with contribs := t.contribs.map fun x => if x.id = id then { x with accepted := true } else x }
    match s.claims.find? fun k => k.line == line with
    | some k => if k.lid = c.lid ∧ k.epoch = c.epoch then yes s else s
    | none =>
      yes { s with
        claims := s.claims ++ [⟨s.serial, c.lid, c.epoch, line, lineWords s line⟩]
        serial := s.serial + 1 }

/-- Contributions that n bytes of a log hold: a key and a value each, and what else its record has (log 1). -/
def logRoom (n : Nat) : Nat := n / (12 + Config.scatterPad)

/-- Contributions that satisfy a test number fewer than a limit; with so few in all they are not looked at. -/
def fewer (s : State) (limit : Nat) (p : Contribution → Bool) : Bool :=
  decide (s.contribs.length < limit) || decide ((s.contribs.filter p).length < limit)

/-- Where a contribution to a line finds room (R254): the 256 places of its slice, the log of its die, which all launches share,
and the launch's scatter area. -/
def scatterHeld (s : State) (lid pa : Nat) : Option Nat :=
  let line := pa / 128
  if fewer s 256 fun c => c.held == 0 && State.sliceOf .hbm (c.pa / 128) == State.sliceOf .hbm line then some 0
  else if fewer s (logRoom (2 ^ 21)) fun c => c.held == 1 && c.pa / Config.hbmDie == pa / Config.hbmDie then some 1
  else if fewer s (logRoom (4096 * s.attr.scatsize)) fun c => c.held == 2 && c.lid == lid then some 2
  else none

/-- One lane's contribution is sent, and its lane takes its next sequence number (R250, R257). -/
def contribute (s : State) (held : Nat) (p : Nat × Nat × Loc × Word) : State :=
  let l := p.1
  let seq := s.w.gsseq.getD l 0
  let id := s.serial
  let c : Contribution :=
    { id := id, lid := s.w.lid, gid := s.w.gid, epoch := s.w.epoch, key := scatterKey (s.linOf s.w) s.w.waveid l seq,
      va := p.2.1, pa := p.2.2.1.addr, value := p.2.2.2, accepted := false, held := held }
  let s1 : State := { s with contribs := s.contribs ++ [c], serial := id + 1 }
  takeLine (s1.onWave fun w => { w with gsseq := w.gsseq.setIfInBounds l (seq + 1) }) id

/-- The contributions of several lanes, in ascending order; where one finds no room, its slice's GSU reports a launch fault
(R254, R385). -/
def contributeAll (s : State) : List (Nat × Nat × Loc × Word) → Res
  | [] => .done s
  | p :: ps =>
    match scatterHeld s s.w.lid p.2.2.1.addr with
    | some held => contributeAll (contribute s held p) ps
    | none => .settled (slotLaunchFaultBy s (0x300 + State.sliceOf .hbm (p.2.2.1.addr / 128)) 0x7C 0 0)

/-- The checks of R257 on lanes and addresses, or their places. -/
def scatterPlaces (s : State) (lanes : List (Nat × Int)) : Except Res (List (Nat × Nat × Loc) × State) :=
  let bad := lanes.filter fun p => !addrOk p.2 4
  let odd := lanes.filter fun p => p.2 % 4 != 0
  let full := lanes.filter fun p => decide (16384 ≤ s.w.gsseq.getD p.1 0)
  if !bad.isEmpty then .error (laneTrap causeNoncanon bad)
  else if !odd.isEmpty then .error (laneTrap 0x78 odd)
  else if !full.isEmpty then .error (laneTrap 0x79 full)
  else
    let ls := lanes.map fun p => laneAccess s .g (.atom true) s.aspace p.1 p.2 4
    match lanesStop s s.aspace (.atom true) ls with
    | some r => .error r
    | none =>
      let out := ls.filter fun x => x.places.any fun l => l.area != .hbm
      if !out.isEmpty then .error (laneTrap 0x7A (out.map fun x => (x.lane, x.addr)))
      else .ok (ls.filterMap fun x => x.places.head?.map fun l => (x.lane, x.addr.toNat, l), keepXlats s s.aspace ls)

/-- `gsadd` (R257). -/
def doGsadd (a v : Nat) (s : State) : Res :=
  match scatterPlaces s ((checkedLanes s).map fun l => (l, (s.v64 a l).toInt)) with
  | .error e => e
  | .ok (ps, s1) => contributeAll s1 (ps.map fun p => (p.1, p.2.1, p.2.2, s.v v p.1))

/-- `gsflush` (R258): in an `.idempotent` launch it only waits, which its issue has done (R252). -/
def doGsflush (s : State) : Res :=
  if s.attr.idem then .done s
  else if s.w.sib.live then .trap (Trap.whole 0x7B 0)
  else
    let e := s.w.epoch + 1
    .done ((s.onWave fun w => { w with epoch := e, gsseq := Vector.replicate 32 0 }).updLaunch s.w.lid fun l =>
      { l with topEpoch := max l.topEpoch e })

def execGsadd (la a v : Nat) (s : State) := issue (.gsadd la a v) (doGsadd a v) s
def execGsflush (la : Nat) (s : State) := issue (.gsflush la) doGsflush s

/-- Every group of a launch has passed an epoch, groups that have not started included (R251). -/
def epochPassed (s : State) (l : Launch) (n : Nat) : Bool :=
  let queued := (s.deques.map fun d => (d.2.filter fun t => t.lid == l.lid).length).foldl (· + ·) 0
    + (s.postQueue.filter fun t => t.lid == l.lid).length
  l.chunks.isEmpty && l.waiting.isEmpty && l.frags.isEmpty && queued == 0
    && s.waves.all fun w => w.lid != l.lid || decide (n < w.epoch)

/-- SCATTER_CONTRIBUTION: a contribution that waits takes its line, if it is free (R253). -/
def execScatterContribution (id : Nat) (s : State) : Host.Outcome State Fault Refusal :=
  if s.contribs.any fun c => c.id == id && !c.accepted then .next (takeLine s id) else .next s

/-- Contributions in ascending order of their keys. -/
def byKey : List Contribution → List Contribution
  | [] => []
  | c :: cs =>
    let rest := byKey cs
    rest.takeWhile (fun d => decide (d.key < c.key)) ++ c :: rest.dropWhile (fun d => decide (d.key < c.key))

/-- The value of a word at its close (R253). -/
def closeWord (base : Word) (cs : List Contribution) : Word :=
  (byKey cs).foldl (fun x c => BitVec.ofNat 32 (FFmt.b32.addBits .rne c.value.toNat x.toNat)) base

/-- The words of a claimed line that received contributions, with their values at the close. -/
def closeLine (k : Claim) (cs : List Contribution) : List (Nat × Word) :=
  (List.range 32).filterMap fun i =>
    let mine := cs.filter fun c => c.pa % 128 / 4 == i
    if mine.isEmpty then none else some (i, closeWord (k.base.getD i 0) mine)

/-- LINE_CLOSE (R253): the line's words are written, the line is released, and a contribution that waited claims it: of several,
the first in the order in which they came (DESIGN CHOICE, log 71). -/
def execLineClose (id : Nat) (s : State) : Host.Outcome State Fault Refusal :=
  match s.claims.find? fun k => k.id == id with
  | none => .next s
  | some k =>
    match s.launch? k.lid with
    | none => .next { s with claims := s.claims.filter fun x => x.id != id }
    | some l =>
      if l.cancelled || !epochPassed s l k.epoch then .next s
      else
        let mine (c : Contribution) : Bool := c.accepted && c.lid == k.lid && c.epoch == k.epoch && c.pa / 128 == k.line
        let cs := s.contribs.filter mine
        let at_ (n : Nat) : Loc := ⟨.hbm, n⟩
        let cells := (closeLine k cs).flatMap fun p =>
          ((List.range 4).map fun j => at_ (128 * k.line + 4 * p.1 + j)).zip (leBytes 4 p.2.toNat)
        let s1 := engineWrites s k.lid none none cells (cs.map fun c => (c.va, at_ c.pa))
        let s2 : State := { s1 with
          claims := s1.claims.filter fun x => x.id != id
          contribs := s1.contribs.filter fun c => !mine c }
        let waiting := s2.contribs.filter fun c => !c.accepted && c.pa / 128 == k.line
        .next (waiting.foldl (fun t c => takeLine t c.id) s2)

/-- EPOCH_CLOSE of a launch: its lowest open epoch, once passed and applied (R251, R253); a counting window closes with it
(R356). -/
def execEpochClose (lid : Nat) (s : State) : Host.Outcome State Fault Refusal :=
  match s.launch? lid with
  | none => .next s
  | some l =>
    let n := l.gsdone
    if l.cancelled || decide (l.topEpoch < n) || !epochPassed s l n
        || s.contribs.any (fun c => c.lid == lid && c.epoch == n) then .next s
    else
      .next ((closeWindow { s with claims := s.claims.filter fun k => !(k.lid == lid && k.epoch == n) } l).updLaunch lid fun x =>
        { x with gsdone := x.gsdone + 1 })

end Sys2Proof.Machine
end

