-- ==== Sys2Proof/Machine/System.lean ====
section
/-! DEFINITION. Control registers, software traps, `tlbinv`, `wfe` and injected causes (R16 to R19, R65, R357,
R370 to R381). -/
namespace Sys2Proof.Machine

/-! ### Control registers -/

/-- EFFPRIO of a slot (R352). -/
def effPrio (w : Wave) (c : Slot) : Nat := if c.urgent.isSome then 3 else min 3 (w.prio + c.waited / 4096)

/-- The group of the wave in hand, or zeros. -/
def State.grp (s : State) (f : Group → Nat) : Nat := ((s.group? s.w.gid).map f).getD 0

/-- The launch of the wave in hand, or zeros. -/
def State.lau (s : State) (f : Launch → Nat) : Nat := ((s.launch? s.w.lid).map f).getD 0

/-- A 64-bit control register by its low index (R19). -/
def ctrlPair (s : State) (i : Nat) : DWord :=
  let n : Nat :=
    if i = 0x006 then s.grp fun g => g.lin
    else if i = 0x00B then s.lau fun l => l.ref
    else if i = 0x020 then s.w.lclock
    else if i = 0x022 then s.gts
    else if i = 0x030 then s.w.trapvec
    else if i = 0x101 then s.cur.trap.pc
    else if i = 0x105 then s.cur.trap.addr.toNat
    else if i = 0x107 then s.cur.trap.info.toNat
    else if i = 0x200 then s.grp fun g => (g.task.map fun t => t.frame.toNat).getD 0
    else if i = 0x202 then s.grp fun g => (g.task.map fun t => t.arg.toNat).getD 0
    else if i = 0x204 then s.attr.args.toNat
    else if i = 0x20C then s.cur.futaddr.toNat
    else if i = 0x20E then s.lau fun l => if l.attr.ndep = 0 then 0 else l.front
    else s.w.tape.tscale.toNat
  BitVec.ofNat 64 n

/-- Replay entry k of the slot. -/
def rqEntry (s : State) (k : Nat) : RqEntry := s.cur.rq.getD k RqEntry.zero

/-- A 32-bit control register in lane l (Tables 1.3, 7.7, 9.4, 10.6, 15.2 and 16.3). -/
def ctrlSingle (s : State) (i l : Nat) : Word :=
  if 0x140 ≤ i ∧ i < 0x180 then
    let e := rqEntry s ((i - 0x140) / 4)
    match (i - 0x140) % 4 with
    | 0 => e.word
    | 1 => e.pclo
    | 2 => e.pchi
    | _ => e.mask
  else if 0x180 ≤ i ∧ i < 0x1E0 then (rqEntry s ((i - 0x180) / 6)).scals.getD ((i - 0x180) % 6) 0
  else if i = 0x010 then s.cur.bank.fpmode
  else if i = 0x011 then s.w.sguard
  else if i = 0x100 then s.cur.trap.cause
  else if i = 0x103 then s.cur.trap.mask
  else if i = 0x104 then s.cur.trap.act
  else if i = 0x109 then s.w.evpend
  else if i = 0x1E2 then s.health
  else if i = 0x1F0 then s.pslice
  else if i = 0x300 then s.w.mxstat
  else if i = 0x301 then s.w.rstat
  else
    let n : Nat :=
      if i = 0x000 then l
      else if i = 0x001 then s.w.waveid
      else if i = 0x002 then (if s.w.curSec then 1 else 0)
      else if i = 0x003 then s.grp fun g => g.gx
      else if i = 0x004 then s.grp fun g => g.gy
      else if i = 0x005 then s.grp fun g => g.gz
      else if i = 0x008 then s.w.core
      else if i = 0x009 then s.w.cluster
      else if i = 0x00A then s.w.die
      else if i = 0x032 then s.w.priv
      else if 0x040 ≤ i ∧ i ≤ 0x047 then s.w.chain / 2 ^ (32 * (i - 0x040))
      else if i = 0x1E0 then s.ceCount.getD s.w.die 0
      else if i = 0x1E1 then s.ueCount.getD s.w.die 0
      else if i = 0x206 then s.attr.gx
      else if i = 0x207 then s.attr.gy
      else if i = 0x208 then s.attr.gz
      else if i = 0x209 then s.grp fun g => g.role
      else if i = 0x20A then s.grp fun g => g.roleGrp
      else if i = 0x20B then effPrio s.w s.cur
      else if i = 0x210 then s.attr.waves
      else if i = 0x304 then s.w.gsseq.getD l 0
      else s.lau fun x => x.gsdone
    BitVec.ofNat 32 n

/-- The value that `getc` reads at an index in lane l: the low or high word of a pair, the latched high word where it is
the pair's (R19), or a single register. -/
def ctrlRead (s : State) (i l : Nat) : Word :=
  if ctrlPairLow i then loWord (ctrlPair s i)
  else if 0 < i ∧ ctrlPairLow (i - 1) then
    match s.cur.bank.latch with
    | some (k, x) => if k = i - 1 then x else hiWord (ctrlPair s (i - 1))
    | none => hiWord (ctrlPair s (i - 1))
  else ctrlSingle s i l

/-- What `getc` changes besides its destination: the latch (R19), and the acquire of GSDONE (R253). -/
def ctrlReadEffect (s : State) (i : Nat) : State :=
  if ctrlPairLow i then
    s.onCur fun c => { c with bank := { c.bank with latch := some (i, hiWord (ctrlPair s i)) } }
  else if i = 0x305 then s.emptyL1 s.w.core
  else s

/-- `getc` (R379). -/
def doGetc (scalar : Bool) (r i : Nat) (s : State) : Res :=
  let t := ctrlReadEffect s i
  .done (if scalar then t.setS r (ctrlRead s i 0) else t.setV r fun l => ctrlRead s i l)

/-- A replay entry of the slot changed. -/
def setRq (s : State) (k : Nat) (f : RqEntry → RqEntry) : State :=
  s.onCur fun c => { c with rq := c.rq.setIfInBounds k (f (rqEntry s k)) }

/-- SGUARD is clamped (Table 1.3). -/
def clampGuard (x : Word) : Word := BitVec.ofNat 32 (max 16 (min 65536 x.toNat))

/-- `setc` of a value (R379): RW fields take it, RO fields stay, W1C bits clear. -/
def ctrlWrite (s : State) (i : Nat) (x : Word) : State :=
  if 0x140 ≤ i ∧ i < 0x180 then
    setRq s ((i - 0x140) / 4) fun e =>
      match (i - 0x140) % 4 with
      | 0 => { e with word := x }
      | 1 => { e with pclo := x }
      | 2 => { e with pchi := x }
      | _ => { e with mask := x }
  else if 0x180 ≤ i ∧ i < 0x1E0 then
    setRq s ((i - 0x180) / 6) fun e => { e with scals := e.scals.setIfInBounds ((i - 0x180) % 6) x }
  else if i = 0x010 then s.onCur fun c => { c with bank := { c.bank with fpmode := x &&& 7 } }
  else if i = 0x011 then s.onWave fun w => { w with sguard := clampGuard x }
  else if i = 0x030 then s.onWave fun w => { w with trapvec := w.trapvec / 2 ^ 32 * 2 ^ 32 + x.toNat }
  else if i = 0x031 then s.onWave fun w => { w with trapvec := x.toNat * 2 ^ 32 + w.trapvec % 2 ^ 32 }
  else if i = 0x101 then
    s.onCur fun c => { c with trap := { c.trap with pc := c.trap.pc / 2 ^ 32 * 2 ^ 32 + x.toNat } }
  else if i = 0x102 then
    s.onCur fun c => { c with trap := { c.trap with pc := x.toNat % 2 ^ 24 * 2 ^ 32 + c.trap.pc % 2 ^ 32 } }
  else if i = 0x1F0 then { s with pslice := x }
  else if i = 0x300 then s.onWave fun w => { w with mxstat := w.mxstat &&& ~~~(x &&& 3) }
  else if i = 0x301 then s.onWave fun w => { w with rstat := w.rstat &&& ~~~(x &&& 7) }
  else s

/-- `setc` (R16, R379). -/
def doSetc (scalar : Bool) (r i : Nat) (s : State) : Res :=
  .done (ctrlWrite s i (if scalar then s.sreg r else s.v r ((lowestLane s.m0).getD 0)))

def execGetc (scalar : Bool) (r i : Nat) (s : State) := issue (.getc scalar r i) (doGetc scalar r i) s
def execSetc (scalar : Bool) (r i : Nat) (s : State) := issue (.setc scalar r i) (doSetc scalar r i) s

/-! ### Software traps -/

/-- `trap` retires and then traps at the next instruction (R353, R377). -/
def execTrap (n : Nat) (s : State) := issue (.trap n) (fun s => .after s (Trap.whole (0xE0 + n) 0)) s

/-- `bkpt` (R377); TINFO holds the tag (Table 16.6). -/
def execBkpt (tag : Nat) (s : State) :=
  issue (.bkpt tag) (fun s => .after s { cause := 0xB0, info := BitVec.ofNat 64 (tag % 65536) }) s

/-! ### `tlbinv` -/

/-- A `tlbinv` of this extent and operand covers a range of an address space (R65). -/
def tlbCovers (e : TlbExtent) (x asn base size : Nat) : Bool :=
  match e with
  | .all => true
  | .space => asn == x % 4096
  | .page => asn == x % 4096 && decide (base < fieldAt x 16 40 * 65536 + 65536)
      && decide (fieldAt x 16 40 * 65536 < base + size)

/-- A store sent out of the package went through a removed translation: one of its bytes lies in a page that the operand covers,
or in the range of an entry that it removed (R65). -/
def wentThrough (s : State) (e : TlbExtent) (x : Nat) (removed : List (Nat × Nat × Nat)) (p : Posted) : Bool :=
  let va := p.addr.toNat
  let stop := va + p.size
  match s.launch? p.lid with
  | some l =>
    tlbCovers e x l.attr.asn (va / 65536 * 65536) ((stop + 65535) / 65536 * 65536 - va / 65536 * 65536)
      || removed.any fun r => r.1 == l.attr.asn && decide (r.2.1 < stop) && decide (va < r.2.1 + r.2.2)
  | none => false

/-- The stores that `tlbinv` waits for.  A scatter contribution accesses memory where its line closes, and holds that place
(R253, log 52). -/
def storesThrough (s : State) (e : TlbExtent) (x : Nat) (removed : List (Nat × Nat × Nat)) : List Nat :=
  (s.posted.filter (wentThrough s e x removed)).map fun p => p.id

/-- The entries that a `tlbinv` removes from the TLBs: ASN, first address and size. -/
def tlbRemoved (s : State) (e : TlbExtent) (x : Nat) : List (Nat × Nat × Nat) :=
  ((s.tlb.filter fun t => tlbCovers e x t.asn t.base t.size).map fun t => (t.asn, t.base, t.size)).eraseDups

/-- TLBs and the walkers' caches without the entries that a `tlbinv` covers (R65, R418). -/
def dropTranslations (s : State) (e : TlbExtent) (x : Nat) : State :=
  { s with
    tlb := s.tlb.filter fun t => !tlbCovers e x t.asn t.base t.size
    walks := s.walks.filter fun t => !tlbCovers e x t.asn t.base (pageSize t.level) }

/-- `tlbinv` (R65, R418): the entries go at once, and the slot then waits for what went through them.  A copy translates each
of its runs as it performs it, so none waits. -/
def doTlbinv (e : TlbExtent) (r : Nat) (s : State) : Res :=
  let x := (s.s64 r).toNat
  match s.cur.tlbWait with
  | none =>
    let ids := storesThrough s e x (tlbRemoved s e x)
    let t := dropTranslations s e x
    if ids.isEmpty then .done t else .hold (t.onCur fun c => { c with tlbWait := some ids })
  | some ids => if ids.any (storeOut s) then .hold s else .done (s.onCur fun c => { c with tlbWait := none })

def execTlbinv (e : TlbExtent) (r : Nat) (s : State) := issue (.tlbinv e r) (doTlbinv e r) s

/-! ### `wfe`, `evsig` and injected causes -/

/-- `wfe` (R380): the slot sleeps for at most 100 µs; with a cause pending it completes at once. -/
def doWfe (s : State) : Res :=
  if s.w.evpend ≠ 0 then .done s
  else
    .settled (s.onCur fun c => { c with
      wfe := some (s.gts + 100000), waited := 0, urgent := none, yielded := false, issuedAt := s.gts, stalled := false,
      staging := none })

def execWfe (s : State) := issue .wfe doWfe s

/-- WFE_TIMEOUT of the slot in hand (R380). -/
def execWfeTimeout (s : State) : Host.Outcome State Fault Refusal :=
  match s.cur.wfe with
  | some t => if t ≤ s.gts then .next (s.onWave fun w => w.endWfe w.curSec) else .next s
  | none => .next s

/-- The slot of a wave that takes injected causes (R381). -/
def Wave.eventSec (w : Wave) : Bool := !w.pri.live

/-- A slot takes a pending cause at once when it sleeps in `wfe`. -/
def takesEvent (w : Wave) (sec : Bool) : Bool := w.eventSec == sec && !(w.slot sec).inHandler

/-- Slots asleep in `wfe` that do not take the cause complete their `wfe`, as EVPEND is not 0 (R380). -/
def wakeOnEvent (w : Wave) : Wave :=
  let go (w : Wave) (sec : Bool) : Wave :=
    if (w.slot sec).live && (w.slot sec).wfe.isSome && !takesEvent w sec then w.endWfe sec else w
  go (go w false) true

/-- Bit c of a wave's EVPEND is set, with the issuer's word for TINFO (R381, Table 16.6). -/
def postEvent (c : Nat) (from_ : DWord) (w : Wave) : Wave :=
  wakeOnEvent { w with evpend := w.evpend ||| BitVec.ofNat 32 (2 ^ c), evfrom := assocSet w.evfrom c from_ }

/-- `evsig` (R381). -/
def doEvsig (c r : Nat) (s : State) : Res :=
  let x := (s.s64 r).toNat
  if x / 2 ^ 45 ≠ 0 then .trap (Trap.whole causeSpaceRange 0)
  else
    let lin := x % 2 ^ 40
    let wv := x / 2 ^ 40 % 32
    let from_ := BitVec.ofNat 64 (s.linOf s.w % 2 ^ 40 * 2 ^ 24 + s.w.waveid % 32 * 2 ^ 19)
    .done (s.mapWaves fun w => if w.lid = s.w.lid ∧ s.linOf w = lin ∧ w.waveid = wv then postEvent c from_ w else w)

def execEvsig (c r : Nat) (s : State) := issue (.evsig c r) (doEvsig c r) s

/-- The slot in hand can take an injected cause now (R381). -/
def injectable (s : State) : Bool :=
  let c := s.cur
  c.live && s.w.onCore && s.w.evpend != 0 && takesEvent s.w s.w.curSec && c.status == .running && c.barWait == .none
    && c.ra.isNone && c.sleep.isEmpty && c.missing.isEmpty && c.entering.isNone && !s.cancelled && !entryWaits s

/-- The lowest pending cause. -/
def lowestEvent (w : Wave) : Nat := (lowestLane w.evpend).getD 0

/-- TAKE_INJECTED_CAUSE of the slot in hand (R381). -/
def execTakeInjectedCause (s : State) : Host.Outcome State Fault Refusal :=
  if injectable s then
    let c := lowestEvent s.w
    let info := (assocGet s.w.evfrom c).getD 0
    let s1 := s.onWave fun w => { w with evpend := w.evpend &&& ~~~(BitVec.ofNat 32 (2 ^ c)), evfrom := assocDel w.evfrom c }
    .next (takeTrap s1 { cause := 0xC0 + c, info := info } s1.cur.pc)
  else .next s

end Sys2Proof.Machine
end

