-- ==== Sys2Proof/Machine/Tape.lean ====
section
/-! DEFINITION. The tape engine: items, compression, spills, drops, regeneration (R234 to R249). -/
namespace Sys2Proof.Machine

def causeTapeState : Nat := 0x75

/-! ### Items (R236, R237) -/

/-- Bytes of an item (Table 10.1). -/
def TapeItem.size : TapeItem → Nat
  | .data _ mask _ => 5 + 4 * (lanesOf mask).length
  | .opening _ => 33
  | .marker _ _ => 17

/-- Bytes of several items. -/
def itemsSize (xs : List TapeItem) : Nat := (xs.map TapeItem.size).foldl (· + ·) 0

/-- The item opens a folio. -/
def TapeItem.opens : TapeItem → Bool
  | .opening _ => true
  | .data _ _ _ | .marker _ _ => false

/-- The item is a data record. -/
def TapeItem.isData : TapeItem → Bool
  | .data _ _ _ => true
  | .opening _ | .marker _ _ => false

/-- The item is a marker. -/
def TapeItem.isMarker : TapeItem → Bool
  | .marker _ _ => true
  | .data _ _ _ | .opening _ => false

/-- The logical tape, the top first (R234). -/
def Tape.items (t : Tape) : List TapeItem := t.quire ++ t.area

/-- The items of the folio on top, without its opening. -/
def topFolio (xs : List TapeItem) : List TapeItem := xs.takeWhile fun x => !x.opens

/-- The folio on top is dropped (R239). -/
def topDropped (xs : List TapeItem) : Bool := (topFolio xs).any TapeItem.isMarker

/-- The header of the folio on top. -/
def topHeader (xs : List TapeItem) : Option Folio :=
  match xs.find? TapeItem.opens with
  | some (.opening f) => some f
  | _ => none

/-- The value of lane l in a data record's list of changed lanes. -/
def recorded (mask : Word) (vals : List Word) (l : Nat) : Word :=
  vals.getD ((lanesOf mask).filter fun k => decide (k < l)).length 0

/-- What the latest record of a register among these items, the latest first, represents for lane l (R237). -/
def represents (reg l : Nat) : List TapeItem → Word
  | [] => 0
  | .data r mask vals :: xs => if r = reg ∧ mask.getLsbD l then recorded mask vals l else represents reg l xs
  | _ :: xs => represents reg l xs

/-! ### Spills (R238 to R240) -/

/-- DROPB and DROPR of the folio on top of the area grow; its first drop writes the marker behind the opening. -/
def dropInto (recs area : List TapeItem) : List TapeItem :=
  if recs.isEmpty then area
  else
    match area with
    | .marker a b :: rest => .marker ((a + itemsSize recs) % 2 ^ 32) ((b + recs.length) % 2 ^ 32) :: rest
    | _ => .marker (itemsSize recs) recs.length :: area

/-- One unit, oldest item first, moves to the area, newest first. -/
def moveUnit (unit area : List TapeItem) : List TapeItem :=
  let all := unit.reverse ++ area
  match topHeader all with
  | some f =>
    if f.rcmp && !f.regen then dropInto (unit.filter TapeItem.isData) ((unit.filter TapeItem.opens) ++ area) else all
  | none => all

/-- The oldest unit of the quire's items, given oldest first. -/
def oldestUnit : List TapeItem → List TapeItem × List TapeItem
  | [] => ([], [])
  | x :: xs => (x :: xs.takeWhile fun y => !y.opens, xs.dropWhile fun y => !y.opens)

/-- Units move until n more bytes fit in the quire: the quire, oldest first, and the area. -/
def spillFor (cap n : Nat) : Nat → List TapeItem → List TapeItem → List TapeItem × List TapeItem
  | 0, q, area => (q, area)
  | fuel + 1, q, area =>
    if q.isEmpty ∨ (n ≤ cap ∧ itemsSize q + n ≤ cap) then (q, area)
    else
      let (unit, rest) := oldestUnit q
      spillFor cap n fuel rest (moveUnit unit area)

/-- The tape with an item appended (R238, R239); the marks of the quire's items go with them. -/
def appendItem (cap : Nat) (it : TapeItem) (t : Tape) : Tape :=
  let (q, area) := spillFor cap it.size (t.quire.length + 1) t.quire.reverse t.area
  let moved := t.quire.length - q.length
  let t1 := { t with badItems := (t.badItems.filter fun k => decide (moved ≤ k)).map fun k => k - moved }
  if cap < it.size then { t1 with quire := q.reverse, area := moveUnit [it] area }
  else { t1 with quire := it :: q.reverse, area := area }

/-- The item at place i from the top lies in the quire in a bad granule (R97). -/
def Tape.badAt (t : Tape) (i : Nat) : Bool := decide (i < t.quire.length) && t.badItems.contains (t.quire.length - 1 - i)

/-- A spill drops the item at place i from the top, and so does not read it (R239). -/
def Tape.dropsAt (t : Tape) (i : Nat) : Bool :=
  let xs := t.items.drop i
  (xs.head?.any TapeItem.isData) && (topHeader xs).any fun f => f.rcmp && !f.regen

/-- A spill after which the quire holds n of its items reads one that lies in a bad granule (R98, log 72). -/
def Tape.badSpill (t : Tape) (n : Nat) : Bool :=
  !t.badItems.isEmpty && (List.range t.quire.length).any fun i => decide (n ≤ i) && t.badAt i && !t.dropsAt i

/-- An item that `tape.pop` reads lies in a bad granule: the openings above the record, the record, and its folio's earlier
records of the same register; or, for a dropped folio, its opening (R98, R237, log 72). -/
def Tape.badPop (t : Tape) (skip : Nat) : Bool :=
  let xs := t.items.drop skip
  let folio := topFolio xs
  let sameReg (x : TapeItem) : Bool :=
    match xs.head?, x with
    | some (.data r _ _), .data q _ _ => r == q
    | _, _ => false
  !t.badItems.isEmpty &&
    ((List.range skip).any t.badAt
      || if topDropped xs then t.badAt (skip + folio.length)
         else (List.range folio.length).any fun i => t.badAt (skip + i) && (i == 0 || (folio[i]?).any sameReg))

/-- The 32-B header of a folio (Table 10.2). -/
def Folio.bytes (f : Folio) : List Byte :=
  leBytes 8 f.entry.toNat ++ leBytes 8 f.wset.toNat ++ leBytes 8 f.scale.toNat ++ leBytes 4 f.pseq
    ++ leBytes 4 ((if f.rcmp then 1 else 0) + if f.regen then 2 else 0)

/-- An item as it lies on the tape, its header byte last (Tables 10.1 and 10.3). -/
def TapeItem.bytes : TapeItem → List Byte
  | .data reg mask vals => vals.flatMap (fun x => leBytes 4 x.toNat) ++ leBytes 4 mask.toNat ++ [BitVec.ofNat 8 reg]
  | .opening f => f.bytes ++ [0x80]
  | .marker dropb dropr => leBytes 4 dropb ++ leBytes 4 dropr ++ leBytes 8 0 ++ [0x81]

/-- The bytes of an area's items, which are given newest first, from an offset on. -/
def areaBytes (area : List TapeItem) (start : Nat) : List Byte := (area.reverse.flatMap TapeItem.bytes).drop start

/-- The engine writes bytes of the area of the wave in hand. -/
def writeArea (s : State) (va : Nat) (ls : List Loc) (xs : List Xlat) (data : List Byte) : State :=
  let s1 := fillTlbs s (.core s.w.core) s.aspace xs
  let s2 := engineWrites s1 s.w.lid none none (ls.zip data) (((List.range ls.length).zip ls).map fun p => (va + p.1, p.2))
  s2.onWave fun w => { w with tape := { w.tape with spoiled := s.w.tape.spoiled } }

/-- The offset in the area from which a spill writes: the marker on top of the area is written again when it has grown
(R239). -/
def spillStart (old new : List TapeItem) : Nat :=
  match old with
  | x :: _ =>
    if x.isMarker && (new.drop (new.length - old.length)).head? != some x then itemsSize old - 17 else itemsSize old
  | [] => 0

/-- An item appended to the tape of the wave in hand: TAPE_FULL and the spill's faults come first (R240), then an error in the
quire's bytes, which kills the group (R98). -/
def append (s : State) (it : TapeItem) : Except Res State :=
  let old := s.w.tape
  let new := appendItem s.attr.quire it old
  let a1 := itemsSize new.area
  let start := spillStart old.area new.area
  let left := if s.attr.quire < it.size then new.quire.length else new.quire.length - 1
  let done (t : State) : State := t.onWave fun w => { w with tape := new }
  if s.attr.tapesize < a1 then .error (.trap (Trap.whole 0x74 0))
  else if a1 = start then .ok (done s)
  else
    let va := tapeArea s s.attr s.w + start
    match access s (.core s.w.core) s.aspace .store va (a1 - start) with
    | .error (c, at_) => .error (wholeCause s .store c at_ (BitVec.ofNat 64 at_))
    | .ok (ls, xs) =>
      if old.badSpill left then .error (.settled (killGroup s s.w.gid causeScratchUe))
      else .ok (done (writeArea s va ls xs (areaBytes new.area start)))

/-! ### The instructions (R245 to R248) -/

/-- `tape.mark` (R246). -/
def doTapeMark (rcmp : Bool) (r : Nat) (s : State) : Res :=
  if s.w.tape.regen then .trap (Trap.whole causeTapeState 0)
  else
    let wset := s.s64 (r + 2)
    let f : Folio :=
      { entry := s.s64 r, wset := wset, scale := s.s64 (r + 4), regen := false, rcmp := rcmp,
        pseq := if wset = 0 then 0 else pseqOf s s.attr.asn wset.toNat }
    match append s (.opening f) with
    | .error e => e
    | .ok t => .done (t.onWave fun w => { w with tape := { w.tape with isOpen := true, base := [] } })

/-- `tape.rec` (R237, R246). -/
def doTapeRec (r : Nat) (s : State) : Res :=
  if !s.w.tape.isOpen then .trap (Trap.whole causeTapeState 0)
  else
    let base := (assocGet s.w.tape.base r).getD (List.replicate 32 0)
    let mask := maskWhere fun l => s.m0.getLsbD l && s.v r l != Lanes.at base l
    match append s (.data r mask ((lanesOf mask).map fun l => s.v r l)) with
    | .error e => e
    | .ok t =>
      .done (t.onWave fun w => { w with tape := { w.tape with
        base := assocSet w.tape.base r (mkLanes fun l => if mask.getLsbD l then s.v r l else Lanes.at base l) } })

/-- `tape.seal` (R246). -/
def doTapeSeal (s : State) : Res :=
  .done (s.onWave fun w => { w with tape :=
    if w.tape.regen then { w.tape with isOpen := false, regen := false, view := none, tscale := 0, base := [] }
    else { w.tape with isOpen := false, base := [] } })

/-- The `tape.stat` word (Table 10.5). -/
def tapeStat (t : Tape) : Word :=
  let bit (b : Bool) (n : Nat) : Nat := if b then 2 ^ n else 0
  BitVec.ofNat 32 (bit t.isOpen 31 + bit t.regen 30 + bit t.view.isSome 29 + bit (t.isOpen && topDropped t.items) 28
    + min (itemsSize t.items) 0xFFFFFFF)

/-- `tape.stat` (R246). -/
def doTapeStat (d : Nat) (s : State) : Res := .done (s.setS d (tapeStat s.w.tape))

/-- The tape with its top n items removed. -/
def Tape.drop (t : Tape) (n : Nat) : Tape :=
  { t with
    quire := t.quire.drop n
    area := t.area.drop (n - t.quire.length)
    badItems := t.badItems.filter fun k => decide (k < t.quire.length - n) }

/-- The header of a folio as the engine reads it back, unless the program has written to the tape area (R235). -/
def Folio.readBack (s : State) (f : Folio) : Folio :=
  let q (k : Nat) : DWord := Config.freeWord s.free (2 * k + 1) ++ Config.freeWord s.free (2 * k)
  if s.w.tape.spoiled then { f with entry := q 0, wset := q 1, scale := q 2, pseq := (Config.freeWord s.free 6).toNat } else f

/-- The read that brings the top n items of the tape into the quire, as far as they lie in the area (R240, R241): what it
meets, or its translations. -/
def fill (n : Nat) (s : State) : Except Res State :=
  let t := s.w.tape
  let size := itemsSize (t.area.take (n - t.quire.length))
  if size = 0 then .ok s
  else
    match access s (.core s.w.core) s.aspace .load (tapeArea s s.attr s.w + (itemsSize t.area - size)) size with
    | .error (c, at_) => .error (wholeCause s .load c at_ (BitVec.ofNat 64 at_))
    | .ok (_, xs) => .ok (fillTlbs s (.core s.w.core) s.aspace xs)

/-- A regeneration (R248): the slot's flights have completed, and its windows close once `v127` has been checked against them
(R24). -/
def regenerate (xs : List TapeItem) (skip : Nat) (s0 : State) : Res :=
  if s0.w.sib.live then .trap (Trap.whole 0x77 0)
  else if s0.w.budget < 128 then .trap (Trap.whole causeRegRange 0)
  else if hitsWindow s0 [.v 127] [.v 127] then .trap (Trap.whole causeLookahead 0)
  else
    match topHeader xs, fill (skip + (topFolio xs).length + 1) s0 with
    | none, _ => .trap (Trap.whole 0x76 0)
    | some _, .error e => e
    | some f0, .ok s =>
      let f := f0.readBack s
      let g : Folio := { f with rcmp := false, regen := true }
      let s1 := s.onWave fun w => { w with tape := w.tape.drop (skip + (topFolio xs).length + 1) }
      match append s1 (.opening g) with
      | .error e => e
      | .ok t =>
        let s2 := t.onWave fun w => { w with tape := { w.tape with
          isOpen := true
          regen := true
          view := if f.wset = 0 then none else some (f.wset.toNat, f.pseq)
          tscale := f.scale
          base := [] } }
        let s3 := if s.w.tape.spoiled then { s2 with free := s2.free + 1 } else s2
        let s4 := clearBadRegs { writes := [.v 127] } s.m0 (s3.setV 127 fun _ => BitVec.ofNat 32 s.cur.pc)
        .settled (s4.onCur fun c => { c with
          pc := pcOf f.entry.toNat, windows := [], waited := 0, urgent := none, yielded := false, issuedAt := s.gts,
          stalled := false, staging := none })

/-- A record's values for the slot's lanes, taken from the tape unless the program has written to its area (R235). -/
def popped (s : State) (reg : Nat) (xs : List TapeItem) (l : Nat) : Word :=
  if s.w.tape.spoiled then Config.freeWord s.free l else represents reg l xs

/-- `tape.pop` (R247). -/
def doTapePop (la d : Nat) (s0 : State) : Res :=
  let t := s0.w.tape
  let skip := (t.items.takeWhile TapeItem.opens).length
  let xs := t.items.drop skip
  if t.regen then .trap (Trap.whole causeTapeState 0)
  else
    match xs, fill (skip + 1) s0 with
    | [], _ => .trap (Trap.whole 0x76 0)
    | _ :: _, .error e => e
    | x :: rest, .ok s =>
      if t.badPop skip then .settled (killGroup s s.w.gid causeScratchUe)
      else if topDropped xs then (if s.cur.flights.isEmpty then regenerate xs skip s else .hold s)
      else
        match x with
        | .data reg _ _ =>
            let s1 := (if t.spoiled then { s with free := s.free + 1 } else s).setV d (popped s reg (topFolio xs))
            let isOpen := t.isOpen && skip == 0
            let base := if isOpen then assocSet t.base reg (mkLanes fun l => represents reg l (topFolio rest)) else []
            .done (addWindow (s1.onWave fun w => { w with tape := { t.drop (skip + 1) with isOpen := isOpen, base := base } }) la
              [.v 127] [.v 127])
        | .opening _ | .marker _ _ => .trap (Trap.whole 0x76 0)

def execTapeRec (la a : Nat) (s : State) := issue (.tapeRec la a) (doTapeRec a) s
def execTapePop (la d : Nat) (s : State) := issue (.tapePop la d) (doTapePop la d) s
def execTapeMark (la : Nat) (rcmp : Bool) (r : Nat) (s : State) := issue (.tapeMark la rcmp r) (doTapeMark rcmp r) s
def execTapeSeal (la : Nat) (s : State) := issue (.tapeSeal la) doTapeSeal s
def execTapeStat (la d : Nat) (s : State) := issue (.tapeStat la d) (doTapeStat d) s

end Sys2Proof.Machine
end

