-- ==== Sys2Proof/Machine/Texture.lean ====
section
/-! DEFINITION. Texture sampling and its adjoint (R225 to R228). -/
namespace Sys2Proof.Machine

/-- A texture descriptor (Table 9.6). -/
structure TexDesc where
  base : Nat
  gbase : Nat
  clampV : Bool
  clampU : Bool
  trilinear : Bool
  fmt : Nat
  levels : Nat
  height : Nat
  width : Nat
  deriving DecidableEq, Repr

def TexDesc.ofWords (ws : List Nat) : TexDesc :=
  { base := word64 ws 0, gbase := word64 ws 8, clampV := fieldOf ws 0x10 41 1 == 1, clampU := fieldOf ws 0x10 40 1 == 1,
    trilinear := fieldOf ws 0x10 39 1 == 1, fmt := fieldOf ws 0x10 36 3, levels := fieldOf ws 0x10 32 4,
    height := fieldOf ws 0x10 16 14 + 1, width := fieldOf ws 0x10 0 14 + 1 }

/-- Bytes of a texel (Table 9.7). -/
def texelSize (fmt : Nat) : Nat :=
  match fmt with
  | 0 => 16 | 1 => 4 | 2 => 8 | 3 => 8 | _ => 4

/-- W_ℓ and H_ℓ (R226). -/
def TexDesc.w (d : TexDesc) (l : Nat) : Nat := max 1 (d.width / 2 ^ l)
def TexDesc.h (d : TexDesc) (l : Nat) : Nat := max 1 (d.height / 2 ^ l)

/-- OFF_ℓ for texels of z bytes (R226). -/
def TexDesc.off (d : TexDesc) (z : Nat) : Nat → Nat
  | 0 => 0
  | l + 1 => d.off z l + 128 * ((d.w l * d.h l * z + 127) / 128)

/-- The end of the last level (R226). -/
def TexDesc.span (d : TexDesc) (z : Nat) : Nat := d.off z (d.levels - 1) + d.w (d.levels - 1) * d.h (d.levels - 1) * z

/-- The checks of R211 on a texture descriptor; GBASE counts for `texadj`. -/
def texOk (ws : List Nat) (adj : Bool) : Bool :=
  let d := TexDesc.ofWords ws
  fieldOf ws 0x10 42 22 == 0 && fieldOf ws 0x10 30 2 == 0 && fieldOf ws 0x10 14 2 == 0 && word64 ws 0x18 == 0
    && decide (d.fmt ≤ 4) && decide (1 ≤ d.levels) && d.base % 128 == 0
    && decide (d.base + d.span (texelSize d.fmt) ≤ 2 ^ 55)
    && (!adj || (d.gbase % 128 == 0 && decide (d.gbase + d.span 16 ≤ 2 ^ 55)))

/-- Four channels of a texel's bytes (Table 9.7). -/
def decodeTexel (fmt raw : Nat) : List Nat :=
  let one := 0x3F800000
  let w (k : Nat) : Nat := raw / 2 ^ (32 * k) % 2 ^ 32
  match fmt with
  | 0 => [w 0, w 1, w 2, w 3]
  | 1 => [w 0, 0, 0, one]
  | 2 => [w 0, w 1, 0, one]
  | 3 => (List.range 4).map fun k => cvtWiden FFmt.b16 (raw / 2 ^ (16 * k) % 2 ^ 16)
  | _ => (List.range 4).map fun k => rneRatio ((raw / 2 ^ (8 * k) % 256 : Nat) : Int) 255 0

/-- The pattern is an infinity or a NaN. -/
def nonFinite (x : Nat) : Bool := match val32 x with
  | .nan | .inf _ => true
  | .fin _ _ _ => false

/-- fix(c) (R227). -/
def fixCoord (x : Nat) : Nat := if nonFinite x then 0 else x

/-- The exact value of a finite pattern as m × 2^e. -/
def exact32 (x : Nat) : Int × Int := (val32 x).parts

/-- floor(m × 2^e). -/
def floorOf (p : Int × Int) : Int := if 0 ≤ p.2 then p.1 * 2 ^ p.2.toNat else p.1 / 2 ^ (-p.2).toNat

/-- m × 2^e as a value. -/
def valOf (m e : Int) : FVal := .fin (decide (m < 0)) m.natAbs e

/-- The fraction x − floor(x), exact. -/
def fracOf (p : Int × Int) : FVal :=
  if 0 ≤ p.2 then .fin false 0 0 else valOf (p.1 - floorOf p * 2 ^ (-p.2).toNat) p.2

/-- rne(1 − x). -/
def oneMinus (x : FVal) : FVal := val32 (rneSum [val32 0x3F800000, x.negate])

/-- A coordinate scaled to a level's texels: its cell, and the fraction in it; free where the scaled coordinate
overflows (R227, log 1). -/
def texAxis (x n : Nat) (free k : Nat) : Int × FVal :=
  let sx := rneSum [(val32 x).mul (.fin false n 0), .fin true 1 (-1)]
  if nonFinite sx then (Config.freeNat free k, val32 (Config.freeWord free k).toNat)
  else (floorOf (exact32 sx), fracOf (exact32 sx))

/-- idx of R227. -/
def texIndex (clamp : Bool) (n : Nat) (i : Int) : Nat :=
  if clamp then (max 0 (min i ((n : Int) - 1))).toNat else (i % n).toNat

/-- The cell of a level that a lane samples: texel columns and rows, and weights (R227). -/
structure Cell where
  lvl : Nat
  cols : Nat × Nat
  rows : Nat × Nat
  wu : FVal × FVal
  wv : FVal × FVal

/-- The cell of a level. -/
def texCell (d : TexDesc) (u v free k l : Nat) : Cell :=
  let (i, fu) := texAxis u (d.w l) free k
  let (j, fv) := texAxis v (d.h l) free (k + 1)
  ⟨l, (texIndex d.clampU (d.w l) i, texIndex d.clampU (d.w l) (i + 1)),
    (texIndex d.clampV (d.h l) j, texIndex d.clampV (d.h l) (j + 1)), (oneMinus fu, fu), (oneMinus fv, fv)⟩

/-- The taps of a cell in the order of R228: column, row and weights. -/
def Cell.taps (c : Cell) : List (Nat × Nat × FVal × FVal) :=
  [(c.cols.1, c.rows.1, c.wu.1, c.wv.1), (c.cols.2, c.rows.1, c.wu.2, c.wv.1), (c.cols.1, c.rows.2, c.wu.1, c.wv.2),
    (c.cols.2, c.rows.2, c.wu.2, c.wv.2)]

/-- What a lane samples: its cells, and for two levels the weights of both (R227). -/
structure Sample where
  cells : List Cell
  wl0 : FVal
  f : FVal

/-- Clamp of a lod to 0 and NLEV − 1, exact. -/
def clampLod (d : TexDesc) (x : Nat) : Int × Int :=
  let p := exact32 x
  let top : Int := (d.levels : Int) - 1
  if p.1 ≤ 0 then (0, 0) else if top ≤ floorOf p then (top, 0) else p

/-- A lane's sample (R227). -/
def sampleOf (d : TexDesc) (u v lod free lane : Nat) : Sample :=
  let lo := clampLod d (fixCoord lod)
  let cell (n l : Nat) : Cell := texCell d (fixCoord u) (fixCoord v) free (4 * lane + 2 * n) l
  if d.trilinear then
    let l0 := (floorOf lo).toNat
    ⟨[cell 0 l0, cell 1 (min (l0 + 1) (d.levels - 1))], oneMinus (fracOf lo), fracOf lo⟩
  else ⟨[cell 0 (rndInt .rne lo.1 lo.2).toNat], val32 0x3F800000, val32 0⟩

/-- The sample of lane l. -/
def laneSample (s : State) (d : TexDesc) (a l : Nat) : Sample :=
  sampleOf d (s.v a l).toNat (s.v (a + 1) l).toNat (s.v (a + 2) l).toNat s.free l

/-- Address of a texel of a level, z bytes each, from a base on (R226). -/
def texelAddr (d : TexDesc) (base z l i j : Nat) : Nat := base + d.off z l + (j * d.w l + i) * z

/-- The texels that a lane reads, in order. -/
def sampleReads (d : TexDesc) (l : Nat) (x : Sample) : List (Nat × Int × Nat) :=
  x.cells.flatMap fun c => c.taps.map fun t =>
    (l, (texelAddr d d.base (texelSize d.fmt) c.lvl t.1 t.2.1 : Int), texelSize d.fmt)

/-- rne(y*b + rne(x*a)), the products exact. -/
def blend (sum : List FVal → Nat) (x : Nat) (a : FVal) (y : Nat) (b : FVal) : Nat :=
  sum [(val32 y).mul b, val32 (sum [(val32 x).mul a])]

/-- bilerp of one channel: the four texels' values in the order of the taps (R227). -/
def bilerp (c : Cell) (t : List Nat) : Nat :=
  let r0 := blend rneSum (t.getD 0 0) c.wu.1 (t.getD 1 0) c.wu.2
  let r1 := blend rneSum (t.getD 2 0) c.wu.1 (t.getD 3 0) c.wu.2
  blend rneSum r0 c.wv.1 r1 c.wv.2

/-- The values of one channel of a cell's texels. -/
def channel (ts : List (List Nat)) (k : Nat) : List Nat := ts.map fun t => t.getD k 0

/-- A value of each of the sample's levels, combined (R227, R228). -/
def Sample.combine (sum : List FVal → Nat) (x : Sample) (vals : List Nat) : Nat :=
  match vals with
  | [a, b] => blend sum a x.wl0 b x.f
  | a :: _ => a
  | [] => 0

/-- The texels of a sample's cells, decoded, four for each cell. -/
def cellTexels (d : TexDesc) (x : Sample) (raw : List Nat) : List (Cell × List (List Nat)) :=
  ((List.range x.cells.length).zip x.cells).map fun p => (p.2, ((raw.drop (4 * p.1)).take 4).map (decodeTexel d.fmt))

/-- The results of one lane of `tex`. -/
def texLane (d : TexDesc) (x : Sample) (raw : List Nat) : List Nat :=
  let cs := cellTexels d x raw
  (List.range 4).map fun k => x.combine rneSum (cs.map fun c => bilerp c.1 (channel c.2 k))

/-- The texel reads of the active lanes performed: each lane's sample with the bytes it read. -/
def texReads (s : State) (d : TexDesc) (a : Nat) : Except Res (List (Nat × Sample × List Nat) × State) :=
  let xs := (lanesOf s.m0).map fun l => (l, laneSample s d a l)
  match renderReads s (xs.flatMap fun p => sampleReads d p.1 p.2) with
  | .error e => .error e
  | .ok ls =>
    let raw := readValues s ls
    let per := if d.trilinear then 8 else 4
    let out := ((List.range xs.length).zip xs).map fun p => (p.2.1, p.2.2, (raw.drop (per * p.1)).take per)
    let odd := (lanesOf s.m0).any fun l => (List.range 3).any fun k => nonFinite (s.v (a + k) l).toNat
    let s1 := afterRead s s.viewSpace ls .nm
    let s2 : State := { s1 with free := s1.free + 1 }
    .ok (out, if odd then setRstat s2 2 else s2)

/-- `tex` (R227). -/
def doTex (r a d : Nat) (s : State) : Res :=
  match descriptor r s with
  | .error e => e
  | .ok (ws, s1) =>
    if !texOk ws false then badDescriptor s r
    else Res.capturing ws <|
      let desc := TexDesc.ofWords ws
      match texReads s1 desc a with
      | .error e => e
      | .ok (out, t) => .done (setBlock t d 4 (out.map fun p => (p.1, texLane desc p.2.1 p.2.2)))

def execTex (la r a d : Nat) (s : State) := issue (.tex la r a d) (doTex r a d) s

/-! ### `texadj` (R228) -/

/-- The contributions of a lane: address and value, in the order of R228, which names no sign for exact zeros (R115). -/
def adjContribs (d : TexDesc) (x : Sample) (g : Nat → Nat) : List (Nat × Word) :=
  ((List.range x.cells.length).zip x.cells).flatMap fun p =>
    p.2.taps.flatMap fun t =>
      let w0 := rneZero [t.2.2.1.mul t.2.2.2]
      let w := if d.trilinear then rneZero [(val32 w0).mul (if p.1 = 0 then x.wl0 else x.f)] else w0
      (List.range 4).map fun k =>
        (texelAddr d d.gbase 16 p.2.lvl t.1 t.2.1 + 4 * k, BitVec.ofNat 32 (rneZero [(val32 w).mul (val32 (g k))]))

/-- Du and Dv of a cell (R228), an exact zero of each step +0 (R115).  R228 cites no table for infinite texels or gradients: the
model takes Table 6.4's rows for 0 × ∞ and for infinities of both signs (DESIGN CHOICE, log 68). -/
def adjCell (d : TexDesc) (c : Cell) (ts : List (List Nat)) (g : Nat → Nat) : Nat × Nat :=
  let sub (x y : Nat) : Nat := rneZero [val32 x, (val32 y).negate]
  let du (k : Nat) : Nat :=
    let t := channel ts k
    blend rneZero (sub (t.getD 1 0) (t.getD 0 0)) c.wv.1 (sub (t.getD 3 0) (t.getD 2 0)) c.wv.2
  let dv (k : Nat) : Nat :=
    let t := channel ts k
    blend rneZero (sub (t.getD 2 0) (t.getD 0 0)) c.wu.1 (sub (t.getD 3 0) (t.getD 1 0)) c.wu.2
  let times (f : Nat → Nat) (k : Nat) : FVal := (val32 (g k)).mul (val32 (f k))
  let total (f : Nat → Nat) : Nat := [1, 2, 3].foldl (fun acc k => rneZero [times f k, val32 acc]) (rneZero [times f 0])
  let scale (x n : Nat) : Nat := rneZero [(val32 x).mul (.fin false n 0)]
  (scale (total du) (d.w c.lvl), scale (total dv) (d.h c.lvl))

/-- The results of one lane of `texadj`. -/
def texadjLane (d : TexDesc) (x : Sample) (raw : List Nat) (g : Nat → Nat) : List Nat :=
  let ds := (cellTexels d x raw).map fun c => adjCell d c.1 c.2 g
  [x.combine rneZero (ds.map fun p => p.1), x.combine rneZero (ds.map fun p => p.2)]

/-- dL/dR to dL/dA of lane l. -/
def adjInput (s : State) (a l k : Nat) : Nat := (s.v (a + 3 + k) l).toNat

/-- The checks of R228 before any lane contributes, and the places of the words. -/
def adjPlaces (s : State) (per : Nat) (cs : List (Nat × Nat × Word)) : Except Res (List (Nat × Nat × Loc × Word) × State) :=
  let full := (checkedLanes s).filter fun l => decide (16384 < s.w.gsseq.getD l 0 + per)
  if !full.isEmpty then .error (laneTrap 0x79 (full.map fun l => (l, 0)))
  else
    let ls := cs.map fun c => laneAccess s .g (.atom true) s.aspace c.1 c.2.1 4
    match lanesStop s s.aspace (.atom true) ls with
    | some r => .error r
    | none =>
      let out := ls.filter fun x => x.places.any fun l => l.area != .hbm
      if !out.isEmpty then .error (laneTrap 0x7A (out.map fun x => (x.lane, x.addr)))
      else
        .ok ((cs.zip ls).filterMap fun p => p.2.places.head?.map fun l => (p.1.1, p.1.2.1, l, p.1.2.2), keepXlats s s.aspace ls)

/-- `texadj` (R228). -/
def doTexadj (r a d : Nat) (s : State) : Res :=
  match descriptor r s with
  | .error e => e
  | .ok (ws, s1) =>
    if !texOk ws true then badDescriptor s r
    else Res.capturing ws <|
      let desc := TexDesc.ofWords ws
      match texReads s1 desc a with
      | .error e => e
      | .ok (out, s2) =>
        let lanes := checkedLanes s
        let cs := (out.filter fun p => lanes.contains p.1).flatMap fun p =>
          (adjContribs desc p.2.1 (adjInput s a p.1)).map fun c => (p.1, c.1, c.2)
        match adjPlaces s2 (if desc.trilinear then 32 else 16) cs with
        | .error e => e
        | .ok (ps, s3) =>
          (contributeAll s3 ps).andThen fun t =>
            .done (setBlock t d 2 (out.map fun p => (p.1, texadjLane desc p.2.1 p.2.2 (adjInput s a p.1))))

def execTexadj (la r a d : Nat) (s : State) := issue (.texadj la r a d) (doTexadj r a d) s

end Sys2Proof.Machine
end

