-- ==== Sys2Proof/Machine/Training.lean ====
section
/-! DEFINITION. `stash`, and the update units (11_training_path). -/
namespace Sys2Proof.Machine

/-! ### `stash` (R259 to R261) -/

/-- K of Table 11.1. -/
def StashK.rows : StashK → Nat
  | .k8 => 8 | .k16 => 16 | .k32 => 32

/-- The elements that a stash writes: lane, row, and address, the plain tile first (R261). -/
def stashElems (s : State) (z k : Nat) (p t : Int) : List (Nat × Nat × Int) :=
  let cells := (checkedLanes s).flatMap fun l => (List.range k).map fun i => (l, i)
  (cells.map fun c => (c.1, c.2, p + ((32 * c.2 + c.1) * z : Nat)))
    ++ cells.map fun c => (c.1, c.2, t + ((k * c.1 + c.2) * z : Nat))

/-- Two regions of n bytes share a byte. -/
def overlaps (a b : Int) (n : Nat) : Bool := decide (a < b + n) && decide (b < a + n)

/-- `stash` (R260, R261). -/
def doStash (wide : Bool) (kc : StashK) (r v : Nat) (s : State) : Res :=
  let z := if wide then 4 else 2
  let k := StashK.rows kc
  let p := (s.s64 r).toInt
  let t := (s.s64 (r + 2)).toInt
  let n := k * 32 * z
  let bad (cause : Nat) (a : Int) : Res := .trap (Trap.whole cause (BitVec.ofInt 64 a))
  if !addrOk p n then bad causeNoncanon p
  else if !addrOk t n then bad causeNoncanon t
  else if p % 128 ≠ 0 then bad 0x57 p
  else if t % 128 ≠ 0 then bad 0x57 t
  else if overlaps p t n then .trap (Trap.whole 0x58 0)
  else
    let ls := (stashElems s z k p t).map fun e =>
      (laneAccess s .g .store s.aspace e.1 e.2.2 z, leBytes z (s.v (v + e.2.1) e.1).toNat)
    let accs := ls.map fun x => x.1
    match lanesStop s s.aspace .store accs with
    | some res =>
      let c := accs.foldl (fun acc x => firstCause acc x.cause) none
      wholeRes s (((accs.find? fun x => x.cause == c).map fun x => x.addr).getD 0) res
    | none =>
      match storageStop s (accs.map fun x => (x, s.partBad x.places)) with
      | some res => wholeRes s p res
      | none => .done (performStores s s.aspace ls .nm false)

def execStash (la : Nat) (wide : Bool) (k : StashK) (r v : Nat) (s : State) :=
  issue (.stash la wide k r v) (doStash wide k r v) s

/-! ### `upd` (R262, R263) -/

/-- Commands that a unit's queue holds (R263). -/
def updQueueSize : Nat := 16

/-- Cause of a malformed command. -/
def causeUpd : Nat := 0x59

/-- A captured command of the slot in hand (Table 11.2). -/
def updOf (s : State) (ws : List Nat) : UpdCmd :=
  let q (off : Nat) : Nat := fieldOf ws off 0 64
  let w (off : Nat) : Word := BitVec.ofNat 32 (fieldOf ws off 0 32)
  { id := s.serial, die := s.w.die, lid := s.w.lid, wid := s.w.wid, pubAt := none, spoiled := false, w := q 0x00, g := q 0x08, m := q 0x10, v := q 0x18,
    wset := q 0x20, done := q 0x28, mode := fieldOf ws 0x30 32 2, count := fieldOf ws 0x30 0 32, lr := w 0x38,
    wd := w 0x3C, beta1 := w 0x40, beta2 := w 0x44, eps := w 0x48, clip := w 0x4C, started := false, step := none,
    pos := 0, sleep := [], missing := [], declined := [] }

/-- The arrays of a command (R262). -/
def UpdCmd.arrays (u : UpdCmd) : List Nat := [u.w, u.g, u.m] ++ if u.mode = 0 then [] else [u.v]

/-- Reserved bits, MODE, COUNT and alignments (R262, R263). -/
def updOk (ws : List Nat) (u : UpdCmd) : Bool :=
  fieldOf ws 0x30 34 30 == 0 && ((List.range 6).all fun i => ws.getD (10 + i) 0 == 0) && decide (u.mode < 2)
    && decide (1 ≤ u.count) && decide (u.count ≤ 2 ^ 30) && (u.arrays.all fun a => a % 4 == 0) && u.done % 16 == 0

/-- A command beside another outstanding one: arrays of theirs overlap, or they have one WSET, which breaks R267. -/
def UpdCmd.meet (s : State) (u x : UpdCmd) : UpdCmd :=
  let asn (c : UpdCmd) : Option Nat := (s.launch? c.lid).map fun l => l.attr.asn
  let cross := u.arrays.any fun a => x.arrays.any fun b => decide (a < b + 4 * x.count) && decide (b < a + 4 * u.count)
  { u with spoiled := u.spoiled || (asn u == asn x && (cross || u.wset == x.wset)) }

/-- The arrays and the completion record lie below 2^55 (R46). -/
def UpdCmd.addressable (u : UpdCmd) : Bool :=
  (u.arrays.all fun a => decide (a + 4 * u.count ≤ 2 ^ 55)) && decide (u.done + 16 ≤ 2 ^ 55)

/-- `upd` (R263); in a cancelled launch its command is discarded at once (R266). -/
def doUpd (r : Nat) (s : State) : Res :=
  let a := (s.s64 r).toInt
  match captured s a 128 128 causeUpd with
  | .error e => e
  | .ok (ws, s0) =>
    let u := updOf s ws
    let bad (cause : Nat) : Res := .trap (Trap.whole cause (BitVec.ofInt 64 a))
    if !updOk ws u then bad causeUpd
    else if !u.addressable then bad causeNoncanon
    else if updQueueSize ≤ (s.updates.filter fun x => x.die == u.die).length then .hold (s0.onCur fun c => { c with staging := some ws })
    else
      let s1 := s0.onCur fun c => { c with staging := none }
      .done (if s.cancelled then s1 else { s1 with
        updates := s1.updates.map (UpdCmd.meet s · u) ++ [s1.updates.foldl (UpdCmd.meet s) u], serial := s1.serial + 1 })

def execUpd (la r : Nat) (s : State) := issue (.upd la r) (doUpd r) s

/-! ### The arithmetic of R264 -/

/-- What one element's arithmetic gives: m', v' and u. -/
structure Stepped32 where
  m : Nat
  v : Nat
  u : Nat

/-- elem(i) of R264 from the element's w, g, m and v. -/
def UpdCmd.elem (c : UpdCmd) (w g m v : Nat) : Stepped32 :=
  let b1 := val32 c.beta1.toNat
  let decay := (val32 c.wd.toNat).mul (val32 w)
  if c.mode = 0 then
    let m1 := rneSum [b1.mul (val32 m), val32 g]
    ⟨m1, v, rneSum [val32 m1, decay]⟩
  else
    let a1 := FFmt.b32.subBits .rne 0x3F800000 c.beta1.toNat
    let a2 := FFmt.b32.subBits .rne 0x3F800000 c.beta2.toNat
    let m1 := rneSum [b1.mul (val32 m), (val32 a1).mul (val32 g)]
    let v1 := rneSum [(val32 c.beta2.toNat).mul (val32 v), (val32 a2).mul (val32 (FFmt.b32.mulBits .rne g g))]
    let d := FFmt.b32.addBits .rne (fsqrtBits .rne v1) c.eps.toNat
    ⟨m1, v1, rneSum [val32 (quotient m1 d), decay]⟩

/-- The tree of R158 over the 2^depth indices from one on, absent from `count` on. -/
def normTree (f : Nat → Nat) (count : Nat) : Nat → Nat → Option Nat
  | 0, i => if i < count then some (f i) else none
  | depth + 1, i =>
    if count ≤ i then none
    else
      match normTree f count depth i, normTree f count depth (i + 2 ^ depth) with
      | some x, some y => some (FFmt.b32.addBits .rne x y)
      | some x, none => some x
      | none, y => y

/-- The tree over all of an array's elements (R264). -/
def norm (f : Nat → Nat) (count : Nat) : Nat :=
  (normTree f count (Nat.log2 (count - 1) + 1) 0).getD 0

/-- s of R264, or none where a norm is not finite. -/
def UpdCmd.factor (c : UpdCmd) (sw su : Nat) : Option Word :=
  let odd (x : Nat) : Bool := match val32 x with
    | .nan | .inf _ => true
    | .fin _ _ _ => false
  let one := 0x3F800000
  if odd sw || odd su then none
  else
    let r :=
      if (val32 su).isZero then one
      else if c.mode = 0 then fminBits one (FFmt.b32.mulBits .rne c.clip.toNat (frsqBits su))
      else if (val32 sw).isZero then one
      else fminBits c.clip.toNat (FFmt.b32.mulBits .rne (fsqrtBits .rne sw) (frsqBits su))
    some (BitVec.ofNat 32 (FFmt.b32.mulBits .rne c.lr.toNat r))

/-- w' of R264. -/
def stepped (w s u : Nat) : Nat := rneSum [val32 w, ((val32 s).mul (val32 u)).negate]

/-! ### The passes -/

/-- The unit that translates for a command, and its address space (R419). -/
def UpdCmd.mmu (u : UpdCmd) : Mmu := .walker u.die
def updSpace (s : State) (u : UpdCmd) : ASpace :=
  match s.launch? u.lid with
  | some l => ⟨l.attr.asn, l.attr.root, none⟩
  | none => ⟨0, 0, none⟩

/-- A fault of a pass: its cause, its address, and whether the access wrote. -/
structure UpdFault where
  cause : Nat
  va : Nat
  wrote : Bool
  deriving DecidableEq, Repr

/-- The launch of a command has the system flag. -/
def UpdCmd.sys (u : UpdCmd) (s : State) : Bool := (s.launch? u.lid).any fun l => l.attr.sys

/-- An element of an array, read by the unit, and its places.  A bad granule that a TYPE 3 page reaches stops the command with
SCRATCH_UE: the unit works for a launch, and no group is killed (R98, R266). -/
def updRead (s : State) (u : UpdCmd) (base i : Nat) : Except UpdFault (Nat × List Loc) :=
  match access s u.mmu (updSpace s u) .engineRead (base + 4 * i : Nat) 4 with
  | .error (c, va) => .error ⟨c, va, false⟩
  | .ok (ls, _) =>
    match killCause s ls with
    | some c => .error ⟨c, base + 4 * i, false⟩
    | none => .ok (leOf (ls.map (s.byteFor (u.sys s) i)), ls)

/-- w and elem(i), from memory, and the places read. -/
def updElem (s : State) (u : UpdCmd) (i : Nat) : Except UpdFault (Nat × Stepped32 × List Loc) :=
  match updRead s u u.w i with
  | .error e => .error e
  | .ok (w, ws) =>
    match updRead s u u.g i with
    | .error e => .error e
    | .ok (g, gs) =>
      match updRead s u u.m i with
      | .error e => .error e
      | .ok (m, ms) =>
        match if u.mode = 0 then .ok (0, []) else updRead s u u.v i with
        | .error e => .error e
        | .ok (v, vs) => .ok (w, u.elem w g m v, ws ++ gs ++ ms ++ vs)

/-- The L2 after the unit's reads (R96), and a free value used up where they read one (R93). -/
def updTouch (s : State) (u : UpdCmd) (ls : List Loc) : State := (s.touchL2 ls false).afterFree (u.sys s) ls

/-- The first fault among the elements of pass 1. -/
def passFault (s : State) (u : UpdCmd) : Option UpdFault :=
  (List.range u.count).findSome? fun i => match updElem s u i with
    | .error e => some e
    | .ok _ => none

/-- A square in a norm, of an element's weight or step. -/
def updSquare (s : State) (u : UpdCmd) (weight : Bool) (i : Nat) : Nat :=
  match updElem s u i with
  | .error _ => 0
  | .ok (w, x, _) => if weight then FFmt.b32.mulBits .rne w w else FFmt.b32.mulBits .rne x.u x.u

/-- The places that pass 1 reads. -/
def passPlaces (s : State) (u : UpdCmd) : List Loc :=
  (List.range u.count).flatMap fun i => match updElem s u i with
    | .error _ => []
    | .ok (_, _, ls) => ls

/-- Pass 1 (R264). -/
def passOne (s : State) (u : UpdCmd) : Except UpdFault (Option Word) :=
  match passFault s u with
  | some e => .error e
  | none => .ok (u.factor (norm (updSquare s u true) u.count) (norm (updSquare s u false) u.count))

/-- The places that an element's moments take. -/
def momentPlaces (s : State) (u : UpdCmd) (base i : Nat) : Except UpdFault (List Loc) :=
  match access s u.mmu (updSpace s u) .engineWrite (base + 4 * i : Nat) 4 with
  | .error (c, va) => .error ⟨c, va, true⟩
  | .ok (ls, _) =>
    match killCause s (s.partBad ls) with
    | some c => .error ⟨c, base + 4 * i, true⟩
    | none => .ok ls

/-- A command changed. -/
def updCmd (s : State) (id : Nat) (f : UpdCmd → UpdCmd) : State :=
  { s with updates := s.updates.map fun u => if u.id = id then f u else u }

/-- A value that a pass writes: one that R267 leaves unspecified, once something else has written the arrays or another
outstanding command shares them (R10, log 60). -/
def UpdCmd.gives (s : State) (u : UpdCmd) (k x : Nat) : Nat := if u.spoiled then (Config.freeWord s.free k).toNat else x

/-- One element of pass 2: its moments in place, and its weight to the shadow (R264).  The unit's own writes leave its mark as
it was; in a breach of R267 the values are free, and the arrays are the ones written (log 60). -/
def passTwo (s : State) (u : UpdCmd) (step : Word) (i : Nat) : Except UpdFault State :=
  match updElem s u i with
  | .error e => .error e
  | .ok (w, x, rs) =>
    match momentPlaces s u u.m i with
    | .error e => .error e
    | .ok ms =>
      match if u.mode = 0 then .ok [] else momentPlaces s u u.v i with
      | .error e => .error e
      | .ok vs =>
        match shadowPieces u.mmu (updSpace s u) u.lid u.id u.wset (pieces (u.w + 4 * i) 4) (updTouch s u rs) with
        | .error (c, va) => .error ⟨c, va, true⟩
        | .ok (ws, t) =>
          let cells := ms.zip (leBytes 4 (u.gives s 0 x.m)) ++ vs.zip (leBytes 4 (u.gives s 1 x.v))
            ++ ws.zip (leBytes 4 (u.gives s 2 (stepped w step.toNat x.u)))
          let vas (base : Nat) (ls : List Loc) : List (Nat × Loc) := ((List.range 4).map fun k => base + 4 * i + k).zip ls
          let v := engineWrites t u.lid none none cells (vas u.m ms ++ vas u.v vs ++ vas u.w ws)
          let kept := updCmd v u.id fun y => { y with spoiled := u.spoiled }
          .ok (if u.spoiled then { kept with free := kept.free + 1 } else kept)

/-- Up to n more elements of pass 2, and the fault that stopped them. -/
def runTwo (u : UpdCmd) (step : Word) : Nat → Nat → State → State × Option UpdFault
  | 0, _, s => (s, none)
  | n + 1, i, s =>
    if u.count ≤ i then (s, none)
    else
      match passTwo s u step i with
      | .error e => (s, some e)
      | .ok t =>
        let ended := decide (u.count ≤ i + 1)
        runTwo u step n (i + 1) (updCmd t u.id fun x =>
          { x with pos := i + 1, declined := [], pubAt := if ended then some t.serial else x.pubAt })

/-- The command that a die's unit runs: the first in arrival order (R264). -/
def running (s : State) (die : Nat) : Option UpdCmd := s.updates.find? fun u => u.die == die

/-- The page of a fault, if the service may still bring it (R61, R266). -/
def updPage (s : State) (u : UpdCmd) (e : UpdFault) : Option FaultPage :=
  let a := updSpace s u
  let kind := if e.wrote then AccKind.engineWrite.code else AccKind.engineRead.code
  if e.cause = causePageFault ∧ (s.faultDesc.getD u.die none).isSome
      ∧ !(u.declined.any fun q => q.asn == a.asn && q.page == e.va / 65536) then
    some ⟨a.asn, a.root, e.va / 65536, kind, u.mmu.cluster⟩
  else none

/-- The command waits for the page of a fault, or stays as it is for its stop. -/
def updPause (s : State) (u : UpdCmd) (e : UpdFault) : State :=
  match updPage s u e with
  | some pg => updCmd s u.id fun x => { x with missing := addPages x.missing [pg] }
  | none => s

/-- The command neither sleeps nor waits for its batch. -/
def UpdCmd.awake (u : UpdCmd) : Bool := u.sleep.isEmpty && u.missing.isEmpty

/-- UPDATE_COMMAND_START of a die's unit: pass 1 of its first command, or elements of pass 2, a line's worth (R264). -/
def execUpdateCommandStart (die : Nat) (s : State) : Host.Outcome State Fault Refusal :=
  match running s die with
  | none => .next s
  | some u =>
    if !u.awake then .next s
    else if !u.started then
      match passOne s u with
      | .error e => .next (updPause s u e)
      | .ok f => .next (updCmd (updTouch s u (passPlaces s u)) u.id fun x => { x with started := true, step := f, declined := [] })
    else
      match u.step with
      | none => .next s
      | some f =>
        let (t, e) := runTwo u f 32 u.pos s
        match e with
        | none => .next t
        | some e => .next (if u.pos < ((running t die).map fun x => x.pos).getD 0 then t else updPause t u e)

/-- A command's publish as a `pub` issued where pass 2 ended (R265). -/
def UpdCmd.pub (u : UpdCmd) (asn : Nat) : PubReq := ⟨u.pubAt.getD u.id, u.wid, false, asn, u.wset, u.lid, false, false⟩

/-- A command's publish waits, as a `pub` there would (R86): also for earlier commands into its set.  A `pub` that came after the
command waits for it, as for a copy into the set (R265), and so does not hold it back. -/
def UpdCmd.pubWaits (s : State) (u : UpdCmd) (asn : Nat) : Bool :=
  Machine.pubWaits
    { s with updates := s.updates.filter fun x => decide (x.id < u.id), pubs := s.pubs.filter fun p => decide (p.id < u.id) }
    (u.pub asn)

/-- The second pass is over, or there is none. -/
def UpdCmd.over (u : UpdCmd) : Bool := u.started && (u.step.isNone || decide (u.count ≤ u.pos))

/-- The completion record of a command (Table 11.3), and its end. -/
def endCommand (s : State) (u : UpdCmd) (out cause : Nat) : State :=
  let a := updSpace s u
  let src := 0x480 + u.die
  let lref := ((s.launch? u.lid).map fun l => l.ref).getD 0
  let word := cause % 256 + out * 256 + 2 ^ 32 * pseqOf s a.asn u.wset
  let s1 := deviceWrite { s with devDeclined := [] } u.mmu a src lref (u.done + 8) (leBytes 8 word)
  let s2 := deviceBump s1 u.mmu a src lref u.done 1
  { s2 with updates := s2.updates.filter fun x => x.id != u.id }

/-- Pages of a command's completion record that the device waits for (R419). -/
def recordPages (s : State) (u : UpdCmd) : List FaultPage := devPages s u.mmu (updSpace s u) [(u.done, 16)]

/-- UPDATE_COMMAND_COMPLETE of a die's unit (R265). -/
def execUpdateCommandComplete (die : Nat) (s : State) : Host.Outcome State Fault Refusal :=
  match running s die with
  | none => .next s
  | some u =>
    let asn := (updSpace s u).asn
    let pages := recordPages s u
    if !u.over then .next s
    else if u.step.isSome ∧ (u.pubWaits s asn ∨ pubFails s (u.pub asn)) then .next s
    else if !pages.isEmpty then .next (devWait s pages)
    else
      match u.step with
      | none => .next (endCommand s u 1 0)
      | some _ => .next (endCommand (publishSet s asn u.wset) u 0 0)

/-- The fault that the command's pass meets where it stands, other than a page to wait for. -/
def updStops (s : State) (u : UpdCmd) : Option UpdFault :=
  let e :=
    if !u.started then passFault s u
    else
      match u.step with
      | none => none
      | some f =>
        if u.count ≤ u.pos then
          (if !u.pubWaits s (updSpace s u).asn && pubFails s (u.pub (updSpace s u).asn) then some ⟨0x56, u.wset, true⟩ else none)
        else match passTwo s u f u.pos with
          | .error e => some e
          | .ok _ => none
  match e with
  | some x => if (updPage s u x).isSome then none else some x
  | none => none

/-- Some element that the pass still has to take lies outside the package. -/
def updOutside (s : State) (u : UpdCmd) : Bool :=
  u.arrays.any fun a => (List.range u.count).any fun i =>
    decide (u.pos ≤ i) && match access s u.mmu (updSpace s u) .engineRead (a + 4 * i : Nat) 4 with
      | .ok (ls, _) => ls.any Loc.outside
      | .error _ => false

/-- UPDATE_COMMAND_STOP of a die's unit (R266): its record says why, and in pass 2 the pages of its set that are not published
are discarded, whoever shadowed them first. -/
def execUpdateCommandStop (die cause : Nat) (s : State) : Host.Outcome State Fault Refusal :=
  match running s die with
  | none => .next s
  | some u =>
    let meets := u.awake && match updStops s u with
      | some e => e.cause == cause
      | none => outsideCause cause && !u.over && updOutside s u
    let pages := recordPages s u
    if !meets then .next s
    else if !pages.isEmpty then .next (devWait s pages)
    else .next (endCommand (discardShadows s fun p => u.started && p.asn == (updSpace s u).asn && p.wset == u.wset) u 2 cause)

end Sys2Proof.Machine
end

