-- ==== Sys2Proof/Machine/Replay.lean ====
section
/-! DEFINITION. Unfinished long-latency instructions: their completion, and the replay queue with `tret` and `rinj`
(R26, R373, R375, R376). -/
namespace Sys2Proof.Machine

/-- What a long-latency instruction does with its operands; `la` is what is left of its window, for the registers that it
names only through an operand value. -/
def bodyOf (la : Nat) : Instr → State → Res
  | .frcp _ d a => vec1 d a (bits1 frcpBits)
  | .frsq _ d a => vec1 d a (bits1 frsqBits)
  | .fsqrt _ r d a => vec1 d a (bits1 (fsqrtBits r))
  | .fexp2 _ d a => vec1 d a (bits1 fexp2Bits)
  | .flog2 _ d a => vec1 d a (bits1 flog2Bits)
  | .fsin _ d a => vec1 d a (bits1 fsinBits)
  | .fcos _ d a => vec1 d a (bits1 fcosBits)
  | .frnd _ r d a => vec1 d a (bits1 (frndBits r))
  | .fclass _ d a => vec1 d a (bits1 fclassBits)
  | .cvtF32I32 _ r d a => vec1 d a fun x => cvtFromInt r x.toInt
  | .cvtF32N32 _ r d a => vec1 d a fun x => cvtFromInt r (x.toNat : Int)
  | .cvtI32F32 _ sat r d a => vec1 d a (bits1 (cvtToInt 32 true sat r))
  | .cvtN32F32 _ sat r d a => vec1 d a (bits1 (cvtToInt 32 false sat r))
  | .cvtF16F32 _ sat r d a => vec1 d a (bits1 (cvtNarrow FFmt.b16 sat r))
  | .cvtBf16F32 _ sat r d a => vec1 d a (bits1 (cvtNarrow FFmt.bf16 sat r))
  | .cvtF32F16 _ d a => vec1 d a (bits1 (cvtWiden FFmt.b16))
  | .cvtF32Bf16 _ d a => vec1 d a (bits1 (cvtWiden FFmt.bf16))
  | .cvtF32I64 _ r d a => doCvtFrom64 true r d a
  | .cvtF32N64 _ r d a => doCvtFrom64 false r d a
  | .cvtI64F32 _ sat r d a => doCvtTo64 true sat r d a
  | .cvtN64F32 _ sat r d a => doCvtTo64 false sat r d a
  | .cvtI8I32 _ sat d a => vec1 d a (cvtNarrowInt 8 true sat)
  | .cvtN8I32 _ sat d a => vec1 d a (cvtNarrowInt 8 false sat)
  | .cvtI16I32 _ sat d a => vec1 d a (cvtNarrowInt 16 true sat)
  | .cvtN16I32 _ sat d a => vec1 d a (cvtNarrowInt 16 false sat)
  | .pack _ t d a => doPack t d a
  | .unpack _ t d a => doUnpack t d a
  | .bfpx _ w d a => vec1 d a (bfpxW w)
  | .bfpq _ w d a => doBfpq w d a
  | .shfl _ d a b => doShfl d a b
  | .bcast _ d a x => doBcast d a x
  | .redu _ o d a => doRedu o d a
  | .scan _ excl o d a => doScan excl o d a
  | .compact _ d a => doCompact d a
  | .vote _ k d a => doVote k d a
  | .ldP _ w vi sb d => doLd .p w vi sb d
  | .ldC _ w vi sb d => doLd .c w vi sb d
  | .ldK _ w vi sb d => doLd .k w vi sb d
  | .ldX _ w vi sb d => doLd .x w vi sb d
  | .ldG _ w vi sb d => doLd .g w vi sb d
  | .stP _ w vi sb d => doSt .p w vi sb d
  | .stC _ w vi sb d => doSt .c w vi sb d
  | .stK _ w vi sb d => doSt .k w vi sb d
  | .stX _ w vi sb d => doSt .x w vi sb d
  | .stG _ w vi sb d => doSt .g w vi sb d
  | .ldu _ sp h w a d => doLdu sp h w a d
  | .stu _ sp h w a d => doStu sp h w a d
  | .pf _ l1 h a => doPf l1 h a
  | .cinv _ relax a => doCinv relax a
  | .cwb _ a => doCwb a
  | .atom _ o sp op a d => doAtom o sp op a d
  | .cas _ o sp wide a d => doCas o sp wide a d
  | .fence _ o => doFence o
  | .stash _ wide k r v => doStash wide k r v
  | .esamp _ r a d => doEsamp r a d
  | .tex _ r a d => doTex r a d
  | .trace _ r a d => doTrace r a d
  | .mwait _ h => doMwait h
  | .bcbwait _ b => doBcbwait b
  | .colw _ r => doColw r
  | .gsadd _ a v => doGsadd a v
  | .gsflush _ => doGsflush
  | .cpy _ b d r => doCpy b d r
  | .cpyq _ b d => doCpyq b d
  | .pub _ r => doPub r
  | .bcbini _ b r => doBcbSet false b r
  | .bcbexp _ b r => doBcbSet true b r
  | .mma _ kp sf bsrc h vi => doMma la kp sf bsrc h vi
  | .acqa _ h r => doAcqa h r
  | .rela _ h => doRela h
  | .azero _ h => doAzero h
  | .anorm _ h => doAnorm h
  | .ahead _ h d => doAhead la h d
  | .aload _ h r => doAload la h r
  | .astore _ h r => doAstore h r
  | .rast _ r a d => doRast r a d
  | .radj _ a d => doRadj a d
  | .texadj _ r a d => doTexadj r a d
  | .tradj _ r a d => doTradj r a d
  | .tapeRec _ a => doTapeRec a
  | .tapePop _ d => doTapePop la d
  | .tapeMark _ rcmp r => doTapeMark rcmp r
  | .tapeSeal _ => doTapeSeal
  | .tapeStat _ d => doTapeStat d
  | .upd _ r => doUpd r
  | .col _ sync arr r => doCol sync arr r
  | .wmreg _ g r => doWmreg g r
  | .wmread _ g d => doWmread g d
  | .wmchk _ g d => doWmchk g d
  | _ => fun s => .done s

/-- The instruction with its lookahead 0, and its destination, order and hint fields changed (R376). -/
def relabel (f : Nat → Nat) (o : Osc → Osc) (h : Hint → Hint) : Instr → Instr
  | .frcp _ d a => .frcp 0 (f d) a
  | .frsq _ d a => .frsq 0 (f d) a
  | .fexp2 _ d a => .fexp2 0 (f d) a
  | .flog2 _ d a => .flog2 0 (f d) a
  | .fsin _ d a => .fsin 0 (f d) a
  | .fcos _ d a => .fcos 0 (f d) a
  | .fclass _ d a => .fclass 0 (f d) a
  | .cvtF32F16 _ d a => .cvtF32F16 0 (f d) a
  | .cvtF32Bf16 _ d a => .cvtF32Bf16 0 (f d) a
  | .compact _ d a => .compact 0 (f d) a
  | .fsqrt _ r d a => .fsqrt 0 r (f d) a
  | .frnd _ r d a => .frnd 0 r (f d) a
  | .cvtF32I32 _ r d a => .cvtF32I32 0 r (f d) a
  | .cvtF32N32 _ r d a => .cvtF32N32 0 r (f d) a
  | .cvtF32I64 _ r d a => .cvtF32I64 0 r (f d) a
  | .cvtF32N64 _ r d a => .cvtF32N64 0 r (f d) a
  | .cvtI32F32 _ sat r d a => .cvtI32F32 0 sat r (f d) a
  | .cvtN32F32 _ sat r d a => .cvtN32F32 0 sat r (f d) a
  | .cvtF16F32 _ sat r d a => .cvtF16F32 0 sat r (f d) a
  | .cvtBf16F32 _ sat r d a => .cvtBf16F32 0 sat r (f d) a
  | .cvtI64F32 _ sat r d a => .cvtI64F32 0 sat r (f d) a
  | .cvtN64F32 _ sat r d a => .cvtN64F32 0 sat r (f d) a
  | .cvtI8I32 _ sat d a => .cvtI8I32 0 sat (f d) a
  | .cvtN8I32 _ sat d a => .cvtN8I32 0 sat (f d) a
  | .cvtI16I32 _ sat d a => .cvtI16I32 0 sat (f d) a
  | .cvtN16I32 _ sat d a => .cvtN16I32 0 sat (f d) a
  | .pack _ t d a => .pack 0 t (f d) a
  | .unpack _ t d a => .unpack 0 t (f d) a
  | .bfpx _ w d a => .bfpx 0 w (f d) a
  | .bfpq _ w d a => .bfpq 0 w (f d) a
  | .shfl _ d a b => .shfl 0 (f d) a b
  | .bcast _ d a r => .bcast 0 (f d) a r
  | .redu _ op d a => .redu 0 op (f d) a
  | .scan _ x op d a => .scan 0 x op (f d) a
  | .ldP _ w vi sb d => .ldP 0 w vi sb (f d)
  | .ldC _ w vi sb d => .ldC 0 w vi sb (f d)
  | .ldK _ w vi sb d => .ldK 0 w vi sb (f d)
  | .ldX _ w vi sb d => .ldX 0 w vi sb (f d)
  | .ldG _ w vi sb d => .ldG 0 w vi sb (f d)
  | .stP _ w vi sb d => .stP 0 w vi sb d
  | .stC _ w vi sb d => .stC 0 w vi sb d
  | .stK _ w vi sb d => .stK 0 w vi sb d
  | .stX _ w vi sb d => .stX 0 w vi sb d
  | .stG _ w vi sb d => .stG 0 w vi sb d
  | .ldu _ sp x w a d => .ldu 0 sp (h x) w a (f d)
  | .stu _ sp x w a d => .stu 0 sp (h x) w a d
  | .atom _ x sp op a d => .atom 0 (o x) sp op a (f d)
  | .cas _ x sp wide a d => .cas 0 (o x) sp wide a (f d)
  | .fence _ x => .fence 0 (o x)
  | .pf _ l1 x a => .pf 0 l1 (h x) a
  | .cinv _ x a => .cinv 0 x a
  | .cwb _ a => .cwb 0 a
  | .stash _ w k r v => .stash 0 w k r v
  | .esamp _ r a d => .esamp 0 r a (f d)
  | .tex _ r a d => .tex 0 r a (f d)
  | .trace _ r a d => .trace 0 r a (f d)
  | .bcbwait _ b => .bcbwait 0 b
  | .mwait _ x => .mwait 0 x
  | .colw _ r => .colw 0 r
  | .vote _ k d a => .vote 0 k (f d) a
  | .gsadd _ a v => .gsadd 0 a v
  | .gsflush _ => .gsflush 0
  | .cpy _ b d r => .cpy 0 b d r
  | .cpyq _ b d => .cpyq 0 b (f d)
  | .pub _ r => .pub 0 r
  | .bcbini _ b r => .bcbini 0 b r
  | .bcbexp _ b r => .bcbexp 0 b r
  | .mma _ kp sf bsrc x vi => .mma 0 kp sf bsrc x vi
  | .acqa _ x r => .acqa 0 x r
  | .rela _ x => .rela 0 x
  | .azero _ x => .azero 0 x
  | .anorm _ x => .anorm 0 x
  | .ahead _ x d => .ahead 0 x (f d)
  | .aload _ x r => .aload 0 x r
  | .astore _ x r => .astore 0 x r
  | .rast _ r a d => .rast 0 r a (f d)
  | .radj _ a d => .radj 0 a (f d)
  | .texadj _ r a d => .texadj 0 r a (f d)
  | .tradj _ r a d => .tradj 0 r a (f d)
  | .tapeRec _ a => .tapeRec 0 a
  | .tapePop _ d => .tapePop 0 (f d)
  | .tapeMark _ x r => .tapeMark 0 x r
  | .tapeSeal _ => .tapeSeal 0
  | .tapeStat _ d => .tapeStat 0 (f d)
  | .upd _ r => .upd 0 r
  | .col _ x y r => .col 0 x y r
  | .wmreg _ g r => .wmreg 0 g r
  | .wmread _ g d => .wmread 0 g (f d)
  | .wmchk _ g d => .wmchk 0 g (f d)
  | i => i

/-- The destination field of an instruction that has one. -/
def destOf : Instr → Nat
  | .frcp _ d _ | .frsq _ d _ | .fexp2 _ d _ | .flog2 _ d _ | .fsin _ d _ | .fcos _ d _ | .fclass _ d _
  | .cvtF32F16 _ d _ | .cvtF32Bf16 _ d _ | .compact _ d _ | .fsqrt _ _ d _ | .frnd _ _ d _
  | .cvtF32I32 _ _ d _ | .cvtF32N32 _ _ d _ | .cvtF32I64 _ _ d _ | .cvtF32N64 _ _ d _ | .cvtI32F32 _ _ _ d _
  | .cvtN32F32 _ _ _ d _ | .cvtF16F32 _ _ _ d _ | .cvtBf16F32 _ _ _ d _ | .cvtI64F32 _ _ _ d _
  | .cvtN64F32 _ _ _ d _ | .cvtI8I32 _ _ d _ | .cvtN8I32 _ _ d _ | .cvtI16I32 _ _ d _ | .cvtN16I32 _ _ d _
  | .pack _ _ d _ | .unpack _ _ d _ | .bfpx _ _ d _ | .bfpq _ _ d _ | .shfl _ d _ _ | .bcast _ d _ _
  | .redu _ _ d _ | .scan _ _ _ d _ | .ldP _ _ _ _ d | .ldC _ _ _ _ d | .ldK _ _ _ _ d | .ldX _ _ _ _ d
  | .ldG _ _ _ _ d | .ldu _ _ _ _ _ d | .atom _ _ _ _ _ d | .cas _ _ _ _ _ d | .esamp _ _ _ d | .tex _ _ _ d
  | .trace _ _ _ d | .vote _ _ d _ | .cpyq _ _ d | .ahead _ _ d | .rast _ _ _ d | .radj _ _ d | .texadj _ _ _ d
  | .tradj _ _ _ d | .tapePop _ d | .tapeStat _ d | .wmread _ _ d | .wmchk _ _ d => d
  | _ => 0

/-- Two instructions differ only in the fields that a handler may change (R376). -/
def sameButFree (a b : Instr) : Bool :=
  let n := relabel (fun _ => 0) (fun _ => .rlx) fun _ => .nm
  n a == n b

/-! ### Performing with captured operands -/

/-- The slot in hand with captured operands in place of its registers, and the lanes, HELPER and PC of the capture. -/
def withCapture (f : Flight) (s : State) : State :=
  s.onWave fun w =>
    let vregs := (f.staged.map fun g => g.vregs).getD w.vregs
    let sregs := (f.staged.map fun g => g.sregs).getD w.cur.bank.sregs
    { w with
      vregs := f.vecs.foldl (fun (rs : List (Nat × Lanes)) p => assocSet rs p.1 p.2) vregs
      helper := f.helper
      handles := (f.staged.map fun g => g.handles).getD w.handles
      cur := { w.cur with
        m0 := f.mask
        pc := f.pc
        flights := w.cur.flights.filter fun g => g.id != f.id
        staging := f.words
        bank := { w.cur.bank with
          sregs := f.scals.foldl (fun (rs : Vector Word 64) p => if p.1 = 0 then rs else rs.setIfInBounds p.1 p.2) sregs
          mregs := f.masks.foldl (fun (rs : Vector Word 8) p => if p.1 = 0 then rs else rs.setIfInBounds p.1 p.2) w.cur.bank.mregs } } }

/-- A result register brought from the captured context to its place: `v0` goes to V0SAVE in a replay (R375). -/
def keepResult (mask : Word) (replay : Bool) (t : Wave) (x : RegId × RegId) (s : State) : State :=
  match x with
  | (.v n, .v d) =>
    if replay ∧ d = 0 then
      (lanesOf mask).foldl (fun u l => u.setNum (laneLoc s.w l (s.w.priv + 8)) 4 (t.vreg n l).toNat) s
    else s.setVMask mask d fun l => t.vreg n l
  | (.s n, .s d) => if n = 0 then s else s.setS d (t.cur.bank.sregs.getD n 0)
  | (.m n, .m d) =>
    let kept := s.mreg d &&& ~~~mask
    s.setM d (kept ||| (t.cur.bank.mregs.getD n 0 &&& mask))
  | _ => s

/-- The state after an instruction performed in a captured context: its results in their places, and the rest of the slot
as it stood, with the windows that the instruction opened. -/
def leaveCapture (f : Flight) (replay : Bool) (regs : List (RegId × RegId)) (s t : State) : State :=
  if !(t.w.live && t.w.wid == s.w.wid) then t
  else
    let old := s.w.cur
    let u := t.onWave fun w => { w with
      vregs := s.w.vregs
      helper := s.w.helper
      handles := if f.staged.isSome then s.w.handles else w.handles
      cur := { w.cur with
        m0 := old.m0
        pc := old.pc
        flights := old.flights
        staging := old.staging
        windows := old.windows ++ advanceWindows (w.cur.windows.drop old.windows.length)
        bank := { old.bank with monitor := w.cur.bank.monitor, bad := w.cur.bank.bad } } }
    regs.foldl (fun v x => keepResult f.mask replay t.w x v) u

/-- A `tape.pop` has started a regeneration (R248). -/
def beganRegeneration (s t : State) : Bool := t.w.tape.regen && !s.w.tape.regen

/-- What performing a captured instruction came to, in the state of the slot.  Where it is a `tape.pop` that starts a
regeneration, nothing has issued since, and the slot goes on at ENTRY; in a replay it is the `tape.pop` that issues again
after `tret`, and starts it then (R248, log 55). -/
def performCaptured (i : Instr) (f : Flight) (replay : Bool) (regs : List (RegId × RegId)) (s : State) : Res :=
  let out (t : State) : State := clearBadRegs { writes := regs.map fun x => x.2 } f.mask (leaveCapture f replay regs s t)
  match bodyOf (if replay then 0 else f.left) i (withCapture f s) with
  | .done t => .done (out t)
  | .jump t => .done (out t)
  | .after t tr => .after (out t) tr
  | .hold t =>
    let u := leaveCapture f replay [] s t
    .hold (u.onCur fun c => { c with flights := c.flights.map fun g => if g.id = f.id then { g with words := t.cur.staging } else g })
  | .settled t =>
    if beganRegeneration s t then
      if replay then .jump (s.onCur fun c => { c with trap := { c.trap with pc := f.pc } })
      else .settled (t.onWave fun w => { w with
        helper := s.w.helper, cur := { w.cur with flights := w.cur.flights.filter fun g => g.id != f.id } })
    else .settled (leaveCapture f replay [] s t)
  | .trapIn t tr => .trapIn (leaveCapture f replay [] s t) tr
  | r => r

/-! ### Completion of an unfinished instruction (R26, R373) -/

/-- The slot without an unfinished instruction. -/
def dropFlight (id : Nat) (s : State) : State := s.onCur fun c => { c with flights := c.flights.filter fun f => f.id != id }

/-- The words that an unfinished instruction has captured. -/
def keepWords (id : Nat) (words : Option (List Nat)) (s : State) : State :=
  s.onCur fun c => { c with flights := c.flights.map fun f => if f.id = id then { f with words := words } else f }

/-- An unfinished instruction of the slot in hand completes (R353).  A cause that it meets is a trap that keeps it for replay;
a cause recorded for a waiting instruction is raised at that instruction, which issues again (Table 16.6, log 56). -/
def finishFlight (id : Nat) (s : State) : State :=
  match s.cur.flights.find? fun f => f.id == id with
  | none => s
  | some f =>
    let ws := (hdr f.instr).writes
    let at_ (tr : Trap) : Trap := { tr with pc := some f.pc }
    match performCaptured f.instr f false (ws.zip ws) s with
    | .done t => if f.copied then dropFlight id t else countRetired (dropFlight id t)
    | .jump t => dropFlight id t
    | .hold t => if t.cancelled then endWave t t.w.wid else if t.cur.replaying then stall t else t
    | .settled t => t
    | .trap tr => if f.waits then takeTrap (dropFlight id s) (at_ tr) f.pc else raise s (at_ tr)
    | .trapIn t tr => takeTrap (dropFlight id t) (at_ tr) f.pc
    | .after t tr => takeTrap (countRetired (dropFlight id t)) (at_ tr) t.cur.pc
    | .page ps mask laddr words =>
      if pageTraps s ps then raise s (at_ (Trap.lanes causePageFault mask laddr))
      else startRunAhead ps (keepWords id words s)
    | .fetchPage p addr => if pageTraps s [p] then raise s (at_ (Trap.whole causePageFault addr)) else awaitPages [p] s
    | .lfault c a info => slotLaunchFaultAt s s.w.core c f.pc a info

/-! ### Replay (R375, R376) -/

/-- The captured operands of a replay entry as the frame and the registers hold them now: vector words in the order of the
read list, scalars in ascending order (R373). -/
def entryFlight (s : State) (e : RqEntry) (o : Flight) : Flight :=
  let word (k l : Nat) : Word := BitVec.ofNat 32 (s.num (laneLoc s.w l (s.w.priv + 0x50 + 4 * (e.opoff + k))) 4)
  { o with
    mask := e.mask
    pc := e.pc
    vecs := ((List.range o.vecs.length).zip o.vecs).map fun p =>
      (p.2.1, mkLanes fun l => if e.mask.getLsbD l then word p.1 l else Lanes.at p.2.2 l)
    scals := ((List.range o.scals.length).zip o.scals).map fun p => (p.2.1, e.scals.getD p.1 0) }

/-- The instruction that a replay entry holds, if it passes its check (R376). -/
def entryInstr (e : RqEntry) : Option (Instr × Flight) :=
  match e.orig, decode32 e.word.toNat with
  | some o, .ok i =>
    if e.word.getLsbD 0 ∧ sameButFree i o.instr ∧ e.mask &&& ~~~o.mask = 0 then some (i, o) else none
  | _, _ => none

/-- What a replay entry comes to. -/
inductive Replayed where
  /-- Its check fails. -/
  | bad
  | done (s : State)
  /-- It issues again after the return. -/
  | again (s : State)
  /-- It is performed, and has met a cause all the same (R280). -/
  | after (s : State) (t : Trap)
  | wait (s : State)
  | cause (s : State) (t : Trap)
  | over (s : State)

/-- A replay entry performed (R375, R376). -/
def performEntry (s : State) (e : RqEntry) : Replayed :=
  match entryInstr e with
  | none => .bad
  | some (i, o) =>
    let f := entryFlight s e o
    let new := (hdr i).writes
    if pastBudget s new then .cause s (Trap.whole causeRegRange 0)
    else
      match performCaptured (relabel (fun _ => destOf o.instr) id id i) f true ((hdr o.instr).writes.zip new) s with
      | .done t => .done t
      | .jump t => .again t
      | .hold t => .wait t
      | .settled t => .over t
      | .trap tr => .cause s tr
      | .trapIn t tr => .cause t tr
      | .after t tr => .after t tr
      | .page ps mask laddr _ =>
        if pageTraps s ps then .cause s (Trap.lanes causePageFault mask laddr) else .over (awaitPages ps s)
      | .fetchPage p addr =>
        if pageTraps s [p] then .cause s (Trap.whole causePageFault addr) else .over (awaitPages [p] s)
      | .lfault c a info => .over (slotLaunchFaultAt s s.w.core c f.pc a info)

/-- Replay entry k has completed: it is no longer VALID, and counts as retired (R353, R375), but for the secondary slot's part
of a wait, which retires in the primary (R28). -/
def clearEntry (k : Nat) (s : State) : State :=
  let t := setRq s k RqEntry.clear
  if (rqEntry s k).orig.any fun f => f.copied then t else countRetired t

/-- The trap registers written anew for a cause that replay entry k met; TPC and the saved `v0` stay, and the slot goes on
at TRAPVEC (R375). -/
def trapAnew (s : State) (k : Nat) (t : Trap) : State :=
  let w := s.w
  let act := w.cur.trap.act
  let mask := t.mask.getD act
  let addr := match lowestLane mask with
    | some l => t.laddr l
    | none => t.laddr 0
  let old := w.cur.trap.cause.toNat
  let cause := t.cause % 256 + fieldAt old 16 5 * 2 ^ 16 + k % 16 * 2 ^ 25 + 2 ^ 29 + (if t.impr then 2 ^ 30 else 0) + 2 ^ 31
  let s1 := (lanesOf act).foldl
    (fun u l => u.setBytes (laneLoc w l w.priv) (leBytes 8 (if mask.getLsbD l then (t.laddr l).toNat else 0))) s
  s1.onCur fun c => { c with
    trap := { c.trap with cause := BitVec.ofNat 32 cause, mask := mask, addr := addr, info := t.info }
    pc := pcOf w.trapvec
    windows := []
    stalled := false }

/-- The entries from these on, in ascending order, and then the return (R375). -/
def replayAll : List Nat → State → Res
  | [], s => .jump (leaveHandler s)
  | k :: ks, s =>
    let e := rqEntry s k
    if !e.valid then replayAll ks s
    else
      match performEntry s e with
      | .bad => .settled (slotLaunchFault s causeReplayInvalid 0 0)
      | .done t => replayAll ks (clearEntry k t)
      | .again t => replayAll ks (setRq t k RqEntry.clear)
      | .after t tr => .settled (trapAnew (clearEntry k t) k tr)
      | .wait t => .hold t
      | .cause t tr => .settled (trapAnew t k tr)
      | .over t => .settled t

/-- `tret` (R375). -/
def doTret (s : State) : Res :=
  let c := s.cur
  if !c.inHandler ∨ c.m0 ≠ c.trap.act ∨ c.depth ≠ c.trap.depth ∨ c.trap.splitOff then .lfault causeReplayInvalid 0 0
  else replayAll (List.range 16) s

/-- `rinj` (R376). -/
def doRinj (r : Nat) (s : State) : Res :=
  let k := (s.sreg r).toNat
  let e := rqEntry s k
  let invalid : Res := .done (s.setS r (BitVec.ofNat 32 causeReplayInvalid))
  if 16 ≤ k ∨ !e.valid then invalid
  else
    match performEntry s e with
    | .bad => invalid
    | .done t => .done ((clearEntry k t).setS r 0)
    | .again t => .done ((setRq t k RqEntry.clear).setS r 0)
    | .after t tr => .done ((clearEntry k t).setS r (BitVec.ofNat 32 tr.cause))
    | .wait t => .hold t
    | .cause t tr => .done (t.setS r (BitVec.ofNat 32 tr.cause))
    | .over t => .settled t

def execTret (s : State) := issue .tret doTret s
def execRinj (r : Nat) (s : State) := issue (.rinj r) (doRinj r) s

end Sys2Proof.Machine
end

