-- ==== Sys2Proof/Machine/Tiles.lean ====
section
/-! DEFINITION. The matrix engine at work: grants, the steps of `mma`, row state, and readouts (R180 to R187, R194 to R208). -/
namespace Sys2Proof.Machine

/-! ### Elements and admission (R118 to R122) -/

/-- A number m × 2^e. -/
structure Scaled where
  m : Int
  e : Int
  deriving DecidableEq, Repr

/-- The floating format of a kind of elements. -/
def FKind.float : FKind → Option FFmt
  | .f32 => some FFmt.b32
  | .f16 => some FFmt.b16
  | .bf16 => some FFmt.bf16
  | .bfp | .int | .uint | .ter | .sgn | .acc => none

/-- An element's integer value (R121, R118). -/
def intElem (t : Fmt) (x : Nat) : Int :=
  match t.kind with
  | .uint => (x : Nat)
  | .ter => match x % 4 with
    | 1 => 1
    | 3 => -1
    | _ => 0
  | .sgn => if x % 2 = 1 then -1 else 1
  | .bfp | .int | .f32 | .f16 | .bf16 | .acc => signed t.w x

/-- The scale of an operand's code: the exponent of a BFP block, or the scale byte (R119, R122). -/
def scaleOf (t : Fmt) (scen : Bool) (code : Nat) : Int :=
  if t.kind = .bfp then (code : Int) - 127 else if scen then signed 8 code else 0

/-- An admitted block: its mantissas, its weight exponent G, and whether an element was admitted as zero. -/
structure Admitted where
  ms : List Int
  g : Int
  nfz : Bool

/-- floor(log2) of a pattern's value, at least emin; none for zeros (R120). -/
def elemLog (f : FFmt) (v : FVal) : Option Int := if v.isZero then none else some (max v.log2 f.emin)

/-- The largest of a list. -/
def maxOf : List Int → Option Int
  | [] => none
  | x :: xs => some (xs.foldl max x)

/-- A float block admitted (R120); none for FMT_NONFINITE. -/
def admitFloat (t : Fmt) (f : FFmt) (sc : Int) (nfz : Bool) (xs : List Nat) : Option Admitted :=
  let vs := xs.map f.value
  let odd := vs.any fun v => match v with
    | .nan | .inf _ => true
    | .fin _ _ _ => false
  if odd && !nfz then none
  else
    let ws := vs.map fun v => match v with
      | .nan | .inf _ => FVal.fin false 0 0
      | .fin n m e => FVal.fin n m e
    let e := (maxOf (ws.filterMap (elemLog f))).getD f.emin
    let mant (v : FVal) : Int := match v with
      | .fin n m k => rndInt .rne (if n then -(m : Int) else (m : Int)) (k + t.f - e)
      | .nan | .inf _ => 0
    some ⟨ws.map mant, e - t.f + sc, odd⟩

/-- A block admitted from its elements' bits (R119 to R122). -/
def admitBlock (b : FmtBlock) (code : Nat) (nfz : Bool) (xs : List Nat) : Option Admitted :=
  let t := b.info
  let sc := scaleOf t b.scen code
  match t.kind.float with
  | some f => admitFloat t f sc nfz xs
  | none => some ⟨xs.map (intElem t), (if t.kind = .bfp then sc - t.f else sc), false⟩

/-- The elements that the bytes of a block hold. -/
def blockElems (b : FmtBlock) (raw : Nat) : List Nat := (List.range b.blen).map fun i => elemAt raw i b.info.bits

/-! ### Reading operands -/

/-- What an engine's read or step comes to when it cannot go on: a cause with its address. -/
abbrev Stop := Nat × Nat

/-- The bytes at places as an entry's launch reads them (R93), as one little-endian number. -/
def entryNum (s : State) (e : Entry) (ls : List Loc) : Nat :=
  leOf (ls.map (s.byteFor ((s.launch? e.lid).any fun l => l.attr.sys) 0))

/-- n bytes of a scratchpad, for an entry (R187). -/
def scratchNum (s : State) (e : Entry) (space off n : Nat) : Except Stop Nat :=
  let ls := (List.range n).map fun i => scratchAt e.gid e.kc (e.core / 96) space (off + i)
  if (killCause s ls).isSome then .error (causeScratchUe, off)
  else .ok (entryNum s e ls)

/-- An entry's address space, with or without its version view (R244). -/
def entrySpace (s : State) (e : Entry) (view : Bool) : ASpace :=
  match s.launch? e.lid with
  | some l => ⟨l.attr.asn, l.attr.root, if view then e.view else none⟩
  | none => ⟨0, 0, none⟩

/-- The unit that translates for an entry (R56). -/
def Entry.mmu (e : Entry) : Mmu := .twe (e.core / 4)

/-- Element k of a tensor record as an entry reads it: 0 out of bounds (R69, R178). -/
def recordElem (s : State) (e : Entry) (t : TRec) (k : Nat) : Except Stop Nat :=
  let c := t.coords (k / t.elems) (k % t.elems)
  if !t.inb c then .ok 0
  else if t.space = 0 then
    match access s e.mmu (entrySpace s e true) .engineRead (t.addr c) t.width with
    | .error x => .error x
    | .ok (ls, _) => .ok (entryNum s e ls)
  else scratchNum s e t.space (t.addr c).toNat t.width

/-- Elements of a record from one on, as one little-endian number. -/
def recordNum (s : State) (e : Entry) (t : TRec) : Nat → Nat → Except Stop Nat
  | _, 0 => .ok 0
  | k, n + 1 =>
    match recordElem s e t k with
    | .error x => .error x
    | .ok lo =>
      match recordNum s e t (k + 1) n with
      | .error x => .error x
      | .ok hi => .ok (lo + 2 ^ (8 * t.width) * hi)

/-- The TLB and the L2 after an entry has accessed n bytes of global memory (R56, R96). -/
def entryTouch (s : State) (e : Entry) (view : Bool) (k : AccKind) (a : Int) (n : Nat) : State :=
  match access s e.mmu (entrySpace s e view) k a n with
  | .error _ => s
  | .ok (ls, xs) => (fillTlbs s e.mmu (entrySpace s e view) xs).touchL2 ls k.writes

/-- n bytes of a record's copy-order stream from byte b on (R178). -/
def streamNum (s : State) (e : Entry) (t : TRec) (b n : Nat) : Except Stop Nat :=
  let first := b / t.width
  let last := (b + n - 1) / t.width
  (recordNum s e t first (last + 1 - first)).map fun x => x / 2 ^ (8 * (b % t.width)) % 2 ^ (8 * n)

/-- A sub-block as a step uses it: admitted mantissas along K, and the block's weight exponent (R196). -/
structure SubBlock where
  ms : List Int
  g : Int

/-- A stop, and whether an element had been admitted as zero before it (R120). -/
abbrev StopZ := Stop × Bool

/-- A stop, where an element had been admitted as zero or not. -/
def orZero {α : Type} (z : Bool) (r : Except StopZ α) : Except StopZ α :=
  match r with
  | .error e => .error (e.1, z || e.2)
  | .ok x => .ok x

/-- The sub-blocks of one row of A or one column of B in a step: t of them, ls elements each, from K-index k0 on. -/
def subBlocks (b : FmtBlock) (codes : List Nat) (per row : Nat) (nfz : Bool) (read : Nat → Except Stop Nat) (ls : Nat) :
    Nat → Nat → Except StopZ (List SubBlock × Bool)
  | _, 0 => .ok ([], false)
  | k0, t + 1 =>
    let j := k0 / b.blen
    match read j with
    | .error x => .error (x, false)
    | .ok raw =>
      match admitBlock b (codes.getD (row * per + j) 0) nfz (blockElems b raw) with
      | none => .error ((causeNonfinite, 0), false)
      | some a =>
        match orZero a.nfz (subBlocks b codes per row nfz read ls (k0 + ls) t) with
        | .error x => .error x
        | .ok (rest, z) => .ok (⟨(a.ms.drop (k0 % b.blen)).take ls, a.g⟩ :: rest, a.nfz || z)

/-- Each of several rows or columns. -/
def eachOf {α β : Type} (f : α → Except StopZ (β × Bool)) : List α → Except StopZ (List β × Bool)
  | [] => .ok ([], false)
  | x :: xs =>
    match f x with
    | .error e => .error e
    | .ok (y, z) =>
      match orZero z (eachOf f xs) with
      | .error e => .error e
      | .ok (ys, zs) => .ok (y :: ys, z || zs)

/-! ### A step (R196 to R198) -/

/-- An exact sum of products. -/
def dot (xs ys : List Int) : Int := (List.zipWith (· * ·) xs ys).foldl (· + ·) 0

/-- A sum aligned to a row exponent, toward −∞ (R197). -/
def align (x d : Int) : Int := if 0 ≤ d then x * 2 ^ d.toNat else x / 2 ^ (-d).toNat

/-- Rows after a step: the row, and whether it was shifted right; none for EXP_RANGE (R197). -/
def stepRow (w b g : Nat) (n0 : Nat) (row : Row) (as : List SubBlock) (cols : List (List SubBlock)) : Option (Row × Bool) :=
  let es := cols.flatMap fun c => List.zipWith (fun (x y : SubBlock) => x.g + y.g) as c
  let xb := if row.empty then (maxOf es).getD 0 else row.x
  let bold : Int := if row.empty then 0 else (w : Int) - 1 - row.hr
  let cu := (maxOf (es.map fun e => (b : Int) + e - xb)).getD 0
  let bp := max (max bold cu) 0 + (g : Int)
  let k := max 0 (bp - ((w : Int) - 2))
  let xn := xb + k
  if xn < -32768 ∨ 32767 < xn then none
  else
    let event := decide (0 < k) && !row.empty
    let mant := if event then row.mant.map fun m => rndInt .rne m (-k) else row.mant
    let bn := max (max (bold - k) (cu - k)) 0 + (g : Int)
    let adds := cols.map fun c =>
      (List.zipWith (fun (x y : SubBlock) => align (dot x.ms y.ms) (x.g + y.g - xn)) as c).foldl (· + ·) 0
    let mant2 := mant.take n0 ++ List.zipWith (· + ·) ((mant.drop n0).take 128) adds ++ mant.drop (n0 + 128)
    some ({ mant := mant2, x := xn, hr := ((w : Int) - 1 - bn).toNat, empty := false }, event)

/-- The plan of one `mma`: block length of its sub-blocks, K-indices of a step, and sub-blocks of a step (R196). -/
structure Plan where
  ls : Nat
  span : Nat
  t : Nat
  steps : Nat

/-- The plan of an `mma` of K on two block lengths. -/
def planOf (la lb k : Nat) : Plan :=
  let ls := min la lb
  let span := if ls = 64 then 64 else 32
  ⟨ls, span, span / ls, k / span⟩

/-- b, the magnitude of a sub-block sum, and g, a step's growth (R196). -/
def sumBits (a b : FmtBlock) (p : Plan) : Nat := a.info.w + b.info.w - 2 + Nat.log2 p.ls
def growth (p : Plan) : Nat := if p.t = 1 then 1 else if p.t = 2 then 2 else 3

/-- Steps of all the passes of an `mma` on a tile (R180). -/
def stepCount (t : Tile) (p : Plan) : Nat := (t.m + 127) / 128 * (t.n / 128) * p.steps

/-- The TLB and the L2 after step number i of an `mma` on a tile has read its tensor record: the bytes of the step's columns, and
the pages of up to 8 tiles ahead of the last one (R56, R96). -/
def recordTouch (s : State) (e : Entry) (n : Nat) (a b : FmtBlock) (k : Nat) (x : TRec) : State :=
  if x.space ≠ 0 then s
  else
    let p := planOf a.blen b.blen k
    let cb := e.step / p.steps % (n / 128)
    let nb := b.blen * b.info.bits / 8
    let k0 := e.step % p.steps * p.span
    let j0 := k0 / b.blen
    let len := ((k0 + p.span - 1) / b.blen + 1 - j0) * nb
    let elem (u : State) (i : Nat) : State :=
      let c := x.coords (i / x.elems) (i % x.elems)
      if x.inb c then entryTouch u e true .engineRead (x.addr c) x.width else u
    let column (u : State) (m : Nat) : State :=
      let first := (m * b.rowBytes k + j0 * nb) / x.width
      let last := (m * b.rowBytes k + j0 * nb + len - 1) / x.width
      (List.range (last + 1 - first)).foldl (fun v i => elem v (first + i)) u
    let last := ((128 * cb + 127) * b.rowBytes k + j0 * nb + len - 1) / x.width / x.elems
    walkAhead ((List.range 128).foldl (fun u i => column u (128 * cb + i)) s) e.mmu (entrySpace s e true) x last

/-- The result of a step: the tile's rows, whether a row was shifted, and whether an element was admitted as zero. -/
structure Stepped where
  rows : List (Nat × Row)
  event : Bool
  nfz : Bool

/-- Step number i of an `mma` on its tile, or the cause it meets (R180, R197, R198).  Of several causes the first counts of A's
rows in ascending order, then B's columns, then the rows' exponents: the manual gives none of them precedence (log 66). -/
def mmaStepOf (s : State) (e : Entry) (t : Tile) (a b : FmtBlock) (d : DBlock) (k baseA baseB : Nat) (trec : Option TRec)
    (rows : List (Nat × Nat)) (codesA codesB : List Nat) : Except StopZ Stepped :=
  let p := planOf a.blen b.blen k
  let ks := e.step % p.steps
  let cb := e.step / p.steps % (t.n / 128)
  let rb := e.step / p.steps / (t.n / 128)
  let k0 := ks * p.span
  let mine := rows.filter fun r => r.1 / 128 == rb
  let na := a.blen * a.info.bits / 8
  let nb := b.blen * b.info.bits / 8
  let readA (idx j : Nat) : Except Stop Nat := scratchNum s e a.space (baseA + idx * a.stride + j * na) na
  let readB (n j : Nat) : Except Stop Nat :=
    match trec with
    | none => scratchNum s e b.space (baseB + n * b.stride + j * nb) nb
    | some x => streamNum s e x (n * b.rowBytes k + j * nb) nb
  match eachOf (fun r => subBlocks a codesA (k / a.blen) r.1 d.nfz (readA r.2) p.ls k0 p.t) mine with
  | .error x => .error x
  | .ok (as, za) =>
    if mine.isEmpty then .ok ⟨[], false, false⟩
    else
      match orZero za (eachOf (fun n => subBlocks b codesB (k / b.blen) n d.nfz (readB n) p.ls k0 p.t)
          ((List.range 128).map fun i => 128 * cb + i)) with
      | .error x => .error x
      | .ok (cols, zb) =>
        let step (r : (Nat × Nat) × List SubBlock) : Except StopZ ((Nat × Row) × Bool) :=
          match stepRow (accW t.af) (sumBits a b p) (growth p) (128 * cb) (t.rows.getD r.1.1 (emptyRow t.n t.af)) r.2 cols with
          | none => .error ((causeExpRange, 0), false)
          | some (row, ev) => .ok ((r.1.1, row), ev)
        match eachOf step (mine.zip as) with
        | .error x => .error (x.1, za || zb)
        | .ok (out, ev) => .ok ⟨out, ev, za || zb⟩

/-! ### What entries come to -/

/-- The tile's flag and record take a cause, if none is there (R187). -/
def flagTile (s : State) (e : Entry) (cause va : Nat) : State :=
  s.updTile e.tile fun t => { t with fault := t.fault.or (some ⟨cause, e.pc, BitVec.ofNat 64 va, e.wid, srcMatrix (e.core / 4)⟩) }

/-- A tile that has lost its last holder and has no entry left is freed; a flag still set is a launch fault (R188). -/
def reapTile (s : State) (id : Nat) : State :=
  match s.tiles.find? fun t => t.id == id with
  | none => s
  | some t =>
    if !t.holders.isEmpty || s.entries.any fun e => e.tile == id && !e.done && e.work != .wait then s
    else
      let s1 : State := { s with tiles := s.tiles.filter fun x => x.id != id }
      match t.fault with
      | some f =>
        if (s1.launch? t.lid).any fun l => !l.cancelled then launchFault s1 t.lid f.cause f.src 0 0 f.pc f.addr 0 else s1
      | none => s1

/-- An entry has completed or stopped: a readout stays until its instruction takes note, any other leaves. -/
def finishWork (s : State) (e : Entry) : State :=
  let s1 := if e.nfz then s.updWave e.wid fun w => { w with mxstat := w.mxstat ||| 1 } else s
  let s2 := if isAhead e.work || isAstore e.work then s1.updEntry e.id fun x => { x with granted := true, done := true } else dropEntry s1 e.id
  reapTile s2 e.tile

/-- The page of a fault that an entry meets. -/
def entryPage (s : State) (e : Entry) (k : AccKind) (va : Nat) : FaultPage :=
  let a := entrySpace s e false
  ⟨a.asn, a.root, va / 65536, k.code, e.core / 4⟩

/-- The service may still bring the page of a cause that an entry meets (R61). -/
def mayCome (s : State) (e : Entry) (k : AccKind) (c va : Nat) : Bool :=
  let pg := entryPage s e k va
  c == causePageFault && (s.faultDesc.getD (e.core / 96) none).isSome
    && !(e.declined.any fun q => q.asn == pg.asn && q.page == pg.page)

/-- An entry meets a cause: a page that the service may still bring is waited for, any other stops the entry (R61, R187); a
bad granule of on-chip storage also kills the group (R98). -/
def stopWork (s : State) (e : Entry) (k : AccKind) (c va : Nat) : State :=
  if mayCome s e k c va then s.updEntry e.id fun x => { x with missing := addPages x.missing [entryPage s e k va] }
  else
    let t := finishWork (flagTile s e c va) e
    if c = causeScratchUe then killGroupBy t (srcMatrix (e.core / 4)) e.gid c else t

/-- Rows of a tile replaced. -/
def setRows (rows : List Row) : List (Nat × Row) → List Row
  | [] => rows
  | r :: rs => setRows (setAt rows r.1 r.2) rs

/-- One step of a granted `mma` (R197, R198): an event counts once for the step (R410, log 10). -/
def applyStep (s : State) (e : Entry) (t : Tile) (d : DBlock) (total : Nat) (x : Stepped) : State :=
  let s1 := s.updTile t.id fun t =>
    { t with rows := setRows t.rows x.rows, events := if x.event then min (t.events + 1) 0xFFFF else t.events }
  let s2 := if x.event then s1.updWave e.wid fun w => { w with mxstat := w.mxstat ||| 2 } else s1
  let s3 := if x.event && d.evtrap then flagTile s2 e causeRenorm 0 else s2
  let e1 : Entry := { e with step := e.step + 1, nfz := e.nfz || x.nfz, declined := [] }
  let s4 := s3.updEntry e.id fun _ => e1
  if e1.step = total then finishWork s4 e1 else s4

/-- The entry can be worked on. -/
def Entry.awake (e : Entry) : Bool := e.sleep.isEmpty && e.missing.isEmpty && !e.done

/-- MMA_STEP (R180, R197, R198). -/
def execMmaStep (id : Nat) (s : State) : Host.Outcome State Fault Refusal :=
  match s.entries.find? fun e => e.id == id with
  | none => .next s
  | some e =>
    match e.work, s.tiles.find? fun t => t.id == e.tile with
    | .mma a b d k baseA baseB trec rows codesA codesB, some t =>
      if !e.granted || !e.awake || !groupHere s e.gid then .next s
      else
        let total := stepCount t (planOf a.blen b.blen k)
        if total ≤ e.step then .next (finishWork s e)
        else
          match mmaStepOf s e t a b d k baseA baseB trec rows codesA codesB with
          | .error ((c, va), z) =>
            let e1 : Entry := { e with nfz := e.nfz || z }
            .next (stopWork (s.updEntry e.id fun _ => e1) e1 .engineRead c va)
          | .ok x =>
            let s1 := match trec with
              | some r => recordTouch s e t.n a b k r
              | none => s
            .next (applyStep s1 e t d total x)
    | _, _ => .next s

/-! ### `anorm`, `ahead`, `azero` at their grant -/

/-- The smallest bound B ≥ 0 with every |m| at most 2^B (R202). -/
def boundOf (ms : List Int) : Nat :=
  let top := (ms.map fun (m : Int) => m.natAbs).foldl max 0
  if top ≤ 1 then 0 else Nat.log2 (top - 1) + 1

/-- `anorm` on a row (R202). -/
def normRow (n af : Nat) (r : Row) : Row :=
  if r.empty then r
  else if r.mant.all fun m => m == 0 then emptyRow n af
  else
    let ba := boundOf r.mant
    let bt := (accW af - 2) / 2
    let k := min ((bt : Int) - ba) (r.x + 32768) |> max 0
    { mant := r.mant.map fun m => m * 2 ^ k.toNat, x := r.x - k, hr := (((accW af : Int) - 1) - (ba + k)).toNat, empty := false }

/-- A row word of `ahead` (Table 8.3). -/
def rowWord (r : Row) : Word :=
  BitVec.ofNat 32 (truncTo 16 r.x + r.hr * 2 ^ 16 + (if r.empty then 2 ^ 23 else 0))

/-- The tile word of `ahead` (Table 8.3). -/
def tileWord (t : Tile) : Word := BitVec.ofNat 32 (t.events + (if t.fault.isSome then 2 ^ 16 else 0))

/-- `ahead` writes its block (R203); granules that it covers are good again (R97). -/
def aheadWrite (t : Tile) (d : Nat) (mask : Word) (w : Wave) : Wave :=
  let w1 := (List.range (t.m / 32)).foldl
    (fun x g => x.setVreg mask (d + g) fun l => rowWord (t.rows.getD (32 * g + l) (emptyRow t.n t.af))) w
  let w2 := w1.setVreg mask (d + t.m / 32) fun _ => tileWord t
  { w2 with badRegs := w2.badRegs.filter fun p =>
      !(mask.getLsbD p.2 && mask.getLsbD (p.2 + 1) && decide (d ≤ p.1) && decide (p.1 ≤ d + t.m / 32)) }

/-! ### `aload` at its grant (R190, R207) -/

/-- The bytes of a row of C, or the cause met. -/
def tileRead (s : State) (e : Entry) (space : Nat) (a : Int) (n : Nat) : Except Stop Nat :=
  if space = 0 then
    match access s e.mmu (entrySpace s e false) .engineRead a n with
    | .error x => .error x
    | .ok (ls, _) => .ok (entryNum s e ls)
  else scratchNum s e space a.toNat n

/-- A raw row: its record and containers (R207).  Of a record that breaks several of R207's conditions, a reserved bit counts
before EMPTY, and EMPTY before HR (log 67). -/
def rawRow (n af x : Nat) (row : Row) : Except Stop Row :=
  let size := if af = 0 then 32 else 64
  let w := accW af
  let hr := fieldAt x 16 7
  let ms := (List.range n).map fun i => signed w (fieldAt x (64 + i * size) size)
  if fieldAt x 24 40 ≠ 0 then .error (0x67, 0)
  else if fieldAt x 23 1 = 1 then .ok (emptyRow n af)
  else if hr < 1 ∨ w - 1 < hr ∨ ms.any fun m => decide (2 ^ (w - 1 - hr) < m.natAbs) then .error (0x67, 0)
  else .ok { row with mant := ms, x := signed 16 x, hr := hr, empty := false }

/-- q of a format (R190). -/
def loadBits (t : Fmt) : Int :=
  match t.kind with
  | .f32 => 23
  | .f16 => 10
  | .bf16 => 7
  | .int => 30
  | .bfp | .uint | .ter | .sgn | .acc => t.f

/-- The exact value of an element of C; none where it is no number. -/
def loadElem (t : Fmt) (sc : Int) (x : Nat) : Option Scaled :=
  match t.kind.float with
  | some f => match f.value x with
    | .fin n m e => some ⟨if n then -(m : Int) else (m : Int), e + sc⟩
    | .nan | .inf _ => none
  | none => some ⟨intElem t x, if t.kind = .bfp then sc - t.f else sc⟩

/-- floor(log2) of a number that is not zero. -/
def Scaled.log2 (x : Scaled) : Int := (Nat.log2 x.m.natAbs : Int) + x.e

/-- A row of C loaded from its values (R190). -/
def loadRow (t : Fmt) (n af : Nat) (xs : List Scaled) : Except Stop Row :=
  match maxOf ((xs.filter fun x => x.m != 0).map Scaled.log2) with
  | none => .ok (emptyRow n af)
  | some e =>
    let w := accW af
    let qq := min (loadBits t) ((w : Int) - 3)
    let x := e - qq
    if x < -32768 ∨ 32767 < x then .error (causeExpRange, 0)
    else
      .ok { mant := xs.map fun v => rndInt .rne v.m (v.e - x), x := x, hr := ((w : Int) - 1 - (qq + 1)).toNat, empty := false }

/-- A raw row as an `aload` reads it: its mantissas only where its record asks for them (R207). -/
def rawRead (s : State) (e : Entry) (t : Tile) (space : Nat) (a : Int) (fmt : Nat) (old : Row) : Except Stop Row :=
  match tileRead s e space a 8 with
  | .error x => .error x
  | .ok head =>
    if fieldAt head 23 41 ≠ 0 then rawRow t.n t.af head old
    else (tileRead s e space a (outRowBytes fmt t.n)).bind fun raw => rawRow t.n t.af raw old

/-- Row m of an `aload`: the row, and whether an element was loaded as zero. -/
def aloadRow (s : State) (e : Entry) (t : Tile) (c : FmtBlock) (base : Int) (space : Nat) (nfz : Bool) (codes : List Nat)
    (m : Nat) : Except Stop (Row × Bool) :=
  let at_ := base + (m * c.stride : Nat)
  if 25 ≤ c.fmt then (rawRead s e t space at_ c.fmt (t.rows.getD m (emptyRow t.n t.af))).map fun r => (r, false)
  else
    match tileRead s e space at_ (outRowBytes c.fmt t.n) with
    | .error x => .error x
    | .ok raw =>
      let f := c.info
      let vs := (List.range t.n).map fun i =>
        loadElem f (scaleOf f c.scen (codes.getD (m * (t.n / c.blen) + i / c.blen) 0)) (elemAt raw i f.bits)
      if (vs.any fun v => v.isNone) && !nfz then .error (causeNonfinite, 0)
      else (loadRow f t.n t.af (vs.map fun v => v.getD ⟨0, 0⟩)).map fun r => (r, vs.any fun v => v.isNone)

/-- Bytes of a row of C that an `aload` reads: of an empty raw row its record alone (R207). -/
def rowLength (fmt n : Nat) (row : Row) : Nat := if 25 ≤ fmt && row.empty then 8 else outRowBytes fmt n

/-- The rows of an `aload` from number `step` of its list on, read in the state in which it goes on, until one meets a cause; a
page that software declined counts until a row is done (R63). -/
def aloadRows (from_ : State) (c : FmtBlock) (base : Int) (space : Nat) (nfz : Bool) (codes : List Nat) :
    List Nat → Nat → Bool → Entry → State → State
  | [], _, z, e, s => finishWork s { e with nfz := z }
  | m :: ms, k, z, e, s =>
    match s.tiles.find? fun t => t.id == e.tile with
    | none => dropEntry s e.id
    | some t =>
      match aloadRow from_ e t c base space nfz codes m with
      | .error (cause, va) =>
        let e1 : Entry := { e with granted := true, step := k, nfz := z }
        stopWork (s.updEntry e.id fun _ => e1) e1 .engineRead cause va
      | .ok (row, y) =>
        let s1 := if space = 0 then
            entryTouch s e false .engineRead (base + (m * c.stride : Nat)) (rowLength c.fmt t.n row)
          else s
        aloadRows from_ c base space nfz codes ms (k + 1) (z || y) { e with declined := [] }
          (s1.updTile t.id fun t => { t with rows := setAt t.rows m row })

/-! ### `astore` at its grant (R205 to R207) -/

/-- A number rounded to its nearest integer, an exact value of a row (R206). -/
def elemInt (r : Row) (m k : Int) : Int := if r.empty then 0 else rndInt .rne m (r.x + k)

/-- An element of a float or INT32 readout; a result of zero is +0, whatever the value it is rounded from (R206, log 24). -/
def outElem (d : DBlock) (f : Fmt) (r : Row) (m : Int) : Nat :=
  let v := if r.empty then 0 else m
  match f.kind.float with
  | some g =>
    let y := g.roundInt .rne v r.x
    match g.value y with
    | .inf n => if d.osat then g.signed n g.maxBits else y
    | .fin _ 0 _ => 0
    | .nan | .fin _ _ _ => y
  | none =>
    let y := elemInt r m 0
    truncTo 32 (if d.osat then max (-(2 ^ 31)) (min (2 ^ 31 - 1) y) else y)

/-- A block of a BFP readout: its code and its mantissas (R206). -/
def outBlock (f : Fmt) (r : Row) (ms : List Int) : Nat × List Int :=
  let logs := (ms.filter fun m => m != 0 && !r.empty).map fun (m : Int) => (Nat.log2 m.natAbs : Int) + r.x
  let e0 := min (max ((maxOf logs).getD (-127)) (-127)) 127
  let lim : Int := 2 ^ (f.w - 1) - 1
  let q (e : Int) : List Int := ms.map fun m => elemInt r m (f.f - e)
  let e := if ((q e0).any fun m => decide (lim < m.natAbs)) && decide (e0 < 127) then e0 + 1 else e0
  ((e + 127).toNat, (q e).map fun m => max (-lim) (min lim m))

/-- The number whose elements of so many bits these are (R118). -/
def packElems (bits : Nat) : List Nat → Nat
  | [] => 0
  | x :: xs => x % 2 ^ bits + 2 ^ bits * packElems bits xs

/-- The blocks of a row. -/
def blocksOf (l : Nat) (ms : List Int) : List (List Int) := (List.range (ms.length / l)).map fun j => (ms.drop (j * l)).take l

/-- The bytes of a row's readout, and its exponent codes (R206, R207). -/
def outRow (d : DBlock) (af : Nat) (r : Row) : List Byte × List Byte :=
  let n := r.mant.length
  let len := outRowBytes d.ofmt n
  if 25 ≤ d.ofmt then
    let size := if af = 0 then 32 else 64
    let head := truncTo 16 r.x + r.hr * 2 ^ 16 + (if r.empty then 2 ^ 23 else 0)
    (leBytes 8 head ++ leBytes (len - 8) (packElems size (r.mant.map (truncTo size))), [])
  else
    let f := (FmtBlock.mk d.ofmt d.oblen 0 0 false 0 0).info
    if f.kind = .bfp then
      let bs := (blocksOf d.oblen r.mant).map (outBlock f r)
      (leBytes len (packElems f.bits (bs.flatMap fun b => b.2.map (truncTo f.bits))), bs.map fun b => BitVec.ofNat 8 b.1)
    else (leBytes len (packElems f.bits (r.mant.map (outElem d f r))), [])

/-- The places that an `astore` writes from an address on, or the cause met (R93, R205). -/
def outPlaces (s : State) (e : Entry) (space : Nat) (a : Int) (n : Nat) : Except Stop (List Loc) :=
  if n = 0 then .ok []
  else if space = 0 then
    match access s e.mmu (entrySpace s e false) .engineWrite a n with
    | .error x => .error x
    | .ok (ls, _) => .ok ls
  else
    let ls := (List.range n).map fun i => scratchAt e.gid e.kc (e.core / 96) space (a.toNat + i)
    if ls.any Loc.inDeviceRegion then .error (causePageProt, a.toNat)
    else if (s.partBad ls).isEmpty then .ok ls
    else .error (causeScratchUe, a.toNat)

/-- The next row of a granted `astore`: its bytes, with their addresses where they lie in global memory, or the cause they meet;
none where no row is left (R205). -/
def rowCells (s : State) (e : Entry) : Option (Except Stop (List (Nat × Loc) × List (Loc × Byte))) :=
  match e.work, s.tiles.find? fun t => t.id == e.tile with
  | .astore d base space stride expBase rows, some t =>
    (rows.drop e.step).head?.map fun m =>
      let (bs, es) := outRow d t.af (t.rows.getD m (emptyRow t.n t.af))
      let at_ := base + (m * stride : Nat)
      let ex := expBase + (m * es.length : Nat)
      match outPlaces s e space at_ bs.length, outPlaces s e space ex es.length with
      | .ok ls, .ok xs =>
        let vas := if space = 0 then
            ((List.range ls.length).zip ls).map (fun p => (at_.toNat + p.1, p.2))
              ++ ((List.range xs.length).zip xs).map (fun p => (ex.toNat + p.1, p.2))
          else []
        .ok (vas, ls.zip bs ++ xs.zip es)
      | .error x, _ => .error x
      | .ok _, .error x => .error x
  | _, _ => none

/-- The TLB of the TWE after it has translated these addresses (R56). -/
def rowFill (s : State) (e : Entry) (vas : List (Nat × Loc)) : State :=
  ((vas.map fun p => p.1 / 65536).eraseDups).foldl
    (fun u p => match xlate u e.mmu (entrySpace s e false) (65536 * p) with
      | .ok x => fillTlb u e.mmu (entrySpace s e false) x
      | .error _ => u) s

/-- A granted `astore` writes its next row, or stops at the cause that the row meets; after its last row it is done (R205). -/
def storeRow (s : State) (e : Entry) : State :=
  match rowCells s e with
  | none => finishWork s e
  | some (.error (c, va)) => stopWork s e .engineWrite c va
  | some (.ok (vas, cells)) =>
    let e1 : Entry := { e with step := e.step + 1, declined := [] }
    let s1 := (engineWrites (rowFill s e vas) e.lid (writerOf s e.gid) (some e.core) cells vas).updEntry e.id fun _ => e1
    if (rowCells s1 e1).isNone then finishWork s1 e1 else s1

/-! ### Grants (R183) -/

/-- The level at which the arbiter sees an entry. -/
def levelOf (s : State) (e : Entry) : Nat := min 3 (((s.launch? e.lid).map fun l => l.attr.prio).getD 0 + e.rise)

/-- A readout that its instruction turns into the trap of the tile's flag (R205). -/
def outFlagged (s : State) (e : Entry) : Bool := isAstore e.work && s.tiles.any fun t => t.id == e.tile && t.fault.isSome

/-- A page that the service may still bring keeps the TWE from the first tile of an `mma`'s tensor record (R183). -/
def firstTileWaits (s : State) (e : Entry) : Option Nat :=
  match e.work with
  | .mma _ _ _ _ _ _ (some x) _ _ _ =>
    match recordNum s e x 0 x.elems with
    | .error (c, va) => if mayCome s e .engineRead c va then some va else none
    | .ok _ => none
  | _ => none

/-- An entry that waits for the arbiter of a cluster, if only its record's first tile may be missing. -/
def wantsTile (s : State) (e : Entry) : Bool :=
  !e.granted && e.awake && e.work != .wait && e.work != .rela && !outFlagged s e && eligible s e

/-- An entry that waits for the arbiter of a cluster. -/
def wantsGrant (s : State) (e : Entry) : Bool := wantsTile s e && (firstTileWaits s e).isNone

/-- The arbiter's choice in a cluster: the highest level, then the oldest (R183). -/
def arbiterPick (s : State) (cluster : Nat) : Option Nat :=
  let es := s.entries.filter fun e => e.core / 4 == cluster && wantsGrant s e
  (([3, 2, 1, 0] : List Nat).findSome? fun p => es.find? fun e => levelOf s e == p).map fun e => e.id

/-- What a granted entry does (R201 to R206).  A readout to memory starts at its grant and writes a row at a time, so that an error
answer to one of its writes stops it before the next (R205). -/
def grantWork (s : State) (e : Entry) (t : Tile) : State :=
  match e.work with
  | .mma _ _ _ _ _ _ trec _ _ _ =>
    let s1 := match trec with
      | some x => walkAhead s e.mmu (entrySpace s e true) x 0
      | none => s
    s1.updEntry e.id fun x => { x with granted := true }
  | .azero rows =>
    finishWork (s.updTile t.id fun t => { t with rows := setRows t.rows (rows.map fun m => (m, emptyRow t.n t.af)), events := 0 }) e
  | .anorm rows =>
    finishWork (s.updTile t.id fun t =>
      { t with rows := setRows t.rows (rows.map fun m => (m, normRow t.n t.af (t.rows.getD m (emptyRow t.n t.af)))) }) e
  | .ahead d mask => finishWork (s.updWave e.wid (aheadWrite t d mask)) e
  | .aload c base space nfz rows codes =>
    let s1 := if e.granted then s else s.updTile t.id fun t => { t with events := 0 }
    aloadRows s c base space nfz codes (rows.drop e.step) e.step e.nfz e s1
  | .astore .. =>
    if e.granted then storeRow s e
    else if t.fault.isSome then s
    else s.updEntry e.id fun x => { x with granted := true }
  | .rela | .wait => s

/-- An entry whose grant stands and that waits for no page goes on with its rows; a readout writes its next. -/
def goesOn (s : State) (e : Entry) : Bool :=
  e.granted && e.awake && groupHere s e.gid && match e.work with
    | .aload .. | .astore .. => true
    | .mma .. | .azero _ | .anorm _ | .ahead .. | .rela | .wait => false

/-- TILE_ENTRY_GRANT (R183): the entry is the arbiter's choice, or goes on after its pages came, or its record's first tile has
to come first. -/
def execTileEntryGrant (id : Nat) (s : State) : Host.Outcome State Fault Refusal :=
  match s.entries.find? fun e => e.id == id with
  | none => .next s
  | some e =>
    match s.tiles.find? fun t => t.id == e.tile with
    | none => .next (dropEntry s id)
    | some t =>
      if goesOn s e ∨ arbiterPick s (e.core / 4) = some id then .next (grantWork s e t)
      else
        match firstTileWaits s e with
        | some va => if wantsTile s e then .next (stopWork s e .engineRead causePageFault va) else .next s
        | none => .next s

/-- ARBITER_AGING (R183): an entry that has been eligible for 4,096 cycles more rises a level. -/
def execArbiterAging (id : Nat) (s : State) : Host.Outcome State Fault Refusal :=
  match s.entries.find? fun e => e.id == id with
  | none => .next s
  | some e =>
    if wantsGrant s e ∧ levelOf s e < 3 then .next (s.updEntry id fun x => { x with rise := x.rise + 1 }) else .next s

end Sys2Proof.Machine
end

