-- ==== Sys2Proof/Machine/Peers.lean ====
section
/-! DEFINITION. Requests of other packages, and the answers to requests of this one: error responses, timeouts and host
completions (R288, R293 to R297, R361, R382, R383). -/
namespace Sys2Proof.Machine

/-! ### Inbound requests (R293 to R295) -/

/-- The inbound window entries cover a request with the permissions it needs. -/
def inboundOk (s : State) (peer pa n : Nat) (need : InWin → Bool) : Bool :=
  decide (pa + n ≤ Config.hbmEnd)
    && s.inwins.any fun w => decide (w.base ≤ pa) && decide (pa + n ≤ w.base + w.size) && decide (w.lo ≤ peer) && decide (peer ≤ w.hi) && need w

/-- A failed request is written to the peer-fault log and answered with an error that carries the cause (R295, Table 13.10). -/
def peerFail (s : State) (kind peer pa n cause : Nat) : State :=
  let at_ (off : Nat) : Loc := ⟨.chip, 0x1F80000 + off⟩
  let head := s.num (at_ 0) 4
  let lost := s.num (at_ 8) 8
  let s1 := s.setBytes (at_ (0x40 + 32 * (head % 1024)))
    (leBytes 8 s.gts ++ leBytes 8 (pa % 2 ^ 52) ++ leBytes 4 (peer % 1024 + kind * 2 ^ 10 + cause * 2 ^ 16) ++ leBytes 4 n ++ leBytes 8 0)
  let s2 := s1.setBytes (at_ 0) (leBytes 4 (head + 1) ++ leBytes 4 0
    ++ leBytes 8 (if 1024 ≤ head ∨ 0 < lost then lost + 1 else lost))
  { s2 with readData := [], respCause := cause }

/-- The places of an inbound request. -/
def inboundPlaces (pa n : Nat) : List Loc := (List.range n).map fun i => ⟨.hbm, pa + i⟩

/-- The byte that a peer reads at a place: free in a stack that is not backed (log 40). -/
def peerByte (s : State) (l : Loc) : Byte := if s.unbackedAt l then Config.freeByte s.free l.addr else s.byte l

/-- PEER_READ (R294, R295). -/
def execPeerRead (peer pa n : Nat) (s : State) : Host.Outcome State Fault Refusal :=
  if !hostUp s then .next s
  else if !inboundOk s peer pa n fun w => w.rd then .next (peerFail s 0 peer pa n causePeerDenied)
  else if poisoned s (inboundPlaces pa n) then .next (peerFail s 0 peer pa n causeMemPoison)
  else
    let ls := inboundPlaces pa n
    .next { s with
      readData := ls.map (peerByte s)
      respCause := 0
      free := if ls.any s.unbackedAt then s.free + 1 else s.free }

/-- PEER_WRITE (R294, R295); four aligned bytes that are a doorbell word post their message (R349). -/
def execPeerWrite (peer pa : Nat) (data : List Byte) (s : State) : Host.Outcome State Fault Refusal :=
  let n := data.length
  let ls := inboundPlaces pa n
  if !hostUp s then .next s
  else if !inboundOk s peer pa n fun w => w.w then .next (peerFail s 1 peer pa n causePeerDenied)
  else if poisoned s (s.partBad ls) then .next (peerFail s 1 peer pa n causeMemPoison)
  else
    let t := writeCells s none (ls.zip data)
    .next { (if n = 4 then ringDoorbells t [(⟨.hbm, pa⟩, leOf data)] else t) with respCause := 0 }

/-- PEER_ATOMIC: an operation of Table 1.13, or a compare-and-swap of x with y (R294, R295). -/
def execPeerAtomic (peer pa : Nat) (wide : Bool) (op : Option AtomOp) (x y : DWord) (s : State) :
    Host.Outcome State Fault Refusal :=
  let n := match op with
    | some o => atomBytes o
    | none => if wide then 8 else 4
  let ls := inboundPlaces pa n
  let cut (v : DWord) : Nat := v.toNat % 2 ^ (8 * n)
  if !hostUp s then .next s
  else if !inboundOk s peer pa n fun w => w.rd && w.w && w.atm then .next (peerFail s 2 peer pa n causePeerDenied)
  else if poisoned s ls then .next (peerFail s 2 peer pa n causeMemPoison)
  else
    let f (old : Nat) : Option Nat := match op with
      | some o => some (atomNew o old (cut x))
      | none => if old = cut x then some (cut y) else none
    let (old, t) := atomStep s none ls n f
    .next { t with readData := leBytes n old, respCause := 0 }

/-- REMOTE_ENQUEUE: a launch record of another package goes to the distributors (R361).  The message holds the record's place
here, 8 bytes, and its 256 bytes; a window must cover the place, and a message needs no permission of Table 13.5 (R294,
log 34). -/
def execRemoteEnqueue (peer ref : Nat) (message : List Byte) (s : State) : Host.Outcome State Fault Refusal :=
  let pa := leOf (message.take 8)
  let record := message.drop 8
  if !hostUp s then .next s
  else if !inboundOk s peer pa 256 fun _ => true then .next (peerFail s 3 peer pa 256 causePeerDenied)
  else
    let words := (List.range 32).map fun k => BitVec.ofNat 64 (leOf ((record.drop (8 * k)).take 8))
    let l := launchOf (words.map fun w => w.toNat)
    let sub : Submission :=
      { id := s.serial, ref := ref, asn := l.asn, root := l.root, words := words, origin := none, queue := none,
        remote := some peer }
    .next { s with submissions := s.submissions ++ [sub], serial := s.serial + 1, respCause := 0 }

/-! ### Answers to requests of this package (R288, R296, R297) -/

/-- The areas outside the package that an answer can come from. -/
def answerArea (cause : Nat) : Area := if cause = causeHostFault then .host else .peer

/-- A wave's slot that takes the fault of a posted store: the one that sent it, or the other if it is over. -/
def StoreFault.give (f : StoreFault) (sec : Bool) (w : Wave) : Wave :=
  let go := if (w.slot sec).live then sec else !sec
  w.onSlot go fun c => { c with imprecise := c.imprecise ++ [f] }

/-- A posted store is not performed: an imprecise cause of its slot, or a launch fault once its wave has ended
(R296, R382, R383). -/
def failStore (s : State) (p : Posted) (cause : Nat) : State :=
  let s1 : State := { s with posted := s.posted.filter fun x => x.id != p.id }
  match s1.wave? p.wid with
  | some _ => s1.updWave p.wid (StoreFault.give ⟨cause, p.addr, p.pc, 0⟩ p.sec)
  | none => launchFaultAs 1 s1 p.lid cause p.core p.lin p.waveid p.pc p.addr 0

/-- The reads of memory that an unfinished render instruction makes: lane, address and places (R212). -/
def renderPlaces (t : State) (i : Instr) : List LaneAcc :=
  let at_ (want : List (Nat × Int × Nat)) : List LaneAcc :=
    want.map fun p => laneAccess t .g .load t.viewSpace p.1 p.2.1 p.2.2
  let desc (r : Nat) (f : List Nat → List LaneAcc) : List LaneAcc :=
    match descriptor r t with
    | .ok (ws, _) => f ws
    | .error _ => []
  let texels (r a : Nat) : List LaneAcc := desc r fun ws =>
    at_ ((lanesOf t.m0).flatMap fun l => sampleReads (TexDesc.ofWords ws) l (laneSample t (TexDesc.ofWords ws) a l))
  match i with
  | .tex _ r a _ => texels r a
  | .texadj _ r a _ => texels r a
  | .trace _ r a _ => desc r fun ws =>
    (lanesOf t.m0).flatMap fun l =>
      if deadRay (rayOf t a l) then [] else (visitRef t (BvhDesc.ofWords ws) (rayOf t a l) l 64 (BvhDesc.ofWords ws).root).reads
  | .tradj _ r a _ => desc r fun ws =>
    at_ ((lanesOf t.m0).map fun l => (l, (((BvhDesc.ofWords ws).tris + 36 * (t.v (a + 6) l).toNat : Nat) : Int), 36))
  | _ => []

/-- The reads and atomics of an unfinished instruction, lane by lane. -/
def flightPlaces (t : State) (i : Instr) : List LaneAcc :=
  let lanes (k : AccKind) (a : ASpace) (n : Nat) (addr : Nat → Int) : List LaneAcc :=
    (lanesOf t.m0).filterMap fun l =>
      if addrOk (addr l) n then some (laneAccess t .g k a l (addr l) n) else none
  match i with
  | .ldG _ w vi sb _ => lanes .load t.viewSpace w.bytes (memAddr t .g vi sb)
  | .atom _ _ .g op a _ => lanes (.atom true) t.aspace (atomBytes op) (vecAddr t .g a)
  | .cas _ _ .g wide a _ => lanes (.atom true) t.aspace (if wide then 8 else 4) (vecAddr t .g a)
  | _ => renderPlaces t i

/-- The reads that an unfinished `ldu` or render instruction makes once for the slot, whose cause reaches every lane (R420): of
a `rast` its launch record too. -/
def wholePlaces (t : State) (i : Instr) : List LaneAcc :=
  let one (va : Int) (n : Nat) : List LaneAcc := if addrOk va n then [laneAccess t .g .load t.aspace 0 va n] else []
  match i with
  | .ldu _ .g _ w a _ =>
    let va := scalAddr t .g a
    if addrOk va w.bytes then [laneAccess t .g .load t.viewSpace 0 va w.bytes] else []
  | .tex _ r _ _ | .texadj _ r _ _ | .trace _ r _ _ | .tradj _ r _ _ => one (t.s64 r).toInt 32
  | .rast _ r _ _ =>
    one (t.s64 r).toInt 32 ++ match descriptor r t with
      | .ok (ws, _) => one ((RasterDesc.ofWords ws).fraglr : Nat) 256
      | .error _ => []
  | _ => []

/-- What an error answer to an unfinished access concerns: a read that it makes for the whole slot, or lanes with their
addresses, of those whose bytes lie where the answer comes from, some (R296).  Which of the requests it answers is the other
side's choice (log 1). -/
inductive Answered where
  | whole (addr : Int)
  | lanes (mask : Word) (addr : Nat → Int)

/-- What an error answer concerns; none where the access has nothing there. -/
def answered (s : State) (f : Flight) (area : Area) : Option Answered :=
  let t := withCapture f s
  let there (xs : List LaneAcc) : List LaneAcc := xs.filter fun x => x.places.any fun l => l.area == area
  let hit := (there (flightPlaces t f.instr)).map fun x => (x.lane, x.addr)
  match there (wholePlaces t f.instr), hit with
  | [], [] => none
  | x :: _, [] => some (.whole x.addr)
  | xs, (l0, _) :: _ =>
    match if Config.freeNat s.free 1 % 2 = 1 then xs else [] with
    | x :: _ => some (.whole x.addr)
    | [] =>
      let met := maskOf (hit.map fun p => p.1) &&& Config.freeWord s.free 0
      some (.lanes (if met = 0 then maskOf [l0] else met) fun l => (assocGet hit l).getD 0)

/-- An unfinished access of the slot in hand fails: a precise trap of its lanes (R296, Table 16.6), which ends run-ahead.  A
descriptor that could not be read is read again in the replay. -/
def failFlight (s : State) (f : Flight) (cause info : Nat) : State :=
  let s0 := match s.cur.ra with
    | some ra => endRunAhead ra s
    | none => s
  let s1 : State := { s0 with free := s.free + 1 }
  match answered s f (answerArea cause) with
  | none => s
  | some (.whole a) =>
    raise (keepWords f.id none s1)
      { Trap.lanes cause f.mask (fun _ => BitVec.ofInt 64 a) with info := BitVec.ofNat 64 info }
  | some (.lanes m a) => raise s1 { Trap.lanes cause m (fun l => BitVec.ofInt 64 (a l)) with info := BitVec.ofNat 64 info }

/-- The wave and slot that hold an unfinished instruction. -/
def flightOf (s : State) (id : Nat) : Option (Nat × Bool × Flight) :=
  s.waves.findSome? fun w =>
    if !w.onCore then none
    else
      match w.cur.flights.find? fun f => f.id == id with
      | some f => some (w.wid, w.curSec, f)
      | none => (w.sib.flights.find? fun f => f.id == id).map fun f => (w.wid, !w.curSec, f)

/-- An entry that reads or writes global memory fails (R187). -/
def failEntry (s : State) (e : Entry) (cause : Nat) : State :=
  let base : Option Int := match e.work with
    | .mma _ _ _ _ _ _ (some t) _ _ _ => some t.base
    | .aload _ b 0 _ _ _ => some b
    | _ => none
  if !(e.granted && e.awake) then s
  else
    match base, rowCells s e with
    | some b, _ => stopWork s e .engineRead cause b.toNat
    | none, some (.ok (vas, _)) =>
      match vas.find? fun p => p.2.area == answerArea cause with
      | some p => stopWork s e .engineWrite cause p.1
      | none => s
    | none, _ => s

/-- An access, store, completion word, copy, command, entry or collective of this package is answered with an error. -/
def failRequest (s : State) (id cause info : Nat) : Host.Outcome State Fault Refusal :=
  match s.posted.find? fun p => p.id == id with
  | some p => if p.data.any fun c => c.1.area == answerArea cause then .next (failStore s p cause) else .next s
  | none =>
    if (s.devQueue.head?.map fun x => x.id) == some id then .next (answerDev s (some cause))
    else
    match flightOf s id with
    | some (wid, sec, f) => .next (failFlight (s.bring wid sec) f cause info)
    | none =>
      if s.copies.any fun c => c.id == id then execCopyFault id cause s
      else if s.colls.any fun c => c.id == id then execCollectiveStop id cause s
      else
        match s.updates.find? fun u => u.id == id, s.entries.find? fun e => e.id == id with
        | some u, _ => execUpdateCommandStop u.die cause s
        | none, some e => .next (failEntry s e cause)
        | none, none => .next s

/-- PEER_ERROR_RESPONSE with the target's cause (R296). -/
def execPeerErrorResponse (id cause : Nat) (s : State) : Host.Outcome State Fault Refusal := failRequest s id causePeerFault (cause % 256)

/-- HOST_FAULT (R288). -/
def execHostFault (id : Nat) (s : State) : Host.Outcome State Fault Refusal := failRequest s id causeHostFault 0

/-- An earlier posted store of the same slot writes one of the bytes (R104). -/
def overtakes (s : State) (p : Posted) : Bool :=
  s.posted.any fun q => decide (q.id < p.id) && q.wid == p.wid && q.sec == p.sec && q.data.any fun c => p.data.any fun d => d.1 == c.1

/-- The lanes of an unfinished atomic that act at the target although they have timed out (R297); which do is open (log 1). -/
def lateAtomic (s : State) (f : Flight) : State :=
  let t := withCapture f s
  let lanes := (flightPlaces t f.instr).filter fun x =>
    x.places.any (fun l => l.area == .peer) && (Config.freeWord s.free 1).getLsbD x.lane
  match f.instr with
  | .atom _ _ .g op _ d =>
    let n := atomBytes op
    leaveCapture f false [] s (atomLanes t n (fun l old => some (atomNew op old (regNum t n d l))) lanes).2
  | .cas _ _ .g wide _ d =>
    let n := if wide then 8 else 4
    leaveCapture f false [] s
      (atomLanes t n (fun l old => if old = regNum t n d l then some (regNum t n (d + n / 4) l) else none) lanes).2
  | _ => s

/-- The bytes that the run at a copy's cursor writes at peers, although it has timed out (R297). -/
def lateRun (s : State) (c : Copy) : State :=
  match copyRun s c with
  | .error _ => s
  | .ok (ms, _) =>
    let sys := (s.launch? c.lid).any fun l => l.attr.sys
    let cells := ((List.range ms.length).zip ms).flatMap fun p => (movedCells s sys p.1 p.2).map fun x => x.2
    writeCells s none (cells.filter fun x => x.1.area == .peer)

/-- The row of a granted `astore` that is next written to peers, although it has timed out (R297). -/
def lateRow (s : State) (e : Entry) : State :=
  match rowCells s e with
  | some (.ok (_, cells)) => writeCells s none (cells.filter fun x => x.1.area == .peer)
  | some (.error _) | none => s

/-- What the target does of a request that has timed out, if it performs it (R297). -/
def lateWrite (s : State) (id : Nat) : State :=
  match s.posted.find? fun p => p.id == id, s.devQueue.find? fun x => x.id == id with
  | some p, _ => if p.data.any fun c => c.1.area == .peer then writeCells s none p.data else s
  | none, some x => if (s.devQueue.head?.map fun y => y.id) == some id then performDev s x else s
  | none, none =>
    match flightOf s id with
    | some (wid, sec, f) => lateAtomic (s.bring wid sec) f
    | none =>
      match s.copies.find? fun c => c.id == id, s.entries.find? fun e => e.id == id with
      | some c, _ => if copyMoves s c then lateRun s c else s
      | none, some e => if e.granted && e.awake then lateRow s e else s
      | none, none => s

/-- PEER_TIMEOUT (R297): whether a write or atomic that timed out is performed is open (log 1).  A posted store times out after
the slot's earlier ones of the same bytes, which were sent before it (R104, R273). -/
def execPeerTimeout (id : Nat) (s : State) : Host.Outcome State Fault Refusal :=
  if (s.posted.find? fun p => p.id == id).any (overtakes s) then .next s
  else
    let t := if Config.freeNat s.free 0 % 2 = 1 then lateWrite s id else s
    failRequest { t with free := s.free + 1 } id causePeerTimeout 0

/-- A posted store is answered: it is performed (R293), with the hint of its instruction (R96), after
the slot's earlier ones of the same bytes (R104).  The first of the
device's own words is answered in the same way (R419). -/
def answerStore (id : Nat) (s : State) : State :=
  match s.posted.find? fun p => p.id == id with
  | some p =>
    if overtakes s p then s
    else
      let ls := p.data.map fun c => c.1
      let s1 : State := { s with posted := s.posted.filter fun x => x.id != id }
      noteWrites (writeCells (s1.touchAll p.core ls p.hint true) (some (p.wid, p.sec)) p.data) p.lid p.writer
        (ls.map fun l => (0, l))
  | none => if (s.devQueue.head?.map fun x => x.id) == some id then answerDev s none else s

end Sys2Proof.Machine
end

