-- ==== Sys2Proof/Machine/Preempt.lean ====
section
/-! DEFINITION. Issue priorities, evicting resident work for incoming work of higher priority, and restoring it
(R64, R78, R193, R352, R386 to R390). -/
namespace Sys2Proof.Machine

/-! ### Issue priorities (R352) -/

/-- The slot runs and does not wait (R352). -/
def canIssue (w : Wave) (sec : Bool) : Bool :=
  let c := w.slot sec
  w.onCore && c.live && c.status == .running && c.barWait == .none && c.wfe.isNone && c.sleep.isEmpty && c.missing.isEmpty
    && c.entering.isNone

/-- A waiting count, and the urgency that comes with it (R352). -/
def waitTo (prio gts n : Nat) (c : Slot) : Slot :=
  { c with
    waited := n
    urgent := if c.urgent.isNone ∧ 4096 * (4 - prio) ≤ n then some gts else c.urgent }

/-- EFFPRIO_RISE: the count of a waiting pair reaches the next multiple of 4,096 (R352). -/
def execEffprioRise (wid : Nat) (sec : Bool) (s : State) : Host.Outcome State Fault Refusal :=
  .next (s.updWave wid fun w =>
    if canIssue w sec then w.onSlot sec fun c => waitTo w.prio s.gts ((c.waited / 4096 + 1) * 4096) c else w)

/-! ### What is evicted together (R386) -/

/-- The groups that are evicted and restored with a group: a DET launch, a gang instance, or the group alone. -/
def unitFor (s : State) (g : Group) : List Group :=
  if (s.launch? g.lid).any fun l => l.attr.det then s.groups.filter fun x => x.lid == g.lid else unitOf s g

/-- A group holds something on one of these cores. -/
def occupies (g : Group) (cores : List Nat) : Bool :=
  g.onCore && cores.any fun c => if g.isCluster then g.core / 4 == c / 4 else g.core == c

/-- Bytes of a group's save area (Table 16.10). -/
def saveBytes (s : State) (g : Group) : Nat :=
  match s.launch? g.lid with
  | none => 0
  | some l =>
    let a := l.attr
    let scr := if g.isCluster then 4 * a.scratch + 4 * lent a else a.scratch
    let tile (t : Tile) : Nat := t.m * t.n * accBytes t.af + 8 * t.m + 32
    g.waves * 32 * groupBudget a g * 4 + g.waves * 2048 + g.waves * 32 * (a.priv + Config.hwArea) + g.waves * a.quire
      + scr + 320 + 272 * (s.copies.filter fun c => c.gid == g.gid).length
      + ((s.tiles.filter fun t => t.gid == g.gid).map tile).foldl (· + ·) 0
      + 64 * (s.entries.filter fun e => e.gid == g.gid && !e.granted && e.work != .wait).length

/-- A group's effective slice, in core cycles (R388). -/
def effectiveSlice (s : State) (g : Group) : Nat := max s.pslice.toNat (2 * ((saveBytes s g + 127) / 128) + 4096)

/-- Core cycles for which a group has been resident. -/
def residence (s : State) (g : Group) : Nat := (s.gts - g.since) * s.clock / 1000

/-- The highest global wave index among the waves of some groups (R352). -/
def topIndex (gs : List Group) : Nat := (gs.map fun g => g.lin * 32 + (g.waves - 1)).foldl max 0

/-- The lowest base priority among groups. -/
def basePrio (gs : List Group) : Nat := (gs.map fun g => g.prio).foldl min 3

/-- The latest start of residence among groups. -/
def youngest (gs : List Group) : Nat := (gs.map fun g => g.since).foldl max 0

/-- The first unit comes before the second in the order of R387. -/
def unitBefore (a b : List Group) : Bool :=
  decide (basePrio a < basePrio b)
    || (basePrio a == basePrio b
      && (decide (youngest b < youngest a) || (youngest a == youngest b && decide (topIndex b < topIndex a))))

/-- A unit put in its place. -/
def insertUnit (u : List Group) : List (List Group) → List (List Group)
  | [] => [u]
  | v :: vs => if unitBefore u v then u :: v :: vs else v :: insertUnit u vs

/-- The eligible candidates on some cores for work of a priority, in the order in which they are taken (R387). -/
def candidates (s : State) (cores : List Nat) (prio : Nat) : List (List Group) :=
  let us := ((s.groups.filter fun g => occupies g cores).map (unitFor s)).eraseDups
  let ok (u : List Group) : Bool := u.all fun g => g.onCore && decide (g.prio < prio) && decide (effectiveSlice s g ≤ residence s g)
  (us.filter ok).foldl (fun acc u => insertUnit u acc) []

/-- Work of a group that its save waits for (R65, R86, R193, R373). -/
def saveWaits (s : State) (g : Group) : Bool :=
  let mine (wid : Nat) : Bool := s.waves.any fun w => w.wid == wid && w.gid == g.gid
  let out (c : Slot) : Bool := c.tlbWait.any fun ids => ids.any (storeOut s)
  (s.waves.any fun w => w.gid == g.gid && (out w.cur || out w.sib))
    || (s.pubs.any fun p => mine p.wid && !p.published)
    || s.entries.any fun e => e.gid == g.gid && !e.done && (e.granted || match e.work with
      | .ahead .. | .astore .. => true
      | .mma .. | .aload .. | .azero _ | .anorm _ | .rela | .wait => false)

/-! ### Evicting (R389) -/

/-- A wave that is on no core is not in hand. -/
def putAway (s : State) : State :=
  if s.w.live ∧ !s.w.onCore then { s with w := Wave.off, others := s.others ++ [s.w] } else s

/-- Groups leave their cores, saved whole: `n` orders evictions. -/
def evictGroups (s : State) (gs : List Group) (n : Nat) : State :=
  let gids := gs.map fun g => g.gid
  let s1 := s.mapWaves fun w => if gids.contains w.gid then { w with onCore := false } else w
  putAway { s1 with
    groups := s1.groups.map fun g => if gids.contains g.gid then { g with onCore := false, evicted := n } else g
    tiles := s1.tiles.map fun t => if gids.contains t.gid then { t with onCluster := false } else t }

/-- Units evicted one after the other. -/
def evictAll (us : List (List Group)) (s : State) : State :=
  us.foldl (fun t u => { evictGroups t u t.serial with serial := t.serial + 1 }) s

/-- Bytes that saved groups take of the pool. -/
def savedBytes (s : State) : Nat := ((s.groups.filter fun g => !g.onCore).map (saveBytes s)).foldl (· + ·) 0

/-! ### Restoring (R78, R193, R390) -/

/-- A slot as it is restored: a `wfe` completes at once (R380). -/
def restoreWave (cl : Bool) (core gts : Nat) (w : Wave) : Wave :=
  let w1 : Wave := { w with core := waveCore cl core w.waveid, onCore := true, since := gts }
  let w2 := if (w1.slot false).wfe.isSome then w1.endWfe false else w1
  if (w2.slot true).wfe.isSome then w2.endWfe true else w2

/-- The entries that a group had saved are posted again, in their order, behind those of the table (R193). -/
def repost (gid : Nat) (es : List Entry) : List Entry :=
  let back (e : Entry) : Bool := e.gid == gid && !e.granted
  (es.filter fun e => !back e) ++ es.filter back

/-- A group returns to a core, or to the cluster that starts there. -/
def restoreGroup (s : State) (g : Group) (core : Nat) : State :=
  let at_ (k : Nat) : Nat := if g.isCluster then core + k else core
  let s1 := s.mapWaves fun w => if w.gid = g.gid then restoreWave g.isCluster core s.gts w else w
  { s1 with
    groups := s1.groups.map fun x => if x.gid = g.gid then { x with onCore := true, core := core, since := s.gts } else x
    copies := s1.copies.map fun c => if c.gid = g.gid then { c with core := at_ c.k } else c
    entries := repost g.gid (s1.entries.map fun e => if e.gid = g.gid then { e with core := at_ e.kc } else e)
    tiles := s1.tiles.map fun t => if t.gid = g.gid then { t with cluster := core / 4, onCluster := true } else t }

/-- The saved tiles of a group fit in the stores of a cluster and its partner (R170). -/
def tilesFit (s : State) (g : Group) (cluster : Nat) : Bool :=
  ((s.tiles.filter fun t => t.gid == g.gid && !t.onCluster).foldl
    (fun (acc : Bool × State) t =>
      (acc.1 && bandsFit acc.2 cluster t.m t.n t.af,
        acc.2.updTile t.id fun x => { x with cluster := cluster, onCluster := true })) (true, s)).1

/-- The saved copies of a group find room on a cluster's range scoreboard (R74, R78). -/
def copiesFit (s : State) (g : Group) (cluster : Nat) : Bool :=
  decide ((copyBoard s cluster).length + ((s.copies.filter fun c => c.gid == g.gid).flatMap copyEntries).length ≤ boardSize)

/-- The lowest of these cores on which a saved group fits (R339, R390). -/
def restoreSpot (s : State) (g : Group) (cores : List Nat) : Option Nat :=
  match s.launch? g.lid with
  | none => none
  | some l =>
    cores.find? fun c => fitsAt (coreUse s) l.attr (groupBudget l.attr g) g.waves g.isCluster c && tilesFit s g (c / 4)
      && copiesFit s g (c / 4)

/-- Groups restored one after the other, each on the first of these cores that has room. -/
def restoreOn (cores : List Nat) : List Group → State → Option State
  | [], s => some s
  | g :: gs, s =>
    match restoreSpot s g cores with
    | none => none
    | some c => restoreOn cores gs (restoreGroup s g c)

/-- A group restored on a die, or the groups of a gang instance on one of its clusters (R339, R390). -/
def restoreTogether (s : State) (die : Nat) (u : List Group) : Option State :=
  if u.length ≤ 1 then restoreOn (coresOf die) u s
  else (List.range 24).findSome? fun j => restoreOn ((List.range 4).map fun k => 96 * die + 4 * j + k) u s

/-- Groups by their gang instances. -/
def byInstance (u : List Group) : List (List Group) :=
  ((u.map fun g => g.inst).eraseDups).map fun i => u.filter fun g => g.inst == i

/-- Groups and gang instances of a DET launch restored on the dies in ring order from one on (R355). -/
def restoreNear (die : Nat) : List (List Group) → State → Option State
  | [], s => some s
  | u :: us, s =>
    match ((ringFrom die).filter fun d => !fenced s d).findSome? fun d => restoreTogether s d u with
    | none => none
    | some t => restoreNear die us t

/-- A saved unit restored on a die: a DET launch as a whole, a gang instance on one cluster, or a group. -/
def restoreUnit (s : State) (die : Nat) (u : List Group) : Option State :=
  match u with
  | [] => none
  | g :: _ =>
    if (s.launch? g.lid).any fun l => l.attr.det then restoreNear die (byInstance u) s else restoreTogether s die u

/-- Saved units, in the order of their priority and then of their eviction. -/
def savedUnits (s : State) : List (List Group) :=
  let gs := s.groups.filter fun g => !g.onCore && !((s.launch? g.lid).any fun l => l.cancelled)
  let ordered := gs.foldl
    (fun (acc : List Group) g => (acc.takeWhile fun x => decide (x.evicted ≤ g.evicted)) ++ g :: acc.dropWhile fun x => decide (x.evicted ≤ g.evicted)) []
  ([3, 2, 1, 0] : List Nat).flatMap fun p => ((ordered.filter fun g => g.prio == p).map (unitFor s)).eraseDups

/-- The priority of the unstarted work that a die starts next. -/
def startPrio (s : State) (die : Nat) : Option Nat :=
  if fenced s die then none else ((served s).find? fun l => (startOf s die l).isSome).map fun l => l.attr.prio

/-- GROUP_RESTORE on a die (R390): the first saved unit that fits there and that no startable work of higher priority
precedes. -/
def execGroupRestore (die : Nat) (s : State) : Host.Outcome State Fault Refusal :=
  if fenced s die then .next s
  else
    let first := startPrio s die
    let ok (u : List Group) : Bool := first.all fun p => decide (p ≤ basePrio u)
    .next ((((savedUnits s).filter ok).findSome? fun u => restoreUnit s die u).getD s)

/-! ### Incoming work (R386, R387) -/

/-- Released work of a die: a unit of the grid, a fragment wave, a task, or a saved unit. -/
inductive Incoming where
  | unit (l : Launch)
  | frag (l : Launch)
  | task (l : Launch) (t : TaskRec)
  | saved (u : List Group)

/-- Base priority of incoming work. -/
def Incoming.prio : Incoming → Nat
  | .unit l | .frag l => l.attr.prio
  | .task _ t => t.prio
  | .saved u => basePrio u

/-- Incoming work needs the four cores of a cluster. -/
def Incoming.wide : Incoming → Bool
  | .unit l => l.attr.gang || decide (0 < l.attr.cluster)
  | .frag _ | .task _ _ => false
  | .saved u => u.any (fun g => g.isCluster) || decide (1 < u.length)

/-- Incoming work fits on one of these cores. -/
def Incoming.fits (s : State) (cores : List Nat) : Incoming → Bool
  | .unit l =>
    if l.attr.gang then (placeInstance (coreUse s) l.attr (cores.headD 0) (instanceGroups l.attr)).isSome
    else (coreFor (coreUse s) l.attr l.attr.budget l.attr.waves (decide (0 < l.attr.cluster)) cores).isSome
  | .frag l => (coreFor (coreUse s) l.attr l.attr.budget 1 false cores).isSome
  | .task l t => (coreFor (coreUse s) l.attr l.attr.budget (if t.isGroup then t.n else 1) false cores).isSome
  | .saved u => (restoreOn cores u s).isSome

/-- The released work of a die, the highest priority first, saved units before unstarted ones. -/
def incoming (s : State) (die : Nat) : List Incoming :=
  let ls := (served s).filter (mayStart s)
  let units := ls.flatMap fun l =>
    if !l.frags.isEmpty then [Incoming.frag l]
    else if l.attr.det then []
    else if (nextUnit (quarantined s l.lid) l die).isSome then [.unit l] else []
  let tasks := (coresOf die).filterMap fun c =>
    match (dequeOf s c).head? with
    | none => none
    | some t => ((s.launch? t.lid).filter (mayStart s)).map fun l => Incoming.task l t
  let saved := (savedUnits s).filter fun u => u.head?.any fun g => g.core / 96 == die
  let det (u : List Group) : Bool := u.any fun g => (s.launch? g.lid).any fun l => l.attr.det
  let all := ((saved.filter fun u => !det u).map Incoming.saved) ++ units ++ tasks
  ([3, 2, 1, 0] : List Nat).flatMap fun p => all.filter fun x => x.prio == p

/-- Units taken in their order until the work fits; none if it never does. -/
def takeUntil (cores : List Nat) (x : Incoming) : List (List Group) → List (List Group) → State → Option (List (List Group))
  | [], done, s => if x.fits s cores then some done else none
  | u :: us, done, s => if x.fits s cores then some done else takeUntil cores x us (done ++ [u]) (evictGroups s u 0)

/-- Places that R386 looks at for incoming work: cores, or clusters, in ascending order. -/
def placesFor (die : Nat) (wide : Bool) : List (List Nat) :=
  if wide then (List.range 24).map fun j => (List.range 4).map fun k => 96 * die + 4 * j + k
  else (coresOf die).map fun c => [c]

/-- The units that incoming work evicts; none if it has room or cannot get it. -/
def victims (s : State) (die : Nat) (x : Incoming) : Option (List (List Group)) :=
  let places := placesFor die x.wide
  if places.any fun cs => x.fits s cs then none
  else places.findSome? fun cs => takeUntil cs x (candidates s cs (x.prio)) [] s

/-- The units that the groups of a DET launch evict so that all of them start together (R355); none if they cannot. -/
def detVictims (l : Launch) : List (Nat × Nat) → State → List (List Group) → Option (List (List Group))
  | [], _, done => some done
  | (d, n) :: rest, s, done =>
    match startNear s l d n with
    | some t => detVictims l rest t done
    | none =>
      match victims s d (.unit l) with
      | none => none
      | some us =>
        match startNear (evictAll us s) l d n with
        | none => none
        | some t => detVictims l rest t (done ++ us)

/-- The units that the saved groups and gang instances of a DET launch evict so that all of them are restored
together (R386, R390). -/
def savedVictims (die : Nat) : List (List Group) → State → List (List Group) → Option (List (List Group))
  | [], _, done => some done
  | u :: rest, s, done =>
    match restoreNear die [u] s with
    | some t => savedVictims die rest t done
    | none =>
      match victims s die (.saved u) with
      | none => none
      | some us =>
        match restoreNear die [u] (evictAll us s) with
        | none => none
        | some t => savedVictims die rest t (done ++ us)

/-- What a die's incoming work evicts: the highest priority first, and at one priority a saved DET launch, the work of
`incoming`, and a DET launch that has not started. -/
def evictions (s : State) (die : Nat) : Option (List (List Group)) :=
  let isDet (u : List Group) : Bool := u.any fun g => (s.launch? g.lid).any fun l => l.attr.det
  let some_ (x : Option (List (List Group))) : Option (List (List Group)) := x.filter fun us => !us.isEmpty
  ([3, 2, 1, 0] : List Nat).findSome? fun p =>
    let back := (savedUnits s).filter fun u => isDet u && basePrio u == p && u.head?.any fun g => g.core / 96 == die
    let dets := (served s).filter fun l => l.attr.det && l.attr.prio == p && mayStart s l && (detUnits l).any fun u => u.1 == die
    ((back.findSome? fun u => some_ (savedVictims die (byInstance u) s [])).or
      (((incoming s die).filter fun x => x.prio == p).findSome? (victims s die))).or
      (dets.findSome? fun l => some_ (detVictims l (detUnits l) s []))

/-- PREEMPT on a die (R386, R387, R389): nothing happens while the save waits for work, or when the pool has no room. -/
def execPreempt (die : Nat) (s : State) : Host.Outcome State Fault Refusal :=
  if fenced s die then .next s
  else
    match evictions s die with
    | none => .next s
    | some us =>
      let gs := us.flatten
      let need := (gs.map (saveBytes s)).foldl (· + ·) (savedBytes s)
      if gs.any (saveWaits s) ∨ Config.savePool < need then .next s else .next (evictAll us s)

end Sys2Proof.Machine
end

