-- ==== Sys2Proof/Machine/Reset.lean ====
section
/-! DEFINITION. Fencing, degraded operation, the resets, attestation, the clock and the loss of power (R341, R391 to R393,
R397 to R401). -/
namespace Sys2Proof.Machine

/-- The controller's source number (Table 16.8). -/
def srcController : Nat := 0x4A8

/-- A bit of HEALTH is set, with ADVISE (Table 16.9). -/
def advise (s : State) (bits : Nat) : State := { s with health := s.health ||| BitVec.ofNat 32 (2 ^ 31 + bits) }

/-! ### Fencing a die (R341, R392, R393) -/

/-- The groups that are resident on a die. -/
def residents (s : State) (die : Nat) : List Group := s.groups.filter fun g => g.onCore && g.core / 96 == die

/-- A fenced die's share of a launch is dealt to the survivors; the mirror passes on what it knew as retired (R341, R344). -/
def dealLost (die : Nat) (dies : List Nat) (l : Launch) : Launch :=
  let mine := (l.chunks.filter fun c => c.2 == die).map fun c => c.1
  let receiver (k : Nat) : Nat := dies.getD (k % dies.length) 0
  let heir := (((ringFrom die).drop 1).find? fun d => dies.contains d).getD 0
  { l with
    chunks := (l.chunks.filter fun c => c.2 != die) ++ ((List.range mine.length).zip mine).map fun p => (p.2, receiver p.1)
    waiting := l.waiting.map fun p => if p.1 = die then (receiver (p.2 / 64), p.2) else p
    told := (l.told.map fun p => if p.1 = die then (heir, p.2) else p).eraseDups }

/-- The stopped units' translations and lines go. -/
def dropPlaces (s : State) (die : Nat) : State :=
  { s with
    lines := s.lines.filter fun x => x.core.all fun c => c % 384 / 96 != die
    walks := s.walks.filter fun e => e.cluster / 24 != die
    tlb := s.tlb.filter fun e => !((e.kind == 0 && e.unit / 96 == die) || ((e.kind == 1 || e.kind == 2) && e.unit / 24 == die)) }

/-- With every die fenced, all work ends and each launch completes with DIE_FENCED (R393). -/
def endAll (s : State) : State :=
  let busy := (List.range 64).filter fun q => (s.queues.getD q HostQueue.zero).busy
  let s1 : State := { s with
    w := Wave.off
    others := []
    groups := []
    copies := []
    pubs := []
    entries := []
    tiles := []
    contribs := []
    claims := []
    updates := []
    deques := []
    postQueue := []
    barcs := []
    colls := s.colls.filter fun c => c.outcome.isSome
    unclear := s.unclear ++ (s.colls.filter fun c => c.outcome.isNone && c.params.sync).map (·.job)
    submissions := s.submissions.filter fun x => x.origin.isNone
    launches := s.launches.map fun l =>
      { l with cancelled := true, fault := some causeDieFenced, chunks := [], waiting := [], frags := [], tasks := 0 } }
  let s2 := discardShadows s1 fun _ => true
  let s3 := s2.launches.foldl completeLaunch s2
  busy.foldl
    (fun t q =>
      let o := (s.submissions.filterMap fun x => x.origin).find? fun o => o.q == q
      match o with
      | some o => completeEntry (advanceHead t q) o 2 causeDieFenced
      | none => t) s3

/-- A die's compute is fenced: its waves are lost, its groups restart or fault their launches, and its share of the work
goes to the survivors (R341, R392). -/
def fenceDie (s : State) (die : Nat) : State :=
  if 4 ≤ die ∨ fenced s die then s
  else
    let s1 := writeEvent (advise s (2 ^ (24 + die))) 3 causeDieFenced srcController 0 0 0 0 0 0
    let s2 := (residents s die).foldl (fun t g => loseGroup t g.gid causeDieFenced srcController) s1
    let s3 := dropPlaces s2 die
    let dies := liveDies s3
    if dies.isEmpty then endAll s3 else { s3 with launches := s3.launches.map (dealLost die dies) }

/-- DIE_FENCE (R392). -/
def execDieFence (die : Nat) (s : State) : Host.Outcome State Fault Refusal :=
  if hostUp s then .next (fenceDie s die) else .next s

/-- THERMAL_FENCE: every die is fenced (R401). -/
def execThermalFence (s : State) : Host.Outcome State Fault Refusal :=
  if hostUp s then .next ((List.range 4).foldl fenceDie s) else .next s

/-- UNCORRECTABLE_LOGIC_ERROR on a die: more than 16 within 1 s of GTS fence it (R392, Table 16.3). -/
def execUncorrectableLogicError (die : Nat) (s : State) : Host.Outcome State Fault Refusal :=
  if !hostUp s ∨ 4 ≤ die then .next s
  else
    let log := (s.logicErrors.filter fun e => decide (s.gts ≤ e.2 + 10 ^ 9)) ++ [(die, s.gts)]
    let s1 : State := { s with
      logicErrors := log
      ueCount := s.ueCount.setIfInBounds die (min (s.ueCount.getD die 0 + 1) 0xFFFFFFFF) }
    if 16 < (log.filter fun e => e.1 == die).length then .next (fenceDie s1 die) else .next s1

/-- PORT_DEGRADE: a port trains at ×2 (R292, R391). -/
def execPortDegrade (port : Nat) (s : State) : Host.Outcome State Fault Refusal :=
  if !hostUp s ∨ 12 ≤ port ∨ s.health.getLsbD (12 + port) then .next s
  else .next (writeEvent (advise s (2 ^ (12 + port))) 4 0 (0x500 + port) 0 0 0 0 0 0)

/-! ### Reset (R397, R399) -/

/-- MEAS after the verified images, by their digests (R399). -/
def measure (images : List (List Byte)) : List Byte :=
  images.foldl (fun m d => shake256 32 (m ++ d)) (List.replicate 32 0)

/-- What outlives every reset: the memories outside the part, the next leaf, the rows to be repaired, and the model's own
counters and agenda. -/
def afterLoss (s : State) : State :=
  { State.reset with
    mem := s.mem.filter fun c => c.1 % 8 == Area.host.code || c.1 % 8 == Area.peer.code
    attest := { Attest.zero with nextLeaf := s.attest.nextLeaf }
    agenda := s.agenda
    serial := s.serial
    free := s.free
    repairs := s.repairs }

/-- Event records of spares put into use (R391). -/
def noteSpares (n : Nat) (s : State) : State :=
  if n = 0 then s
  else (List.range n).foldl (fun t _ => writeEvent t 5 0 srcController 0 0 0 0 0 0) (advise s (min n 8))

/-- The steps of Table 17.1; the rows that repeated an error are repaired at step 4 (R391, log 69). -/
def resetSteps (f : ResetFindings) (s : State) : State :=
  let s0 : State := { afterLoss s with gts := s.gts }
  let block (v : Nat) (m : List Byte) : Attest := { s0.attest with vstat := v, meas := m }
  if !f.ctrlOk then { s0 with attest := block 1 (List.replicate 32 0), recovery := true }
  else if !f.firmwareOk then { s0 with attest := block 2 (measure f.images), recovery := true }
  else
    let s1 : State := { s0 with attest := block 0 (measure f.images) }
    let s2 := noteSpares (min f.spares 8) s1
    let s3 := (f.weakDies ++ f.deadStacks.map fun k => k / 3).foldl fenceDie s2
    { s3.setNum ⟨.chip, 0x1F00000⟩ 4 0 with gts := 0, unbacked := f.deadStacks, repairs := [] }

/-- COLD_RESET (R397). -/
def execColdReset (f : ResetFindings) (s : State) : Host.Outcome State Fault Refusal := .next (resetSteps f s)

/-- FUNDAMENTAL_RESET of a module that has its supply (R397). -/
def execFundamentalReset (f : ResetFindings) (s : State) : Host.Outcome State Fault Refusal :=
  if s.powered then .next (resetSteps f s) else .next s

/-- RST: the host writes ATTCTL.RST (R397). -/
def execRst (f : ResetFindings) (s : State) : Host.Outcome State Fault Refusal :=
  if s.powered then .next (resetSteps f s) else .next s

/-- POWER_LOSS (R398). -/
def execPowerLoss (s : State) : Host.Outcome State Fault Refusal := .next { afterLoss s with powered := false }

/-! ### Attestation (R398, R400) -/

/-- The message to be signed. -/
def attMessage (s : State) : List Byte :=
  let a := s.attest
  let c := if a.sel < 64 then leBytes 32 (s.queues.getD a.sel HostQueue.zero).chain else List.replicate 32 0
  shake256 32 (a.nonce ++ a.meas ++ c ++ leBytes 4 s.health.toNat)

/-- GO: the host writes ATTCTL.GO (R400).  Spent leaves give STATUS 3 to every request, as R398 says, one with SEL above 64
included, to which Table 17.2 gives STATUS 2 (log 32). -/
def execGo (s : State) : Host.Outcome State Fault Refusal :=
  let a := s.attest
  if !hostUp s ∨ a.busy then .next s
  else if 2 ^ 20 ≤ a.nextLeaf then .next { s with attest := { a with status := 3 } }
  else if 64 < a.sel then .next { s with attest := { a with status := 2 } }
  else .next { s with attest := { a with busy := true, pendingMsg := attMessage s, nextLeaf := a.nextLeaf + 1 } }

/-- SIGNATURE_COMPLETE (R398, R400): the signature is a free value of the key, the message and the leaf (log 1). -/
def execSignatureComplete (s : State) : Host.Outcome State Fault Refusal :=
  let a := s.attest
  if !hostUp s ∨ !a.busy then .next s
  else
    .next { s with attest := { a with
      busy := false
      status := 1
      msg := a.pendingMsg
      sig := (List.range 2820).map (Config.signature a.pendingMsg (a.nextLeaf - 1)) } }

/-! ### The clock (R401) -/

/-- CLOCK_STEP_DOWN: 50 MHz, while a step is left. -/
def execClockStepDown (s : State) : Host.Outcome State Fault Refusal :=
  if hostUp s ∧ 50 < s.clock then .next { s with clock := s.clock - 50 } else .next s

/-- CLOCK_STEP_UP: 50 MHz, up to 1.0 GHz. -/
def execClockStepUp (s : State) : Host.Outcome State Fault Refusal :=
  if hostUp s then .next { s with clock := min 1000 (s.clock + 50) } else .next s

end Sys2Proof.Machine
end

