-- ==== Sys2Proof/Machine/Dispatch.lean ====
section
/-! DEFINITION. One arm for each instruction: one call of its meaning. -/
namespace Sys2Proof.Machine

/-- What an instruction does in a state. -/
def exec (i : Instr) (s : State) : Host.Outcome State Fault Refusal :=
  match i with
  | .add d a b => Sys2Proof.Machine.execAdd d a b s
  | .sub d a b => Sys2Proof.Machine.execSub d a b s
  | .mul d a b => Sys2Proof.Machine.execMul d a b s
  | .mulhiI32 d a b => Sys2Proof.Machine.execMulhiI32 d a b s
  | .mulhiN32 d a b => Sys2Proof.Machine.execMulhiN32 d a b s
  | .and d a b => Sys2Proof.Machine.execAnd d a b s
  | .or d a b => Sys2Proof.Machine.execOr d a b s
  | .xor d a b => Sys2Proof.Machine.execXor d a b s
  | .andn d a b => Sys2Proof.Machine.execAndn d a b s
  | .shl d a b => Sys2Proof.Machine.execShl d a b s
  | .shr d a b => Sys2Proof.Machine.execShr d a b s
  | .sra d a b => Sys2Proof.Machine.execSra d a b s
  | .minI32 d a b => Sys2Proof.Machine.execMinI32 d a b s
  | .maxI32 d a b => Sys2Proof.Machine.execMaxI32 d a b s
  | .minN32 d a b => Sys2Proof.Machine.execMinN32 d a b s
  | .maxN32 d a b => Sys2Proof.Machine.execMaxN32 d a b s
  | .clz d a => Sys2Proof.Machine.execClz d a s
  | .popc d a => Sys2Proof.Machine.execPopc d a s
  | .brev d a => Sys2Proof.Machine.execBrev d a s
  | .abs d a => Sys2Proof.Machine.execAbs d a s
  | .add64 d a b => Sys2Proof.Machine.execAdd64 d a b s
  | .sub64 d a b => Sys2Proof.Machine.execSub64 d a b s
  | .shl64 d a b => Sys2Proof.Machine.execShl64 d a b s
  | .shr64 d a b => Sys2Proof.Machine.execShr64 d a b s
  | .min64I d a b => Sys2Proof.Machine.execMin64I d a b s
  | .max64I d a b => Sys2Proof.Machine.execMax64I d a b s
  | .min64N d a b => Sys2Proof.Machine.execMin64N d a b s
  | .max64N d a b => Sys2Proof.Machine.execMax64N d a b s
  | .mad d a b c => Sys2Proof.Machine.execMad d a b c s
  | .addi d a n => Sys2Proof.Machine.execAddi d a n s
  | .andi d a n => Sys2Proof.Machine.execAndi d a n s
  | .ori d a n => Sys2Proof.Machine.execOri d a n s
  | .xori d a n => Sys2Proof.Machine.execXori d a n s
  | .shi k d a n => Sys2Proof.Machine.execShi k d a n s
  | .bfeN d a b => Sys2Proof.Machine.execBfeN d a b s
  | .bfeI d a b => Sys2Proof.Machine.execBfeI d a b s
  | .bfi d a b => Sys2Proof.Machine.execBfi d a b s
  | .perm d a b => Sys2Proof.Machine.execPerm d a b s
  | .sel m d a b => Sys2Proof.Machine.execSel m d a b s
  | .icmp c m a b => Sys2Proof.Machine.execIcmp c m a b s
  | .icmp64 c m a b => Sys2Proof.Machine.execIcmp64 c m a b s
  | .movi d n => Sys2Proof.Machine.execMovi d n s
  | .movh d n => Sys2Proof.Machine.execMovh d n s
  | .fadd d a b => Sys2Proof.Machine.execFadd d a b s
  | .fsub d a b => Sys2Proof.Machine.execFsub d a b s
  | .fmul d a b => Sys2Proof.Machine.execFmul d a b s
  | .fmin d a b => Sys2Proof.Machine.execFmin d a b s
  | .fmax d a b => Sys2Proof.Machine.execFmax d a b s
  | .fcopysign d a b => Sys2Proof.Machine.execFcopysign d a b s
  | .fldexp d a b => Sys2Proof.Machine.execFldexp d a b s
  | .fadd2 d a b => Sys2Proof.Machine.execFadd2 d a b s
  | .fmul2 d a b => Sys2Proof.Machine.execFmul2 d a b s
  | .fdot2 d a b => Sys2Proof.Machine.execFdot2 d a b s
  | .ffma d a b c => Sys2Proof.Machine.execFfma d a b c s
  | .ffma2 d a b c => Sys2Proof.Machine.execFfma2 d a b c s
  | .fcmp c m a b => Sys2Proof.Machine.execFcmp c m a b s
  | .frcp la d a => Sys2Proof.Machine.execFrcp la d a s
  | .frsq la d a => Sys2Proof.Machine.execFrsq la d a s
  | .fsqrt la r d a => Sys2Proof.Machine.execFsqrt la r d a s
  | .fexp2 la d a => Sys2Proof.Machine.execFexp2 la d a s
  | .flog2 la d a => Sys2Proof.Machine.execFlog2 la d a s
  | .fsin la d a => Sys2Proof.Machine.execFsin la d a s
  | .fcos la d a => Sys2Proof.Machine.execFcos la d a s
  | .frnd la r d a => Sys2Proof.Machine.execFrnd la r d a s
  | .fclass la d a => Sys2Proof.Machine.execFclass la d a s
  | .cvtF32I32 la r d a => Sys2Proof.Machine.execCvtF32I32 la r d a s
  | .cvtF32N32 la r d a => Sys2Proof.Machine.execCvtF32N32 la r d a s
  | .cvtI32F32 la sat r d a => Sys2Proof.Machine.execCvtI32F32 la sat r d a s
  | .cvtN32F32 la sat r d a => Sys2Proof.Machine.execCvtN32F32 la sat r d a s
  | .cvtF16F32 la sat r d a => Sys2Proof.Machine.execCvtF16F32 la sat r d a s
  | .cvtBf16F32 la sat r d a => Sys2Proof.Machine.execCvtBf16F32 la sat r d a s
  | .cvtF32F16 la d a => Sys2Proof.Machine.execCvtF32F16 la d a s
  | .cvtF32Bf16 la d a => Sys2Proof.Machine.execCvtF32Bf16 la d a s
  | .cvtF32I64 la r d a => Sys2Proof.Machine.execCvtF32I64 la r d a s
  | .cvtF32N64 la r d a => Sys2Proof.Machine.execCvtF32N64 la r d a s
  | .cvtI64F32 la sat r d a => Sys2Proof.Machine.execCvtI64F32 la sat r d a s
  | .cvtN64F32 la sat r d a => Sys2Proof.Machine.execCvtN64F32 la sat r d a s
  | .cvtI8I32 la sat d a => Sys2Proof.Machine.execCvtI8I32 la sat d a s
  | .cvtN8I32 la sat d a => Sys2Proof.Machine.execCvtN8I32 la sat d a s
  | .cvtI16I32 la sat d a => Sys2Proof.Machine.execCvtI16I32 la sat d a s
  | .cvtN16I32 la sat d a => Sys2Proof.Machine.execCvtN16I32 la sat d a s
  | .pack la t d a => Sys2Proof.Machine.execPack la t d a s
  | .unpack la t d a => Sys2Proof.Machine.execUnpack la t d a s
  | .bfpx la w d a => Sys2Proof.Machine.execBfpx la w d a s
  | .bfpq la w d a => Sys2Proof.Machine.execBfpq la w d a s
  | .shfl la d a b => Sys2Proof.Machine.execShfl la d a b s
  | .bcast la d a x => Sys2Proof.Machine.execBcast la d a x s
  | .vote la k d a => Sys2Proof.Machine.execVote la k d a s
  | .redu la o d a => Sys2Proof.Machine.execRedu la o d a s
  | .scan la excl o d a => Sys2Proof.Machine.execScan la excl o d a s
  | .compact la d a => Sys2Proof.Machine.execCompact la d a s
  | .mand d a b => Sys2Proof.Machine.execMand d a b s
  | .mor d a b => Sys2Proof.Machine.execMor d a b s
  | .mxor d a b => Sys2Proof.Machine.execMxor d a b s
  | .mnot d a => Sys2Proof.Machine.execMnot d a s
  | .mpop x a => Sys2Proof.Machine.execMpop x a s
  | .mfirst x a => Sys2Proof.Machine.execMfirst x a s
  | .mset d x => Sys2Proof.Machine.execMset d x s
  | .mget x a => Sys2Proof.Machine.execMget x a s
  | .sadd d a b => Sys2Proof.Machine.execSadd d a b s
  | .ssub d a b => Sys2Proof.Machine.execSsub d a b s
  | .smul d a b => Sys2Proof.Machine.execSmul d a b s
  | .sand d a b => Sys2Proof.Machine.execSand d a b s
  | .sor d a b => Sys2Proof.Machine.execSor d a b s
  | .sxor d a b => Sys2Proof.Machine.execSxor d a b s
  | .sshl d a b => Sys2Proof.Machine.execSshl d a b s
  | .sshr d a b => Sys2Proof.Machine.execSshr d a b s
  | .ssra d a b => Sys2Proof.Machine.execSsra d a b s
  | .smin d a b => Sys2Proof.Machine.execSmin d a b s
  | .smax d a b => Sys2Proof.Machine.execSmax d a b s
  | .smov d a => Sys2Proof.Machine.execSmov d a s
  | .saddi d a n => Sys2Proof.Machine.execSaddi d a n s
  | .smovi d n => Sys2Proof.Machine.execSmovi d n s
  | .scmp c m a b => Sys2Proof.Machine.execScmp c m a b s
  | .ldP la w vi sb d => Sys2Proof.Machine.execLdP la w vi sb d s
  | .ldC la w vi sb d => Sys2Proof.Machine.execLdC la w vi sb d s
  | .ldK la w vi sb d => Sys2Proof.Machine.execLdK la w vi sb d s
  | .ldX la w vi sb d => Sys2Proof.Machine.execLdX la w vi sb d s
  | .ldG la w vi sb d => Sys2Proof.Machine.execLdG la w vi sb d s
  | .stP la w vi sb d => Sys2Proof.Machine.execStP la w vi sb d s
  | .stC la w vi sb d => Sys2Proof.Machine.execStC la w vi sb d s
  | .stK la w vi sb d => Sys2Proof.Machine.execStK la w vi sb d s
  | .stX la w vi sb d => Sys2Proof.Machine.execStX la w vi sb d s
  | .stG la w vi sb d => Sys2Proof.Machine.execStG la w vi sb d s
  | .ldu la sp h w a d => Sys2Proof.Machine.execLdu la sp h w a d s
  | .stu la sp h w a d => Sys2Proof.Machine.execStu la sp h w a d s
  | .atom la o sp op a d => Sys2Proof.Machine.execAtom la o sp op a d s
  | .cas la o sp wide a d => Sys2Proof.Machine.execCas la o sp wide a d s
  | .gsadd la a v => Sys2Proof.Machine.execGsadd la a v s
  | .gsflush la => Sys2Proof.Machine.execGsflush la s
  | .fence la o => Sys2Proof.Machine.execFence la o s
  | .pf la l1 h a => Sys2Proof.Machine.execPf la l1 h a s
  | .cinv la relax a => Sys2Proof.Machine.execCinv la relax a s
  | .cwb la a => Sys2Proof.Machine.execCwb la a s
  | .stash la wide k x v => Sys2Proof.Machine.execStash la wide k x v s
  | .cpy la b d x => Sys2Proof.Machine.execCpy la b d x s
  | .cpyq la b d => Sys2Proof.Machine.execCpyq la b d s
  | .pub la x => Sys2Proof.Machine.execPub la x s
  | .bcbini la b x => Sys2Proof.Machine.execBcbini la b x s
  | .bcbexp la b x => Sys2Proof.Machine.execBcbexp la b x s
  | .bcbwait la b => Sys2Proof.Machine.execBcbwait la b s
  | .mma la kp sf bsrc h vi => Sys2Proof.Machine.execMma la kp sf bsrc h vi s
  | .acqa la h x => Sys2Proof.Machine.execAcqa la h x s
  | .rela la h => Sys2Proof.Machine.execRela la h s
  | .azero la h => Sys2Proof.Machine.execAzero la h s
  | .aload la h x => Sys2Proof.Machine.execAload la h x s
  | .astore la h x => Sys2Proof.Machine.execAstore la h x s
  | .anorm la h => Sys2Proof.Machine.execAnorm la h s
  | .ahead la h d => Sys2Proof.Machine.execAhead la h d s
  | .mwait la h => Sys2Proof.Machine.execMwait la h s
  | .rast la x a d => Sys2Proof.Machine.execRast la x a d s
  | .radj la a d => Sys2Proof.Machine.execRadj la a d s
  | .esamp la x a d => Sys2Proof.Machine.execEsamp la x a d s
  | .tex la x a d => Sys2Proof.Machine.execTex la x a d s
  | .texadj la x a d => Sys2Proof.Machine.execTexadj la x a d s
  | .trace la x a d => Sys2Proof.Machine.execTrace la x a d s
  | .tradj la x a d => Sys2Proof.Machine.execTradj la x a d s
  | .tapeRec la a => Sys2Proof.Machine.execTapeRec la a s
  | .tapePop la d => Sys2Proof.Machine.execTapePop la d s
  | .tapeMark la rcmp x => Sys2Proof.Machine.execTapeMark la rcmp x s
  | .tapeSeal la => Sys2Proof.Machine.execTapeSeal la s
  | .tapeStat la d => Sys2Proof.Machine.execTapeStat la d s
  | .upd la x => Sys2Proof.Machine.execUpd la x s
  | .col la sync arr x => Sys2Proof.Machine.execCol la sync arr x s
  | .colw la x => Sys2Proof.Machine.execColw la x s
  | .wmreg la g x => Sys2Proof.Machine.execWmreg la g x s
  | .wmread la g d => Sys2Proof.Machine.execWmread la g d s
  | .wmchk la g d => Sys2Proof.Machine.execWmchk la g d s
  | .br o => Sys2Proof.Machine.execBr o s
  | .call o => Sys2Proof.Machine.execCall o s
  | .brc o neg m => Sys2Proof.Machine.execBrc o neg m s
  | .brx o v => Sys2Proof.Machine.execBrx o v s
  | .callx o v => Sys2Proof.Machine.execCallx o v s
  | .ret r => Sys2Proof.Machine.execRet r s
  | .convat o => Sys2Proof.Machine.execConvat o s
  | .trap n => Sys2Proof.Machine.execTrap n s
  | .bkpt tag => Sys2Proof.Machine.execBkpt tag s
  | .bar n => Sys2Proof.Machine.execBar n s
  | .barc x n => Sys2Proof.Machine.execBarc x n s
  | .lclk x => Sys2Proof.Machine.execLclk x s
  | .fork x => Sys2Proof.Machine.execFork x s
  | .join x => Sys2Proof.Machine.execJoin x s
  | .spawn x => Sys2Proof.Machine.execSpawn x s
  | .mbox b x => Sys2Proof.Machine.execMbox b x s
  | .fget x d => Sys2Proof.Machine.execFget x d s
  | .fput x d => Sys2Proof.Machine.execFput x d s
  | .cancel x v => Sys2Proof.Machine.execCancel x v s
  | .cwait b x => Sys2Proof.Machine.execCwait b x s
  | .getc scalar r n => Sys2Proof.Machine.execGetc scalar r n s
  | .setc scalar r n => Sys2Proof.Machine.execSetc scalar r n s
  | .rinj x => Sys2Proof.Machine.execRinj x s
  | .tlbinv e x => Sys2Proof.Machine.execTlbinv e x s
  | .evsig c x => Sys2Proof.Machine.execEvsig c x s
  | .mov16 x v d => Sys2Proof.Machine.execMov16 x v d s
  | .add16 x v d => Sys2Proof.Machine.execAdd16 x v d s
  | .sub16 x v d => Sys2Proof.Machine.execSub16 x v d s
  | .and16 x v d => Sys2Proof.Machine.execAnd16 x v d s
  | .or16 x v d => Sys2Proof.Machine.execOr16 x v d s
  | .xor16 x v d => Sys2Proof.Machine.execXor16 x v d s
  | .shl16 x v d => Sys2Proof.Machine.execShl16 x v d s
  | .shr16 x v d => Sys2Proof.Machine.execShr16 x v d s
  | .sra16 x v d => Sys2Proof.Machine.execSra16 x v d s
  | .minI3216 x v d => Sys2Proof.Machine.execMinI3216 x v d s
  | .maxI3216 x v d => Sys2Proof.Machine.execMaxI3216 x v d s
  | .fadd16 x v d => Sys2Proof.Machine.execFadd16 x v d s
  | .fsub16 x v d => Sys2Proof.Machine.execFsub16 x v d s
  | .fmul16 x v d => Sys2Proof.Machine.execFmul16 x v d s
  | .fmin16 x v d => Sys2Proof.Machine.execFmin16 x v d s
  | .fmax16 x v d => Sys2Proof.Machine.execFmax16 x v d s
  | .faultBatchWrite die => Sys2Proof.Machine.execFaultBatchWrite die s
  | .resolve die b => Sys2Proof.Machine.execResolve die b s
  | .copyDelivery id => Sys2Proof.Machine.execCopyDelivery id s
  | .copyFault id cause => Sys2Proof.Machine.execCopyFault id cause s
  | .copyStop id => Sys2Proof.Machine.execCopyStop id s
  | .publishPoint id => Sys2Proof.Machine.execPublishPoint id s
  | .frameRelease id => Sys2Proof.Machine.execFrameRelease id s
  | .tileEntryGrant id => Sys2Proof.Machine.execTileEntryGrant id s
  | .mmaStep id => Sys2Proof.Machine.execMmaStep id s
  | .scatterContribution id => Sys2Proof.Machine.execScatterContribution id s
  | .lineClose id => Sys2Proof.Machine.execLineClose id s
  | .epochClose lid => Sys2Proof.Machine.execEpochClose lid s
  | .updateCommandStart die => Sys2Proof.Machine.execUpdateCommandStart die s
  | .updateCommandComplete die => Sys2Proof.Machine.execUpdateCommandComplete die s
  | .updateCommandStop die cause => Sys2Proof.Machine.execUpdateCommandStop die cause s
  | .collectiveComplete id => Sys2Proof.Machine.execCollectiveComplete id s
  | .collectiveStop id cause => Sys2Proof.Machine.execCollectiveStop id cause s
  | .launchAccept id => Sys2Proof.Machine.execLaunchAccept id s
  | .groupStart die => Sys2Proof.Machine.execGroupStart die s
  | .taskStart core => Sys2Proof.Machine.execTaskStart core s
  | .stealRequest die => Sys2Proof.Machine.execStealRequest die s
  | .groupRetire gid => Sys2Proof.Machine.execGroupRetire gid s
  | .retirementMessage lid lin => Sys2Proof.Machine.execRetirementMessage lid lin s
  | .launchComplete lid => Sys2Proof.Machine.execLaunchComplete lid s
  | .phaseAdvance job => Sys2Proof.Machine.execPhaseAdvance job s
  | .preempt die => Sys2Proof.Machine.execPreempt die s
  | .groupRestore die => Sys2Proof.Machine.execGroupRestore die s
  | .queueLaunch q => Sys2Proof.Machine.execQueueLaunch q s
  | .mailboxPost q => Sys2Proof.Machine.execMailboxPost q s
  | .queueMarker q => Sys2Proof.Machine.execQueueMarker q s
  | .faultsvc q => Sys2Proof.Machine.execFaultsvc q s
  | .peertmo q => Sys2Proof.Machine.execPeertmo q s
  | .inwin q => Sys2Proof.Machine.execInwin q s
  | .gateopen q => Sys2Proof.Machine.execGateopen q s
  | .pkgid q => Sys2Proof.Machine.execPkgid q s
  | .arbiterAging id => Sys2Proof.Machine.execArbiterAging id s
  | .effprioRise wid sec => Sys2Proof.Machine.execEffprioRise wid sec s
  | .collectiveMessage comm seq m => Sys2Proof.Machine.execCollectiveMessage comm seq m s
  | .peerRead peer pa n => Sys2Proof.Machine.execPeerRead peer pa n s
  | .peerWrite peer pa data => Sys2Proof.Machine.execPeerWrite peer pa data s
  | .peerAtomic peer pa wide op x y => Sys2Proof.Machine.execPeerAtomic peer pa wide op x y s
  | .remoteEnqueue peer ref message => Sys2Proof.Machine.execRemoteEnqueue peer ref message s
  | .peerErrorResponse id cause => Sys2Proof.Machine.execPeerErrorResponse id cause s
  | .peerTimeout id => Sys2Proof.Machine.execPeerTimeout id s
  | .hostFault id => Sys2Proof.Machine.execHostFault id s
  | .qtail q v => Sys2Proof.Machine.execQtail q v s
  | .bar2Read off n => Sys2Proof.Machine.execBar2Read off n s
  | .bar2Write off data => Sys2Proof.Machine.execBar2Write off data s
  | .bar0RegisterWrite off n v => Sys2Proof.Machine.execBar0RegisterWrite off n v s
  | .rst f => Sys2Proof.Machine.execRst f s
  | .coldReset f => Sys2Proof.Machine.execColdReset f s
  | .fundamentalReset f => Sys2Proof.Machine.execFundamentalReset f s
  | .dieFence die => Sys2Proof.Machine.execDieFence die s
  | .portDegrade port => Sys2Proof.Machine.execPortDegrade port s
  | .uncorrectableLogicError die => Sys2Proof.Machine.execUncorrectableLogicError die s
  | .conv => Sys2Proof.Machine.execConv s
  | .demote => Sys2Proof.Machine.execDemote s
  | .exit => Sys2Proof.Machine.execExit s
  | .nop => Sys2Proof.Machine.execNop s
  | .yield => Sys2Proof.Machine.execYield s
  | .lsync => Sys2Proof.Machine.execLsync s
  | .tret => Sys2Proof.Machine.execTret s
  | .wfe => Sys2Proof.Machine.execWfe s
  | .fetchFault => Sys2Proof.Machine.execFetchFault s
  | .runAheadEnd => Sys2Proof.Machine.execRunAheadEnd s
  | .starvationSwap => Sys2Proof.Machine.execStarvationSwap s
  | .takeInjectedCause => Sys2Proof.Machine.execTakeInjectedCause s
  | .wfeTimeout => Sys2Proof.Machine.execWfeTimeout s
  | .go => Sys2Proof.Machine.execGo s
  | .signatureComplete => Sys2Proof.Machine.execSignatureComplete s
  | .clockStepDown => Sys2Proof.Machine.execClockStepDown s
  | .clockStepUp => Sys2Proof.Machine.execClockStepUp s
  | .thermalFence => Sys2Proof.Machine.execThermalFence s
  | .powerLoss => Sys2Proof.Machine.execPowerLoss s

end Sys2Proof.Machine
end

