-- ==== Sys2Proof/Machine/Run.lean ====
section
/-! DEFINITION. Who moves next: the moves of the agenda, the choice among the slots of a core (R331, R352), the steps that
engines can take, and time (log 11). -/
namespace Sys2Proof.Machine

/-- What a move comes to: an instruction or a step performed in a state, or a change that is over. -/
inductive Action where
  | run (i : Instr) (s : State)
  | over (s : State)

/-! ### The slot in hand -/

/-- The slot in hand can attempt to issue. -/
def slotReady (s : State) : Bool :=
  let c := s.cur
  s.w.onCore && c.live && c.status == .running && c.barWait == .none && c.wfe.isNone && c.sleep.isEmpty && c.missing.isEmpty
    && c.entering.isNone

/-- The slot in hand waits or sleeps, or waits to enter its handler, so that a cancellation ends its wave (R364, R374). -/
def slotWaits (s : State) : Bool :=
  let c := s.cur
  s.w.onCore && c.live &&
    (c.status != .running || c.barWait != .none || c.wfe.isSome || !c.sleep.isEmpty || !c.missing.isEmpty || c.entering.isSome)

/-- What the slot in hand does when it moves: an injected cause (R381), the entry to its handler that had to wait (R373), its
replay queue after a page fault (R63), the guard's
swap (R318), or its next instruction. -/
def slotAction (s : State) : Action :=
  if injectable s then .run .takeInjectedCause s
  else
    match s.cur.entering with
    | some p => if s.w.onCore && s.cur.live && !entryWaits s then .over (enterAfterWait p s) else .over s
    | none =>
    if !slotReady s then .over s
    else
    match s.cur.replaying, s.cur.flights with
    | true, f :: _ => .over (finishFlight f.id s)
    | _, _ =>
      let t := s.onCur fun c => { c with replaying := false }
      if swapDue t then .run .starvationSwap t
      else
        match fetchAt t t.cur.pc with
        | (.ok i, xs) => .run i (afterFetch t t.cur.pc xs)
        | (.illegal, _) => .over (illegalHere t)
        | (.fault _ _ _, _) => .run .fetchFault t

/-! ### Steps without an encoding -/

/-- A step of a slot, which acts on the slot in hand. -/
def slotStep : Instr → Bool
  | .fetchFault | .runAheadEnd | .starvationSwap | .takeInjectedCause | .wfeTimeout => true
  | _ => false

/-- A step of an engine, of the host, of a peer or of the controller. -/
def engineStep (i : Instr) : Bool := (encode i).isNone && !slotStep i

/-! ### Storage errors and caches (R96 to R99) -/

/-- The die of a place of the part. -/
def dieOf (s : State) (l : Loc) : Nat :=
  let coreOf (gid : Nat) : Nat := ((s.group? gid).map fun g => g.core).getD 0
  match l.area with
  | .hbm => l.addr / Config.hbmDie
  | .chip => l.addr / Config.chipSize
  | .core => coreOf (l.addr / 2 ^ 19 / 4) / 96
  | .window => coreOf (l.addr / 2 ^ 20) / 96
  | .lane => ((s.wave? (l.addr / 2 ^ 13 / 32)).map fun w => w.die).getD 0
  | .host | .l2 | .peer => 0

/-- A die's count of errors goes up, saturating (Table 16.3). -/
def countError (xs : Vector Nat 4) (die : Nat) : Vector Nat 4 := xs.setIfInBounds die (min (xs.getD die 0 + 1) 0xFFFFFFFF)

/-- An uncorrectable error in a row of HBM4: the second one sets ADVISE, with a record whose KIND Table 16.7 does not give
(R391, log 69). -/
def rowError (s : State) (row : Nat) : State :=
  if row ∈ s.repairs then s
  else if row ∈ s.badRows then
    let s1 : State := { advise s 0 with repairs := row :: s.repairs, free := s.free + 1 }
    writeEvent s1 (Config.freeNat s.free 0 % 256) 0 srcController 0 0 0 0 0 0
  else { s with badRows := row :: s.badRows }

/-- An uncorrectable error in the granule of a byte; host memory's own are none of the part's, but the L2's copy of a host line
can have one (R99). -/
def markBad (s : State) (l : Loc) : State :=
  if l.area = .host ∨ l.area = .peer ∨ (l.area = .l2 ∧ !s.l2Holds l.addr) then s
  else
    let s1 : State :=
      { s with bad := if s.isBad l then s.bad else State.granule l :: s.bad, ueCount := countError s.ueCount (dieOf s l) }
    if l.area = .hbm then rowError s1 (Config.hbmRow l.addr) else s1

/-- An uncorrectable error in the register files of a wave: the granule of a vector register's lane, or of a scalar or mask
register of a slot (R97, log 49). -/
def markReg (s : State) (wid : Nat) (sec : Bool) (r : RegId) (lane : Nat) : State :=
  match s.wave? wid with
  | none => s
  | some w =>
    let mark (x : Wave) : Wave :=
      let scal (g : RegId) : Wave := x.onSlot sec fun c => { c with bank := { c.bank with bad := g :: c.bank.bad } }
      match r with
      | .v n => { x with badRegs := (n, lane / 2 * 2) :: x.badRegs }
      | .s n => scal (.s (n / 2 * 2))
      | .m n => scal (.m (n / 2 * 2))
      | .a _ => x
    { s.updWave wid mark with ueCount := countError s.ueCount w.die }

/-- An uncorrectable error in an item of a wave's quire, by its place from the bottom (R97, R234, log 72). -/
def markQuire (s : State) (wid k : Nat) : State :=
  match s.wave? wid with
  | none => s
  | some w =>
    if w.tape.quire.length ≤ k then s
    else
      let mark (x : Wave) : Wave := { x with tape := { x.tape with badItems := k :: x.tape.badItems.filter (· != k) } }
      { s.updWave wid mark with ueCount := countError s.ueCount w.die }

/-- An uncorrectable error in a row of an accumulator store: R98 gives it no consequence, and the row holds open values from
then on (R97, log 72). -/
def markTile (s : State) (id row : Nat) : State :=
  match s.tiles.find? fun t => t.id == id with
  | none => s
  | some t =>
    if t.m ≤ row ∨ !t.onCluster then s
    else
      let w := accW t.af
      let open_ (k : Nat) : Int := (BitVec.ofNat w (Config.freeNat s.free k)).toInt
      let bad : Row :=
        { mant := (List.range t.n).map open_, x := (BitVec.ofNat 16 (Config.freeNat s.free t.n)).toInt,
          hr := Config.freeNat s.free (t.n + 1) % w, empty := false }
      { s with
        tiles := s.tiles.map fun u => if u.id == id then { u with rows := u.rows.set row bad } else u
        ueCount := countError s.ueCount (t.cluster / 24)
        free := s.free + 1 }

/-- An uncorrectable error in a core's L1 copy of a line: a cache never changes a value read, so the copy goes (R95, R97,
log 72). -/
def markCopy (s : State) (core : Nat) (area : Area) (line : Nat) : State :=
  { s.removeLine area line fun c => c == some core with ueCount := countError s.ueCount (core % 384 / 96) }

/-- A set loses its victim to a line that this model does not show: a dirty host line is written back (R96, log 46). -/
def evictLine (s : State) (core : Option Nat) (set : Nat) : State :=
  match State.victim (s.inSet core set) with
  | none => s
  | some x =>
    let s1 := if core.isNone then s.writeBack x.area x.line else s
    s1.removeLine x.area x.line fun c => c == core

/-! ### Time -/

/-- Time passes. -/
def advance (s : State) (ns : Nat) : State := { s with gts := s.gts + ns }

/-! ### Moves -/

/-- An unfinished instruction of a slot may complete by itself: not while the slot runs ahead or sleeps (R60), or completes its
replay queue in order (R63). -/
def mayFinish (c : Slot) : Bool := c.ra.isNone && c.sleep.isEmpty && c.missing.isEmpty && !c.replaying

/-- What a move of the agenda does. -/
def moveAction (m : Move) (s : State) : Action :=
  match m with
  | .issue wid sec defer =>
    let t := s.bring wid sec
    if !(t.w.live && t.w.wid == wid) then .over s
    else if t.cancelled && slotWaits t then .over (finishWave t wid)
    else slotAction { t.onCur fun c => { c with stalled := false } with defer := defer }
  | .event i => if engineStep i then .run i s else .over s
  | .slotEvent wid sec i =>
    let t := s.bring wid sec
    let ready := slotReady t || i == .wfeTimeout || i == .takeInjectedCause
    if t.w.live && t.w.wid == wid && t.w.onCore && t.cur.live && slotStep i && ready then .run i t else .over s
  | .finish wid sec k =>
    let t := s.bring wid sec
    if t.w.live && t.w.wid == wid && t.w.onCore then
      match t.cur.flights[k]? with
      | some f => if mayFinish t.cur then .over (finishFlight f.id t) else .over s
      | none => .over s
    else .over s
  | .answer id => .over (answerStore id s)
  | .tick ns => .over (advance s ns)
  | .dropTlb k => .over { s with tlb := s.tlb.eraseIdx k }
  | .dropWalk k => .over { s with walks := s.walks.eraseIdx k }
  | .evict core set => .over (evictLine s core set)
  | .bar0Read off n => .over (bar0Read off n s)
  | .hostWrite addr data =>
    .over { s with
      mem := ((List.range data.length).zip data).foldl (fun mm p => Mem.put mm (Loc.key ⟨.host, addr + p.1⟩) p.2) s.mem }
  | .badGranule l => .over (markBad s l)
  | .badReg wid sec r lane => .over (markReg s wid sec r lane)
  | .badQuire wid k => .over (markQuire s wid k)
  | .badTile id row => .over (markTile s id row)
  | .badCopy core area line => .over (markCopy s core area line)
  | .corrected die => .over { s with ceCount := countError s.ceCount die }

/-! ### The choice among slots (R352) -/

/-- A (wave, slot) pair as the selection sees it. -/
structure Pair where
  wid : Nat
  sec : Bool
  core : Nat
  prio : Nat
  urgent : Option Nat
  since : Nat
  index : Nat
  issuedAt : Nat
  yielded : Bool

/-- The eligible pairs: a slot runs, does not wait, and its attempt to issue, looked at beforehand, is not held (R352). -/
def pairs (tries : Nat → Bool → Bool) (s : State) : List Pair :=
  s.waves.flatMap fun w =>
    ([false, true].filter fun sec => canIssue w sec && tries w.wid sec).map fun sec =>
      let c := w.slot sec
      ⟨w.wid, sec, w.core, effPrio w c, c.urgent, w.since, globalIndex s w, c.issuedAt, c.yielded⟩

/-- The pair has given up its turn and some other eligible pair of its priority on the core has not issued since (R331). -/
def givesWay (ps : List Pair) (p : Pair) : Bool :=
  p.yielded && ps.any fun q =>
    q.core == p.core && q.prio == p.prio && (q.wid, q.sec) != (p.wid, p.sec) && decide (q.issuedAt ≤ p.issuedAt)

/-- The first pair goes before the second (R352). -/
def goesFirst (ps : List Pair) (a b : Pair) : Bool :=
  match a.urgent, b.urgent with
  | some x, some y => decide (x < y) || (x == y && (decide (a.index < b.index) || (a.index == b.index && !a.sec && b.sec)))
  | some _, none => true
  | none, some _ => false
  | none, none =>
    let ya := givesWay ps a
    let yb := givesWay ps b
    decide (b.prio < a.prio)
      || (a.prio == b.prio
        && ((!ya && yb)
          || (ya == yb
            && (decide (a.since < b.since)
              || (a.since == b.since
                && (decide (a.index < b.index)
                  || (a.index == b.index
                    && ((!a.sec && b.sec) || (a.sec == b.sec && decide (a.issuedAt < b.issuedAt))))))))))

/-- A pair at its place among pairs in the order of R352. -/
def placeIn (ps : List Pair) (p : Pair) : List Pair → List Pair
  | [] => [p]
  | q :: qs => if goesFirst ps p q then p :: q :: qs else q :: placeIn ps p qs

/-- The slots of one wave that issue in the same cycle do so the primary first, which then comes first to a barrier, to a tile
and to everything else that they share (R182, R366). -/
def primaryFirst (ps : List Pair) : List Pair :=
  ps.flatMap fun p =>
    if p.sec then (if ps.any fun q => q.wid == p.wid && !q.sec then [] else [p])
    else p :: ps.filter fun q => q.wid == p.wid && q.sec

/-- The pairs of these that issue in this cycle: on each core the first four in the order of R352, one for each of its
ports. -/
def turnPairs (ps : List Pair) : List Pair :=
  primaryFirst ((ps.foldl (fun xs p => placeIn ps p xs) []).foldl
    (fun xs p => if xs.countP (fun q => q.core == p.core) < 4 then xs ++ [p] else xs) [])

/-- The eligible pairs that do not issue have waited one cycle more (R352). -/
def countWaits (s : State) (ps turn : List Pair) : State :=
  let has (xs : List Pair) (w : Wave) (sec : Bool) : Bool := xs.any fun p => p.wid == w.wid && p.sec == sec
  s.mapWaves fun w =>
    let go (w : Wave) (sec : Bool) : Wave :=
      if has ps w sec && !has turn w sec then w.onSlot sec fun c => waitTo w.prio s.gts (c.waited + 1) c else w
    go (go w false) true

/-- Held slots attempt again. -/
def clearStalls (s : State) : State :=
  s.mapWaves fun w => { w with cur := { w.cur with stalled := false }, sib := { w.sib with stalled := false } }

/-! ### The steps that engines can take -/

/-- Steps of the fault service. -/
def faultMoves (s : State) : List Instr :=
  if (s.faultDesc.all fun d => d.isNone) then [] else (List.range 4).map .faultBatchWrite

/-- Steps of copies and publishing. -/
def copyMovesAll (s : State) : List Instr :=
  (s.copies.flatMap fun c =>
    if c.stopping then [.copyStop c.id]
    else match copyRun s c with
      | .ok _ => [.copyDelivery c.id]
      | .error (k, _) => [.copyFault c.id k])
    ++ s.pubs.map (fun p => .publishPoint p.id) ++ s.held.map fun h => .frameRelease h.id

/-- Steps of the matrix engines and of scatter. -/
def tileMoves (s : State) : List Instr :=
  (s.entries.map fun e => if e.granted then .mmaStep e.id else .tileEntryGrant e.id)
    ++ ((s.entries.filter (goesOn s)).map fun e => .tileEntryGrant e.id)
    ++ (s.contribs.filter fun c => !c.accepted).map (fun c => .scatterContribution c.id)
    ++ s.claims.map (fun c => .lineClose c.id) ++ s.launches.map fun l => .epochClose l.lid

/-- Steps of the update units and all-reduce engines. -/
def unitMoves (s : State) : List Instr :=
  (if s.updates.isEmpty then []
    else (List.range 4).flatMap fun d =>
      .updateCommandStart d :: .updateCommandComplete d ::
        (match (running s d).bind fun u => updStops s u with
          | some e => [.updateCommandStop d e.cause]
          | none => []))
    ++ (s.colls.filter fun c => c.outcome.isNone).flatMap fun c =>
      match c.decision, colStops s c with
      | some (.stop k), _ => [.collectiveStop c.id k]
      | _, some e => [.collectiveStop c.id e.cause]
      | _, none => [.collectiveComplete c.id]

/-- Steps of the mailbox engine. -/
def queueMoves (s : State) : List Instr :=
  (List.range 64).flatMap fun q =>
    if !entryReady s q then []
    else
      let e := entryAt s (s.queues.getD q HostQueue.zero)
      match e.kind, e.arg0 % 256 with
      | 1, _ => [.mailboxPost q]
      | 3, _ => [.queueMarker q]
      | 2, 2 => [.peertmo q]
      | 2, 3 => [.inwin q]
      | 2, 4 => [.gateopen q]
      | 2, 5 => [.pkgid q]
      | 2, _ => [.faultsvc q]
      | _, _ => [.queueLaunch q]

/-- A steal after which the die starts a group; dies that could not would ask without end (log 11). -/
def stealHelps (s : State) (die : Nat) : Bool :=
  match execStealRequest die s with
  | .next t => decide (t ≠ s) && (startNext t die).isSome
  | .fault _ | .refused _ => false

/-- Steps of the distributors. -/
def launchMoves (s : State) : List Instr :=
  let dies := List.range 4
  s.submissions.map (fun x => .launchAccept x.id)
    ++ (s.groups.filter (canRetire s)).map (fun g => .groupRetire g.gid)
    ++ s.launches.flatMap (fun l => (l.told.map fun p => .retirementMessage l.lid p.2) ++ [.launchComplete l.lid])
    ++ s.phases.map (fun p => .phaseAdvance p.1)
    ++ (if s.launches.isEmpty then []
        else dies.map .groupStart ++ (dies.filter (stealHelps s)).map .stealRequest
          ++ (if s.postQueue.isEmpty && s.deques.all fun d => d.2.isEmpty then [] else (List.range 384).map .taskStart)
          ++ (if s.groups.all fun g => g.onCore then [] else dies.map .groupRestore)
          ++ dies.map .preempt)

/-- Everything that could move without the outside world, the slots' own moves apart, in the order in which it is tried. -/
def engineMoves (s : State) : List Move :=
  let waits := s.waves.flatMap fun w =>
    ([false, true].filter fun sec => w.onCore && (w.slot sec).live).flatMap fun sec =>
      let c := w.slot sec
      (if c.wfe.any fun t => decide (t ≤ s.gts) then [Move.slotEvent w.wid sec .wfeTimeout] else [])
        ++ (if !injectable (s.bring w.wid sec) then [] else [.issue w.wid sec false])
        ++ (if c.entering.isSome && !entryWaits (s.bring w.wid sec) then [.issue w.wid sec false] else [])
        ++ (if (s.launch? w.lid).any fun l => l.cancelled then [.issue w.wid sec false] else [])
        ++ (List.range c.flights.length).map fun k => .finish w.wid sec k
  waits ++ s.posted.map (fun p => .answer p.id) ++ s.devQueue.map (fun x => .answer x.id) ++ (faultMoves s ++ copyMovesAll s ++ tileMoves s ++ unitMoves s ++ queueMoves s ++ launchMoves s
    ++ (if s.attest.busy then [Instr.signatureComplete] else [])).map .event

/-- The time at which the next sleeping `wfe` ends, or the next nanosecond. -/
def idleUntil (s : State) : Nat :=
  let ts := s.waves.flatMap fun w => [w.cur, w.sib].filterMap fun c => c.wfe
  match lowest (ts.filter fun t => decide (s.gts < t)) with
  | some t => t
  | none => s.gts + 1

/-- The slot's last attempt to issue was held. -/
def wasHeld (s : State) (wid : Nat) (sec : Bool) : Bool := (s.wave? wid).any fun w => (w.slot sec).live && (w.slot sec).stalled

/-- The move of a pair that issues. -/
def Pair.move (p : Pair) : Move := .issue p.wid p.sec false

/-- The state in which the first pair of a cycle issues: a nanosecond has passed, the pairs that do not issue have waited,
and the moves of the others are the agenda. -/
def beforeTurn (ps : List Pair) (s : State) : State :=
  let turn := turnPairs ps
  { countWaits (advance s 1) ps turn with agenda := turn.tail.map Pair.move }

/-- With nothing to do, held slots attempt again or time passes. -/
def idle (s : State) : State :=
  if s.waves.any fun w => w.cur.stalled || w.sib.stalled then advance (clearStalls s) 1 else { s with gts := idleUntil s }

/-! ### A program placed from outside (log 12) -/

/-- The instruction address at which a placed program starts. -/
def placedPc : Nat := 0x4000

/-- The page tables of a placed program: a 64-MiB page at address 0, readable, writable and executable (Tables 2.2, 2.3). -/
def placedTables (s : State) : State :=
  let s1 := s.setNum ⟨.hbm, 0x10000⟩ 8 (0x12000 + 1)
  let s2 := s1.setNum ⟨.hbm, 0x12000⟩ 8 (0x14000 + 1)
  s2.setNum ⟨.hbm, 0x14000⟩ 8 (0x4000000 + 0xE3)

/-- The launch of a placed program: one group of one wave, with the system flag. -/
def placedLaunch (lid : Nat) : Launch :=
  let a : LaunchRec :=
    { LaunchRec.zero with
      code := placedPc, trapvec := 0x8000, root := 0x10000, sys := true, priv := 256, scratch := 4096, cluster := 1024 }
  { lid := lid, ref := 0, attr := a, origin := none, queue := none, remote := none, cancelled := false, fault := none, gsdone := 0, topEpoch := 0, total := 1, frags := [],
    isFrag := false, chunks := [], waiting := [], retired := [], front := 0, told := [], kills := [], tasks := 0, posts := 0,
    wrote := [], writers := [], window := 0 }

/-- A wave in hand, started as R334 says by a launch of its own, with zeros in its vector registers. -/
def placeWave (s : State) : State :=
  let l := placedLaunch s.serial
  let s1 : State := { placedTables s with launches := s.launches ++ [l], serial := s.serial + 1 }
  let s2 := startGrid s1 l 0 0
  let s3 := s2.bring (s.serial + 2) false
  s3.onWave fun w => { w with vregs := (List.range 128).map fun r => (r, List.replicate 32 0) }

/-- A slot in hand: the one there is, or that of a placed program. -/
def handWave (s : State) : State := if s.w.live then s else placeWave s

/-- Bytes stored where the slot in hand fetches, as far as its code is mapped. -/
def storeCode (s : State) (bs : List Byte) : State :=
  (List.range bs.length).foldl
    (fun t i =>
      match places t (.core t.w.core) t.aspace .fetch (t.cur.pc + i) 1 with
      | .ok (l :: _, _) => t.setByte l (bs.getD i 0)
      | _ => t) s

/-- The slot in hand moves next. -/
def handNext (s : State) : State := { s with agenda := .issue s.w.wid s.w.curSec false :: s.agenda }

end Sys2Proof.Machine
end

