-- ==== Sys2Proof/Machine/Step.lean ====
section
/-! DEFINITION. One step of the machine, and placing an instruction where the next step fetches. -/
namespace Sys2Proof.Machine

/-- A next state with room made for the lines that came into full sets of the caches (R95, R96). -/
def trimmed (o : Host.Outcome State Fault Refusal) : Host.Outcome State Fault Refusal :=
  match o with
  | .next t => .next t.trimCaches
  | .fault f => .fault f
  | .refused r => .refused r

/-- An action carried out. -/
def performAction (a : Action) : Host.Outcome State Fault Refusal :=
  match a with
  | .run i s => trimmed (exec i s)
  | .over s => .next s.trimCaches

/-- The first of some moves that changes the state, with what it comes to. -/
def firstMove (s : State) : List Move → Option State
  | [] => none
  | m :: ms =>
    match performAction (moveAction m s) with
    | .next t => if t = s then firstMove s ms else some t
    | .fault _ | .refused _ => firstMove s ms

/-- An attempt of a slot to issue, looked at beforehand, is not held (R352). -/
def tries (s : State) (wid : Nat) (sec : Bool) : Bool :=
  match performAction (moveAction (.issue wid sec false) s) with
  | .next t => !wasHeld t wid sec
  | .fault _ | .refused _ => false

/-- The eligible pairs of a cycle (R352). -/
def eligiblePairs (s : State) : List Pair := pairs (tries s) s

/-- The slots' turn, if some slot can issue: the first pair of the cycle issues, and the others head the agenda (log 11). -/
def slotMove (s : State) : Option (Host.Outcome State Fault Refusal) :=
  let ps := eligiblePairs s
  (turnPairs ps).head?.map fun p => performAction (moveAction p.move (beforeTurn ps s))

/-- The engines' turn, if some engine can move. -/
def engineMove (s : State) : Option (Host.Outcome State Fault Refusal) :=
  (firstMove s (engineMoves s)).map fun t => .next (advance (clearStalls t) 1)

/-- A step of the part by itself: slots and engines take turns (log 11). -/
def selfMove (s : State) : Host.Outcome State Fault Refusal :=
  if s.gts % 2 = 0 then ((slotMove s).or (engineMove s)).getD (.next (idle s))
  else ((engineMove s).or (slotMove s)).getD (.next (idle s))

/-- One step: the next move of the agenda, or the part's own. -/
def step (s : State) : Host.Outcome State Fault Refusal :=
  match s.agenda with
  | m :: rest => performAction (moveAction m { s with agenda := rest })
  | [] => selfMove s

/-- The instruction whose first `nbits` bits are `w`, the rest zero, stored where the slot in hand fetches, which moves next. -/
def State.withFetchWord (s : State) (nbits w : Nat) : State :=
  handNext (storeCode (handWave s) (leBytes 4 (w % 2 ^ nbits)))

end Sys2Proof.Machine
end

