-- ==== Sys2Proof/Safety.lean ====
section
/-! DEFINITION. The words in which the statements are made: when an instruction performs at its issue, what it leaves
unchanged, and the manual's tables of results, written from the tables themselves. -/
namespace Sys2Proof.Machine

/-! ### When an instruction performs, and what it leaves alone -/

/-- At its issue the instruction performs: the slot in hand is live and not in run-ahead (R60), no cancellation takes
effect (R364), none of R24's causes applies, nothing holds it (R26, R27, R354, R373, R382), no imprecise cause is due
(R382), no source granule is bad (R98), and a long-latency instruction completes at once. -/
structure Ready (i : Instr) (s : State) : Prop where
  live : s.cur.live = true
  normal : s.cur.ra = none
  going : (s.cancelled && (cancelPoint s i || waitsForStores i s)) = false
  legal : issueTrap i s = none
  free : held i s = false
  precise : impreciseTrap i s = none
  sound : badSource (hdr i) s = false
  inOrder : s.defer = false

/-- The state in which an instruction that closes windows performs (R27). -/
def opened (i : Instr) (s : State) : State :=
  if closesFirst i then s.onCur fun c => { c with windows := [] } else s

/-- The state after an instruction whose meaning answered `done`. -/
def finished (i : Instr) (s t : State) : State := retire i (stepPc i (clearBadRegs (hdr i) s.m0 t))

/-- The state after an instruction whose meaning answered `jump`: its slot's PC is set already. -/
def leftBy (i : Instr) (s t : State) : State := retire i (clearBadRegs (hdr i) s.m0 t)

/-- No scalar register has changed. -/
def sameScalars (s t : State) : Prop := ∀ r, t.sreg r = s.sreg r
/-- No mask register has changed, the active mask among them. -/
def sameMasks (s t : State) : Prop := ∀ k, t.mreg k = s.mreg k
/-- No lane of any vector register has changed. -/
def sameVectors (s t : State) : Prop := ∀ r l, t.v r l = s.v r l
/-- Every byte of every storage reads as before; the L2's copies are read through their host addresses. -/
def sameMemory (s t : State) : Prop := ∀ l : Loc, l.area ≠ .l2 → t.byte l = s.byte l

/-- No register granule became bad: a result only clears marks (R97). -/
def fewerBadRegs (s t : State) : Prop :=
  (∀ p ∈ t.w.badRegs, p ∈ s.w.badRegs) ∧ ∀ r ∈ t.w.cur.bank.bad, r ∈ s.w.cur.bank.bad

/-- The slot in hand has moved past an instruction: its wave kept the other slot, the lanes' exit and helper marks, and
every special register; its slot kept everything but the PC, the scalar and mask registers and the monitored block, and
the issue logic's own counts. -/
structure MovedPast (i : Instr) (s t : State) : Prop where
  wave : t.w =
    { s.w with cur := t.w.cur, vregs := t.w.vregs, badRegs := t.w.badRegs, lclock := s.w.lclock + 1 }
  marks : fewerBadRegs s t
  slot : t.w.cur =
    { s.w.cur with
      pc := (s.w.cur.pc + (hdr i).size) % 2 ^ 56
      bank := { s.w.cur.bank with
        sregs := t.w.cur.bank.sregs, mregs := t.w.cur.bank.mregs, monitor := t.w.cur.bank.monitor
        bad := t.w.cur.bank.bad }
      windows := t.w.cur.windows, flights := t.w.cur.flights, waited := 0, urgent := none, yielded := false
      issuedAt := s.gts, stalled := false, staging := none }

/-- What an instruction that only works on registers leaves alone: everything outside its wave, and in its wave what
`MovedPast` says; the monitored block stays too. -/
structure OnlyRegs (i : Instr) (s t : State) : Prop where
  outside : t = { s with w := t.w }
  moved : MovedPast i s t
  monitor : t.w.cur.bank.monitor = s.w.cur.bank.monitor
  memory : sameMemory s t

/-- The byte at a place once the lines of some host places have left the L2: the L2's where it holds newer data, otherwise
host memory's own (R53, R110, R272). -/
def orderedByte (s : State) (ls : List Loc) (p : Loc) : Byte :=
  if p.area = .host ∧ (ls.any fun l => l.area == .host && l.line == p.line) = true
      ∧ (s.lines.any fun x => x.core.isNone && x.area == .host && x.line == p.line && x.dirty) = false then
    Mem.get s.mem p.key
  else s.byte p

/-- What a load leaves alone: everything but its own registers, entries of TLBs and walkers, lines in caches and the
free-value counter. -/
structure OnlyReads (i : Instr) (s t : State) : Prop where
  outside : t = { s with w := t.w, mem := t.mem, lines := t.lines, tlb := t.tlb, walks := t.walks, free := t.free }
  moved : MovedPast i s t
  memory : sameMemory s t

/-- Two lists have the same length and their members stand in a relation, place by place. -/
def pairwiseRel {α : Type} (r : α → α → Prop) : List α → List α → Prop
  | [], [] => True
  | a :: as, b :: bs => r a b ∧ pairwiseRel r as bs
  | _, _ => False

/-- A slot kept everything but a `wfe` that a write may have ended (R380). -/
def onlyWokenSlot (a b : Slot) : Prop := b = a ∨ b = a.endWfe

/-- A tape kept everything, and the mark that the program wrote to its area, unless it was set now (R235). -/
def onlySpoiledTape (a b : Tape) : Prop := b = a ∨ b = { a with spoiled := true }

/-- A wave kept everything but the `wfe`s of its slots that a write may have ended (R380) and its tape's mark (R235). -/
def onlyWoken (a b : Wave) : Prop :=
  onlyWokenSlot a.cur b.cur ∧ onlyWokenSlot a.sib b.sib ∧ onlySpoiledTape a.tape b.tape ∧
    b = { a with cur := b.cur, sib := b.sib, lclock := b.lclock, tape := b.tape }

/-- An update command kept everything but the mark that something else wrote its arrays (R267). -/
def onlySpoiledUpd (a b : UpdCmd) : Prop := b = a ∨ b = { a with spoiled := true }

/-- A collective kept everything but the mark that something else wrote its arrays (R302). -/
def onlySpoiledColl (a b : Coll) : Prop := b = a ∨ b = { a with spoiled := true }

/-- The arrays of commands and collectives kept everything but the marks of writes that are not their engine's. -/
def onlyMarked (s t : State) : Prop :=
  pairwiseRel onlySpoiledUpd s.updates t.updates ∧ pairwiseRel onlySpoiledColl s.colls t.colls

/-- A launch kept everything but the notes of the lines it wrote (R356, R357). -/
def onlyNoted (a b : Launch) : Prop := b = { a with wrote := b.wrote, writers := b.writers }

/-- The slot in hand kept everything, its bank too, but the PC, which is past an instruction, its windows and lookahead
counts, and the issue logic's own counts. -/
def SlotPast (i : Instr) (s t : State) : Prop :=
  t.w.cur =
    { s.w.cur with
      pc := (s.w.cur.pc + (hdr i).size) % 2 ^ 56, windows := t.w.cur.windows, flights := t.w.cur.flights, waited := 0
      urgent := none, yielded := false, issuedAt := s.gts, stalled := false, staging := none }

/-- What a store or an atomic leaves alone, memory and vector registers apart: every other register; outside, all but
entries of TLBs and walkers, lines, marks of overwritten bad granules, sleeping `wfe`s, the launch's notes, the marks of
arrays that nothing but their engine may write, and the fault service's next moves. -/
structure OnlyWrites (i : Instr) (s t : State) : Prop where
  outside : t = { s with
    w := t.w, others := t.others, mem := t.mem, lines := t.lines, tlb := t.tlb, walks := t.walks, bad := t.bad
    launches := t.launches, agenda := t.agenda, updates := t.updates, colls := t.colls, oldTapes := t.oldTapes }
  others : pairwiseRel onlyWoken s.others t.others
  launches : pairwiseRel onlyNoted s.launches t.launches
  marked : onlyMarked s t
  agenda : s.agenda <+: t.agenda
  bad : ∀ g ∈ t.bad, g ∈ s.bad
  sib : onlyWokenSlot s.w.sib t.w.sib
  tape : onlySpoiledTape s.w.tape t.w.tape
  marks : fewerBadRegs s t
  wave : t.w = { s.w with
    cur := t.w.cur, sib := t.w.sib, vregs := t.w.vregs, badRegs := t.w.badRegs, lclock := t.w.lclock, tape := t.w.tape }
  slot : SlotPast i s t

/-- The last byte that a list of writes, made in order, puts at a place; the old one where there is none. -/
def lastAt (cells : List (Loc × Byte)) (l : Loc) (old : Byte) : Byte :=
  cells.foldl (fun b c => if c.1 = l then c.2 else b) old

/-- After these writes, made in order, each place holds the last byte written to it, and every other byte is as before. -/
def wroteMemory (s t : State) (cells : List (Loc × Byte)) : Prop :=
  ∀ l : Loc, l.area ≠ .l2 → t.byte l = lastAt cells l (s.byte l)

/-- Vector register d holds the given values in the active lanes, and nothing else of the vector registers changed
(R130). -/
def wroteV (s t : State) (d : Nat) (f : Nat → Word) : Prop :=
  (∀ l < 32, t.v d l = if s.m0.getLsbD l then f l else s.v d l) ∧ ∀ r l, r ≠ d → t.v r l = s.v r l

/-- The vector pair at d holds the given values in the active lanes, and nothing else of the vector registers changed. -/
def wroteV64 (s t : State) (d : Nat) (f : Nat → DWord) : Prop :=
  (∀ l < 32, t.v64 d l = if s.m0.getLsbD l then f l else s.v64 d l) ∧
    ∀ r l, r ≠ d → r ≠ d + 1 → t.v r l = s.v r l

/-- The n vector registers from d on hold the given values in the active lanes, and no other has changed. -/
def wroteBlock (s t : State) (d n : Nat) (f : Nat → Nat → Word) : Prop :=
  (∀ k < n, ∀ l < 32, t.v (d + k) l = if s.m0.getLsbD l then f k l else s.v (d + k) l) ∧
    ∀ r l, (r < d ∨ d + n ≤ r) → t.v r l = s.v r l

/-- Scalar register d holds a value, `s0` stays zero, and no other scalar register changed (R12). -/
def wroteS (s t : State) (d : Nat) (x : Word) : Prop :=
  (d ≠ 0 → t.sreg d = x) ∧ t.sreg 0 = 0 ∧ ∀ r, r ≠ d → t.sreg r = s.sreg r

/-- The scalar pair at d holds a value, `s0` stays zero, and no other scalar register changed. -/
def wroteS64 (s t : State) (d : Nat) (x : DWord) : Prop :=
  (d ≠ 0 → t.sreg d = x.truncate 32) ∧ t.sreg (d + 1) = (x >>> 32).truncate 32 ∧ t.sreg 0 = 0 ∧
    ∀ r, r ≠ d → r ≠ d + 1 → t.sreg r = s.sreg r

/-- Mask register d holds a value and no other mask register changed. -/
def wroteM (s t : State) (d : Nat) (x : Word) : Prop := t.mreg d = x ∧ ∀ k, k ≠ d → t.mreg k = s.mreg k

/-! ### Attempts to issue -/

/-- The slot brought to hand may attempt its next instruction: it is there and awake, nothing waits, no injected cause, no
swap of the starvation guard and no instruction left in a replay queue come first (R63, R318, R364, R381). -/
structure MayIssue (wid : Nat) (t : State) : Prop where
  there : t.w.live = true ∧ t.w.wid = wid
  going : (t.cancelled && slotWaits t) = false
  noEvent : injectable t = false
  awake : slotReady t = true
  noSwap : swapDue t = false
  inTurn : t.cur.replaying = true → t.cur.flights = []

/-- A slot brought to hand for an attempt to issue: it is no longer marked as held (R352); with `defer` a long-latency
instruction may be left unfinished. -/
def attempt (s : State) (wid : Nat) (sec defer : Bool) : State :=
  { (s.bring wid sec).onCur fun c => { c with stalled := false } with defer := defer }

/-- The slot in hand has no replay queue to complete first (R63). -/
def awake (t : State) : State := t.onCur fun c => { c with replaying := false }

/-- A halfword of code: where it lies and the translations its fetch used; the fetch meets no cause (R20, R53). -/
def codeUnit (t : State) (pc : Nat) (ls : List Loc) (xs : List Xlat) : Prop :=
  addrOk pc 2 = true ∧ places t (.core t.w.core) t.aspace .fetch pc 2 = .ok (ls, xs) ∧ ls.length = 2
    ∧ ∀ l ∈ ls, t.isBad l = false

/-- The bytes at the slot's PC, one halfword or two, decode to an instruction. -/
def Fetches (t : State) (i : Instr) (xs : List Xlat) : Prop :=
  (∃ ls, codeUnit t t.cur.pc ls xs ∧ decode (ls.map fun l => t.byte l) = .ok (i, [])) ∨
    ∃ ls ls' ys zs, codeUnit t t.cur.pc ls ys ∧ codeUnit t (t.cur.pc + 2) ls' zs ∧ xs = ys ++ zs ∧
      decode ((ls ++ ls').map fun l => t.byte l) = .ok (i, [])

/-! ### Traps (R368 to R376) -/

/-- The address that TADDR takes: that of the lowest lane that met the cause (R371, R420). -/
def trapAddr (s : State) (tr : Trap) : DWord :=
  match lowestLane (tr.mask.getD s.m0) with
  | some l => tr.laddr l
  | none => tr.laddr 0

/-- The slot in hand has entered its handler with no unfinished instruction (R370 to R372): the trap registers, the frame
and `v0` of its lanes are written, its windows are closed, it goes on at TRAPVEC, and nothing else has changed. -/
structure EnteredHandler (s t : State) (tr : Trap) (next : Nat) : Prop where
  outside : t = { s with w := t.w, mem := t.mem }
  wave : t.w = { s.w with cur := t.w.cur, vregs := t.w.vregs }
  slot : t.w.cur = { s.w.cur with
    trap := t.w.cur.trap, pc := pcOf s.w.trapvec, windows := [], flights := [], rq := Vector.replicate 16 RqEntry.zero,
    wfe := none, sleep := [], missing := [], ra := none, barWait := .none, stalled := false, staging := none
    replaying := false, tlbWait := none, entering := none }
  registers : t.w.cur.trap =
    { cause := tcauseWord tr.cause 0 tr.impr, pc := next, mask := tr.mask.getD s.m0, act := s.m0, addr := trapAddr s tr,
      info := tr.info, depth := s.cur.depth, splitOff := false }
  v0 : wroteV s t 0 fun _ => BitVec.ofNat 32 s.w.priv
  frame : ∀ l < 32, s.m0.getLsbD l = true →
    t.num (laneLoc s.w l s.w.priv) 8 = (if (tr.mask.getD s.m0).getLsbD l then (tr.laddr l).toNat else 0) ∧
      t.num (laneLoc s.w l (s.w.priv + 8)) 4 = (s.v 0 l).toNat ∧ t.num (laneLoc s.w l (s.w.priv + 12)) 4 = 0
  rest : ∀ p : Loc, p.area ≠ .l2 →
    (∀ l < 32, s.m0.getLsbD l = true → ∀ k < 16, p ≠ laneLoc s.w l (s.w.priv + k)) → t.byte p = s.byte p

/-- The captures of the unfinished instructions before the k-th, in words of OPND (R373). -/
def opoffOf (fs : List Flight) (k : Nat) : Nat := ((fs.take k).map fun (f : Flight) => f.vecs.length).foldl (· + ·) 0

/-- An attempt of the slot in hand that comes as far as the checks of R24: the slot is live and not in run-ahead, and no
cancellation takes effect. -/
structure Attempts (i : Instr) (s : State) : Prop where
  live : s.cur.live = true
  normal : s.cur.ra = none
  going : (s.cancelled && (cancelPoint s i || waitsForStores i s)) = false

/-! ### The manual's tables of results (chapter 6) -/

/-- Ones in a word, counted bit by bit. -/
def onesIn (x : Word) : Nat := (List.range 32).countP fun i => x.getLsbD i

/-- Table 6.1, by the forms of OP6 0x01 that take two registers. -/
def table61 (i : Instr) : Option (Nat × Nat × Nat × (Word → Word → Word)) :=
  match i with
  | .add d a b => some (d, a, b, fun x y => BitVec.ofInt 32 (x.toInt + y.toInt))
  | .sub d a b => some (d, a, b, fun x y => BitVec.ofInt 32 (x.toInt - y.toInt))
  | .mul d a b => some (d, a, b, fun x y => BitVec.ofInt 32 (x.toInt * y.toInt))
  | .mulhiI32 d a b => some (d, a, b, fun x y => ((x.signExtend 64 * y.signExtend 64) >>> 32).truncate 32)
  | .mulhiN32 d a b => some (d, a, b, fun x y => ((x.zeroExtend 64 * y.zeroExtend 64) >>> 32).truncate 32)
  | .and d a b => some (d, a, b, fun x y => x &&& y)
  | .or d a b => some (d, a, b, fun x y => x ||| y)
  | .xor d a b => some (d, a, b, fun x y => x ^^^ y)
  | .andn d a b => some (d, a, b, fun x y => x &&& ~~~y)
  | .shl d a b => some (d, a, b, fun x y => BitVec.ofNat 32 (x.toNat * 2 ^ (y.toNat % 32)))
  | .shr d a b => some (d, a, b, fun x y => BitVec.ofNat 32 (x.toNat / 2 ^ (y.toNat % 32)))
  | .sra d a b => some (d, a, b, fun x y => BitVec.ofInt 32 (x.toInt / 2 ^ (y.toNat % 32)))
  | .minI32 d a b => some (d, a, b, fun x y => BitVec.ofInt 32 (min x.toInt y.toInt))
  | .maxI32 d a b => some (d, a, b, fun x y => BitVec.ofInt 32 (max x.toInt y.toInt))
  | .minN32 d a b => some (d, a, b, fun x y => BitVec.ofNat 32 (min x.toNat y.toNat))
  | .maxN32 d a b => some (d, a, b, fun x y => BitVec.ofNat 32 (max x.toNat y.toNat))
  | _ => none

/-- The rows of Table 6.2 on 32 bits, and R135, R136, R137 and R142: the destination and each lane's value. -/
def laneTable (i : Instr) (s : State) : Option (Nat × (Nat → Word)) :=
  match i with
  | .clz d a =>
    some (d, fun l => BitVec.ofNat 32 ((List.range 32).takeWhile fun k => !(s.v a l).getLsbD (31 - k)).length)
  | .popc d a => some (d, fun l => BitVec.ofNat 32 (onesIn (s.v a l)))
  | .brev d a => some (d, fun l => (s.v a l).reverse)
  | .abs d a => some (d, fun l => BitVec.ofNat 32 (s.v a l).toInt.natAbs)
  | .mad d a b c => some (d, fun l => BitVec.ofInt 32 ((s.v a l).toInt * (s.v b l).toInt + (s.v c l).toInt))
  | .addi d a n => some (d, fun l => BitVec.ofInt 32 ((s.v a l).toInt + n))
  | .andi d a n => some (d, fun l => s.v a l &&& BitVec.ofInt 32 n)
  | .ori d a n => some (d, fun l => s.v a l ||| BitVec.ofInt 32 n)
  | .xori d a n => some (d, fun l => s.v a l ^^^ BitVec.ofInt 32 n)
  | .shi .shl d a n => some (d, fun l => BitVec.ofNat 32 ((s.v a l).toNat * 2 ^ n))
  | .shi .shr d a n => some (d, fun l => BitVec.ofNat 32 ((s.v a l).toNat / 2 ^ n))
  | .shi .sra d a n => some (d, fun l => BitVec.ofInt 32 ((s.v a l).toInt / 2 ^ n))
  | .shi .rotl d a n => some (d, fun l => (s.v a l).rotateLeft n)
  | .sel m d a b => some (d, fun l => if (s.mreg m).getLsbD l then s.v a l else s.v b l)
  | .movi d n => some (d, fun _ => BitVec.ofInt 32 n)
  | .movh d n => some (d, fun l => BitVec.ofNat 32 (n * 65536 + (s.v d l).toNat % 65536))
  | _ => none

/-- The field that the control of R138 selects: its position, its width, and the mask of so many low ones. -/
def fieldControl (b : Word) : Nat × Nat × Word :=
  let p := b.toNat % 32
  let n := min (min (b.toNat / 256 % 64) 32) (32 - p)
  (p, n, BitVec.ofNat 32 (2 ^ n - 1))

/-- R138 and R139. -/
def fieldTable (i : Instr) (s : State) : Option (Nat × (Nat → Word)) :=
  match i with
  | .bfeN d a b => some (d, fun l =>
      let (p, _, k) := fieldControl (s.v b l)
      (s.v a l >>> p) &&& k)
  | .bfeI d a b => some (d, fun l =>
      let (p, n, k) := fieldControl (s.v b l)
      if n = 0 then 0 else ((((s.v a l >>> p) &&& k).truncate n).signExtend 32))
  | .bfi d a b => some (d, fun l =>
      let (p, _, k) := fieldControl (s.v b l)
      (s.v d l &&& ~~~(k <<< p)) ||| ((s.v a l &&& k) <<< p))
  | .perm d a b => some (d, fun l =>
      let string := leBytes 4 (s.v a l).toNat ++ leBytes 4 (s.v d l).toNat
      let byte (k : Nat) : Byte :=
        let sel := (s.v b l).toNat / 16 ^ k % 16
        let q := string.getD (sel % 8) 0
        if sel < 8 then q else if q.getLsbD 7 then 0xFF else 0
      BitVec.ofNat 32 (leOf [byte 0, byte 1, byte 2, byte 3]))
  | _ => none

/-- The rows of Table 6.2 on 64 bits: the destination pair and each lane's value. -/
def pairTable (i : Instr) (s : State) : Option (Nat × (Nat → DWord)) :=
  match i with
  | .add64 d a b => some (d, fun l => BitVec.ofInt 64 ((s.v64 a l).toInt + (s.v64 b l).toInt))
  | .sub64 d a b => some (d, fun l => BitVec.ofInt 64 ((s.v64 a l).toInt - (s.v64 b l).toInt))
  | .shl64 d a b => some (d, fun l => BitVec.ofNat 64 ((s.v64 a l).toNat * 2 ^ ((s.v b l).toNat % 64)))
  | .shr64 d a b => some (d, fun l => BitVec.ofNat 64 ((s.v64 a l).toNat / 2 ^ ((s.v b l).toNat % 64)))
  | .min64I d a b => some (d, fun l => BitVec.ofInt 64 (min (s.v64 a l).toInt (s.v64 b l).toInt))
  | .max64I d a b => some (d, fun l => BitVec.ofInt 64 (max (s.v64 a l).toInt (s.v64 b l).toInt))
  | .min64N d a b => some (d, fun l => BitVec.ofNat 64 (min (s.v64 a l).toNat (s.v64 b l).toNat))
  | .max64N d a b => some (d, fun l => BitVec.ofNat 64 (max (s.v64 a l).toNat (s.v64 b l).toNat))
  | _ => none

/-- A pattern as a number that rises with the value, −0 below +0 (R146). -/
def risingKey (x : Word) : Nat := if x.getLsbD 31 then (~~~x).toNat else x.toNat + 2 ^ 31

/-- A binary32 pattern is a NaN (R113). -/
def isNaN (x : Word) : Bool := ((x >>> 23).truncate 8 : BitVec 8) == 255 && (x.truncate 23 : BitVec 23) != 0

/-- Element k of a packed register as a value of format f (R147). -/
def element (f : FFmt) (x : Word) (k : Nat) : FVal := f.value ((x >>> (16 * k)).truncate 16 : BitVec 16).toNat

/-- Two 16-bit patterns packed, element 0 in the low half (R147). -/
def packedHalves (lo hi : Nat) : Word := (BitVec.ofNat 16 hi ++ BitVec.ofNat 16 lo : BitVec 32)

/-- Tables 6.4 and 6.5, R146 to R148: the destination and each lane's value; `FFmt.sum` is the exact sum rounded once. -/
def floatTable (i : Instr) (s : State) : Option (Nat × (Nat → Word)) :=
  let v32 (r l : Nat) : FVal := FFmt.b32.value (s.v r l).toNat
  match i with
  | .fadd d a b => some (d, fun l => BitVec.ofNat 32 (FFmt.b32.sum s.rm [v32 a l, v32 b l]))
  | .fsub d a b => some (d, fun l => BitVec.ofNat 32 (FFmt.b32.sum s.rm [v32 a l, (v32 b l).negate]))
  | .fmul d a b => some (d, fun l => BitVec.ofNat 32 (FFmt.b32.sum s.rm [(v32 a l).mul (v32 b l)]))
  | .fmin d a b => some (d, fun l =>
      let x := s.v a l
      let y := s.v b l
      if isNaN x && isNaN y then 0x7FC00000 else if isNaN x then y else if isNaN y then x
      else if risingKey y < risingKey x then y else x)
  | .fmax d a b => some (d, fun l =>
      let x := s.v a l
      let y := s.v b l
      if isNaN x && isNaN y then 0x7FC00000 else if isNaN x then y else if isNaN y then x
      else if risingKey x < risingKey y then y else x)
  | .fcopysign d a b => some (d, fun l => (s.v a l &&& 0x7FFFFFFF) ||| (s.v b l &&& 0x80000000))
  | .fldexp d a b => some (d, fun l =>
      match v32 a l with
      | .nan => 0x7FC00000
      | .inf _ => s.v a l
      | .fin neg m e =>
        if m = 0 then s.v a l else BitVec.ofNat 32 (FFmt.b32.round s.rm neg m (e + (s.v b l).toInt) false))
  | .fadd2 d a b => some (d, fun l =>
      let q (k : Nat) : Nat := s.pk.sum s.rm [element s.pk (s.v a l) k, element s.pk (s.v b l) k]
      packedHalves (q 0) (q 1))
  | .fmul2 d a b => some (d, fun l =>
      let q (k : Nat) : Nat := s.pk.sum s.rm [(element s.pk (s.v a l) k).mul (element s.pk (s.v b l) k)]
      packedHalves (q 0) (q 1))
  | .fdot2 d a b => some (d, fun l =>
      let p (k : Nat) : FVal := (element s.pk (s.v a l) k).mul (element s.pk (s.v b l) k)
      BitVec.ofNat 32 (FFmt.b32.sum s.rm [p 0, p 1, v32 d l]))
  | .ffma d a b c => some (d, fun l => BitVec.ofNat 32 (FFmt.b32.sum s.rm [(v32 a l).mul (v32 b l), v32 c l]))
  | .ffma2 d a b c => some (d, fun l =>
      let q (k : Nat) : Nat :=
        s.pk.sum s.rm [(element s.pk (s.v a l) k).mul (element s.pk (s.v b l) k), element s.pk (s.v c l) k]
      packedHalves (q 0) (q 1))
  | _ => none

/-- The special functions of R150 (their exact values rounded once), which act on each lane's pattern. -/
def specialTable (i : Instr) : Option (Nat × Nat × (Nat → Nat)) :=
  match i with
  | .frcp _ d a => some (d, a, frcpBits)
  | .frsq _ d a => some (d, a, frsqBits)
  | .fsqrt _ r d a => some (d, a, fsqrtBits r)
  | .fexp2 _ d a => some (d, a, fexp2Bits)
  | .flog2 _ d a => some (d, a, flog2Bits)
  | .fsin _ d a => some (d, a, fsinBits)
  | .fcos _ d a => some (d, a, fcosBits)
  | .frnd _ r d a => some (d, a, frndBits r)
  | .fclass _ d a => some (d, a, fclassBits)
  | _ => none

/-- The ranges of Table 5.3. -/
def intRange (n : Nat) (isSigned : Bool) : Int × Int :=
  if isSigned then (-(2 ^ (n - 1)), 2 ^ (n - 1) - 1) else (0, 2 ^ n - 1)

/-- A value held in a range. -/
def heldIn (r : Int × Int) (x : Int) : Int := max r.1 (min r.2 x)

/-- binary32 to an n-bit integer (R125). -/
def toIntRule (n : Nat) (isSigned sat : Bool) (m : Rm) (x : Word) : BitVec n :=
  let rg := intRange n isSigned
  match FFmt.b32.value x.toNat with
  | .nan => 0
  | .inf neg => if sat then BitVec.ofInt n (if neg then rg.1 else rg.2) else 0
  | .fin neg k e =>
    let y := rndInt m (if neg then -(k : Int) else k) e
    BitVec.ofInt n (if sat then heldIn rg y else y)

/-- binary32 to a 16-bit format (R125): `h` rounded, and saturated away from the infinities. -/
def narrowRule (f : FFmt) (sat : Bool) (m : Rm) (x : Word) : Word :=
  let sign (neg : Bool) (mag : Nat) : Nat := if neg then 2 ^ 15 + mag else mag
  match FFmt.b32.value x.toNat with
  | .nan => BitVec.ofNat 32 f.nan
  | .inf neg => BitVec.ofNat 32 (sign neg (if sat then f.infBits - 1 else f.infBits))
  | .fin neg k e =>
    if k = 0 then 0
    else
      let h := f.round m neg k e false
      if sat && (h == f.infBits || h == 2 ^ 15 + f.infBits) then BitVec.ofNat 32 (sign neg (f.infBits - 1))
      else BitVec.ofNat 32 h

/-- A narrow integer of n bits from a word, extended again (R125). -/
def narrowIntRule (n : Nat) (isSigned sat : Bool) (x : Word) : Word :=
  let y : BitVec n := BitVec.ofInt n (if sat then heldIn (intRange n isSigned) x.toInt else x.toInt)
  if isSigned then y.signExtend 32 else y.zeroExtend 32

/-- The conversions of R125 that write one register. -/
def cvtTable (i : Instr) (s : State) : Option (Nat × (Nat → Word)) :=
  match i with
  | .cvtF32I32 _ r d a => some (d, fun l => BitVec.ofNat 32 (FFmt.b32.roundInt r (s.v a l).toInt 0))
  | .cvtF32N32 _ r d a => some (d, fun l => BitVec.ofNat 32 (FFmt.b32.roundInt r (s.v a l).toNat 0))
  | .cvtF32I64 _ r d a => some (d, fun l => BitVec.ofNat 32 (FFmt.b32.roundInt r (s.v64 a l).toInt 0))
  | .cvtF32N64 _ r d a => some (d, fun l => BitVec.ofNat 32 (FFmt.b32.roundInt r (s.v64 a l).toNat 0))
  | .cvtI32F32 _ sat r d a => some (d, fun l => toIntRule 32 true sat r (s.v a l))
  | .cvtN32F32 _ sat r d a => some (d, fun l => toIntRule 32 false sat r (s.v a l))
  | .cvtF16F32 _ sat r d a => some (d, fun l => narrowRule FFmt.b16 sat r (s.v a l))
  | .cvtBf16F32 _ sat r d a => some (d, fun l => narrowRule FFmt.bf16 sat r (s.v a l))
  | .cvtF32F16 _ d a => some (d, fun l => BitVec.ofNat 32 (cvtWiden FFmt.b16 (s.v a l).toNat))
  | .cvtF32Bf16 _ d a => some (d, fun l => BitVec.ofNat 32 (cvtWiden FFmt.bf16 (s.v a l).toNat))
  | .cvtI8I32 _ sat d a => some (d, fun l => narrowIntRule 8 true sat (s.v a l))
  | .cvtN8I32 _ sat d a => some (d, fun l => narrowIntRule 8 false sat (s.v a l))
  | .cvtI16I32 _ sat d a => some (d, fun l => narrowIntRule 16 true sat (s.v a l))
  | .cvtN16I32 _ sat d a => some (d, fun l => narrowIntRule 16 false sat (s.v a l))
  | _ => none

/-- The conversions of R125 that write a pair. -/
def cvtPairTable (i : Instr) (s : State) : Option (Nat × (Nat → DWord)) :=
  match i with
  | .cvtI64F32 _ sat r d a => some (d, fun l => toIntRule 64 true sat r (s.v a l))
  | .cvtN64F32 _ sat r d a => some (d, fun l => toIntRule 64 false sat r (s.v a l))
  | _ => none

/-- One element as `pack` forms it (R126). -/
def packRule (ty : PackTy) (x : Word) : BitVec 16 :=
  match ty with
  | .f16 => (narrowRule FFmt.b16 false .rne x).truncate 16
  | .bf16 => (narrowRule FFmt.bf16 false .rne x).truncate 16
  | .i16 => BitVec.ofInt 16 (heldIn (intRange 16 true) x.toInt)
  | .n16 => BitVec.ofInt 16 (heldIn (intRange 16 false) x.toInt)
  | .i8 => BitVec.ofInt 16 (heldIn (intRange 8 true) x.toInt)
  | .n8 => BitVec.ofInt 16 (heldIn (intRange 8 false) x.toInt)

/-- `pack` (R126): the elements of the registers from a on, the first in the low bits. -/
def packedRule (ty : PackTy) (s : State) (a l : Nat) : Word :=
  match ty with
  | .f16 | .bf16 | .i16 | .n16 => (packRule ty (s.v (a + 1) l) ++ packRule ty (s.v a l) : BitVec 32)
  | .i8 | .n8 =>
    let e (k : Nat) : BitVec 8 := (packRule ty (s.v (a + k) l)).truncate 8
    (e 3 ++ e 2 ++ e 1 ++ e 0 : BitVec 32)

/-- How many elements a register holds (R126). -/
def packCount (ty : PackTy) : Nat :=
  match ty with
  | .f16 | .bf16 | .i16 | .n16 => 2
  | .i8 | .n8 => 4

/-- Element k as `unpack` writes it (R126). -/
def unpackRule (ty : PackTy) (y : Word) (k : Nat) : Word :=
  match ty with
  | .f16 => BitVec.ofNat 32 (cvtWiden FFmt.b16 ((y >>> (16 * k)).truncate 16 : BitVec 16).toNat)
  | .bf16 => BitVec.ofNat 32 (cvtWiden FFmt.bf16 ((y >>> (16 * k)).truncate 16 : BitVec 16).toNat)
  | .i16 => ((y >>> (16 * k)).truncate 16 : BitVec 16).signExtend 32
  | .n16 => ((y >>> (16 * k)).truncate 16 : BitVec 16).zeroExtend 32
  | .i8 => ((y >>> (8 * k)).truncate 8 : BitVec 8).signExtend 32
  | .n8 => ((y >>> (8 * k)).truncate 8 : BitVec 8).zeroExtend 32

/-- `bfpx` (R129). -/
def bfpxRule (w : Nat) (y : Word) : Word :=
  let c := ((y >>> 8).truncate 8 : BitVec 8).toNat
  if c = 255 then 0x7FC00000
  else BitVec.ofNat 32 (FFmt.b32.roundInt .rne (y.truncate w : BitVec w).toInt ((c : Int) - 127 - ((w : Int) - 2)))

/-- A lane's mantissa for the exponent e (R128). -/
def bfpqMant (w : Nat) (x : FVal) (e : Int) : Int :=
  match x with
  | .fin neg m k => rndInt .rne (if neg then -(m : Int) else m) (k + ((w : Int) - 2 - e))
  | .nan | .inf _ => 0

/-- The exponent of a block before its adjustment (R128). -/
def bfpqExp (xs : List FVal) : Int :=
  let ys := xs.filter fun x => match x with
    | .fin _ m _ => m != 0
    | .nan | .inf _ => false
  if ys = [] then -127 else ys.foldl (fun e x => max e (max x.log2 (-126))) (-126)

/-- `bfpq` (R128): what a lane of the block A receives. -/
def bfpqRule (w : Nat) (A : List Nat) (x : Nat → FVal) (l : Nat) : Word :=
  let e0 := bfpqExp (A.map x)
  let lim : Int := 2 ^ (w - 1) - 1
  let tooBig := A.any fun j => decide (lim < (bfpqMant w (x j) e0).natAbs)
  let e := if tooBig && decide (e0 < 127) then e0 + 1 else e0
  let m := if tooBig && decide (e0 = 127) then heldIn (-lim, lim) (bfpqMant w (x l) e) else bfpqMant w (x l) e
  let nf : Word := match x l with
    | .nan | .inf _ => 1
    | .fin _ _ _ => 0
  (nf <<< 16) ||| (BitVec.ofInt 32 (e + 127) <<< 8) ||| (BitVec.ofInt 8 m).zeroExtend 32

/-! ### Cross-lane values (R155 to R161) -/

/-- The fixed tree of R158 at level k, node i: absent where no lane of the set lies below. -/
def treeNode (op : Word → Word → Word) (inSet : Nat → Bool) (x : Nat → Word) : Nat → Nat → Option Word
  | 0, i => if inSet i then some (x i) else none
  | k + 1, i =>
    match treeNode op inSet x k (2 * i), treeNode op inSet x k (2 * i + 1) with
    | none, r => r
    | l, none => l
    | some l, some r => some (op l r)

/-- The operations of Table 6.8 and their exclusive identities. -/
def table68 (o : RedOp) : (Word → Word → Word) × Word :=
  match o with
  | .addI32 => (fun x y => BitVec.ofInt 32 (x.toInt + y.toInt), 0)
  | .addF32 => (fun x y => BitVec.ofNat 32 (FFmt.b32.sum .rne [FFmt.b32.value x.toNat, FFmt.b32.value y.toNat]), 0)
  | .minI32 => (fun x y => BitVec.ofInt 32 (min x.toInt y.toInt), 0x7FFFFFFF)
  | .maxI32 => (fun x y => BitVec.ofInt 32 (max x.toInt y.toInt), 0x80000000)
  | .minN32 => (fun x y => BitVec.ofNat 32 (min x.toNat y.toNat), 0xFFFFFFFF)
  | .maxN32 => (fun x y => BitVec.ofNat 32 (max x.toNat y.toNat), 0)
  | .minF32 => (fun x y => BitVec.ofNat 32 (fminBits x.toNat y.toNat), 0x7F800000)
  | .maxF32 => (fun x y => BitVec.ofNat 32 (fmaxBits x.toNat y.toNat), 0xFF800000)
  | .and => (fun x y => x &&& y, 0)
  | .or => (fun x y => x ||| y, 0)
  | .xor => (fun x y => x ^^^ y, 0)

/-- The lanes of a set whose predicate is not zero, ascending (R161). -/
def qualifying (m : Word) (p : Nat → Word) : List Nat := (lanesOf m).filter fun l => p l != 0

/-- The cross-lane instructions that write a vector register (R156, R159 to R161). -/
def crossTable (i : Instr) (s : State) : Option (Nat × (Nat → Word)) :=
  let A := s.m0
  match i with
  | .shfl _ d a b => some (d, fun l =>
      let j := (s.v b l).toNat % 32
      if A.getLsbD j then s.v a j else s.v a l)
  | .bcast _ d a x => some (d, fun l =>
      let j := (s.sreg x).toNat % 32
      if A.getLsbD j then s.v a j else s.v a l)
  | .redu _ o d a => some (d, fun _ => (treeNode (table68 o).1 (fun j => A.getLsbD j) (s.v a) 5 0).getD 0)
  | .scan _ false o d a => some (d, fun l =>
      (treeNode (table68 o).1 (fun j => A.getLsbD j && decide (j ≤ l)) (s.v a) 5 0).getD 0)
  | .scan _ true o d a => some (d, fun l =>
      (treeNode (table68 o).1 (fun j => A.getLsbD j && decide (j < l)) (s.v a) 5 0).getD (table68 o).2)
  | .compact _ d a => some (d, fun l =>
      let q := qualifying A (s.v a)
      let k := ((lanesOf A).filter fun j => decide (j < l)).length
      if k < q.length then BitVec.ofNat 32 (q.getD k 0) else 0xFFFFFFFF)
  | _ => none

/-! ### Masks and scalars (R141, R149, R157, R162 to R166) -/

/-- A condition of Table 1.9 between two n-bit values. -/
def condRule {n : Nat} (c : ICond) (x y : BitVec n) : Bool :=
  match c with
  | .eq => x == y
  | .ne => x != y
  | .ltI => decide (x.toInt < y.toInt)
  | .leI => decide (x.toInt ≤ y.toInt)
  | .gtI => decide (x.toInt > y.toInt)
  | .geI => decide (x.toInt ≥ y.toInt)
  | .ltN => decide (x.toNat < y.toNat)
  | .leN => decide (x.toNat ≤ y.toNat)
  | .gtN => decide (x.toNat > y.toNat)
  | .geN => decide (x.toNat ≥ y.toNat)

/-- The value of a finite pattern over 2^149, with its sign; both zeros are 0 (R113). -/
def scaled149 (x : Word) : Int :=
  match FFmt.b32.value x.toNat with
  | .fin neg m e => let k : Int := m * 2 ^ (e + 149).toNat; if neg then -k else k
  | .nan | .inf _ => 0

/-- A number that orders all binary32 patterns but the NaNs by value (R149). -/
def orderOf (x : Word) : Int :=
  if x = 0x7F800000 then 2 ^ 300 else if x = 0xFF800000 then -2 ^ 300 else scaled149 x

/-- A condition of `fcmp` (R149). -/
def fcondRule (c : FCond) (x y : Word) : Bool :=
  let un := isNaN x || isNaN y
  match c with
  | .eq => !un && decide (orderOf x = orderOf y)
  | .ne => un || decide (orderOf x ≠ orderOf y)
  | .lt => !un && decide (orderOf x < orderOf y)
  | .le => !un && decide (orderOf x ≤ orderOf y)
  | .gt => !un && decide (orderOf x > orderOf y)
  | .ge => !un && decide (orderOf x ≥ orderOf y)
  | .ord => !un
  | .uno => un

/-- The comparisons of lanes and `vote`: the mask register whose bits at the active lanes they write, and those bits. -/
def laneMaskTable (i : Instr) (s : State) : Option (Nat × (Nat → Bool)) :=
  match i with
  | .icmp c m a b => some (m, fun l => condRule c (s.v a l) (s.v b l))
  | .icmp64 c m a b => some (m, fun l => condRule c (s.v64 a l) (s.v64 b l))
  | .fcmp c m a b => some (m, fun l => fcondRule c (s.v a l) (s.v b l))
  | .vote _ .any d a => some (d, fun _ => s.mreg a &&& s.m0 != 0)
  | .vote _ .all d a => some (d, fun _ => s.mreg a &&& s.m0 == s.m0)
  | .vote _ .none d a => some (d, fun _ => s.mreg a &&& s.m0 == 0)
  | _ => none

/-- The instructions that write a whole mask register (Table 6.9, R166). -/
def maskTable (i : Instr) (s : State) : Option (Nat × Word) :=
  match i with
  | .mand d a b => some (d, s.mreg a &&& s.mreg b)
  | .mor d a b => some (d, s.mreg a ||| s.mreg b)
  | .mxor d a b => some (d, s.mreg a ^^^ s.mreg b)
  | .mnot d a => some (d, ~~~s.mreg a)
  | .mset d x => some (d, s.sreg x)
  | .scmp c m a b => some (m, if condRule c (s.sreg a) (s.sreg b) then 0xFFFFFFFF else 0)
  | _ => none

/-- The instructions that write a scalar register (Tables 6.9 and 6.10, R165). -/
def scalarTable (i : Instr) (s : State) : Option (Nat × Word) :=
  let x (r : Nat) : Int := (s.sreg r).toInt
  let amount (r : Nat) : Nat := (s.sreg r).toNat % 32
  match i with
  | .mpop d a => some (d, BitVec.ofNat 32 (onesIn (s.mreg a)))
  | .mfirst d a => some (d, BitVec.ofNat 32 (((List.range 32).find? fun l => (s.mreg a).getLsbD l).getD 32))
  | .mget d a => some (d, s.mreg a)
  | .sadd d a b => some (d, BitVec.ofInt 32 (x a + x b))
  | .ssub d a b => some (d, BitVec.ofInt 32 (x a - x b))
  | .smul d a b => some (d, BitVec.ofInt 32 (x a * x b))
  | .sand d a b => some (d, s.sreg a &&& s.sreg b)
  | .sor d a b => some (d, s.sreg a ||| s.sreg b)
  | .sxor d a b => some (d, s.sreg a ^^^ s.sreg b)
  | .sshl d a b => some (d, BitVec.ofNat 32 ((s.sreg a).toNat * 2 ^ amount b))
  | .sshr d a b => some (d, BitVec.ofNat 32 ((s.sreg a).toNat / 2 ^ amount b))
  | .ssra d a b => some (d, BitVec.ofInt 32 (x a / 2 ^ amount b))
  | .smin d a b => some (d, BitVec.ofInt 32 (min (x a) (x b)))
  | .smax d a b => some (d, BitVec.ofInt 32 (max (x a) (x b)))
  | .smov d a => some (d, s.sreg a)
  | .saddi d a n => some (d, BitVec.ofInt 32 (x a + n))
  | .smovi d n => some (d, BitVec.ofInt 32 n)
  | _ => none

/-! ### The 16-bit forms (R143) -/

/-- Table 6.3: the destination, and the value of each lane from the first source (the destination's own) and the second
(a vector register, or a scalar in every lane). -/
def compactTable (i : Instr) (s : State) : Option (Nat × (Nat → Word)) :=
  let y (k : Bool) (v l : Nat) : Word := if k then s.sreg v else s.v v l
  let f32 (x : Word) : FVal := FFmt.b32.value x.toNat
  let both (k : Bool) (v d : Nat) (f : Word → Word → Word) : Option (Nat × (Nat → Word)) :=
    some (d, fun l => f (s.v d l) (y k v l))
  match i with
  | .mov16 k v d => some (d, fun l => y k v l)
  | .add16 k v d => both k v d fun x z => BitVec.ofInt 32 (x.toInt + z.toInt)
  | .sub16 k v d => both k v d fun x z => BitVec.ofInt 32 (x.toInt - z.toInt)
  | .and16 k v d => both k v d fun x z => x &&& z
  | .or16 k v d => both k v d fun x z => x ||| z
  | .xor16 k v d => both k v d fun x z => x ^^^ z
  | .shl16 k v d => both k v d fun x z => BitVec.ofNat 32 (x.toNat * 2 ^ (z.toNat % 32))
  | .shr16 k v d => both k v d fun x z => BitVec.ofNat 32 (x.toNat / 2 ^ (z.toNat % 32))
  | .sra16 k v d => both k v d fun x z => BitVec.ofInt 32 (x.toInt / 2 ^ (z.toNat % 32))
  | .minI3216 k v d => both k v d fun x z => BitVec.ofInt 32 (min x.toInt z.toInt)
  | .maxI3216 k v d => both k v d fun x z => BitVec.ofInt 32 (max x.toInt z.toInt)
  | .fadd16 k v d => both k v d fun x z => BitVec.ofNat 32 (FFmt.b32.sum s.rm [f32 x, f32 z])
  | .fsub16 k v d => both k v d fun x z => BitVec.ofNat 32 (FFmt.b32.sum s.rm [f32 x, (f32 z).negate])
  | .fmul16 k v d => both k v d fun x z => BitVec.ofNat 32 (FFmt.b32.sum s.rm [(f32 x).mul (f32 z)])
  | .fmin16 k v d => both k v d fun x z => BitVec.ofNat 32 (fminBits x.toNat z.toNat)
  | .fmax16 k v d => both k v d fun x z => BitVec.ofNat 32 (fmaxBits x.toNat z.toNat)
  | _ => none

/-! ### Loads and stores (R100 to R106) -/

/-- Space, width, index register, base and destination of a lane load. -/
def loadForm (i : Instr) : Option (Space × LdWidth × Nat × Nat × Nat) :=
  match i with
  | .ldP _ w vi sb d => some (.p, w, vi, sb, d)
  | .ldC _ w vi sb d => some (.c, w, vi, sb, d)
  | .ldK _ w vi sb d => some (.k, w, vi, sb, d)
  | .ldX _ w vi sb d => some (.x, w, vi, sb, d)
  | .ldG _ w vi sb d => some (.g, w, vi, sb, d)
  | _ => none

/-- The same of a lane store, with its data register. -/
def storeForm (i : Instr) : Option (Space × StWidth × Nat × Nat × Nat) :=
  match i with
  | .stP _ w vi sb d => some (.p, w, vi, sb, d)
  | .stC _ w vi sb d => some (.c, w, vi, sb, d)
  | .stK _ w vi sb d => some (.k, w, vi, sb, d)
  | .stX _ w vi sb d => some (.x, w, vi, sb, d)
  | .stG _ w vi sb d => some (.g, w, vi, sb, d)
  | _ => none

/-- R101: the index is the lane's value of vi, or 0 where vi is 63. -/
def lane101 (s : State) (sp : Space) (vi sb l : Nat) : Int :=
  let index : Word := if vi = 63 then 0 else s.v vi l
  match sp with
  | .g => (s.s64 sb).toInt + index.toInt
  | .p | .c | .k | .x => ((s.sreg sb).toNat : Int) + index.toNat

/-- A lane's access passes the checks of R102: its bytes lie in the space, none of them meets a cause of R57 or R93, and
none lies in a bad granule. -/
def passes (s : State) (sp : Space) (k : AccKind) (a : ASpace) (l : Nat) (addr : Int) (n : Nat) : Prop :=
  rangeOk s sp addr n = true ∧ (laneAccess s sp k a l addr n).cause = none ∧
    ∀ p ∈ (laneAccess s sp k a l addr n).places, s.isBad p = false

/-- The same of an access that writes: it meets no bad granule that it covers only in part (R97). -/
def passesWrite (s : State) (sp : Space) (l : Nat) (addr : Int) (n : Nat) : Prop :=
  rangeOk s sp addr n = true ∧ (laneAccess s sp .store s.aspace l addr n).cause = none ∧
    ∀ p ∈ s.partBad (laneAccess s sp .store s.aspace l addr n).places, s.isBad p = false

/-- R106: the address of a scalar access, signed 64-bit in `.g` and unsigned 32-bit elsewhere. -/
def scalar106 (s : State) (sp : Space) (a : Nat) : Int :=
  match sp with
  | .g => (s.s64 a).toInt
  | .p | .c | .k | .x => ((s.sreg a).toNat : Int)

/-- R283: the address of a lane's atomic. -/
def lane283 (s : State) (sp : Space) (a l : Nat) : Int :=
  match sp with
  | .g => (s.v64 a l).toInt
  | .p | .c | .k | .x => ((s.v a l).toNat : Int)

/-- What a load of some width makes of n bytes: register k of the destination (R103, Table 1.11). -/
def loadRule (w : LdWidth) (bits : Nat) (k : Nat) : Word :=
  match w with
  | .n8 | .n16 | .b32 => BitVec.ofNat 32 bits
  | .i8 => (BitVec.ofNat 8 bits).signExtend 32
  | .i16 => (BitVec.ofNat 16 bits).signExtend 32
  | .b64 | .b128 => BitVec.ofNat 32 (bits / 2 ^ (32 * k))

/-- A lane that `demote` made a helper reads 0 where its access fails a check (R103). -/
def helperFails (s : State) (sp : Space) (l : Nat) (addr : Int) (n : Nat) : Bool :=
  s.helperLane l && !(rangeOk s sp addr n && (laneAccess s sp .load s.viewSpace l addr n).cause.isNone
    && !poisoned s (laneAccess s sp .load s.viewSpace l addr n).places)

/-- No helper lane whose access passes reads a bad granule, which would kill its group (R98). -/
def helpersSound (s : State) (sp : Space) (addr : Nat → Int) (n : Nat) : Prop :=
  ∀ l < 32, s.m0.getLsbD l = true → s.helperLane l = true → helperFails s sp l (addr l) n = false →
    ∀ p ∈ (laneAccess s sp .load s.viewSpace l (addr l) n).places, s.isBad p = false

/-- The bytes that a lane stores: the low n of its data registers (R103). -/
def storeRule (s : State) (n d l : Nat) : List Byte :=
  (List.range n).map fun j => ((s.v (d + j / 4) l) >>> (8 * (j % 4))).truncate 8

/-- The bytes that a lane store writes, in the order of the lanes: helper lanes never write (R103). -/
def storeCells (s : State) (sp : Space) (n vi sb d : Nat) : List (Loc × Byte) :=
  (checkedLanes s).flatMap fun l =>
    (laneAccess s sp .store s.aspace l (lane101 s sp vi sb l) n).places.zip (storeRule s n d l)

/-- The bytes that a scalar store writes (R106). -/
def scalarBytes (s : State) (n d : Nat) : List Byte :=
  (List.range n).map fun j => ((s.sreg (d + j / 4)) >>> (8 * (j % 4))).truncate 8

/-- Atomic updates of memory, one lane after another: the lane, its places, its operation on the old value. -/
def inTurn (n : Nat) : List (Nat × List Loc × (Nat → Option Nat)) → (Loc → Byte) → (Nat → Nat) → (Loc → Byte) × (Nat → Nat)
  | [], mem, olds => (mem, olds)
  | (l, ls, f) :: rest, mem, olds =>
    let old := leOf (ls.map mem)
    let olds' : Nat → Nat := fun k => if k = l then old else olds k
    match f old with
    | none => inTurn n rest mem olds'
    | some new => inTurn n rest (fun p => lastAt (ls.zip (leBytes n new)) p (mem p)) olds'

/-- Table 12.4: the new value of an `atom` (R284). -/
def table124 (op : AtomOp) (old x : Nat) : Nat :=
  let a32 : Word := BitVec.ofNat 32 old
  let b32 : Word := BitVec.ofNat 32 x
  let a64 : DWord := BitVec.ofNat 64 old
  let b64 : DWord := BitVec.ofNat 64 x
  match op with
  | .addI32 => (a32 + b32).toNat
  | .addF32 => FFmt.b32.sum .rne [FFmt.b32.value old, FFmt.b32.value x]
  | .minI32 => (BitVec.ofInt 32 (min a32.toInt b32.toInt)).toNat
  | .maxI32 => (BitVec.ofInt 32 (max a32.toInt b32.toInt)).toNat
  | .minN32 | .minN64 => min old x
  | .maxN32 | .maxN64 => max old x
  | .andB32 => (a32 &&& b32).toNat
  | .orB32 => (a32 ||| b32).toNat
  | .xorB32 => (a32 ^^^ b32).toNat
  | .xchgB32 | .xchgB64 => x
  | .addI64 => (a64 + b64).toNat
  | .minI64 => (BitVec.ofInt 64 (min a64.toInt b64.toInt)).toNat
  | .maxI64 => (BitVec.ofInt 64 (max a64.toInt b64.toInt)).toNat

/-- The line at a place is named by an active lane of a cache instruction (R108). -/
def lineNamed (s : State) (a : Nat) (p : Loc) (read : Bool) : Prop :=
  ∃ l < 32, s.m0.getLsbD l = true ∧ addrOk (s.v64 a l).toInt 1 = true ∧
    ∃ x, xlate s (.core s.w.core) s.aspace (s.v64 a l).toInt.toNat = .ok x ∧ p = x.loc (s.v64 a l).toInt.toNat ∧
      (read = true → pteRd x.pte = true)

/-- A cache holds the line of a place. -/
def cached (s : State) (core : Option Nat) (p : Loc) : Prop := ∃ x ∈ s.lines, x.core = core ∧ x.area = p.area ∧ x.line = p.line

/-! ### Control flow (chapter 14) -/

/-- An instruction that sets the PC itself has retired: nothing but its slot's PC, m0, pending join and count of backward
branches, and the issue logic's own counts, has changed. -/
def Jumped (s t : State) (pc : Nat) (m0 : Word) (cj : Option Nat) (gc : Nat) : Prop :=
  t = { s with w := t.w } ∧ t.w = { s.w with cur := t.w.cur, lclock := s.w.lclock + 1 } ∧
    t.w.cur =
      { s.w.cur with
        pc := pc, m0 := m0, cj := cj, gc := gc, windows := t.w.cur.windows, flights := t.w.cur.flights, waited := 0
        urgent := none, yielded := t.w.cur.yielded, issuedAt := s.gts, stalled := false, staging := none }

/-- The address n bytes past the slot's PC, and that of a halfword offset from it (R20); bit 0 is dropped. -/
def pcPast (s : State) (n : Int) : Nat := (((s.cur.pc : Int) + n) % 2 ^ 56).toNat / 2 * 2

/-- GC after a branch that is taken with this offset (R318). -/
def gcTaken (s : State) (o : Int) : Nat := if o ≤ 0 then min 65536 (s.cur.gc + 1) else s.cur.gc

/-- The slot's stack with the entries from a depth on, the deepest first (R310). -/
def stackHas (t : State) (sec : Bool) : Nat → List StackEntry → Prop
  | _, [] => True
  | d, e :: es => readEntry t sec d = e ∧ stackHas t sec (d + 1) es

/-- The ARM entries of the groups that wait, the last group deepest (R312, R313). -/
def armEntries (join : Nat) (gs : List (Nat × Word)) : List StackEntry := gs.reverse.map fun g => mkEntry .arm g.1 join g.2

/-- Bytes below the reconvergence stack, and of every other storage, are as before. -/
def onlyStack (s t : State) : Prop :=
  ∀ p : Loc, p.area ≠ .l2 → (∀ k < 128, ∀ j < 32, p ≠ (stackLoc s.w k).plus j) → t.byte p = s.byte p

/-- No slot of any wave waits at a barrier. -/
def noBarrier (s : State) : Prop := ∀ w ∈ s.waves, w.cur.barWait = .none ∧ w.sib.barWait = .none

/-- The wave has ended: no live wave has its number. -/
def WaveGone (s t : State) : Prop := ∀ w ∈ t.waves, w.live = true → w.wid ≠ s.w.wid

/-- The two paths of R318 have changed places: the deferred lanes of the top ARM entry go on, and the slot's lanes wait in
its place for their turn at pc. -/
def Swapped (s t : State) (e : StackEntry) (pc : Nat) : Prop :=
  t.w.cur.pc = pcOf e.pc ∧ t.w.cur.m0 = e.mask ∧ t.w.cur.gc = 0 ∧ t.w.cur.depth = s.w.cur.depth ∧
    readEntry t s.w.curSec (s.cur.depth - 1) = mkEntry .arm pc e.join s.m0 ∧ sameVectors s t ∧ sameScalars s t ∧
    onlyStack s t

/-- Every unfinished instruction of the slot lets it part into two slots (R26, R28). -/
def mayDivide (s : State) : Prop := s.w.sib.live = true ∨ s.cur.flights.all mayPart = true

/-- `tlbinv` covers a range of an address space (R65, Table 2.8): every one, those of an ASN, or those of an ASN that hold bytes
of one 64-KiB page. -/
def invCovers (e : TlbExtent) (x asn base size : Nat) : Prop :=
  match e with
  | .all => True
  | .space => asn = x % 2 ^ 12
  | .page => asn = x % 2 ^ 12 ∧ base < (x / 2 ^ 16 % 2 ^ 40 + 1) * 65536 ∧ x / 2 ^ 16 % 2 ^ 40 * 65536 < base + size

/-- TLBs and walkers without the translations that a `tlbinv` covers (R55, R65). -/
def Invalidated (s t : State) (e : TlbExtent) (x : Nat) : Prop :=
  t = { s with tlb := t.tlb, walks := t.walks } ∧
    (∀ y, y ∈ t.tlb ↔ y ∈ s.tlb ∧ ¬invCovers e x y.asn y.base y.size) ∧
    ∀ y, y ∈ t.walks ↔ y ∈ s.walks ∧ ¬invCovers e x y.asn y.base (pageSize y.level)

/-- The slot in hand has arrived at a barrier and waits there, with nothing else changed (R366). -/
def arrivedAt (i : Instr) (s : State) (b : BarWait) : State :=
  (opened i s).onCur fun c => { c with
    barWait := b, waited := 0, urgent := none, yielded := false, issuedAt := s.gts, stalled := false, staging := none }

/-- No wave has arrived at a counted barrier of the instance in hand. -/
def noCount (s : State) : Prop := ∀ k < 16, (barcOf s (instOf s s.w.gid) k).arrived = []

/-! ### Control registers (Tables 1.3, 7.7, 9.4, 10.6, 15.2, 16.3) -/

/-- The 64-bit control registers, by low index (R19). -/
def regPairs (s : State) (i : Nat) : Option Nat :=
  let g (f : Group → Nat) : Nat := ((s.group? s.w.gid).map f).getD 0
  let l (f : Launch → Nat) : Nat := ((s.launch? s.w.lid).map f).getD 0
  match i with
  | 0x006 => some (g fun x => x.lin)
  | 0x00B => some (l fun x => x.ref)
  | 0x020 => some s.w.lclock
  | 0x022 => some s.gts
  | 0x030 => some s.w.trapvec
  | 0x101 => some s.cur.trap.pc
  | 0x105 => some s.cur.trap.addr.toNat
  | 0x107 => some s.cur.trap.info.toNat
  | 0x200 => some (g fun x => (x.task.map fun t => t.frame.toNat).getD 0)
  | 0x202 => some (g fun x => (x.task.map fun t => t.arg.toNat).getD 0)
  | 0x204 => some s.attr.args.toNat
  | 0x20C => some s.cur.futaddr.toNat
  | 0x20E => some (l fun x => if x.attr.ndep = 0 then 0 else x.front)
  | 0x302 => some s.w.tape.tscale.toNat
  | _ => none

/-- The 32-bit control registers, in lane l. -/
def regSingles (s : State) (i l : Nat) : Option Word :=
  let g (f : Group → Nat) : Option Word := some (BitVec.ofNat 32 (((s.group? s.w.gid).map f).getD 0))
  let n (x : Nat) : Option Word := some (BitVec.ofNat 32 x)
  match i with
  | 0x000 => n l
  | 0x001 => n s.w.waveid
  | 0x002 => n (if s.w.curSec then 1 else 0)
  | 0x003 => g fun x => x.gx
  | 0x004 => g fun x => x.gy
  | 0x005 => g fun x => x.gz
  | 0x008 => n s.w.core
  | 0x009 => n (s.w.core / 4)
  | 0x00A => n (s.w.core / 96)
  | 0x010 => some s.cur.bank.fpmode
  | 0x011 => some s.w.sguard
  | 0x032 => n s.w.priv
  | 0x100 => some s.cur.trap.cause
  | 0x103 => some s.cur.trap.mask
  | 0x104 => some s.cur.trap.act
  | 0x109 => some s.w.evpend
  | 0x1E0 => n (s.ceCount.getD (s.w.core / 96) 0)
  | 0x1E1 => n (s.ueCount.getD (s.w.core / 96) 0)
  | 0x1E2 => some s.health
  | 0x1F0 => some s.pslice
  | 0x206 => n s.attr.gx
  | 0x207 => n s.attr.gy
  | 0x208 => n s.attr.gz
  | 0x209 => g fun x => x.role
  | 0x20A => g fun x => x.roleGrp
  | 0x20B => n (effPrio s.w s.cur)
  | 0x210 => n s.attr.waves
  | 0x300 => some s.w.mxstat
  | 0x301 => some s.w.rstat
  | 0x304 => n (s.w.gsseq.getD l 0)
  | 0x305 => n (((s.launch? s.w.lid).map fun x => x.gsdone).getD 0)
  | _ => none

/-- CHAIN0 to CHAIN7 and the replay registers, by index. -/
def regBanked (s : State) (i : Nat) : Option Word :=
  let e (k : Nat) : RqEntry := s.cur.rq.getD k RqEntry.zero
  if 0x040 ≤ i ∧ i ≤ 0x047 then some (BitVec.ofNat 32 (s.w.chain / 2 ^ (32 * (i - 0x040))))
  else if 0x180 ≤ i ∧ i ≤ 0x1DF then some ((e ((i - 0x180) / 6)).scals.getD ((i - 0x180) % 6) 0)
  else if 0x140 ≤ i ∧ i ≤ 0x17F then
    some (match (i - 0x140) % 4 with
      | 0 => (e ((i - 0x140) / 4)).word
      | 1 => (e ((i - 0x140) / 4)).pclo
      | 2 => (e ((i - 0x140) / 4)).pchi
      | _ => (e ((i - 0x140) / 4)).mask)
  else none

/-- The value that `setc` writes: the scalar register, or the lowest active lane of the vector register (R16). -/
def setcValue (s : State) (scalar : Bool) (r : Nat) : Word :=
  if scalar then s.sreg r
  else match (List.range 32).find? fun l => s.m0.getLsbD l with
    | some l => s.v r l
    | none => s.v r 0

/-- What `setc` of x does to the slot, to the rest of the wave, and to PSLICE (R379). -/
def setcTable (i : Nat) (x : Word) (s : State) : State :=
  let trap (f : TrapRegs → TrapRegs) : State := s.onCur fun c => { c with trap := f c.trap }
  let replay (k : Nat) (f : RqEntry → RqEntry) : State :=
    s.onCur fun c => { c with rq := c.rq.setIfInBounds k (f (c.rq.getD k RqEntry.zero)) }
  match i with
  | 0x010 => s.onCur fun c => { c with bank := { c.bank with fpmode := x &&& 7 } }
  | 0x011 => s.onWave fun w => { w with sguard := if x.toNat < 16 then 16 else if 65536 < x.toNat then 65536 else x }
  | 0x030 => s.onWave fun w => { w with trapvec := w.trapvec / 2 ^ 32 * 2 ^ 32 + x.toNat }
  | 0x031 => s.onWave fun w => { w with trapvec := x.toNat * 2 ^ 32 + w.trapvec % 2 ^ 32 }
  | 0x101 => trap fun t => { t with pc := t.pc / 2 ^ 32 * 2 ^ 32 + x.toNat }
  | 0x102 => trap fun t => { t with pc := x.toNat % 2 ^ 24 * 2 ^ 32 + t.pc % 2 ^ 32 }
  | 0x1F0 => { s with pslice := x }
  | 0x300 => s.onWave fun w => { w with mxstat := w.mxstat &&& ~~~(x &&& 3) }
  | 0x301 => s.onWave fun w => { w with rstat := w.rstat &&& ~~~(x &&& 7) }
  | _ =>
    if 0x180 ≤ i then
      replay ((i - 0x180) / 6) fun e => { e with scals := e.scals.setIfInBounds ((i - 0x180) % 6) x }
    else
      replay ((i - 0x140) / 4) fun e =>
        match (i - 0x140) % 4 with
        | 0 => { e with word := x }
        | 1 => { e with pclo := x }
        | 2 => { e with pchi := x }
        | _ => { e with mask := x }

/-! ### Records, tasks and futures (R346 to R365) -/

/-- The n bytes at an address can be reached as an operand in global memory (R46, R57, R358): these are their places and
translations, and none is in a bad granule that a group would be killed for. -/
def Reaches (s : State) (k : AccKind) (va : Int) (n align : Nat) (ls : List Loc) (xs : List Xlat) : Prop :=
  addrOk va n = true ∧ va.toNat % align = 0 ∧ access s (.core s.w.core) s.aspace k va n = .ok (ls, xs) ∧ killCause s ls = none

/-- The 64-bit word at some places, little-endian. -/
def wordAtPlaces (s : State) (ls : List Loc) : Nat := leOf (ls.map fun l => s.byte l)

/-- The two records of a `cpy`: read now, or captured before it stalled (R72); s1 is the state after the reads. -/
def cpyReads (s s1 : State) (d r : Nat) (ws vs : List Nat) : Prop :=
  (s.cur.staging = none ∧ ∃ ls ms xs ys, Reaches s .load (s.s64 r).toInt 128 1 ls xs ∧ Reaches s .load (s.s64 d).toInt 128 1 ms ys ∧
    ws = wordsAt s ls ∧ vs = wordsAt s ms ∧ s1 = noteAccess (noteAccess s ls xs false) ms ys false) ∨
  (s.cur.staging = some (ws ++ vs) ∧ ws.length = 16 ∧ s1 = s)

/-- The words of a record that an instruction captures: read now, or captured before it stalled (R72, R84); s1 is the state
after the read. -/
def reads (s s1 : State) (va : Int) (n align : Nat) (ws : List Nat) : Prop :=
  (s.cur.staging = none ∧ ∃ ls xs, Reaches s .load va n align ls xs ∧ ws = wordsAt s ls ∧ s1 = noteAccess s ls xs false) ∨
  (s.cur.staging = some ws ∧ s1 = s)

/-- What a read of a record changes: entries of TLBs and walkers, lines in caches and the free-value counter; no byte. -/
def onlyRead (s s1 : State) : Prop :=
  s1 = { s with mem := s1.mem, lines := s1.lines, tlb := s1.tlb, walks := s1.walks, free := s1.free } ∧ sameMemory s s1

/-- A record lies on top of a core's deque, with the model's next serial number, and the other deques are as before (R348). -/
def pushedOn (s u : State) (core : Nat) (t : TaskRec) : Prop :=
  dequeOf u core = { t with made := s.serial } :: dequeOf s core ∧ (∀ c, c ≠ core → dequeOf u c = dequeOf s c) ∧
    u.serial = s.serial + 1

/-- A launch is one that a `cancel` of this level and operand reaches (R364). -/
def cancelHits (s : State) (v : CancelLevel) (x : Nat) (l : Launch) : Prop :=
  (match v with
    | .launch => l.attr.compl
    | .graph => l.attr.graphc
    | .phase => l.attr.phasec
    | .job => l.attr.jobc) = x ∧ (s.attr.sys = true ∨ l.attr.jobid = s.attr.jobid) ∧ l.cancelled = false

/-! ### Tiles (R194, R195) -/

/-- A row as R194 and R195 keep it: its headroom lies in 1 to W − 1 and bounds every mantissa, its exponent in 16 bits; an empty
row is zero. -/
def RowOk (w : Nat) (r : Row) : Prop :=
  1 ≤ r.hr ∧ r.hr ≤ w - 1 ∧ -32768 ≤ r.x ∧ r.x ≤ 32767 ∧ (∀ m ∈ r.mant, m.natAbs ≤ 2 ^ (w - 1 - r.hr)) ∧
    (r.empty = true → r.hr = w - 1 ∧ ∀ m ∈ r.mant, m = 0)


end Sys2Proof.Machine
end

