-- ==== Sys2Proof/Certificates/Slice0/Obligations.lean ====
section
/-! DEFINITION. The statements about the model. -/
open Sys2Proof Sys2Proof.Machine

/-! ### Encoding and decoding -/

/-- R20 to R36, Tables 1.5 to 1.14: a well-formed instruction has an encoding of its length, and that encoding decodes to it,
with every operand at every value that the encoding admits, whatever follows it. -/
def Obligations.DecodeEncode : Prop :=
  ∀ (i : Instr) (rest : List Byte), i.wf = true →
    ∃ n w, encode i = some (n, w) ∧ n = (hdr i).size ∧ w < 2 ^ (8 * n) ∧ decode (wordBytes n w ++ rest) = .ok (i, rest)

/-- Each word has one meaning: a word that decodes is the encoding of what it decodes to, so no bit of it is ignored
(R23). -/
def Obligations.EncodeDecode : Prop :=
  ∀ (b0 b1 b2 b3 : Byte) (i : Instr) (rest : List Byte), decode [b0, b1, b2, b3] = .ok (i, rest) →
    i.wf = true ∧ encode i = some (4 - rest.length, leNat ([b0, b1, b2, b3].take (4 - rest.length)))

/-- R20: the low bit of the first byte gives an instruction's length. -/
def Obligations.LengthBit : Prop :=
  ∀ (bs rest : List Byte) (i : Instr), decode bs = .ok (i, rest) →
    ∃ b0 more, bs = b0 :: more ∧ bs.length = rest.length + (if b0.getLsbD 0 then 4 else 2)

/-! ### Steps -/

/-- An attempt of a slot runs exec on the instruction that the bytes at its PC decode to, in the state in which the slot is in
hand, its stall mark is cleared, and the TLBs and the instruction cache keep what the fetch used; so does the first of the pairs
that R352 picks where the agenda is empty and it is the slots' turn, the others' attempts being the agenda it leaves (log 11).
A step of an engine, of the host, of a peer or of the controller that heads the agenda is performed as exec says.  After either,
caches have made room for the lines that came into full sets (R95, R96). -/
def Obligations.StepRunsDecoded : Prop :=
  (∀ (s t : State) (wid : Nat) (sec defer : Bool) (i : Instr) (xs : List Xlat), MayIssue wid t → Fetches t i xs →
     ((∃ rest, s.agenda = .issue wid sec defer :: rest ∧ t = attempt { s with agenda := rest } wid sec defer) ∨
       (s.agenda = [] ∧ s.gts % 2 = 0 ∧ defer = false ∧
         (∃ p rest, turnPairs (eligiblePairs s) = p :: rest ∧ p.wid = wid ∧ p.sec = sec) ∧
         t = attempt (beforeTurn (eligiblePairs s) s) wid sec false)) →
     step s = trimmed (exec i (afterFetch (awake t) t.cur.pc xs))) ∧
  (∀ (s : State) (i : Instr) (rest : List Move), engineStep i = true → s.agenda = .event i :: rest →
     step s = trimmed (exec i { s with agenda := rest }))

/-- What `finished` (and, but for the PC, `leftBy`) adds to the change that an instruction made: the clock of its wave, its
slot's PC, windows, lookahead counts and waiting counts, and the marks of bad registers that its results clear; no register, no
byte of memory and nothing outside the wave. -/
def Obligations.Retirement : Prop :=
  ∀ (i : Instr) (s u : State),
    finished i s u = { u with w := (finished i s u).w } ∧
      (finished i s u).w =
        { u.w with cur := (finished i s u).w.cur, badRegs := (finished i s u).w.badRegs, lclock := u.w.lclock + 1 } ∧
      fewerBadRegs u (finished i s u) ∧
      (finished i s u).w.cur =
        { u.w.cur with
          pc := (u.w.cur.pc + (hdr i).size) % 2 ^ 56, windows := (finished i s u).w.cur.windows
          bank := { u.w.cur.bank with bad := (finished i s u).w.cur.bank.bad }
          flights := u.w.cur.flights.map fun f => { f with left := f.left - 1 }, waited := 0, urgent := none
          yielded := i == .yield, issuedAt := u.gts, stalled := false, staging := none } ∧
      ((hdr i).closes = true → (finished i s u).w.cur.windows = []) ∧
      leftBy i s u = { finished i s u with w := { (finished i s u).w with cur := { (finished i s u).w.cur with pc := u.w.cur.pc } } }

/-! ### Traps -/

/-- R370, R371, R372, R420: with a handler and outside one, and with nothing of the slot that entry waits for (R373), a cause
writes the trap registers, the frame and `v0`, closes the windows and sends the slot to TRAPVEC; nothing else changes. -/
def Obligations.TrapEntry : Prop :=
  ∀ (s : State) (tr : Trap) (next : Nat), s.cur.inHandler = false → s.w.trapvec / 2 ≠ 0 → s.cur.flights = [] →
    entryWaits s = false → EnteredHandler s (takeTrap s tr next) tr next

/-- R373: the replay queue holds the unfinished instructions in their order, from entry 0, with the words, PCs, masks and
captured operands; OPND holds the captured vector operands lane by lane.  While a readout that has been posted, a `pub` or a
`tlbinv` of the slot is not over, the slot stops issuing and its entry waits; nothing else changes, and no instruction becomes a
replay entry meanwhile. -/
def Obligations.ReplayQueue : Prop :=
  (∀ (s : State) (tr : Trap) (next : Nat), s.cur.inHandler = false → s.w.trapvec / 2 ≠ 0 → entryWaits s = true →
    let t := takeTrap s tr next
    t = { s with w := { s.w with cur := t.w.cur } } ∧ slotReady t = false ∧
      (∃ p, t.w.cur.entering = some p ∧ p.cause = tr.cause ∧ p.mask = tr.mask ∧ p.info = tr.info ∧ p.next = next ∧
        p.impr = tr.impr ∧ ∀ l < 32, p.laddr.getD l 0 = tr.laddr l) ∧
      t.w.cur = { s.w.cur with
        entering := t.w.cur.entering, barWait := .none, wfe := none, sleep := [], missing := [], ra := none, stalled := false
        replaying := false }) ∧
  ∀ (s : State) (tr : Trap) (next : Nat), s.cur.inHandler = false → s.w.trapvec / 2 ≠ 0 → entryWaits s = false →
    s.cur.flights.length ≤ 16 →
    let t := takeTrap s tr next
    let fs := s.cur.flights
    t.w.cur.flights = [] ∧ t.w.cur.entering = none ∧
      t.w.cur.trap.cause = tcauseWord tr.cause fs.length tr.impr ∧
      (∀ k f, fs[k]? = some f → t.w.cur.rq.getD k RqEntry.zero =
        { word := wordOf f.instr, pclo := BitVec.ofNat 32 f.pc,
          pchi := BitVec.ofNat 32 (f.pc / 2 ^ 32 % 2 ^ 24 + opoffOf fs k * 2 ^ 24 + 2 ^ 31), mask := f.mask,
          scals := Vector.ofFn fun j => (f.scals.map fun (p : Nat × Word) => p.2).getD j 0, orig := some f }) ∧
      (∀ k, fs.length ≤ k → t.w.cur.rq.getD k RqEntry.zero = RqEntry.zero) ∧
      (∀ k f j l p, fs[k]? = some f → f.vecs[j]? = some p → l < 32 → f.mask.getLsbD l = true → opoffOf fs fs.length ≤ 44 →
        t.num (laneLoc s.w l (s.w.priv + 0x50 + 4 * (opoffOf fs k + j))) 4 = (Lanes.at p.2 l).toNat)

/-- R368, R374: with TRAPVEC 0 the cause is a launch fault, and in a handler TRAP_NESTED is; the wave has ended, which the model
does at once with both slots (log 6), and the launch is cancelled with the cause. -/
def Obligations.TrapWithoutHandler : Prop :=
  ∀ (s : State) (tr : Trap) (next : Nat) (l : Launch), s.cur.inHandler = true ∨ s.w.trapvec / 2 = 0 →
    s.launch? s.w.lid = some l → s.w.live = true →
    let t := takeTrap s tr next
    (∀ w ∈ t.waves, w.live = true → w.wid ≠ s.w.wid) ∧
      ∃ l', t.launch? s.w.lid = some l' ∧ l'.cancelled = true ∧
        l'.fault = if l.cancelled then l.fault else some (if s.cur.inHandler then causeTrapNested else tr.cause)

/-- R24: a cause of the checks that need no operand stops every encoded instruction from performing, and the slot traps with that
cause.  R25, R14, R26 in R24's order: outside a privileged context the privileged instructions raise PRIV_INSTR in every lane; a
vector register past the launch's budget is REG_RANGE, unless that comes first; and an instruction in a window that reads or
writes a register written by the window's instruction, or writes one that it reads, is LOOKAHEAD_VIOLATION, unless a cause
before it applies. -/
def Obligations.IssueOrder : Prop :=
  (∀ (i : Instr) (s : State) (tr : Trap), (encode i).isSome = true → Attempts i s → issueTrap i s = some tr →
     exec i s = .next (raise s tr)) ∧
  (∀ (i : Instr) (s : State), (encode i).isSome = true → Attempts i s → isPrivileged i = true → s.privileged = false →
     exec i s = .next (raise s { cause := 0x02, laddr := fun _ => 0 })) ∧
  (∀ (i : Instr) (s : State) (r : Nat), (encode i).isSome = true → Attempts i s → isPrivileged i = false →
     .v r ∈ (hdr i).reads ++ (hdr i).writes → s.w.budget ≤ r →
     exec i s = .next (raise s { cause := 0x03, laddr := fun _ => 0 })) ∧
  (∀ (i : Instr) (s : State) (win : Window) (r : RegId), (encode i).isSome = true → Attempts i s → isPrivileged i = false →
     (∀ n, .v n ∈ (hdr i).reads ++ (hdr i).writes → n < s.w.budget) → win ∈ s.cur.windows → r ≠ .m 0 →
     ((r ∈ (hdr i).reads ++ (hdr i).names ++ (hdr i).writes ∧ r ∈ win.writes) ∨ (r ∈ (hdr i).writes ∧ r ∈ win.reads)) →
     exec i s = .next (raise s { cause := 0x04, laddr := fun _ => 0 }))

/-- R27, R353, R373, R382: an instruction that must wait issues later: only its slot's stall mark changes, and for an
instruction that closes windows its windows. -/
def Obligations.HeldInstruction : Prop :=
  ∀ (i : Instr) (s : State), (encode i).isSome = true → Attempts i s → issueTrap i s = none → held i s = true →
    exec i s = .next ((opened i s).onCur fun c => { c with stalled := true })

/-! ### Arithmetic (chapter 6) -/

/-- R133 to R139, R142, Tables 6.1 and 6.2: the integer operations on vector registers and on pairs (R15), in every active
lane; nothing else changes (R130).  Each form named here completes, with the value of its row of the tables. -/
def Obligations.IntegerLanes : Prop :=
  (∀ (s : State) (d a b : Nat), ∀ i ∈ [Instr.add d a b, .sub d a b, .mul d a b, .mulhiI32 d a b, .mulhiN32 d a b, .and d a b,
       .or d a b, .xor d a b, .andn d a b, .shl d a b, .shr d a b, .sra d a b, .minI32 d a b, .maxI32 d a b, .minN32 d a b,
       .maxN32 d a b], Ready i s →
     ∃ t f, exec i s = .next t ∧ table61 i = some (d, a, b, f) ∧ wroteV s t d (fun l => f (s.v a l) (s.v b l)) ∧
       sameScalars s t ∧ sameMasks s t ∧ OnlyRegs i s t) ∧
  (∀ (s : State) (d a b c n : Nat) (z : Int) (k : ShKind), ∀ i ∈ [Instr.clz d a, .popc d a, .brev d a, .abs d a, .mad d a b c,
       .addi d a z, .andi d a z, .ori d a z, .xori d a z, .shi k d a n, .sel n d a b, .movi d z, .movh d n, .bfeN d a b,
       .bfeI d a b, .bfi d a b, .perm d a b], i.wf = true → Ready i s →
     ∃ t f, exec i s = .next t ∧ (laneTable i s = some (d, f) ∨ fieldTable i s = some (d, f)) ∧ wroteV s t d f ∧
       sameScalars s t ∧ sameMasks s t ∧ OnlyRegs i s t) ∧
  (∀ (s : State) (d a b : Nat), ∀ i ∈ [Instr.add64 d a b, .sub64 d a b, .shl64 d a b, .shr64 d a b, .min64I d a b, .max64I d a b,
       .min64N d a b, .max64N d a b], i.wf = true → Ready i s →
     ∃ t f, exec i s = .next t ∧ pairTable i s = some (d, f) ∧ wroteV64 s t d f ∧ sameScalars s t ∧ sameMasks s t ∧
       OnlyRegs i s t)

/-- R143, Table 6.3: the 16-bit forms read their destination and a vector or scalar register.  Each form named here
completes. -/
def Obligations.CompactForms : Prop :=
  ∀ (s : State) (k : Bool) (v d : Nat), ∀ i ∈ [Instr.mov16 k v d, .add16 k v d, .sub16 k v d, .and16 k v d, .or16 k v d,
      .xor16 k v d, .shl16 k v d, .shr16 k v d, .sra16 k v d, .minI3216 k v d, .maxI3216 k v d, .fadd16 k v d, .fsub16 k v d,
      .fmul16 k v d, .fmin16 k v d, .fmax16 k v d], i.wf = true → Ready i s →
    ∃ t f, exec i s = .next t ∧ compactTable i s = some (d, f) ∧ wroteV s t d f ∧ sameScalars s t ∧ sameMasks s t ∧
      OnlyRegs i s t

/-- R144 to R148, Tables 6.4 and 6.5: floating-point operations, each exact result rounded once; R150 to R154: the special
functions act on each active lane's pattern, by the model's functions on patterns (log 7).  Each form named here completes. -/
def Obligations.FloatLanes : Prop :=
  (∀ (s : State) (d a b c : Nat), ∀ i ∈ [Instr.fadd d a b, .fsub d a b, .fmul d a b, .fmin d a b, .fmax d a b, .fcopysign d a b,
       .fldexp d a b, .fadd2 d a b, .fmul2 d a b, .fdot2 d a b, .ffma d a b c, .ffma2 d a b c], i.wf = true → Ready i s →
     ∃ t f, exec i s = .next t ∧ floatTable i s = some (d, f) ∧ wroteV s t d f ∧ sameScalars s t ∧ sameMasks s t ∧
       OnlyRegs i s t) ∧
  (∀ (s : State) (la d a : Nat) (r : Rm), ∀ i ∈ [Instr.frcp la d a, .frsq la d a, .fsqrt la r d a, .fexp2 la d a, .flog2 la d a,
       .fsin la d a, .fcos la d a, .frnd la r d a, .fclass la d a], i.wf = true → Ready i s →
     ∃ t f, exec i s = .next t ∧ specialTable i = some (d, a, f) ∧
       wroteV s t d (fun l => BitVec.ofNat 32 (f (s.v a l).toNat)) ∧ sameScalars s t ∧ sameMasks s t ∧ OnlyRegs i s t)

/-- R124, R125: the conversions into one register, and into a pair; R126, R128, R129: `pack`, `unpack`, `bfpx` and `bfpq`,
the last over the block of the active lanes.  Each of the sixteen conversions is named here, and completes.  That a rounding
conversion gives +0 for -0 is log 14, and the sign of a nonzero value that rounds to zero, log 61. -/
def Obligations.ConversionsAndPacking : Prop :=
  ((∀ (s : State) (la d a : Nat) (sat : Bool) (r : Rm), ∀ i ∈ [Instr.cvtF32I32 la r d a, .cvtF32N32 la r d a,
       .cvtI32F32 la sat r d a, .cvtN32F32 la sat r d a, .cvtF16F32 la sat r d a, .cvtBf16F32 la sat r d a, .cvtF32F16 la d a,
       .cvtF32Bf16 la d a, .cvtF32I64 la r d a, .cvtF32N64 la r d a, .cvtI8I32 la sat d a, .cvtN8I32 la sat d a,
       .cvtI16I32 la sat d a, .cvtN16I32 la sat d a], i.wf = true → Ready i s →
     ∃ t f, exec i s = .next t ∧ cvtTable i s = some (d, f) ∧ wroteV s t d f ∧ sameScalars s t ∧ sameMasks s t ∧
       OnlyRegs i s t) ∧
   ∀ (s : State) (la d a : Nat) (sat : Bool) (r : Rm), ∀ i ∈ [Instr.cvtI64F32 la sat r d a, .cvtN64F32 la sat r d a],
     i.wf = true → Ready i s →
     ∃ t f, exec i s = .next t ∧ cvtPairTable i s = some (d, f) ∧ wroteV64 s t d f ∧ sameScalars s t ∧ sameMasks s t ∧
       OnlyRegs i s t) ∧
  ((∀ (s : State) (la d a : Nat) (ty : PackTy), (Instr.pack la ty d a).wf = true → Ready (.pack la ty d a) s →
     ∃ t, exec (.pack la ty d a) s = .next t ∧ wroteV s t d (packedRule ty s a) ∧ sameScalars s t ∧ sameMasks s t ∧
       OnlyRegs (.pack la ty d a) s t) ∧
   (∀ (s : State) (la d a : Nat) (ty : PackTy), (Instr.unpack la ty d a).wf = true → Ready (.unpack la ty d a) s →
     ∃ t, exec (.unpack la ty d a) s = .next t ∧ wroteBlock s t d (packCount ty) (fun k l => unpackRule ty (s.v a l) k) ∧
       sameScalars s t ∧ sameMasks s t ∧ OnlyRegs (.unpack la ty d a) s t) ∧
   (∀ (s : State) (la w d a : Nat), (Instr.bfpx la w d a).wf = true → Ready (.bfpx la w d a) s →
     ∃ t, exec (.bfpx la w d a) s = .next t ∧ wroteV s t d (fun l => bfpxRule w (s.v a l)) ∧ sameScalars s t ∧
       sameMasks s t ∧ OnlyRegs (.bfpx la w d a) s t) ∧
   ∀ (s : State) (la w d a : Nat), (Instr.bfpq la w d a).wf = true → Ready (.bfpq la w d a) s →
     ∃ t, exec (.bfpq la w d a) s = .next t ∧
       wroteV s t d (bfpqRule w (lanesOf s.m0) fun l => FFmt.b32.value (s.v a l).toNat) ∧
       sameScalars s t ∧ sameMasks s t ∧ OnlyRegs (.bfpq la w d a) s t)

/-- R155 to R161, Table 6.8: `shfl`, `bcast`, the reductions and scans in the fixed tree of R158, and `compact` complete. -/
def Obligations.CrossLane : Prop :=
  ∀ (s : State) (la d a b : Nat) (o : RedOp) (excl : Bool), ∀ i ∈ [Instr.shfl la d a b, .bcast la d a b, .redu la o d a,
      .scan la excl o d a, .compact la d a], i.wf = true → Ready i s →
    ∃ t f, exec i s = .next t ∧ crossTable i s = some (d, f) ∧ wroteV s t d f ∧ sameScalars s t ∧ sameMasks s t ∧ OnlyRegs i s t

/-- R141, R149, R157: the comparisons and `vote` write the bits of a mask register at the active lanes, the other bits stay
(R130); R162, R163, R165, R166, Tables 6.9 and 6.10: the operations on masks and scalars, once per slot; `s0` discards the
write (R12).  Each form named here completes. -/
def Obligations.MasksAndScalars : Prop :=
  (∀ (s : State) (la d a b : Nat) (c : ICond) (fc : FCond) (v : VoteKind), ∀ i ∈ [Instr.icmp c d a b, .icmp64 c d a b,
       .fcmp fc d a b, .vote la v d a], i.wf = true → Ready i s →
     ∃ t x p, exec i s = .next t ∧ laneMaskTable i s = some (d, p) ∧ wroteM s t d x ∧
       (∀ l < 32, x.getLsbD l = if s.m0.getLsbD l then p l else (s.mreg d).getLsbD l) ∧
       sameScalars s t ∧ sameVectors s t ∧ OnlyRegs i s t) ∧
  ((∀ (s : State) (d a b : Nat) (c : ICond), ∀ i ∈ [Instr.mand d a b, .mor d a b, .mxor d a b, .mnot d a, .mset d a,
       .scmp c d a b], i.wf = true → Ready i s →
     ∃ t x, exec i s = .next t ∧ maskTable i s = some (d, x) ∧ wroteM s t d x ∧ sameScalars s t ∧ sameVectors s t ∧
       OnlyRegs i s t) ∧
   ∀ (s : State) (d a b : Nat) (z : Int), ∀ i ∈ [Instr.mpop d a, .mfirst d a, .mget d a, .sadd d a b, .ssub d a b, .smul d a b,
       .sand d a b, .sor d a b, .sxor d a b, .sshl d a b, .sshr d a b, .ssra d a b, .smin d a b, .smax d a b, .smov d a,
       .saddi d a z, .smovi d z], i.wf = true → Ready i s →
     ∃ t x, exec i s = .next t ∧ scalarTable i s = some (d, x) ∧ wroteS s t d x ∧ sameMasks s t ∧ sameVectors s t ∧
       OnlyRegs i s t)

/-! ### Memory (chapters 4 and 12) -/

/-- R101 to R103, Table 1.11: lane loads in every space and width: each active lane's registers take what its bytes give, a
helper lane that fails a check reads 0; no byte changes.  No byte that is read is in a bad granule (R98).  Each of the five
forms completes. -/
def Obligations.Loads : Prop :=
  ∀ (s : State) (la vi sb d : Nat) (w : LdWidth) (i : Instr) (sp : Space),
    (i, sp) ∈ [(Instr.ldP la w vi sb d, Space.p), (.ldC la w vi sb d, .c), (.ldK la w vi sb d, .k), (.ldX la w vi sb d, .x),
      (.ldG la w vi sb d, .g)] → i.wf = true → Ready i s →
    (∀ l < 32, s.m0.getLsbD l = true → s.helperLane l = false →
      passes s sp .load s.viewSpace l (lane101 s sp vi sb l) w.bytes) →
    helpersSound s sp (lane101 s sp vi sb) w.bytes →
    lanesStall s sp w.bytes false ((lanesOf s.m0).map fun l => (l, lane101 s sp vi sb l)) = false →
    ∃ t, exec i s = .next t ∧
      wroteBlock s t d w.regs (fun k l =>
        if helperFails s sp l (lane101 s sp vi sb l) w.bytes then 0
        else loadRule w (slotRead s l (laneAccess s sp .load s.viewSpace l (lane101 s sp vi sb l) w.bytes).places) k) ∧
      sameScalars s t ∧ sameMasks s t ∧ t.w.cur.bank.monitor = s.w.cur.bank.monitor ∧ OnlyReads i s t

/-- R101 to R103: lane stores in every space and width: the bytes that the lanes that are no helpers store, in the order of
the lanes, and no other byte; no launch has a mailbox, whose doorbells another statement is about, and the slot has sent no
store of these bytes that is yet to be answered, behind which this one would be sent too (R104).  Each of the five forms
completes.  A `.g` store whose bytes lie outside the package may also be posted (R288): no byte changes yet, but the slot reads
what it stored (R104); the answer then performs the store.  That such a store is posted, and performed at its answer in the order
of the slot's stores of the same bytes, is log 4. -/
def Obligations.Stores : Prop :=
  (∀ (s : State) (la vi sb d : Nat) (w : StWidth) (i : Instr) (sp : Space),
    (i, sp) ∈ [(Instr.stP la w vi sb d, Space.p), (.stC la w vi sb d, .c), (.stK la w vi sb d, .k), (.stX la w vi sb d, .x),
      (.stG la w vi sb d, .g)] → i.wf = true → Ready i s →
    (∀ l < 32, s.m0.getLsbD l = true → s.helperLane l = false → passesWrite s sp l (lane101 s sp vi sb l) w.bytes) →
    lanesStall s sp w.bytes true ((checkedLanes s).map fun l => (l, lane101 s sp vi sb l)) = false →
    (∀ l ∈ checkedLanes s, meetsPosted s (laneAccess s sp .store s.aspace l (lane101 s sp vi sb l) w.bytes).places = false) →
    (∀ x ∈ s.launches, x.attr.mboxen = false) →
    ∃ t, exec i s = .next t ∧ wroteMemory s t (storeCells s sp w.bytes vi sb d) ∧
      sameScalars s t ∧ sameMasks s t ∧ sameVectors s t ∧ OnlyWrites i s t) ∧
  (∀ (s : State) (la vi sb d : Nat) (w : StWidth), (Instr.stG la w vi sb d).wf = true → Ready (.stG la w vi sb d) s →
    let place (l : Nat) := laneAccess s .g .store s.aspace l (lane101 s .g vi sb l) w.bytes
    checkedLanes s ≠ [] → (∀ l ∈ checkedLanes s, passesWrite s .g l (lane101 s .g vi sb l) w.bytes) →
    (∀ l ∈ checkedLanes s, ∀ p ∈ (place l).places, p.area = .host ∨ p.area = .peer) →
    lanesStall s .g w.bytes true ((checkedLanes s).map fun l => (l, lane101 s .g vi sb l)) = false →
    ∃ t sent, exec (.stG la w vi sb d) { s with defer := true } = .next t ∧ sameMemory s t ∧ t.posted = s.posted ++ sent ∧
      sent.map (fun p => p.data) = (checkedLanes s).map (fun l => (place l).places.zip (storeRule s w.bytes d l)) ∧
      ∀ lane l, slotByte t lane l = lastAt (storeCells s .g w.bytes vi sb d) l (slotByte s lane l)) ∧
  ∀ (s : State) (id : Nat) (p : Posted), s.posted.find? (fun p => p.id == id) = some p → overtakes s p = false →
    (∀ c ∈ p.data, c.1.area ≠ .l2) →
    (answerStore id s).posted = s.posted.filter (fun x => x.id != id) ∧ wroteMemory s (answerStore id s) p.data

/-- R102, Table 4.3: a lane access outside its space is a precise trap of the lanes that met it, ADDR_NONCANON in `.g` and
SPACE_RANGE elsewhere, before any byte is accessed. -/
def Obligations.AccessRange : Prop :=
  ∀ (i : Instr) (s : State) (sp : Space) (n vi sb : Nat), Ready i s →
    ((∃ w d, loadForm i = some (sp, w, vi, sb, d) ∧ n = w.bytes) ∨ ∃ w d, storeForm i = some (sp, w, vi, sb, d) ∧ n = w.bytes) →
    (∃ l ∈ checkedLanes s, rangeOk s sp (lane101 s sp vi sb l) n = false) →
    ∃ tr, exec i s = .next (raise s tr) ∧ tr.cause = (if sp = .g then 0x20 else 0x26) ∧ tr.info = 0 ∧ tr.impr = false ∧
      ∃ m, tr.mask = some m ∧ ∀ l < 32,
        (m.getLsbD l = (decide (l ∈ checkedLanes s) && !rangeOk s sp (lane101 s sp vi sb l) n)) ∧
          (m.getLsbD l = true → tr.laddr l = BitVec.ofInt 64 (lane101 s sp vi sb l))

/-- R106: scalar loads and stores, once per slot; a scalar load sets the monitored block (R380); the slot has sent no store of
the bytes that is yet to be answered (R104). -/
def Obligations.ScalarMemory : Prop :=
  (∀ (s : State) (la : Nat) (sp : Space) (h : Hint) (w : LdWidth) (a d : Nat), (Instr.ldu la sp h w a d).wf = true →
    Ready (.ldu la sp h w a d) s → passes s sp .load s.viewSpace 0 (scalar106 s sp a) w.bytes →
    lanesStall s sp w.bytes false [(0, scalar106 s sp a)] = false →
    let ps := (laneAccess s sp .load s.viewSpace 0 (scalar106 s sp a) w.bytes).places
    ∃ t, exec (.ldu la sp h w a d) s = .next t ∧
      (if w = .b64 then wroteS64 s t d (BitVec.ofNat 64 (slotRead s 0 ps)) else wroteS s t d (loadRule w (slotRead s 0 ps) 0)) ∧
      t.w.cur.bank.monitor = ps.head?.map Loc.block ∧ sameVectors s t ∧ sameMasks s t ∧ OnlyReads (.ldu la sp h w a d) s t) ∧
  ∀ (s : State) (la : Nat) (sp : Space) (h : Hint) (w : StWidth) (a d : Nat), (Instr.stu la sp h w a d).wf = true →
    Ready (.stu la sp h w a d) s → passesWrite s sp 0 (scalar106 s sp a) w.bytes →
    lanesStall s sp w.bytes true [(0, scalar106 s sp a)] = false → (∀ x ∈ s.launches, x.attr.mboxen = false) →
    meetsPosted s (laneAccess s sp .store s.aspace 0 (scalar106 s sp a) w.bytes).places = false →
    ∃ t, exec (.stu la sp h w a d) s = .next t ∧
      wroteMemory s t ((laneAccess s sp .store s.aspace 0 (scalar106 s sp a) w.bytes).places.zip (scalarBytes s w.bytes d)) ∧
      sameScalars s t ∧ sameMasks s t ∧ sameVectors s t ∧ OnlyWrites (.stu la sp h w a d) s t

/-- R283 to R285, Table 12.4: `atom` and `cas` act lane by lane, ascending, each lane atomically on what the lanes before
it left; each lane that is no helper receives the old value, and no other byte changes.  A line of a host page leaves the L2
first, so that the atomic acts on host memory (R53, R272, log 8). -/
def Obligations.Atomics : Prop :=
  (∀ (s : State) (la : Nat) (o : Osc) (sp : Space) (op : AtomOp) (a d : Nat), (Instr.atom la o sp op a d).wf = true →
    Ready (.atom la o sp op a d) s →
    let n := if Wf.atom64 op then 8 else 4
    let acc (l : Nat) := laneAccess s sp (.atom (atomHostOk op)) s.aspace l (lane283 s sp a l) n
    let x (l : Nat) : Nat := if n = 8 then (s.v64 d l).toNat else (s.v d l).toNat
    (∀ l ∈ checkedLanes s, passes s sp (.atom (atomHostOk op)) s.aspace l (lane283 s sp a l) n ∧
      lane283 s sp a l % n = 0 ∧ (op = .addF32 → s.attr.det = false → ∀ p ∈ (acc l).places, claimedLine s p = false)) →
    lanesStall s sp n true ((checkedLanes s).map fun l => (l, lane283 s sp a l)) = false →
    let all := (checkedLanes s).flatMap fun l => (acc l).places
    meetsPosted s all = false →
    let r := inTurn n ((checkedLanes s).map fun l => (l, (acc l).places, fun old => some (table124 op old (x l))))
      (orderedByte s all) fun _ => 0
    ∃ t, exec (.atom la o sp op a d) s = .next t ∧ (∀ p : Loc, p.area ≠ .l2 → t.byte p = r.1 p) ∧
      (∀ k < n / 4, ∀ l < 32, t.v (d + k) l = if l ∈ checkedLanes s then wordAt (r.2 l) k else s.v (d + k) l) ∧
      (∀ q l, (q < d ∨ d + n / 4 ≤ q) → t.v q l = s.v q l) ∧
      sameScalars s t ∧ sameMasks s t ∧ OnlyWrites (.atom la o sp op a d) s t) ∧
  ∀ (s : State) (la : Nat) (o : Osc) (sp : Space) (wide : Bool) (a d : Nat), (Instr.cas la o sp wide a d).wf = true →
    Ready (.cas la o sp wide a d) s →
    let n := if wide then 8 else 4
    let acc (l : Nat) := laneAccess s sp (.atom true) s.aspace l (lane283 s sp a l) n
    let x (r l : Nat) : Nat := if wide then (s.v64 r l).toNat else (s.v r l).toNat
    (∀ l ∈ checkedLanes s, passes s sp (.atom true) s.aspace l (lane283 s sp a l) n ∧ lane283 s sp a l % n = 0) →
    lanesStall s sp n true ((checkedLanes s).map fun l => (l, lane283 s sp a l)) = false →
    let all := (checkedLanes s).flatMap fun l => (acc l).places
    meetsPosted s all = false →
    let r := inTurn n ((checkedLanes s).map fun l =>
      (l, (acc l).places, fun old => if old = x d l then some (x (d + n / 4) l) else none)) (orderedByte s all) fun _ => 0
    ∃ t, exec (.cas la o sp wide a d) s = .next t ∧ (∀ p : Loc, p.area ≠ .l2 → t.byte p = r.1 p) ∧
      (∀ k < n / 4, ∀ l < 32, t.v (d + k) l = if l ∈ checkedLanes s then wordAt (r.2 l) k else s.v (d + k) l) ∧
      (∀ q l, (q < d ∨ d + n / 4 ≤ q) → t.v q l = s.v q l) ∧
      sameScalars s t ∧ sameMasks s t ∧ OnlyWrites (.cas la o sp wide a d) s t

/-- R275, R286, R357, Table 12.2: `fence` changes no byte and no register; an acquire at `.cl` or wider empties the core's L1,
a release at `.sys` or wider leaves no dirty host line, and at `.dev` or wider the wave's chain value is its queue's. -/
def Obligations.Fence : Prop :=
  ∀ (s : State) (la : Nat) (o : Osc), Ready (.fence la o) s →
    ∃ t, exec (.fence la o) s = .next t ∧ sameMemory s t ∧ sameScalars s t ∧ sameMasks s t ∧ sameVectors s t ∧
      t = { s with w := t.w, mem := t.mem, lines := t.lines } ∧
      t.w = { s.w with cur := t.w.cur, badRegs := t.w.badRegs, lclock := s.w.lclock + 1, chain := t.w.chain } ∧
      SlotPast (.fence la o) s t ∧
      t.w.chain = (match Osc.scope o with
        | some .dev | some .ms | some .sys | some .fab => queueChain s
        | _ => s.w.chain) ∧
      (∀ x, (o = .acq x ∨ o = .ar x ∨ o = .sc x) → x ≠ .gp → ∀ p, ¬cached t (some s.w.core) p) ∧
      ∀ x, (o = .rel x ∨ o = .ar x ∨ o = .sc x) → (x = .sys ∨ x = .fab) →
        ∀ y ∈ t.lines, y.core = none → y.area = .host → y.dirty = false

/-- R108 to R112: the cache instructions change no register, and no byte as the part sees it: `pf` fills the L2, and the L1
at level 1, `cinv` removes the lines named (or ends their priority), so that a host line is read from host memory afterwards,
which has taken the L2's newer data first; `cwb` leaves them clean; a line that an open scatter epoch claims is left alone. -/
def Obligations.CacheControl : Prop :=
  (∀ (s : State) (la : Nat) (l1 : Bool) (h : Hint) (a : Nat), Ready (.pf la l1 h a) s →
    ∃ t, exec (.pf la l1 h a) s = .next t ∧ sameScalars s t ∧ sameMasks s t ∧ sameVectors s t ∧ OnlyReads (.pf la l1 h a) s t ∧
      ∀ p, lineNamed s a p true → (p.area = .hbm ∨ p.area = .host) →
        cached t none p ∧ (l1 = true → cached t (some s.w.core) p)) ∧
  (∀ (s : State) (la : Nat) (relax : Bool) (a : Nat), Ready (.cinv la relax a) s → badPairs s a = [] →
    ∃ t, exec (.cinv la relax a) s = .next t ∧ sameScalars s t ∧ sameMasks s t ∧ sameVectors s t ∧
      t = { s with w := t.w, mem := t.mem, lines := t.lines, bad := t.bad } ∧ MovedPast (.cinv la relax a) s t ∧
      (∀ g ∈ t.bad, g ∈ s.bad) ∧
      (∀ p : Loc, p.area ≠ .l2 →
        ((relax = false ∧ lineNamed s a p false → t.byte p = orderedByte s [p] p) ∧
          (¬(relax = false ∧ lineNamed s a p false) → t.byte p = s.byte p))) ∧
      (relax = false → ∀ p core, lineNamed s a p false → claimedLine s p = false → ¬cached t core p) ∧
      (relax = true → t.lines.length = s.lines.length ∧
        ∀ p, lineNamed s a p false → ∀ x ∈ t.lines, x.area = p.area → x.line = p.line → x.prio ≠ .el)) ∧
  ∀ (s : State) (la a : Nat), Ready (.cwb la a) s → badPairs s a = [] →
    ∃ t, exec (.cwb la a) s = .next t ∧ sameScalars s t ∧ sameMasks s t ∧ sameVectors s t ∧ OnlyReads (.cwb la a) s t ∧
      ∀ p, lineNamed s a p false → claimedLine s p = false →
        ∀ x ∈ t.lines, x.core = none → x.area = p.area → x.line = p.line → x.dirty = false

/-! ### Control flow (chapter 14) -/

/-- R20, R311, R318, R323, R327, R328: the transfers of all the slot's lanes to one address: `br`, a `brc` whose lanes agree,
`call`, which leaves the return address in `v127`, and `ret` with one target; R322, R324, R329, R330: `convat` sets the
pending join point, `demote` makes the active lanes helpers, `nop` only goes on; each with nothing else changed. -/
def Obligations.UniformTransfers : Prop :=
  ((∀ (s : State) (o : Int), Ready (.br o) s →
     ∃ t, exec (.br o) s = .next t ∧ Jumped s t (pcPast s (2 * o)) s.m0 s.cur.cj (gcTaken s o) ∧ sameMemory s t) ∧
   (∀ (s : State) (o : Int) (neg : Bool) (m : Nat), Ready (.brc o neg m) s →
     let taken := s.m0 &&& (if neg then ~~~(s.mreg m) else s.mreg m)
     (taken = 0 → ∃ t, exec (.brc o neg m) s = .next t ∧ Jumped s t ((s.cur.pc + 4) % 2 ^ 56) s.m0 none s.cur.gc) ∧
     (taken = s.m0 → taken ≠ 0 →
       ∃ t, exec (.brc o neg m) s = .next t ∧ Jumped s t (pcPast s (2 * o)) s.m0 none (gcTaken s o))) ∧
   (∀ (s : State) (o : Int), Ready (.call o) s →
     ∃ t, exec (.call o) s = .next t ∧ t.w.cur.pc = pcPast s (2 * o) ∧ t.w.cur.gc = s.cur.gc ∧ t.w.cur.windows = [] ∧
       wroteV s t 127 (fun _ => BitVec.ofNat 32 (s.cur.pc + 4)) ∧ sameScalars s t ∧ sameMasks s t ∧ sameMemory s t ∧
       t = { s with w := t.w } ∧
       t.w = { s.w with cur := t.w.cur, vregs := t.w.vregs, badRegs := t.w.badRegs, lclock := s.w.lclock + 1 }) ∧
   ∀ (s : State) (r l : Nat), Ready (.ret r) s → l < 32 → s.m0.getLsbD l = true →
     (∀ k < 32, s.m0.getLsbD k = true → (s.v r k).toNat / 2 = (s.v r l).toNat / 2) →
     ∃ t, exec (.ret r) s = .next t ∧
       Jumped s t (s.cur.pc / 2 ^ 32 * 2 ^ 32 + (s.v r l).toNat / 2 * 2) s.m0 s.cur.cj s.cur.gc ∧ t.w.cur.windows = []) ∧
  ((∀ (s : State) (o : Int), Ready (.convat o) s →
     ∃ t, exec (.convat o) s = .next t ∧ Jumped s t ((s.cur.pc + 4) % 2 ^ 56) s.m0 (some (pcPast s (2 * o))) s.cur.gc) ∧
   (∀ s : State, Ready .nop s →
     ∃ t, exec .nop s = .next t ∧ sameScalars s t ∧ sameMasks s t ∧ sameVectors s t ∧ OnlyRegs .nop s t) ∧
   ∀ s : State, Ready .demote s →
     ∃ t, exec .demote s = .next t ∧ t = { s with w := t.w } ∧ SlotPast .demote s t ∧
       t.w = { s.w with cur := t.w.cur, badRegs := t.w.badRegs, helper := s.w.helper ||| s.m0, lclock := s.w.lclock + 1 })

/-- R311, R323: a `brc` whose lanes part with no pending join point is CONV_MISSING in every lane; with one it parts, the lanes
that stay first, and waits before a split for the unfinished instructions whose results both slots need (R26).  R310, R312,
R313: a divergence of two groups or more splits the wave where there is no secondary slot, and is serialised where there is one;
the stack receives the entries, the first group goes on, and no other memory changes; a wait for a barrier or a tile that stands
unfinished goes on in both slots (R28).  Which unfinished instructions a split waits for, and what the new slot starts with, is
log 48. -/
def Obligations.Divergence : Prop :=
  (∀ (s : State) (o : Int) (neg : Bool) (m : Nat), Ready (.brc o neg m) s →
     let taken := s.m0 &&& (if neg then ~~~(s.mreg m) else s.mreg m)
     let stay := s.m0 &&& ~~~taken
     taken ≠ 0 → stay ≠ 0 →
     (s.cur.cj = none → exec (.brc o neg m) s = .next (raise s { cause := 0x12, laddr := fun _ => 0 })) ∧
     ∀ j, s.cur.cj = some j → s.cur.depth + s.w.sib.depth + 2 ≤ 128 →
       (¬mayDivide s → s.cancelled = false → exec (.brc o neg m) s = .next (s.onCur fun c => { c with stalled := true })) ∧
       (mayDivide s → ∃ u, diverge j [((s.cur.pc + 4) % 2 ^ 56, stay), (pcPast s (2 * o), taken)] s = .jump u ∧
         exec (.brc o neg m) s = .next (leftBy (.brc o neg m) s u))) ∧
  (∀ (s : State) (join : Nat) (g1 g2 : Nat × Word) (gs : List (Nat × Word)),
     s.cur.depth + s.w.sib.depth + gs.length + 2 ≤ 128 → join < 2 ^ 56 → g1.1 < 2 ^ 56 →
     (∀ g ∈ g2 :: gs, g.1 < 2 ^ 56) → mayDivide s →
     ∃ u, diverge join (g1 :: g2 :: gs) s = .jump u ∧ onlyStack s u ∧
       u = { s with w := u.w, mem := u.mem, entries := u.entries, serial := u.serial } ∧ s.serial ≤ u.serial ∧
       (∀ e ∈ s.entries, e ∈ u.entries) ∧ (∀ e ∈ u.entries, e ∉ s.entries → e.work = .wait ∧ e.wid = s.w.wid) ∧
       u.w = { s.w with cur := u.w.cur, sib := u.w.sib, secLanes := u.w.secLanes } ∧
       (s.w.sib.live = true → u.w.sib = s.w.sib ∧ u.w.secLanes = s.w.secLanes ∧ u.entries = s.entries ∧
         u.w.cur = { s.w.cur with pc := g1.1, m0 := g1.2, cj := none, gc := 0, depth := s.cur.depth + gs.length + 2 } ∧
         stackHas u s.w.curSec s.cur.depth (mkEntry .join 0 join s.m0 :: armEntries join (g2 :: gs))) ∧
       (s.w.sib.live = false → s.w.sib.depth = 0 → s.w.curSec = false →
         u.w.cur = { s.w.cur with pc := g1.1, m0 := g1.2, cj := none, gc := 0, depth := s.cur.depth + gs.length + 1 } ∧
         u.w.sib.live = true ∧ u.w.sib.pc = g2.1 ∧ u.w.sib.m0 = g2.2 ∧ u.w.sib.bank = s.cur.bank ∧ u.w.sib.depth = 1 ∧
         u.w.sib.status = .running ∧ u.w.sib.cj = none ∧ u.w.sib.gc = 0 ∧ u.w.secLanes = g2.2 ∧
         stackHas u false s.cur.depth (mkEntry .split 0 join s.m0 :: armEntries join gs) ∧
         stackHas u true 0 [mkEntry .split 0 join s.m0]))

/-- R326: with a table at its address whose words can be read, `brx` and `callx` send each active lane to the target that
its index names; one target for all is a plain transfer, several are a divergence by ascending address, before it is cut to
56 bits (R9); `callx` leaves the return address in `v127`. -/
def Obligations.TableTransfers : Prop :=
  ∀ (s : State) (o : Int) (v : Nat) (call : Bool) (words : Nat → Nat),
    let i : Instr := if call then .callx o v else .brx o v
    let base : Int := (s.cur.pc : Int) + 2 * o
    Ready i s → base % 4 = 0 → words 0 < 65536 → s.m0 ≠ 0 →
    (∀ k ≤ words 0 + 1, tableWord s (base + 4 * k) = .ok (words k)) →
    (∀ l < 32, s.m0.getLsbD l = true → (s.v v l).toNat < words 0) →
    let place (k : Nat) : Int := base + 2 * (BitVec.ofNat 32 (words k)).toInt
    let target (l : Nat) : Int := place ((s.v v l).toNat + 2)
    let pc (a : Int) : Nat := (a % 2 ^ 56).toNat
    let s1 := if call then (opened i s).setV 127 fun _ => BitVec.ofNat 32 (s.cur.pc + 4) else opened i s
    ∃ gs : List (Int × Word), List.Pairwise (fun (a b : Int × Word) => a.1 < b.1) gs ∧
      (∀ l < 32, s.m0.getLsbD l = true → ∃ g ∈ gs, g.1 = target l ∧ g.2.getLsbD l = true) ∧
      (∀ g ∈ gs, g.2 ≠ 0 ∧ ∀ l < 32, g.2.getLsbD l = true → s.m0.getLsbD l = true ∧ g.1 = target l) ∧
      (gs.length = 1 ∨ s.cur.depth + s.w.sib.depth + gs.length ≤ 128 →
        ∃ u, diverge (pc (place 1)) (gs.map fun g => (pc g.1, g.2)) s1 = .jump u ∧ exec i s = .next (leftBy i s u) ∧
          ∀ g, gs = [g] → u = s1.onCur fun c => { c with pc := pc g.1, cj := none })

/-- R314: `conv` with no entry for its address goes on; on an ARM entry the lanes deferred there take over; on a JOIN entry
with live lanes and nothing for this address below, the lanes of the region go on together; on a SPLIT entry of a slot whose
other slot still runs, the slot has issued (R331) and waits. -/
def Obligations.Conv : Prop :=
  ∀ s : State, Ready .conv s →
    ((s.cur.depth = 0 ∨ ∃ e, topEntry (opened .conv s) = some e ∧ e.join ≠ s.cur.pc) →
      ∃ t, exec .conv s = .next t ∧ Jumped s t ((s.cur.pc + 4) % 2 ^ 56) s.m0 s.cur.cj s.cur.gc) ∧
    (∀ e, topEntry (opened .conv s) = some e → e.join = s.cur.pc → e.spoiled = false →
      (e.kind = .arm → ∃ t, exec .conv s = .next t ∧ t.w.cur.pc = pcOf e.pc ∧ t.w.cur.m0 = e.mask ∧
        t.w.cur.depth = s.cur.depth - 1 ∧ t.w.cur.gc = 0 ∧ sameVectors s t ∧ sameScalars s t ∧ sameMemory s t) ∧
      (e.kind = .join → e.mask &&& ~~~s.w.exited ≠ 0 →
        (s.cur.depth = 1 ∨ (readEntry s s.w.curSec (s.cur.depth - 2)).join ≠ s.cur.pc) →
        ∃ t, exec .conv s = .next t ∧ t.w.cur.pc = (s.cur.pc + 4) % 2 ^ 56 ∧ t.w.cur.m0 = e.mask &&& ~~~s.w.exited ∧
          t.w.cur.depth = s.cur.depth - 1 ∧ t.w.cur.gc = 0 ∧ sameVectors s t ∧ sameScalars s t ∧ sameMemory s t) ∧
      (e.kind = .split → s.w.sib.live = true → s.w.sib.status = .running →
        (∀ w ∈ s.waves, w.cur.barWait = .none ∧ w.sib.barWait = .none) →
        ∃ t, exec .conv s = .next t ∧ t.w.cur =
          { s.cur with
            status := .waiting s.cur.pc, windows := [], waited := 0, urgent := none, yielded := false, issuedAt := s.gts
            stalled := false, staging := none }))

/-- R316, R330, R374: `exit` takes its lanes away and ends the handler that it stands in; then JOIN entries whose lanes are all
gone and ARM entries without lanes are popped, and the slot takes the work of the next entry, parks on a SPLIT entry, or stops
being live; with the last slot the wave ends. -/
def Obligations.Exit : Prop :=
  ∀ (s : State) (k : Nat), Ready .exit s → s.cur.depth ≤ 128 → k ≤ s.cur.depth →
    let gone := s.w.exited ||| s.m0
    let d := s.cur.depth - k
    let entry (n : Nat) := readEntry s s.w.curSec n
    let e := entry (d - 1)
    let left : State := (opened .exit s).onWave fun w => { w with
      exited := gone
      cur := { w.cur with m0 := 0, depth := d, gc := 0, trap := { w.cur.trap with cause := w.cur.trap.cause &&& 0x7FFFFFFF } } }
    (∀ n, d ≤ n → n < s.cur.depth → (entry n).spoiled = false ∧
      (((entry n).kind = .join ∧ (entry n).mask &&& ~~~gone = 0) ∨ ((entry n).kind = .arm ∧ (entry n).mask = 0))) →
    (0 < d → e.spoiled = false →
      (e.kind = .arm → e.mask ≠ 0 → exec .exit s =
        .next (leftBy .exit s (left.onCur fun c => { c with m0 := e.mask, pc := pcOf e.pc, depth := d - 1 }))) ∧
      (e.kind = .join → e.mask &&& ~~~gone ≠ 0 → exec .exit s =
        .next (leftBy .exit s (left.onCur fun c => { c with m0 := e.mask &&& ~~~gone, pc := pcOf e.join }))) ∧
      (e.kind = .split → s.w.sib.live = true → s.w.sib.status = .running → noBarrier s →
        exec .exit s = .next (retire .exit (left.onCur fun c => { c with status := .parked })))) ∧
    (d = 0 → s.w.sib.live = true → noBarrier s →
      let off := retire .exit (left.onCur fun c => { c with live := false })
      exec .exit s = .next { off with w := off.w.sel (!s.w.curSec) }) ∧
    (d = 0 → s.w.sib.live = false → s.w.live = true → ∃ t, exec .exit s = .next t ∧ WaveGone s t)

/-- R315, R353: where the other slot stands at a SPLIT entry with equal JOIN and MASK, the `conv` merges the slots: the
primary goes on past it with the lanes of the region that have not exited and its own bank, or the secondary's if every lane of
the primary has exited; the secondary is gone.  Which lanes are the primary's, and that two parked slots merge, is log 51. -/
def Obligations.Merge : Prop :=
  ∀ (s : State) (e e' : StackEntry), Ready .conv s → s.cur.status = .running → s.cur.pc % 2 = 0 → s.cur.pc < 2 ^ 56 →
    topEntry (opened .conv s) = some e → e.kind = .split → e.spoiled = false → e.join = s.cur.pc →
    s.w.sib.live = true → (s.w.sib.status = .parked ∨ s.w.sib.status = .waiting s.cur.pc) →
    otherTop s = some e' → e'.spoiled = false → e'.join = s.cur.pc → e'.mask = e.mask →
    let primary := if s.w.curSec then s.w.sib else s.w.cur
    let secondary := if s.w.curSec then s.w.cur else s.w.sib
    e.mask &&& ~~~s.w.exited ≠ 0 → primary.depth = 1 →
    ∃ t, exec .conv s = .next t ∧ t.w.curSec = false ∧ t.w.sib = Slot.off ∧ t.w.cur.m0 = e.mask &&& ~~~s.w.exited ∧
      t.w.cur.pc = (s.cur.pc + 4) % 2 ^ 56 ∧ t.w.cur.depth = 0 ∧ t.w.cur.gc = 0 ∧ t.w.cur.status = .running ∧
      t.w.cur.bank = (if e.mask &&& ~~~s.w.secLanes &&& ~~~s.w.exited = 0 then secondary.bank else primary.bank) ∧
      t.w.lclock = s.w.lclock + (if s.w.sib.status = .parked then 1 else 2) ∧
      sameVectors s t ∧ sameMemory s t ∧ t = { s with w := t.w, posted := t.posted } ∧
      t.w = { s.w with cur := t.w.cur, sib := t.w.sib, curSec := false, lclock := t.w.lclock }

/-- R318, R331: with an ARM entry on top, `yield` and the starvation guard exchange the two paths; without one, `yield` only
goes on and the guard changes nothing. -/
def Obligations.PathSwaps : Prop :=
  (∀ (s : State) (e : StackEntry), Ready .yield s → s.cur.depth ≤ 128 → topEntry (opened .yield s) = some e →
    e.kind = .arm → e.spoiled = false →
    ∃ t, exec .yield s = .next t ∧ Swapped s t e ((s.cur.pc + 4) % 2 ^ 56) ∧ t.w.cur.yielded = true) ∧
  (∀ s : State, Ready .yield s → (∀ e, topEntry (opened .yield s) = some e → e.kind ≠ .arm) →
    ∃ t, exec .yield s = .next t ∧ Jumped s t ((s.cur.pc + 4) % 2 ^ 56) s.m0 s.cur.cj s.cur.gc ∧ t.w.cur.yielded = true) ∧
  (∀ (s : State) (e : StackEntry), swapDue s = true → s.cur.depth ≤ 128 → s.cur.pc < 2 ^ 56 → topEntry s = some e →
    e.spoiled = false → ∃ t, exec .starvationSwap s = .next t ∧ Swapped s t e s.cur.pc) ∧
  ∀ s : State, swapDue s = false → exec .starvationSwap s = .next s

/-- R366: a slot that comes to `bar` or `barc` while others are still missing waits there, and a wave that has come to a counted
barrier whole is counted; the last arrival at a group barrier completes it for every wave of the group, and the arrival that
makes up the count of a counted one for every wave that has been counted, which for a count of 1 is the arrival itself.  Two
slots of a wave at different barriers are BAR_MISMATCH, and a count of 0, above 4,096, or other than the round's or the other
slot's is BAR_COUNT, with TADDR 0 (log 18).  R353, R367: `lclk` reads the
wave's count of retired instructions into a scalar pair; `lsync` only goes on, in a DET launch once it is the wave's turn by
R354 and at once in any other. -/
def Obligations.Barriers : Prop :=
  ((∀ (s : State) (n : Nat), Ready (.bar n) s → mismatch s (atBar n) = false → noBarrier s → noCount s →
     (∃ w ∈ s.waves, w.gid = s.w.gid ∧ w.wid ≠ s.w.wid ∧ (w.cur.live = true ∨ w.sib.live = true)) ∨
       (s.w.sib.live = true ∧ s.w.sib.status = .running ∧ s.w.live = true) →
     exec (.bar n) s = .next (arrivedAt (.bar n) s (.bar n))) ∧
   (∀ (s : State) (n : Nat), Ready (.bar n) s → n < 16 → s.w.live = true → noCount s →
     (s.w.sib.live = true → s.w.sib.barWait = .bar n) →
     (∀ w ∈ s.others, w.cur.barWait ≠ .none ∨ w.sib.barWait ≠ .none → w.gid = s.w.gid) →
     (∀ w ∈ s.others, w.gid = s.w.gid → w.cur.live = true ∧ w.cur.barWait = .bar n ∧ (w.sib.live = true → w.sib.barWait = .bar n)) →
     ∃ t, exec (.bar n) s = .next t ∧ t.w.cur.pc = (s.cur.pc + 4) % 2 ^ 56 ∧ t.w.cur.barWait = .none ∧
       (∀ w ∈ t.waves, w.gid = s.w.gid → (w.cur.live = true → w.cur.barWait = .none) ∧ (w.sib.live = true → w.sib.barWait = .none)) ∧
       sameVectors s t ∧ sameScalars s t ∧ sameMasks s t ∧ sameMemory s t) ∧
   (∀ (s : State) (n : Nat), Ready (.bar n) s → mismatch s (atBar n) = true →
     exec (.bar n) s = .next (raise (opened (.bar n) s) { cause := 0x8C, laddr := fun _ => 0 })) ∧
   (∀ (s : State) (r n : Nat), Ready (.barc r n) s → mismatch s (atBarc n) = false →
     ((s.sreg r).toNat = 0 ∨ 4096 < (s.sreg r).toNat) →
     exec (.barc r n) s = .next (raise (opened (.barc r n) s) { cause := 0x8D, laddr := fun _ => 0 })) ∧
   (∀ (s : State) (r n : Nat), Ready (.barc r n) s → n < 16 → s.w.live = true → s.w.sib.live = false → s.sreg r = 1 →
     (∀ w ∈ s.others, w.cur.barWait = .none ∧ w.sib.barWait = .none) → noCount s →
     ∃ t, exec (.barc r n) s = .next t ∧ t.w.cur.pc = (s.cur.pc + 4) % 2 ^ 56 ∧ t.w.cur.barWait = .none ∧
       (barcOf t (instOf s s.w.gid) n).arrived = [] ∧ sameVectors s t ∧ sameScalars s t ∧ sameMasks s t ∧ sameMemory s t) ∧
   (∀ (s : State) (r n : Nat), Ready (.barc r n) s → mismatch s (atBarc n) = true →
     exec (.barc r n) s = .next (raise (opened (.barc r n) s) { cause := 0x8C, laddr := fun _ => 0 })) ∧
   (∀ (s : State) (r n : Nat), Ready (.barc r n) s → 1 ≤ (s.sreg r).toNat → (s.sreg r).toNat ≤ 4096 → s.w.live = true →
     s.w.sib.live = true → s.w.sib.status = .running → noBarrier s → noCount s →
     exec (.barc r n) s = .next (arrivedAt (.barc r n) s (.barc n (s.sreg r).toNat))) ∧
   ∀ (s : State) (r n : Nat), Ready (.barc r n) s → n < 16 → s.w.live = true → 1 ≤ (s.sreg r).toNat → (s.sreg r).toNat ≤ 4096 →
     let c := (s.sreg r).toNat
     let inst := instOf s s.w.gid
     let b := barcOf s inst n
     let here (w : Wave) : Prop := instOf s w.gid = inst
     ((s.w.sib.live = true ∧ (∃ m, s.w.sib.barWait = .barc n m ∧ m ≠ c)) ∨ (s.w.sib.live = false ∧ b.arrived ≠ [] ∧ b.count ≠ c) →
       exec (.barc r n) s = .next (raise (opened (.barc r n) s) { cause := 0x8D, laddr := fun _ => 0 })) ∧
     (s.w.sib.live = false → (b.arrived = [] ∨ b.count = c) → s.w.wid ∉ b.arrived →
       (∀ k < 16, k ≠ n → (barcOf s inst k).arrived = []) →
       (∀ w ∈ s.others, here w → (w.cur.barWait = .none ∨ w.cur.barWait = .barc n c) ∧
         (w.sib.barWait = .none ∨ w.sib.barWait = .barc n c)) →
       (∀ w ∈ s.others, here w → w.arrived = true → w.wid ∈ b.arrived) →
       (b.arrived.length + 1 < c → exec (.barc r n) s =
         .next (setBarc (arrivedAt (.barc r n) s (.barc n c)) inst n ⟨c, b.arrived ++ [s.w.wid]⟩)) ∧
       (b.arrived.length + 1 = c → ∃ t, exec (.barc r n) s = .next t ∧ t.w.cur.pc = (s.cur.pc + 4) % 2 ^ 56 ∧
         t.w.cur.barWait = .none ∧ t.w.lclock = s.w.lclock + 1 ∧ (barcOf t inst n).arrived = [] ∧
         (∀ w ∈ t.waves, w.wid ∈ b.arrived → w.waitsBar (atBarc n) = false) ∧
         sameVectors s t ∧ sameScalars s t ∧ sameMasks s t ∧ sameMemory s t))) ∧
  ((∀ (s : State) (x : Nat), (Instr.lclk x).wf = true → Ready (.lclk x) s →
     ∃ t, exec (.lclk x) s = .next t ∧ wroteS64 s t x (BitVec.ofNat 64 s.w.lclock) ∧ sameVectors s t ∧ sameMasks s t ∧
       OnlyRegs (.lclk x) s t) ∧
   (∀ s : State, Ready .lsync s → exec .lsync s = .next (finished .lsync s (opened .lsync s))) ∧
   ∀ s : State, Attempts .lsync s → issueTrap .lsync s = none → s.cur.flights = [] → s.cur.imprecise = [] →
     storesOut s = false → s.defer = false →
     let earlier (x : Wave) : Prop := x.lid = s.w.lid ∧ x.wid ≠ s.w.wid ∧ x.arrived = false ∧
       (x.lclock < s.w.lclock ∨ (x.lclock = s.w.lclock ∧ globalIndex s x ≤ globalIndex s s.w))
     (s.attr.det = true → (∃ x ∈ s.waves, earlier x) →
       exec .lsync s = .next ((opened .lsync s).onCur fun c => { c with stalled := true })) ∧
     ((s.attr.det = false ∨ ∀ x ∈ s.waves, ¬earlier x) → exec .lsync s = .next (finished .lsync s (opened .lsync s))))

/-- R377: `trap` and `bkpt` retire, and then raise their cause at the next instruction.  R375, R376: `tret` without a valid
entry restores `v0`, clears IN and goes on at TPC, with valid entries performs them in ascending order first, each on what the
one before it left; outside a handler, with other lanes or another stack depth it is the launch fault REPLAY_INVALID.  `rinj`
performs the entry that it names, and answers 0xB1 for one that is not there. -/
def Obligations.TrapInstructions : Prop :=
  (∀ (s : State) (n : Nat),
     (Ready (.trap n) s → exec (.trap n) s =
       .next (takeTrap (retire (.trap n) (stepPc (.trap n) s)) { cause := 0xE0 + n, laddr := fun _ => 0, pc := some s.cur.pc }
         ((s.cur.pc + 4) % 2 ^ 56))) ∧
     (Ready (.bkpt n) s → exec (.bkpt n) s =
       .next (takeTrap (retire (.bkpt n) (stepPc (.bkpt n) s))
         { cause := 0xB0, info := BitVec.ofNat 64 (n % 65536), pc := some s.cur.pc }
         ((s.cur.pc + 4) % 2 ^ 56)))) ∧
  ((∀ s : State, Ready .tret s → s.cur.inHandler = true → s.m0 = s.cur.trap.act → s.cur.depth = s.cur.trap.depth →
     s.cur.trap.splitOff = false → (∀ k < 16, (s.cur.rq.getD k RqEntry.zero).valid = false) →
     ∃ t, exec .tret s = .next t ∧ wroteV s t 0 (fun l => BitVec.ofNat 32 (s.num (laneLoc s.w l (s.w.priv + 8)) 4)) ∧
       sameScalars s t ∧ sameMasks s t ∧ sameMemory s t ∧ t = { s with w := t.w } ∧
       t.w.cur = { s.w.cur with
         pc := s.cur.trap.pc / 2 * 2, trap := { s.cur.trap with cause := s.cur.trap.cause &&& 0x7FFFFFFF }, windows := []
         flights := [], waited := 0, urgent := none, yielded := false, issuedAt := s.gts, stalled := false
         staging := none }) ∧
   (∀ (s : State) (ks : List Nat) (us vs : Nat → State), Ready .tret s → s.cur.inHandler = true → s.m0 = s.cur.trap.act →
     s.cur.depth = s.cur.trap.depth → s.cur.trap.splitOff = false → ks.Pairwise (fun a b => a < b) → (∀ k ∈ ks, k < 16) →
     (∀ k < 16, k ∈ ks ↔ (s.cur.rq.getD k RqEntry.zero).valid = true) → us 0 = opened .tret s →
     (∀ j k, ks[j]? = some k → performEntry (us j) (s.cur.rq.getD k RqEntry.zero) = .done (vs j) ∧
       (vs j).w.cur.rq = (us j).w.cur.rq ∧ us (j + 1) = clearEntry k (vs j)) →
     exec .tret s = .next (leftBy .tret s (leaveHandler (us ks.length)))) ∧
   (∀ (s : State) (k : Nat) (u : State), Ready .tret s → s.cur.inHandler = true → s.m0 = s.cur.trap.act →
     s.cur.depth = s.cur.trap.depth → s.cur.trap.splitOff = false → k < 16 →
     (∀ j < 16, j ≠ k → (s.cur.rq.getD j RqEntry.zero).valid = false) → (s.cur.rq.getD k RqEntry.zero).valid = true →
     performEntry (opened .tret s) (s.cur.rq.getD k RqEntry.zero) = .done u → u.w.cur.rq = s.w.cur.rq →
     exec .tret s = .next (leftBy .tret s (leaveHandler (clearEntry k u)))) ∧
   (∀ (s : State) (l : Launch), Ready .tret s → s.launch? s.w.lid = some l → s.w.live = true →
     (s.cur.inHandler = false ∨ s.m0 ≠ s.cur.trap.act ∨ s.cur.depth ≠ s.cur.trap.depth ∨ s.cur.trap.splitOff = true) →
     ∃ t, exec .tret s = .next t ∧ WaveGone s t ∧ ∃ l', t.launch? s.w.lid = some l' ∧ l'.cancelled = true ∧
       l'.fault = if l.cancelled then l.fault else some 0xB1) ∧
   (∀ (s : State) (r : Nat), (Instr.rinj r).wf = true → Ready (.rinj r) s →
     (16 ≤ (s.sreg r).toNat ∨ (s.cur.rq.getD (s.sreg r).toNat RqEntry.zero).valid = false) →
     ∃ t, exec (.rinj r) s = .next t ∧ wroteS s t r 0xB1 ∧ sameVectors s t ∧ sameMasks s t ∧ OnlyRegs (.rinj r) s t) ∧
   ∀ (s : State) (r : Nat) (u : State), Ready (.rinj r) s → (s.sreg r).toNat < 16 →
     (s.cur.rq.getD (s.sreg r).toNat RqEntry.zero).valid = true →
     performEntry (opened (.rinj r) s) (s.cur.rq.getD (s.sreg r).toNat RqEntry.zero) = .done u →
     exec (.rinj r) s = .next (finished (.rinj r) s ((clearEntry (s.sreg r).toNat u).setS r 0)))

/-- R16, R19, R379: `getc` reads the register that the tables name, `setc` writes one; the low half of a pair latches its high
half, which a later read of the high half returns. -/
def Obligations.ControlRegisters : Prop :=
  (∀ (s : State) (scalar : Bool) (d i : Nat), (Instr.getc scalar d i).wf = true → Ready (.getc scalar d i) s →
    let wrote (t : State) (f : Nat → Word) : Prop :=
      if scalar then wroteS s t d (f 0) ∧ sameVectors s t else wroteV s t d f ∧ sameScalars s t
    ∃ t, exec (.getc scalar d i) s = .next t ∧ sameMasks s t ∧ sameMemory s t ∧
      t = { s with w := t.w, lines := t.lines } ∧
      (∀ x, regPairs s i = some x → wrote t (fun _ => BitVec.ofNat 32 x) ∧
        t.w.cur.bank.latch = some (i, BitVec.ofNat 32 (x / 2 ^ 32))) ∧
      (∀ x, 0 < i → regPairs s (i - 1) = some x → regPairs s i = none → t.w.cur.bank.latch = s.w.cur.bank.latch ∧
        wrote t (fun _ => match s.w.cur.bank.latch with
          | some (k, y) => if k = i - 1 then y else BitVec.ofNat 32 (x / 2 ^ 32)
          | none => BitVec.ofNat 32 (x / 2 ^ 32))) ∧
      (∀ f : Nat → Word, (∀ l, regSingles s i l = some (f l)) ∨ (∀ l, regBanked s i = some (f l)) → wrote t f) ∧
      (i = 0x305 → ∀ p, ¬cached t (some s.w.core) p) ∧ (i ≠ 0x305 → t.lines = s.lines)) ∧
  ∀ (s : State) (scalar : Bool) (r i : Nat), (Instr.setc scalar r i).wf = true → Ready (.setc scalar r i) s →
    exec (.setc scalar r i) s = .next (finished (.setc scalar r i) s (setcTable i (setcValue s scalar r) s))

/-- R65, R418: `tlbinv` drops every translation that its operand covers from every TLB and walker, and completes once the stores
that had then been sent out through them are answered (log 52).  R380, R381: `wfe` completes at once with a cause pending and
else sleeps for 100 microseconds of GTS; at its end the slot goes on behind it.  `evsig` sets one bit of EVPEND in the named
wave of the launch, the issuer's own if that is the one named, and changes no other; a set bit in its operand's top bits is
SPACE_RANGE, with TADDR 0 (log 18); a wave takes its lowest pending cause as a trap, and taking it clears the bit. -/
def Obligations.SystemOperations : Prop :=
  (∀ (s : State) (e : TlbExtent) (r : Nat), Ready (.tlbinv e r) s →
     let x := (s.s64 r).toNat
     let out := storesThrough s e x (tlbRemoved s e x)
     (∀ p ∈ s.posted, ∀ l, s.launch? p.lid = some l → ∀ k < p.size,
       invCovers e x l.attr.asn ((p.addr.toNat + k) / 65536 * 65536) 65536 → p.id ∈ out) ∧
     (s.cur.tlbWait = none → ∃ u, Invalidated s u e x ∧
       (out = [] → exec (.tlbinv e r) s = .next (finished (.tlbinv e r) s u)) ∧
       (out ≠ [] → s.cancelled = false → exec (.tlbinv e r) s =
         .next (u.onCur fun c => { c with tlbWait := some out, stalled := true }))) ∧
     ∀ ids, s.cur.tlbWait = some ids →
       ((∀ p ∈ s.posted, p.id ∉ ids) →
         exec (.tlbinv e r) s = .next (finished (.tlbinv e r) s (s.onCur fun c => { c with tlbWait := none }))) ∧
       ((∃ p ∈ s.posted, p.id ∈ ids) → s.cancelled = false →
         exec (.tlbinv e r) s = .next (s.onCur fun c => { c with stalled := true }))) ∧
  ((∀ s : State, Ready .wfe s →
     (s.w.evpend ≠ 0 → exec .wfe s = .next (finished .wfe s (opened .wfe s))) ∧
     (s.w.evpend = 0 → exec .wfe s = .next ((opened .wfe s).onCur fun c => { c with
       wfe := some (s.gts + 100000), waited := 0, urgent := none, yielded := false, issuedAt := s.gts, stalled := false
       staging := none }))) ∧
   (∀ (s : State) (end_ : Nat), s.cur.wfe = some end_ →
     exec .wfeTimeout s = .next (if end_ ≤ s.gts then
       { s with w := { s.w with
           lclock := s.w.lclock + 1
           cur := { s.w.cur with
             wfe := none, pc := (s.cur.pc + 4) % 2 ^ 56, windows := [], waited := 0, urgent := none, stalled := false } } }
       else s)) ∧
   (∀ s : State, s.cur.wfe = none → exec .wfeTimeout s = .next s) ∧
   (∀ (s : State) (c r : Nat), Ready (.evsig c r) s → (s.s64 r).toNat < 2 ^ 45 → c < 32 →
     let told (a b : Wave) : Prop :=
       if a.lid = s.w.lid ∧ s.linOf a = (s.s64 r).toNat % 2 ^ 40 ∧ a.waveid = (s.s64 r).toNat / 2 ^ 40 then
         b.evpend = a.evpend ||| BitVec.ofNat 32 (2 ^ c) ∧ onlyWokenSlot a.cur b.cur ∧ onlyWokenSlot a.sib b.sib ∧
           b = { a with cur := b.cur, sib := b.sib, lclock := b.lclock, evpend := b.evpend, evfrom := b.evfrom }
       else b = a
     ∃ u, exec (.evsig c r) s = .next (finished (.evsig c r) s u) ∧ u = { s with w := u.w, others := u.others } ∧
       (s.w.live = true → told s.w u.w) ∧ pairwiseRel told s.others u.others) ∧
   (∀ (s : State) (c r : Nat), Ready (.evsig c r) s → 2 ^ 45 ≤ (s.s64 r).toNat →
     exec (.evsig c r) s = .next (raise (opened (.evsig c r) s) { cause := 0x26, laddr := fun _ => 0 })) ∧
   (∀ (s : State) (c : Nat), injectable s = true → c < 32 → s.w.evpend.getLsbD c = true →
     (∀ k < c, s.w.evpend.getLsbD k = false) →
     exec .takeInjectedCause s = .next (takeTrap
       (s.onWave fun w => { w with evpend := w.evpend &&& ~~~(BitVec.ofNat 32 (2 ^ c)), evfrom := assocDel w.evfrom c })
       { cause := 0xC0 + c, info := (assocGet s.w.evfrom c).getD 0 } s.cur.pc)) ∧
   ∀ s : State, injectable s = false → exec .takeInjectedCause s = .next s)

/-! ### Tasks, launches and futures (chapter 15) -/

/-- R347, R348, R359, R360: `fork` pushes the record that it reads on its core's deque, and raises DEQUE_FULL, with TADDR 0 (log
18), where that has no room; `join` counts its object down and acquires at `.dev`, pushes the continuation at 0, and raises
JOIN_UNDERFLOW on 0 with nothing changed; on a host page it acts on host memory (R272, log 8). -/
def Obligations.ForkAndJoin : Prop :=
  (∀ (s : State) (x : Nat) (ls : List Loc) (xs : List Xlat) (t : TaskRec), Ready (.fork x) s →
    Reaches s .load (s.s64 x).toInt 64 64 ls xs → taskOf s s.w.lid (wordsAt s ls) = some t →
    ((dequeOf s s.w.core).length < 4096 → (∀ l, s.launch? t.lid = some l → l.cancelled = false) →
      ∃ u, exec (.fork x) s = .next (finished (.fork x) s u) ∧ pushedOn s u s.w.core t ∧ sameMemory s u ∧
        u.launches = s.launches.map (fun l => if l.lid = t.lid then { l with tasks := l.tasks + 1 } else l) ∧
        u = { opened (.fork x) s with
          mem := u.mem, lines := u.lines, tlb := u.tlb, walks := u.walks, free := u.free, launches := u.launches
          deques := u.deques, serial := s.serial + 1 }) ∧
    (4096 ≤ (dequeOf s s.w.core).length →
      exec (.fork x) s = .next (raise (opened (.fork x) s) { cause := 0x88, laddr := fun _ => 0 }))) ∧
  (∀ (s : State) (x : Nat) (ls : List Loc) (xs : List Xlat), Ready (.fork x) s →
    Reaches s .load (s.s64 x).toInt 64 64 ls xs → taskOf s s.w.lid (wordsAt s ls) = none →
    exec (.fork x) s = .next (raise (opened (.fork x) s) { cause := 0x86, laddr := fun _ => BitVec.ofInt 64 (s.s64 x).toInt })) ∧
  ∀ (s : State) (x : Nat) (ls : List Loc) (xs : List Xlat), Ready (.join x) s →
    Reaches s (.atom true) (s.s64 x).toInt 16 16 ls xs →
    let count := leOf ((ls.take 8).map (orderedByte s ls))
    let cont := leOf ((ls.drop 8).map (orderedByte s ls))
    let s0 := atomPrepare (noteAccess (opened (.join x) s) (ls.filter fun l => l.area != .host) xs true) ls
    let s1 := writeCells s0 s.agent (ls.zip (leBytes 8 (count - 1)))
    let wrote (t : State) (n : Nat) : Prop :=
      ∀ l : Loc, l.area ≠ .l2 → t.byte l = lastAt (ls.zip (leBytes 8 n)) l (orderedByte s ls l)
    (count = 0 → exec (.join x) s =
      .next (raise (opened (.join x) s) { cause := 0x87, laddr := fun _ => BitVec.ofInt 64 (s.s64 x).toInt })) ∧
    (count ≠ 0 → (count ≠ 1 ∨ cont = 0) →
      ∃ t, exec (.join x) s = .next t ∧ wrote t (count - 1) ∧ (∀ p, ¬cached t (some s.w.core) p) ∧ sameVectors s t ∧ sameScalars s t ∧ sameMasks s t ∧
        OnlyWrites (.join x) s t) ∧
    ∀ (rs : List Loc) (ys : List Xlat) (t : TaskRec), count = 1 → cont ≠ 0 → cont % 64 = 0 →
      access s1 (.core s.w.core) s.aspace .load (signed 64 cont) 64 = .ok (rs, ys) → addrOk (signed 64 cont) 64 = true →
      taskOf s1 s.w.lid (wordsFor s1 s.attr.sys rs) = some t → (dequeOf s s.w.core).length < 4096 →
      (∀ l, s.launch? t.lid = some l → l.cancelled = false) →
      ∃ u, exec (.join x) s = .next (finished (.join x) s u) ∧ pushedOn s u s.w.core t ∧ wrote u 0

/-- R333, R336, R361: `spawn` of a record that passes the checks of R333, on a page of the part, counts its counters up and
makes the launch active; a record of another job, or one that is not well formed, is LAUNCH_MALFORMED; a record on a peer's page
is counted in JOBC, if it names one, and sent, with nothing else changed.  R349, R362: `mbox` posts its message to the handler
bound to the mailbox: one task record with the message as its argument and the post count as its key, on a deque of D0 with
room; with no room on any it waits for it (the model's choice, log 57); an unbound mailbox raises MBOX_UNBOUND, with TADDR 0
(log 18). -/
def Obligations.SpawnAndPost : Prop :=
  (∀ (s : State) (x : Nat) (l0 : Loc) (ls : List Loc) (xs : List Xlat), Ready (.spawn x) s →
     Reaches s .load (s.s64 x).toInt 256 256 (l0 :: ls) xs →
     let va := (s.s64 x).toInt.toNat
     let s1 := noteAccess (opened (.spawn x) s) (l0 :: ls) xs false
     let ws := wordsAt s1 (l0 :: ls)
     let l := launchOf ws
     (∀ t, l0.area ≠ .peer → launchWellFormed ws = true → l.jobid = s.attr.jobid →
       (∀ d ∈ l.deps.take l.ndep, depOk d = true) → (∀ y ∈ s.launches, y.attr.asn = l.asn → y.attr.root = l.root) →
       (l.mboxen = true → ∀ y ∈ s.launches, y.attr.mboxen = true → y.attr.mboxnum ≠ l.mboxnum) →
       (l.det = true → detFits s1 l = true) → (l.ndep = 0 ∨ sweeps s < 4) →
       bumpAll (.core s.w.core) ⟨l.asn, l.root, none⟩ ([l.compl, l.graphc, l.phasec, l.jobc].filter fun c => c != 0) s1 = .ok t →
       exec (.spawn x) s = .next (finished (.spawn x) s (activate t va l none (ownQueue s) none false)) ∧
         ∃ y, (activate t va l none (ownQueue s) none false).launches = t.launches ++ [y] ∧ y.attr = l ∧ y.ref = va ∧
           y.cancelled = false) ∧
     (l0.area ≠ .peer → (launchWellFormed ws = false ∨ l.jobid ≠ s.attr.jobid) →
       exec (.spawn x) s = .next (raise (opened (.spawn x) s) { cause := 0x80, laddr := fun _ => BitVec.ofNat 64 va })) ∧
     let sent : OutMsg := .enqueue (l0.addr / 2 ^ 52) va (l0.addr % 2 ^ 52) (ws.flatMap (leBytes 8))
     (l0.area = .peer → l.jobid = s.attr.jobid → l.jobc = 0 →
       exec (.spawn x) s = .next (finished (.spawn x) s { s1 with outbox := sent :: s.outbox })) ∧
     (∀ (cs : List Loc) (ys : List Xlat), l0.area = .peer → l.jobid = s.attr.jobid → l.jobc ≠ 0 → s.cur.wfe = none →
       access s1 (.core s.w.core) s.aspace (.atom true) l.jobc 8 = .ok (cs, ys) →
       let count := leOf (cs.map (orderedByte s1 cs))
       ∃ t, exec (.spawn x) s = .next t ∧ t.outbox = sent :: s.outbox ∧
         (∀ p : Loc, p.area ≠ .l2 → t.byte p = lastAt (cs.zip (leBytes 8 (count + 1))) p (orderedByte s1 cs p)) ∧
         sameVectors s t ∧ sameScalars s t ∧ sameMasks s t ∧
         OnlyWrites (.spawn x) s { t with outbox := s.outbox, free := s.free })) ∧
  (∀ (s : State) (b x : Nat), Ready (.mbox b x) s →
     (∀ l, boundTo s ((s.sreg x).toNat % 4096) = some l → s.launch? l.lid = some l → pendingPosts s l.lid < 65536 →
       let t : TaskRec :=
         { code := l.attr.code, frame := 0, joinc := 0, lid := l.lid, arg := BitVec.ofNat 64 (s.sreg b).toNat, key := l.posts,
           prio := l.attr.prio, isGroup := true, n := l.attr.waves, posted := true, made := s.serial }
       ∃ u, exec (.mbox b x) s = .next (finished (.mbox b x) s u) ∧
         (u.launch? l.lid).map (fun y => (y.posts, y.tasks)) = some (l.posts + 1, l.tasks + 1) ∧
         ((∃ c < 96, (dequeOf s c).length < 4096) → ∃ core, core < 96 ∧ pushedOn s u core t ∧
           u = { opened (.mbox b x) s with launches := u.launches, deques := u.deques, serial := s.serial + 1 }) ∧
         ((∀ c < 96, 4096 ≤ (dequeOf s c).length) →
           u = { opened (.mbox b x) s with
             launches := u.launches, postQueue := s.postQueue ++ [t], serial := s.serial + 1 })) ∧
     (boundTo s ((s.sreg x).toNat % 4096) = none →
       exec (.mbox b x) s = .next (raise (opened (.mbox b x) s) { cause := 0x84, laddr := fun _ => 0 })))

/-- R350, R351, R363, Table 15.4: `fget` takes the value of a full cell and leaves it consumed, goes to FUTHANDLER on an empty
one, and raises FUTURE_STATE on any other; `fput` fills an empty cell and raises FUTURE_STATE on any other. -/
def Obligations.Futures : Prop :=
  (∀ (s : State) (x d : Nat) (ls : List Loc) (xs : List Xlat), (Instr.fget x d).wf = true → Ready (.fget x d) s →
    Reaches s (.atom true) (s.s64 x).toInt 16 16 ls xs → (∀ l ∈ ls, l.area = .hbm) →
    let st := wordAtPlaces s (ls.drop 8) % 4
    (st = 1 → ∃ t b, exec (.fget x d) s = .next t ∧ wroteV64 s t d (fun _ => BitVec.ofNat 64 (wordAtPlaces s (ls.take 8))) ∧
      b.toNat = wordAtPlaces s (ls.drop 8) % 256 / 4 * 4 + 2 ∧ wroteMemory s t ((ls.drop 8).zip [b]) ∧
      (∀ p, ¬cached t (some s.w.core) p) ∧ sameScalars s t ∧ sameMasks s t ∧ OnlyWrites (.fget x d) s t) ∧
    (st = 0 → s.attr.futhandler ≠ 0 → s.w.budget < 128 →
      exec (.fget x d) s = .next (raise s { cause := 0x03, laddr := fun _ => 0 })) ∧
    (st = 0 → s.attr.futhandler ≠ 0 → 128 ≤ s.w.budget → hitsWindow s [] [.v 127] = true →
      exec (.fget x d) s = .next (raise s { cause := 0x04, laddr := fun _ => 0 })) ∧
    (st = 0 → s.attr.futhandler ≠ 0 → 128 ≤ s.w.budget → hitsWindow s [] [.v 127] = false →
      ∃ t, exec (.fget x d) s = .next t ∧ wroteV s t 127 (fun _ => BitVec.ofNat 32 s.cur.pc) ∧ sameMemory s t ∧
        t.w.cur = { s.w.cur with
          futaddr := s.s64 x, pc := pcOf s.attr.futhandler, windows := [], waited := 0, urgent := none, yielded := false
          issuedAt := s.gts, stalled := false, staging := none } ∧ t = { s with w := t.w }) ∧
    (st = 0 → s.attr.futhandler = 0 → exec (.fget x d) s =
      .next (raise (opened (.fget x d) s) { cause := 0x89, laddr := fun _ => s.s64 x })) ∧
    (2 ≤ st → exec (.fget x d) s = .next (raise (opened (.fget x d) s) { cause := 0x8A, laddr := fun _ => s.s64 x }))) ∧
  ∀ (s : State) (x d : Nat) (ls : List Loc) (xs : List Xlat), Ready (.fput x d) s →
    Reaches s (.atom true) (s.s64 x).toInt 16 16 ls xs → (∀ l ∈ ls, l.area = .hbm) →
    let st := wordAtPlaces s (ls.drop 8) % 4
    (st = 0 → ∀ lane < 32, s.m0.getLsbD lane = true → (∀ k < lane, s.m0.getLsbD k = false) →
      ∃ t b, exec (.fput x d) s = .next t ∧ b.toNat = wordAtPlaces s (ls.drop 8) % 256 / 4 * 4 + 1 ∧
        wroteMemory s t (ls.zip (leBytes 8 (s.v64 d lane).toNat ++ [b])) ∧ sameVectors s t ∧ sameScalars s t ∧ sameMasks s t ∧
        OnlyWrites (.fput x d) s t) ∧
    (st ≠ 0 → exec (.fput x d) s = .next (raise (opened (.fput x d) s) { cause := 0x8A, laddr := fun _ => s.s64 x }))

/-- R364, R365: `cancel` cancels exactly the launches that its level and operand name, discards the tapes of their waves (R249),
the issuer's among them, and of no other, ends the waves of their saved groups and leaves every other wave as it is, and changes
no register and no byte; `cwait` completes on a read of its target and otherwise reads again; a misaligned counter raises
ATOM_ALIGN. -/
def Obligations.CancelAndWait : Prop :=
  (∀ (s : State) (x : Nat) (v : CancelLevel), Ready (.cancel x v) s → s.launches.Pairwise (fun a b => a.lid ≠ b.lid) →
    let hit (lid : Nat) : Prop := s.s64 x ≠ 0 ∧ ∃ a ∈ s.launches, a.lid = lid ∧ cancelHits s v (s.s64 x).toNat a
    let become (a b : Wave) : Prop :=
      (hit a.lid → b = { a with tape := a.tape.discarded }) ∧ (¬hit a.lid → b = a)
    ∃ u, exec (.cancel x v) s = .next (finished (.cancel x v) s u) ∧ u.mem = s.mem ∧ u.lines = s.lines ∧
      (s.w.live = true → become s.w u.w) ∧ (s.w.live = false → u.w = s.w) ∧
      (∀ b ∈ u.others, ∃ a ∈ s.others, become a b) ∧
      (∀ a ∈ s.others, (∃ b ∈ u.others, become a b) ∨
        (hit a.lid ∧ ∃ g ∈ s.groups, g.gid = a.gid ∧ g.lid = a.lid ∧ g.onCore = false)) ∧
      pairwiseRel (fun (a b : Launch) => a.lid = b.lid ∧
        ((s.s64 x ≠ 0 ∧ cancelHits s v (s.s64 x).toNat a → b.cancelled = true ∧ b.chunks = [] ∧ b.waiting = []) ∧
          (¬(s.s64 x ≠ 0 ∧ cancelHits s v (s.s64 x).toNat a) → b = a))) s.launches u.launches) ∧
  (∀ (s : State) (b x : Nat), Ready (.cwait b x) s → addrOk (s.s64 x).toInt 8 = true → (s.s64 x).toInt.toNat % 8 ≠ 0 →
    exec (.cwait b x) s = .next (raise (opened (.cwait b x) s) { cause := 0x25, laddr := fun _ => s.s64 x })) ∧
  ∀ (s : State) (b x : Nat) (ls : List Loc) (xs : List Xlat), Ready (.cwait b x) s →
    Reaches s .load (s.s64 x).toInt 8 8 ls xs →
    (slotRead s 0 ls = (s.s64 b).toNat →
      ∃ t, exec (.cwait b x) s = .next t ∧ sameScalars s t ∧ sameMasks s t ∧ sameVectors s t ∧ OnlyReads (.cwait b x) s t ∧
        ∀ p, ¬cached t (some s.w.core) p) ∧
    (slotRead s 0 ls ≠ (s.s64 b).toNat → s.cancelled = false →
      exec (.cwait b x) s = .next ((noteAccess (opened (.cwait b x) s) ls xs false).onCur fun c => { c with stalled := true }))

/-! ### Copies and publishing (chapter 3) -/

/-- R72, R75, R76, R83 to R87: `bcbini` and `bcbexp` set and raise PEND, `cpyq` reads it held in 32 bits, `bcbwait` goes on at
PEND 0 with an acquire and raises the record of a failed copy; `cpy` starts a copy of the two records that it captures, after
the checks of R84 in their order, and keeps what it captured where the range scoreboard stalls it; `pub` asks for its point P
and completes when that has come, holding its slot until then (log 23).  The source record is checked before the destination's,
and TREC_SHAPE has TADDR 0 (log 18). -/
def Obligations.CopyInstructions : Prop :=
  (∀ (s : State) (la b r : Nat), Ready (.bcbini la b r) s → exec (.bcbini la b r) s =
    .next (finished (.bcbini la b r) s (updBcb s s.w.gid b fun c => { c with pend := (s.sreg r).toNat }))) ∧
  (∀ (s : State) (la b r : Nat), Ready (.bcbexp la b r) s →
    let p : Int := (bcbOf s s.w.gid b).pend + (s.sreg r).toNat
    (-(2 ^ 47) ≤ p → p < 2 ^ 47 → exec (.bcbexp la b r) s =
      .next (finished (.bcbexp la b r) s (updBcb s s.w.gid b fun c => { c with pend := p }))) ∧
    (2 ^ 47 ≤ p → exec (.bcbexp la b r) s = .next (raise s { cause := 0x53, laddr := fun _ => 0 }))) ∧
  (∀ (s : State) (la b d : Nat), (Instr.cpyq la b d).wf = true → Ready (.cpyq la b d) s →
    ∃ t, exec (.cpyq la b d) s = .next t ∧
      wroteS s t d (BitVec.ofInt 32 (heldIn (intRange 32 true) (bcbOf s s.w.gid b).pend)) ∧ sameVectors s t ∧ sameMasks s t ∧
      OnlyRegs (.cpyq la b d) s t) ∧
  (∀ (s : State) (la b : Nat), Ready (.bcbwait la b) s →
    (∀ f, (bcbOf s s.w.gid b).fault = some f → exec (.bcbwait la b) s =
      .next (raise { updBcb s s.w.gid b (fun c => { c with fault := none }) with
          failed := s.failed.filter fun x => !(x.gid == s.w.gid && x.b == b) }
        { cause := f.cause, laddr := fun _ => f.addr, info := BitVec.ofNat 64 f.pc })) ∧
    ((bcbOf s s.w.gid b).fault = none → (bcbOf s s.w.gid b).pend = 0 →
      exec (.bcbwait la b) s = .next (finished (.bcbwait la b) s (s.emptyL1 s.w.core))) ∧
    ((bcbOf s s.w.gid b).fault = none → (bcbOf s s.w.gid b).pend ≠ 0 →
      s.cancelled = false →
      (la = 0 → exec (.bcbwait la b) s = .next (s.onCur fun c => { c with stalled := true })) ∧
      (la ≠ 0 → ∃ t f, exec (.bcbwait la b) s = .next t ∧
        t.w.cur.pc = (s.cur.pc + 4) % 2 ^ 56 ∧ f.instr = .bcbwait la b ∧ f.waits = true ∧ f.left = la ∧
        t.w.cur.flights = (s.cur.flights.map fun g => { g with left := g.left - 1 }) ++ [f]))) ∧
  (∀ (s s1 : State) (la b d r : Nat) (ws vs : List Nat), Ready (.cpy la b d r) s → cpyReads s s1 d r ws vs →
    let trap (c : Nat) (a : DWord) : State := raise s { cause := c, laddr := fun _ => a }
    let src := TRec.ofWords ws
    let dst := TRec.ofWords vs
    let srcOk : Prop := (s.s64 r).toInt % 128 = 0 ∧ TRec.ok ws false = true
    let dstOk : Prop := (s.s64 d).toInt % 128 = 0 ∧ TRec.ok vs true = true
    let alike : Prop := src.esize = dst.esize ∧ src.tcount = dst.tcount ∧ src.elems = dst.elems
    (¬srcOk → exec (.cpy la b d r) s = .next (trap 0x50 (s.s64 r))) ∧
    (srcOk → ¬dstOk → exec (.cpy la b d r) s = .next (trap 0x50 (s.s64 d))) ∧
    (srcOk → dstOk → ¬alike → exec (.cpy la b d r) s = .next (trap 0x51 0)) ∧
    (srcOk → dstOk → alike → src.inRange s.attr = false → exec (.cpy la b d r) s = .next (trap 0x52 (s.s64 r))) ∧
    (srcOk → dstOk → alike → src.inRange s.attr = true → dst.inRange s.attr = false →
      exec (.cpy la b d r) s = .next (trap 0x52 (s.s64 d))) ∧
    ∀ c : Copy, srcOk → dstOk → alike → src.inRange s.attr = true → dst.inRange s.attr = true →
      c = { id := s.serial, gid := s.w.gid, lid := s.w.lid, wid := s.w.wid, src := src, dst := dst,
            dstAddr := (s.s64 d).toInt.toNat, b := b, pc := s.cur.pc, cursor := 0, core := s.w.core,
            k := coreIndex s s.w.gid s.w.core, stopping := s.cancelled, error := none, writer := writerOf s s.w.gid,
            back := [], sleep := [], missing := [], declined := [] } →
      onlyRead s s1 ∧
      (32 < (copyBoard s s.w.cluster).length + (copyEntries c).length → s.cancelled = false →
        exec (.cpy la b d r) s = .next (s1.onCur fun c => { c with staging := some (ws ++ vs), stalled := true })) ∧
      ((copyBoard s s.w.cluster).length + (copyEntries c).length ≤ 32 →
        exec (.cpy la b d r) s = .next (finished (.cpy la b d r) s
          { s1 with copies := s.copies ++ [c], serial := s.serial + 1 }))) ∧
  ∀ (s : State) (la r : Nat), Ready (.pub la r) s →
    let mine (p : PubReq) : Bool := p.wid == s.w.wid && p.sec == s.w.curSec && p.wset == (s.s64 r).toNat
    let left : State := { s with pubs := s.pubs.filter fun p => !mine p }
    (s.pubs.find? mine = none → s.cancelled = false → exec (.pub la r) s = .next (
      { s with
        pubs := s.pubs ++ [⟨s.serial, s.w.wid, s.w.curSec, s.attr.asn, (s.s64 r).toNat, s.w.lid, false, false⟩]
        serial := s.serial + 1
        w := { s.w with cur := { s.w.cur with stalled := true } } })) ∧
    ∀ p, s.pubs.find? mine = some p →
      (p.incomplete = true → exec (.pub la r) s = .next (raise left { cause := 0x56, laddr := fun _ => s.s64 r })) ∧
      (p.incomplete = false → p.published = true → exec (.pub la r) s = .next (finished (.pub la r) s left)) ∧
      (p.incomplete = false → p.published = false → s.cancelled = false →
        exec (.pub la r) s = .next (s.onCur fun c => { c with stalled := true }))

/-- R69, R75, R77 to R82, R86, R242: a delivery moves the run at a copy's cursor, element by element, and counts it in PEND; the
last one ends the copy.  A run that meets a cause stops the copy or waits for the page, and a bad granule kills its group (R98);
so does an error answer of the host or of a peer (R296); a stopped copy leaves its cause in its barrier, with the source of the
engine that carried it (R71).  A copy moves its runs one delivery at a time, in the order of its walk (log 22).  A publish makes
every page of the set name its shadow frame, keeps the frames replaced, and counts once; a held frame that nothing pins goes to
the release ring, which is full with one place left (log 23). -/
def Obligations.CopyEngine : Prop :=
  (∀ (s s1 : State) (id : Nat) (c : Copy) (ms : List Moved), s.copies.find? (fun x => x.id == id) = some c →
    copyMoves s c = true → copyRun s c = .ok (ms, s1) → (∀ x ∈ s1.launches, x.attr.mboxen = false) → c.back = [] →
    (∀ m ∈ ms, ∀ l ∈ m.src.getD [], s1.opaquePlace ((s.launch? c.lid).any fun l => l.attr.sys) l = false) →
    (s1.group? c.gid).isSome = true → c.b < 16 →
    let n := c.runEnd - c.cursor
    (bcbOf s1 c.gid c.b).pend - n ≥ -(2 ^ 47) →
    ∃ t, exec (.copyDelivery id) s = .next t ∧
      wroteMemory s1 t (ms.flatMap fun m => match m.dst with
        | none => []
        | some ds => ds.zip (match m.src with
          | none => ds.map fun _ => (0 : Byte)
          | some ls => ls.map fun l => s1.byte l)) ∧
      bcbOf t c.gid c.b = { bcbOf s1 c.gid c.b with pend := (bcbOf s1 c.gid c.b).pend - n } ∧
      t.copies = (if c.runEnd = c.src.total then s1.copies.filter fun x => x.id != id
        else s1.copies.map fun x => if x.id = id then { c with cursor := c.runEnd, declined := [] } else x) ∧
      onlyWoken s1.w t.w ∧ pairwiseRel onlyWoken s1.others t.others ∧ pairwiseRel onlyNoted s1.launches t.launches ∧
      onlyMarked s1 t ∧
      t = { s1 with
        w := t.w, others := t.others, mem := t.mem, lines := t.lines, bad := t.bad, launches := t.launches
        agenda := t.agenda, groups := t.groups, copies := t.copies, updates := t.updates, colls := t.colls
        tlb := t.tlb, walks := t.walks, oldTapes := t.oldTapes }) ∧
  (∀ (s s1 : State) (id cause va : Nat) (c : Copy) (ms : List Moved), s.copies.find? (fun x => x.id == id) = some c →
    copyMoves s c = true → copyRun s c = .ok (ms, s1) →
    (runOutside s c = none → exec (.copyFault id cause) s = .next s) ∧
    (runOutside s c = some va → (cause = 0x27 ∨ cause = 0x28 ∨ cause = 0x29) → exec (.copyFault id cause) s =
      .next (s.updCopy id fun x => { x with stopping := true, error := some (cause, BitVec.ofNat 64 va) }))) ∧
  (∀ (s : State) (id cause k va : Nat) (write : Bool) (c : Copy), s.copies.find? (fun x => x.id == id) = some c →
    copyMoves s c = true → copyRun s c = .error (k, va, write) →
    let pg := copyPage s c va write
    let stopped : State := s.updCopy id fun x => { x with stopping := true, error := some (k, BitVec.ofNat 64 va) }
    let served : Prop := k = 0x21 ∧ (s.faultDesc.getD (c.core / 96) none).isSome = true ∧
      ∀ q ∈ c.declined, q.asn ≠ pg.asn ∨ q.page ≠ pg.page
    (cause ≠ k → exec (.copyFault id cause) s = .next s) ∧
    (cause = k → served → exec (.copyFault id cause) s =
      .next (s.updCopy id fun x => { x with missing := addPages x.missing [pg] })) ∧
    (cause = k → ¬served → k ≠ causeScratchUe → exec (.copyFault id cause) s = .next stopped) ∧
    (cause = k → k = causeScratchUe →
      exec (.copyFault id cause) s = .next (killGroupBy stopped c.source c.gid k)) ∧
    (c.mmu = .engine (c.core / 96) → c.source = srcCopy c.core c.id) ∧
    ∀ cl, c.mmu = .twe cl → c.source = 0x200 + cl) ∧
  (∀ (s : State) (id : Nat) (c : Copy), s.copies.find? (fun x => x.id == id) = some c →
    let gone := s.copies.filter fun x => x.id != id
    (c.stopping = false → exec (.copyStop id) s = .next s) ∧
    (c.stopping = true → c.error = none → exec (.copyStop id) s = .next { s with copies := gone }) ∧
    ∀ k a, c.stopping = true → c.error = some (k, a) → (s.group? c.gid).isSome = true → c.b < 16 →
      ∃ t, exec (.copyStop id) s = .next t ∧ t = { s with copies := gone, groups := t.groups, failed := t.failed } ∧
        bcbOf t c.gid c.b = { bcbOf s c.gid c.b with
          fault := (bcbOf s c.gid c.b).fault.or (some ⟨k, c.pc, a, c.wid, c.source⟩) } ∧
        t.failed = s.failed ++ (if c.dst.shd then [⟨c.id, (copySpace s c).asn, c.dstAddr, c.gid, c.b⟩] else [])) ∧
  (∀ (s : State) (id : Nat) (p : PubReq), s.pubs.find? (fun p => p.id == id) = some p →
    let inSet (q : ShadowPage) : Bool := q.asn == p.asn && q.wset == p.wset
    let leaf (q : ShadowPage) : Nat := s.num ⟨.hbm, q.leaf⟩ 8
    ((p.published = true ∨ p.incomplete = true ∨ pubWaits s p = true) → exec (.publishPoint id) s = .next s) ∧
    (p.published = false → p.incomplete = false → pubWaits s p = false →
      (pubFails s p = true → exec (.publishPoint id) s =
        .next { s with pubs := s.pubs.map fun q => if q.id = id then { q with incomplete := true } else q }) ∧
      (pubFails s p = false →
        List.Pairwise (fun (a b : ShadowPage) => a.leaf + 8 ≤ b.leaf ∨ b.leaf + 8 ≤ a.leaf) (s.shadows.filter inSet) →
        (∀ q ∈ s.shadows.filter inSet, q.frame % 65536 = 0 ∧ q.frame < 2 ^ 52) →
        ∃ t, exec (.publishPoint id) s = .next t ∧ pseqOf t p.asn p.wset = (pseqOf s p.asn p.wset + 1) % 2 ^ 32 ∧
          t.shadows = s.shadows.filter (fun q => !inSet q) ∧
          t.pubs = s.pubs.map (fun q => if q.id = id then { q with published := true } else q) ∧
          ∀ q ∈ s.shadows.filter inSet,
            t.num ⟨.hbm, q.leaf⟩ 8 = leaf q - pteFrame (leaf q) * 65536 + q.frame ∧
            (∃ h ∈ t.held, h.asn = p.asn ∧ h.wset = p.wset ∧ h.page = q.page ∧ h.frame = pteFrame (leaf q) * 65536 ∧
              h.upto = pseqOf s p.asn p.wset ∧ h.unseen = false) ∧
            ∀ e ∈ t.tlb, e.asn = p.asn → ¬(e.base ≤ 65536 * q.page ∧ 65536 * q.page < e.base + e.size)))) ∧
  ∀ (s : State) (id : Nat) (h : HeldFrame), s.held.find? (fun h => h.id == id) = some h →
    let len := poolField s h.pool 0x20 4
    let head := poolField s h.pool 0x24 4
    let entry := poolField s h.pool 0x18 8 + 8 * (head % len)
    let full : Prop := (head + 1) % len = poolField s h.pool 0x28 4 % len
    ((pinned s h = true ∨ len = 0 ∨ full) → exec (.frameRelease id) s = .next s) ∧
    (pinned s h = false → len ≠ 0 → ¬full → (entry + 8 ≤ h.pool + 0x24 ∨ h.pool + 0x28 ≤ entry) → h.frame < 2 ^ 64 →
      ∃ t, exec (.frameRelease id) s = .next t ∧ t.held = s.held.filter (fun x => x.id != id) ∧
        t.num ⟨.hbm, entry⟩ 8 = h.frame ∧ t.num ⟨.hbm, h.pool + 0x24⟩ 4 = (head + 1) % len ∧
        t = { s with
          w := t.w, others := t.others, mem := t.mem, bad := t.bad, agenda := t.agenda, held := t.held
          updates := t.updates, colls := t.colls, oldTapes := t.oldTapes })

/-! ### Tiles and the matrix engine (chapters 7 and 8) -/

/-- R171: an instruction on a handle that names no tile raises HANDLE_INVALID.  R188: `acqa` on a free handle makes a zeroed
tile where its bands fit, joins the tile of its group that has its tag and shape, whose holders are a set of waves, and waits
where there is no room; `rela` gives its handle up once its turn among the tile's entries has come, and its wave stays a holder
while another of its handles names the tile (log 44).  R191: `mwait` goes on when nothing of its tile is pending. -/
def Obligations.TileHandles : Prop :=
  (∀ (s : State) (i : Instr) (h : Nat), Ready i s → tileOf s h = none →
    ((∃ la, i = .rela la h ∨ i = .mwait la h ∨ i = .azero la h ∨ i = .anorm la h ∨ ∃ r, i = .aload la h r ∨ i = .astore la h r
      ∨ i = .ahead la h r) ∨ ∃ la kp sf src v, i = .mma la kp sf src h v) →
    exec i s = .next (raise s { cause := 0x64, laddr := fun _ => 0 })) ∧
  (∀ (s : State) (la h r : Nat), Ready (.acqa la h r) s →
    let x := (s.sreg r).toNat
    let tag := x / 2 ^ 24
    let af := x / 256 % 4
    let n := 128 * (x / 16 % 4 + 1)
    let m := 32 * (x % 8 + 1)
    let shared : Bool := x / 2 ^ 23 % 2 == 1
    let shaped : Prop := x / 1024 % 2 ^ 13 = 0 ∧ x / 64 % 4 = 0 ∧ x / 8 % 2 = 0 ∧ af ≠ 3
    let there := s.tiles.find? fun t => shared && t.gid == s.w.gid && t.tag == some tag
    (s.w.handle h ≠ none → exec (.acqa la h r) s = .next (raise s { cause := 0x64, laddr := fun _ => 0 })) ∧
    (s.w.handle h = none → ¬shaped → exec (.acqa la h r) s = .next (raise s { cause := 0x65, laddr := fun _ => 0 })) ∧
    (s.w.handle h = none → shaped → there = none →
      (bandsFit s s.w.cluster m n af = true → exec (.acqa la h r) s = .next (finished (.acqa la h r) s
        { s with
          tiles := s.tiles ++ [
            { id := s.serial, lid := s.w.lid, gid := s.w.gid, cluster := s.w.cluster,
              tag := if shared then some tag else none, m := m, n := n, af := af,
              rows := List.replicate m (emptyRow n af), events := 0, fault := none, holders := [s.w.wid], onCluster := true }]
          serial := s.serial + 1
          w := { s.w with handles := s.w.handles.setIfInBounds h (some s.serial) } })) ∧
      (bandsFit s s.w.cluster m n af = false → s.cancelled = false → exec (.acqa la h r) s = .next (stall s))) ∧
    ∀ t, s.w.handle h = none → shaped → there = some t →
      (t.m = m → t.n = n → t.af = af → exec (.acqa la h r) s = .next (finished (.acqa la h r) s
        { s with
          tiles := s.tiles.map fun y => if y.id = t.id then
            { y with holders := if s.w.wid ∈ y.holders then y.holders else y.holders ++ [s.w.wid] } else y
          w := { s.w with handles := s.w.handles.setIfInBounds h (some t.id) } })) ∧
      ((t.m ≠ m ∨ t.n ≠ n ∨ t.af ≠ af) → exec (.acqa la h r) s = .next (raise s { cause := 0x65, laddr := fun _ => 0 }))) ∧
  (∀ (s : State) (la h : Nat) (t : Tile), Ready (.rela la h) s → tileOf s h = some t →
    let mine := myEntry s fun w => w == .rela
    let again : Prop := ∃ k < 8, k ≠ h ∧ s.w.handle k = some t.id
    (mine = none → s.cancelled = false → exec (.rela la h) s = .next (stall (post s t .rela))) ∧
    ∀ e, mine = some e →
      (eligible s e = false → s.cancelled = false → exec (.rela la h) s = .next (stall s)) ∧
      (eligible s e = true → t.fault = none →
        (¬again → exec (.rela la h) s = .next (finished (.rela la h) s
          (setHandle (releaseTile (dropEntry s e.id) t.id s.w.wid).1 h none))) ∧
        (again → exec (.rela la h) s = .next (finished (.rela la h) s (setHandle (dropEntry s e.id) h none)))) ∧
      ∀ f, eligible s e = true → t.fault = some f → exec (.rela la h) s =
        .next (raise ((dropEntry s e.id).updTile t.id fun t => { t with fault := none })
          { cause := f.cause, laddr := fun _ => f.addr, info := BitVec.ofNat 64 f.pc })) ∧
  ∀ (s : State) (la h : Nat) (t : Tile), Ready (.mwait la h) s → tileOf s h = some t →
    (∀ e ∈ s.entries, e.wid = s.w.wid → e.sec = s.w.curSec → e.tile = t.id → e.work ≠ .wait) →
    let pending := s.entries.any fun e => e.tile == t.id && !e.done && e.work != .wait && groupHere s e.gid
    (pending = false → t.fault = none → exec (.mwait la h) s = .next (finished (.mwait la h) s s)) ∧
    (∀ f, pending = false → t.fault = some f → exec (.mwait la h) s =
      .next (raise (s.updTile t.id fun t => { t with fault := none })
        { cause := f.cause, laddr := fun _ => f.addr, info := BitVec.ofNat 64 f.pc })) ∧
    (pending = true → s.cancelled = false → la = 0 → exec (.mwait la h) s = .next (stall (post s t .wait))) ∧
    (pending = true → s.cancelled = false → la ≠ 0 → ∃ u f, exec (.mwait la h) s = .next u ∧
      u.entries = (post s t .wait).entries ∧ u.w.cur.pc = (s.cur.pc + 4) % 2 ^ 56 ∧ f.instr = .mwait la h ∧
      f.waits = true ∧ u.w.cur.flights = (s.cur.flights.map fun g => { g with left := g.left - 1 }) ++ [f])

/-- R177, R178, R182, R185, R186, R190, R201 to R205: `azero`, `anorm`, `aload` and `mma` that pass their checks post their
entry, with the rows of the active lanes and their captured operands, and go on; `ahead` posts its entry and waits, `astore`
posts its own and waits or, with lookahead, lets the instructions of its window issue; they go on when it has been done (log
24).  An exponent code of 255 counts only in a row that `aload` reads (log 62). -/
def Obligations.TilePosts : Prop :=
  (∀ (s : State) (la h : Nat) (t : Tile), Ready (.azero la h) s → tileOf s h = some t →
    exec (.azero la h) s = .next (finished (.azero la h) s (post s t (.azero (activeRows s t.m))))) ∧
  (∀ (s : State) (la h : Nat) (t : Tile), Ready (.anorm la h) s → tileOf s h = some t →
    exec (.anorm la h) s = .next (finished (.anorm la h) s (post s t (.anorm (activeRows s t.m))))) ∧
  (∀ (s s1 : State) (la h r : Nat) (t : Tile) (c : FmtBlock) (ws : List Nat), Ready (.aload la h r) s →
    tileOf s h = some t → (s.s64 r).toInt % 32 = 0 → reads s s1 (s.s64 r).toInt 32 1 ws →
    let ctl := ws.getD 2 0
    let base := signed 64 (ws.getD 0 0)
    let per := t.n / c.blen
    let rows := activeRows s t.m
    let regs := scaleRegs c (t.m * per)
    fmtBlock (ws.getD 1 0) true = some c → ctl < 8 → ws.getD 3 0 = 0 → (c.fmt < 25 ∨ c.fmt = t.af + 25) → t.n % c.blen = 0 →
    namedRegs s1 regs regs false = none →
    badCode s1 c (rows.flatMap fun m => (List.range per).map fun i => m * per + i) = false →
    hullOk s1 (ctl % 4) (base, base + ((t.m - 1) * c.stride + outRowBytes c.fmt t.n : Nat) - 1) = true →
    exec (.aload la h r) s = .next (finished (.aload la h r) s (addWindow
      (post s1 t (.aload c base (ctl % 4) (ctl / 4 == 1) rows (scaleCodes s1 c (t.m * per)))) la (regs.map RegId.v) []))) ∧
  (∀ (s : State) (la h d : Nat) (t : Tile), Ready (.ahead la h d) s → tileOf s h = some t →
    let regs := (List.range (t.m / 32 + 1)).map fun i => d + i
    (myEntry s isAhead = none → namedRegs s regs [] true = none → s.cancelled = false →
      exec (.ahead la h d) s = .next (stall (post s t (.ahead d s.m0)))) ∧
    (myEntry s isAhead = none → (∃ r ∈ regs, s.w.budget ≤ r) →
      exec (.ahead la h d) s = .next (raise s { cause := 0x03, laddr := fun _ => 0 })) ∧
    ∀ e, myEntry s isAhead = some e →
      (e.done = false → s.cancelled = false → exec (.ahead la h d) s = .next (stall s)) ∧
      (e.done = true → exec (.ahead la h d) s = .next (finished (.ahead la h d) s
        (addWindow (dropEntry s e.id) la [] (regs.map RegId.v))))) ∧
  (∀ (s : State) (la h r : Nat) (t : Tile), Ready (.astore la h r) s → tileOf s h = some t →
    (∀ (s1 : State) (d : DBlock) (ws : List Nat), myEntry s isAstore = none → s.cancelled = false →
      (s.s64 r).toInt % 32 = 0 → reads s s1 (s.s64 r).toInt 32 1 ws →
      let ctl := ws.getD 1 0
      let space := ctl / 2 ^ 32 % 4
      let base := signed 64 (ws.getD 0 0)
      let ebase := signed 64 (ws.getD 2 0)
      ctl < 2 ^ 34 → ws.getD 3 0 = 0 → dBlock (s.s64 (r + 2)).toNat = some d → d.accf - 25 = t.af →
      (d.ofmt < 25 ∨ d.ofmt - 25 = t.af) →
      (∀ x ∈ outHulls d t.n base (ctl % 2 ^ 32) ebase (activeRows s t.m), hullOk s1 space x = true) →
      let work : EntryWork := .astore d base space (ctl % 2 ^ 32) ebase (activeRows s t.m)
      (la = 0 → exec (.astore la h r) s = .next (stall (post s1 t work))) ∧
      (la ≠ 0 → ∃ u f, exec (.astore la h r) s = .next u ∧ u.entries = (post s1 t work).entries ∧
        u.w.cur.pc = (s.cur.pc + 4) % 2 ^ 56 ∧ f.instr = .astore la h r ∧ f.pc = s.cur.pc ∧ f.left = la ∧ f.waits = false ∧
        u.w.cur.flights = (s.cur.flights.map fun g => { g with left := g.left - 1 }) ++ [f])) ∧
    ∀ e, myEntry s isAstore = some e →
      (∀ f, t.fault = some f → eligible s e = true → e.granted = false → exec (.astore la h r) s =
        .next (raise ((dropEntry s e.id).updTile t.id fun t => { t with fault := none })
          { cause := f.cause, laddr := fun _ => f.addr, info := BitVec.ofNat 64 f.pc })) ∧
      (t.fault = none → e.done = false → s.cancelled = false → la = 0 → exec (.astore la h r) s = .next (stall s)) ∧
      (t.fault = none → e.done = true → exec (.astore la h r) s = .next (finished (.astore la h r) s (dropEntry s e.id)))) ∧
  ∀ (s : State) (la kp sf h v : Nat) (src : Bool) (t : Tile) (a b : FmtBlock) (d : DBlock), Ready (.mma la kp sf src h v) s →
    tileOf s h = some t → fmtBlock (s.s64 sf).toNat false = some a → fmtBlock (s.s64 (sf + 2)).toNat false = some b →
    dBlock (s.s64 (sf + 4)).toNat = some d →
    let i : Instr := .mma la kp sf src h v
    let k := 32 * (kp + 1)
    let rows := (activeRows s t.m).map fun m => (m, (s.v (v + m / 32) (m % 32)).toNat)
    let ja := t.m * (k / a.blen)
    let jb := t.n * (k / b.blen)
    let regs := ((List.range (t.m / 32)).map fun i => v + i) ++ scaleRegs a ja ++ scaleRegs b jb
    let baseA := (s.sreg (sf + 6)).toNat
    let work (baseB : Nat) (tr : Option TRec) : EntryWork :=
      .mma a b d k baseA baseB tr rows (scaleCodes s a ja) (scaleCodes s b jb)
    ((d.accf - 25 ≠ t.af ∨ k % a.blen ≠ 0 ∨ k % b.blen ≠ 0) →
      exec i s = .next (raise s { cause := 0x66, laddr := fun _ => 0 })) ∧
    (d.accf - 25 = t.af → k % a.blen = 0 → k % b.blen = 0 →
      namedRegs s regs (scaleRegs a ja ++ scaleRegs b jb) false = none →
      badCode s a (rows.flatMap fun r => (List.range (k / a.blen)).map fun i => r.1 * (k / a.blen) + i) = false →
      badCode s b (List.range jb) = false → (∀ x, hullA a baseA k rows = some x → hullOk s a.space x = true) →
      (src = false → hullOk s b.space (hullB b (s.sreg (sf + 7)).toNat k t.n) = true →
        exec i s = .next (finished i s (addWindow (post s t (work (s.sreg (sf + 7)).toNat none)) la (regs.map RegId.v) []))) ∧
      ∀ (ls : List Loc) (xs : List Xlat), src = true → (s.s64 (sf + 8)).toInt % 128 = 0 →
        Reaches s .load (s.s64 (sf + 8)).toInt 128 1 ls xs → TRec.ok (wordsAt s ls) false = true →
        let trec := TRec.ofWords (wordsAt s ls)
        trec.total = t.n * b.rowBytes k → trec.inRange s.attr = true →
        exec i s = .next (finished i s (addWindow (post (noteAccess s ls xs false) t (work 0 (some trec))) la
          (regs.map RegId.v) [])))

/-- R183, R187, R201 to R206, R352: the arbiter's choice is granted, with its effect on the tile, on the wave's registers or on
memory, and nothing else is; a readout that has been granted writes a row at a time, and is done after its last (R205); an `mma`
whose record's first tile is not present has its page asked for first; one step of a granted `mma` replaces the rows that it
covers and counts its renormalisation event, one for a step (log 10), which sets MXSTAT and with EVTRAP flags the tile; the last
step ends the entry, and a cause flags the tile, a bad granule of a scratchpad killing the group too; an entry that has waited
rises a level, and so does the effective priority of a slot that could issue, whatever the time is (log 25). -/
def Obligations.TileEngine : Prop :=
  (∀ (s : State) (id : Nat) (e : Entry) (t : Tile), s.entries.find? (fun e => e.id == id) = some e →
    s.tiles.find? (fun t => t.id == e.tile) = some t →
    let g := exec (.tileEntryGrant id) s
    let none_ := emptyRow t.n t.af
    let row (m : Nat) : Row := t.rows.getD m none_
    let gone := s.entries.filter fun x => x.id != id
    let marked := s.entries.map fun x => if x.id = id then { x with granted := true, done := true } else x
    let became (u : State) (t' : Tile) : Prop :=
      u.tiles.find? (fun x => x.id == t.id) = some t' ∧ ∀ x ∈ u.tiles, x.id ≠ t.id → x ∈ s.tiles
    (goesOn s e = false → arbiterPick s (e.core / 4) ≠ some id →
      ((wantsTile s e = false ∨ firstTileWaits s e = none) → g = .next s) ∧
      ∀ va, wantsTile s e = true → firstTileWaits s e = some va → g = .next (s.updEntry id fun x =>
        { x with missing := addPages x.missing [entryPage s e .engineRead va] })) ∧
    (arbiterPick s (e.core / 4) = some id → e.granted = false → t.holders ≠ [] → e.nfz = false → e.step = 0 →
      (∀ a b d k ba bb r rows ca cb, e.work = .mma a b d k ba bb r rows ca cb →
        let set := s.updEntry id fun x => { x with granted := true }
        ∃ u, g = .next u ∧ u = { set with tlb := u.tlb, walks := u.walks } ∧
          ((∀ x, r = some x → x.space ≠ 0) → u = set)) ∧
      (∀ rows, e.work = .azero rows → ∃ u t', g = .next u ∧ u = { s with tiles := u.tiles, entries := gone } ∧ became u t' ∧
        t' = { t with rows := t'.rows, events := 0 } ∧ ∀ m, t'.rows.getD m none_ = if m ∈ rows then none_ else row m) ∧
      (∀ rows, e.work = .anorm rows → ∃ u t', g = .next u ∧ u = { s with tiles := u.tiles, entries := gone } ∧ became u t' ∧
        t' = { t with rows := t'.rows } ∧
        ∀ m, t'.rows.getD m none_ = if m ∈ rows then normRow t.n t.af (row m) else row m) ∧
      (∀ d mask w, e.work = .ahead d mask → s.wave? e.wid = some w → ∃ u w', g = .next u ∧
        u = { s with w := u.w, others := u.others, entries := marked } ∧ u.wave? e.wid = some w' ∧
        w' = { w with vregs := w'.vregs, badRegs := w'.badRegs } ∧ (∀ p ∈ w'.badRegs, p ∈ w.badRegs) ∧
        (∀ k < t.m / 32, ∀ l < 32, w'.vreg (d + k) l = if mask.getLsbD l then rowWord (row (32 * k + l)) else w.vreg (d + k) l) ∧
        (∀ l < 32, w'.vreg (d + t.m / 32) l = if mask.getLsbD l then tileWord t else w.vreg (d + t.m / 32) l) ∧
        ∀ r l, (r < d ∨ d + t.m / 32 < r) → w'.vreg r l = w.vreg r l) ∧
      (∀ c base space nfz rows codes (new : Nat → Row × Bool), e.work = .aload c base space nfz rows codes →
        (∀ m ∈ rows, aloadRow s e t c base space nfz codes m = .ok (new m)) → ∃ u t', g = .next u ∧
        u = { s with
          w := u.w, others := u.others, tiles := u.tiles, entries := gone, mem := u.mem, lines := u.lines, tlb := u.tlb
          walks := u.walks } ∧ sameMemory s u ∧ (space ≠ 0 → u.mem = s.mem ∧ u.lines = s.lines ∧ u.tlb = s.tlb) ∧ became u t' ∧
        t' = { t with rows := t'.rows, events := 0 } ∧
        ∀ m < t.rows.length, t'.rows.getD m none_ = if m ∈ rows then (new m).1 else row m) ∧
      (∀ d base space stride ebase rows, e.work = .astore d base space stride ebase rows → t.fault = none →
        g = .next (s.updEntry id fun x => { x with granted := true }))) ∧
    ∀ d base space stride ebase rows m (ls xs : List Loc), goesOn s e = true → t.holders ≠ [] → e.nfz = false →
      e.work = .astore d base space stride ebase rows → rows[e.step]? = some m →
      let out := outRow d t.af (row m)
      outPlaces s e space (base + (m * stride : Nat)) out.1.length = .ok ls →
      outPlaces s e space (ebase + (m * out.2.length : Nat)) out.2.length = .ok xs →
      ∃ u, g = .next u ∧ u.tiles = s.tiles ∧ wroteMemory s u (ls.zip out.1 ++ xs.zip out.2) ∧
        u.entries = s.entries.map (fun x => if x.id = id then
          { e with step := e.step + 1, declined := [], done := decide (e.step + 1 = rows.length) } else x)) ∧
  (∀ (s : State) (id : Nat) (e : Entry) (t : Tile) (a b : FmtBlock) (d : DBlock) (k ba bb : Nat) (r : Option TRec)
      (rows : List (Nat × Nat)) (ca cb : List Nat), s.entries.find? (fun e => e.id == id) = some e →
    s.tiles.find? (fun t => t.id == e.tile) = some t → e.work = .mma a b d k ba bb r rows ca cb →
    let g := exec (.mmaStep id) s
    let total := stepCount t (planOf a.blen b.blen k)
    let ready : Prop := e.granted = true ∧ e.awake = true ∧ groupHere s e.gid = true
    (¬ready → g = .next s) ∧
    (∀ x, ready → e.step < total → t.holders ≠ [] → mmaStepOf s e t a b d k ba bb r rows ca cb = .ok x →
      let last : Prop := e.step + 1 = total
      let renorm : FaultRec := ⟨causeRenorm, e.pc, 0, e.wid, 0x200 + e.core / 4⟩
      ∃ u, g = .next u ∧
        u = { s with
          w := u.w, others := u.others, tiles := u.tiles, entries := u.entries, mem := u.mem, lines := u.lines, tlb := u.tlb
          walks := u.walks } ∧ sameMemory s u ∧ (r = none → u.mem = s.mem ∧ u.lines = s.lines ∧ u.tlb = s.tlb) ∧
        u.tiles = s.tiles.map (fun y => if y.id = t.id then
          { y with
            rows := setRows y.rows x.rows, events := if x.event then min (y.events + 1) 0xFFFF else y.events
            fault := if x.event && d.evtrap then y.fault.or (some renorm) else y.fault } else y) ∧
        (¬last → u.entries = s.entries.map (fun y => if y.id = id then
          { e with step := e.step + 1, nfz := e.nfz || x.nfz, declined := [] } else y)) ∧
        (last → u.entries = s.entries.filter fun y => y.id != id) ∧
        ∀ w, s.wave? e.wid = some w → ∃ w', u.wave? e.wid = some w' ∧ w' = { w with mxstat :=
          w.mxstat ||| (if x.event then 2 else 0) ||| (if last ∧ (e.nfz || x.nfz) = true then 1 else 0) }) ∧
    ∀ c va z, ready → e.step < total → c ≠ 0x21 → mmaStepOf s e t a b d k ba bb r rows ca cb = .error ((c, va), z) →
      t.holders ≠ [] → e.nfz = false →
      let src := 0x200 + e.core / 4
      let flagged : State :=
        { s with
          tiles := s.tiles.map fun y => if y.id = t.id then
            { y with fault := y.fault.or (some ⟨c, e.pc, BitVec.ofNat 64 va, e.wid, src⟩) } else y
          entries := s.entries.filter fun y => y.id != id }
      let u := if z then flagged.updWave e.wid fun w => { w with mxstat := w.mxstat ||| 1 } else flagged
      g = .next (if c = 0xA1 then killGroupBy u src e.gid c else u)) ∧
  (∀ (s : State) (id : Nat) (e : Entry), s.entries.find? (fun e => e.id == id) = some e →
    exec (.arbiterAging id) s = .next (if wantsGrant s e = true ∧ levelOf s e < 3 then
      s.updEntry id fun x => { x with rise := x.rise + 1 } else s)) ∧
  ∀ (s : State) (wid : Nat) (sec : Bool) (w : Wave), s.wave? wid = some w →
    (canIssue w sec = true → ∃ t w', exec (.effprioRise wid sec) s = .next t ∧ t.wave? wid = some w' ∧
      (w'.slot sec).waited = (w.slot sec).waited / 4096 * 4096 + 4096 ∧
      effPrio w' (w'.slot sec) = min 3 (effPrio w (w.slot sec) + 1)) ∧
    ((∀ x ∈ s.waves, x.wid = wid → canIssue x sec = false) → exec (.effprioRise wid sec) s = .next s)

/-- R195, R197, R202: a step keeps the bound that the headroom gives on every mantissa of the row, whatever sub-block sums of at
most 2^b it adds, and so does `anorm`, which changes no value of the row. -/
def Obligations.RowHeadroom : Prop :=
  (∀ (w b g n0 : Nat) (row row' : Row) (as : List SubBlock) (cols : List (List SubBlock)) (ev : Bool), RowOk w row → g + 2 ≤ w →
    as.length + 1 ≤ 2 ^ g → (∀ c ∈ cols, ∀ p ∈ as.zip c, (dot p.1.ms p.2.ms).natAbs ≤ 2 ^ b) →
    stepRow w b g n0 row as cols = some (row', ev) → RowOk w row') ∧
  ∀ (n af : Nat) (row : Row), RowOk (accW af) row →
    RowOk (accW af) (normRow n af row) ∧
      (row.empty = false → (∃ m ∈ row.mant, m ≠ 0) → ∃ k : Nat, (normRow n af row).mant = row.mant.map (· * 2 ^ k) ∧
        (normRow n af row).x = row.x - k)

/-! ### Rendering (chapter 9) -/

/-- R217, R219: the covered pixels of a primitive are those whose centre it covers in its box and the viewport, each once; two
primitives that share an edge with opposite directions cover a centre on it exactly once between them. -/
def Obligations.Coverage : Prop :=
  (∀ (d : RasterDesc) (t : Tri) (x y : Nat),
    ((x, y) ∈ coveredPixels d t ↔ drawn d t.area = true ∧ x < d.width ∧ y < d.height ∧
      min t.v0.x (min t.v1.x t.v2.x) / 256 ≤ x ∧ (x : Int) ≤ max t.v0.x (max t.v1.x t.v2.x) / 256 ∧
      min t.v0.y (min t.v1.y t.v2.y) / 256 ≤ y ∧ (y : Int) ≤ max t.v0.y (max t.v1.y t.v2.y) / 256 ∧
      t.covers (centre x y) = true)) ∧
  (∀ (d : RasterDesc) (t : Tri), (coveredPixels d t).Nodup) ∧
  ∀ (t u : Tri) (i j : Nat) (p : Pt), i < 3 → j < 3 → 0 < t.area * u.area → u.edge j = ((t.edge i).2, (t.edge i).1) →
    t.e i p = 0 → (∀ k < 3, k ≠ i → 0 < t.area * t.e k p) → (∀ k < 3, k ≠ j → 0 < u.area * u.e k p) →
    (t.covers p = true ↔ u.covers p = false)

/-- R210 to R214, R221 to R233: `radj` and `esamp` write their results in the active lanes; `rast`, `tex`, `texadj`, `trace` and
`tradj` read their descriptor, raise RDESC_MALFORMED for a malformed one, and with every read passed write the results of each
lane, set their bit of RSTAT, and have their side effects (the fragment waves of `rast`, the contributions of `texadj`);
nothing else changes.  How a lane's rounded results treat what the rules leave open is logs 1, 28 and 68. -/
def Obligations.RenderInstructions : Prop :=
  (∀ (s : State) (la a d : Nat), Ready (.radj la a d) s → ∃ t, exec (.radj la a d) s = .next t ∧
    wroteBlock s t d 6 (fun k l => BitVec.ofNat 32 ((radjLane (s.tri a l)
      (centre ((s.v (a + 6) l).toNat % 65536) ((s.v (a + 6) l).toNat / 65536)) fun i => (s.v (a + 7 + i) l).toNat).getD k 0)) ∧
    sameScalars s t ∧ sameMasks s t ∧ OnlyRegs (.radj la a d) s t) ∧
  (∀ (s : State) (la r a d : Nat), Ready (.esamp la r a d) s → ∃ t, exec (.esamp la r a d) s = .next t ∧
    wroteBlock s t d 5 (fun k l => BitVec.ofNat 32 ((esampLane (s.s64 r) (s.point a l) (s.point (a + 2) l) (s.v (a + 4) l)
      (s.v (a + 5) l).toNat).getD k 0)) ∧
    sameScalars s t ∧ sameMasks s t ∧ OnlyRegs (.esamp la r a d) s t) ∧
  ∀ (s s1 : State) (la r a d : Nat) (ws : List Nat), reads s s1 (s.s64 r).toInt 32 32 ws →
    let malformed : State := raise s { cause := 0x70, laddr := fun _ => s.s64 r }
    let framed (i : Instr) (e t : State) : Prop :=
      sameScalars s t ∧ sameMasks s t ∧ sameMemory s t ∧
        t = { e with w := t.w, mem := t.mem, lines := t.lines, tlb := t.tlb, walks := t.walks, free := t.free } ∧
        t.w = { e.w with
          cur := t.w.cur, vregs := t.w.vregs, badRegs := t.w.badRegs, rstat := t.w.rstat, lclock := s.w.lclock + 1 } ∧
        fewerBadRegs s t ∧ SlotPast i s t
    let frame (i : Instr) (t : State) : Prop := framed i s t
    let odd (a : Nat) : Word :=
      if (lanesOf s.m0).any fun l => (List.range 3).any fun k => nonFinite (s.v (a + k) l).toNat then 2 else 0
    (Ready (.rast la r a d) s →
      let i : Instr := .rast la r a d
      let desc := RasterDesc.ofWords ws
      let pixels (l : Nat) : List (Nat × Nat) := coveredPixels desc (s.tri a l)
      let lanes := checkedLanes s
      let frags := (lanes.filter fun l => decide ((pixels l).length ≤ 2 ^ 21)).flatMap fun l =>
        fragWaves (s.tri a l) (s.v (a + 6) l).toNat desc.user (pixels l)
      let count (l : Nat) : Word := if 2 ^ 21 < (pixels l).length then 0xFFFFFFFF else BitVec.ofNat 32 (pixels l).length
      let passed : Word := if ∃ l ∈ lanes, 2 ^ 21 < (pixels l).length then 1 else 0
      (rasterOk ws = false → exec i s = .next malformed) ∧
      (rasterOk ws = true → (∃ l ∈ lanes, 2 ^ 24 ≤ (s.v (a + 6) l).toNat) →
        ∃ tr, exec i s = .next (raise s tr) ∧ tr.cause = 0x71) ∧
      (rasterOk ws = true → (∀ l ∈ lanes, (s.v (a + 6) l).toNat < 2 ^ 24) → frags = [] →
        ∃ t, exec i s = .next t ∧ frame i t ∧
          wroteBlock s t d 1 (fun _ l => if l ∈ lanes then count l else 0) ∧
          t.w.rstat = s.w.rstat ||| passed) ∧
      ∀ (l : Launch) (ys : List Loc) (zs : List Xlat), rasterOk ws = true →
        (∀ l ∈ lanes, (s.v (a + 6) l).toNat < 2 ^ 24) → frags ≠ [] → Reaches s1 .load desc.fraglr 256 1 ys zs →
        s.launches.find? (fun l => l.isFrag && l.ref == desc.fraglr && l.attr.asn == (launchOf (wordsAt s1 ys)).asn) = some l →
        l.cancelled = false → s.launches.Pairwise (fun a b => a.lid ≠ b.lid) →
        ∃ t, exec i s = .next t ∧ wroteBlock s t d 1 (fun _ l => if l ∈ lanes then count l else 0) ∧
          t.w.rstat = s.w.rstat ||| passed ∧
          framed i { s with
            serial := s.serial + frags.length
            launches := s.launches.map fun x =>
              if x.lid = l.lid then { x with frags := x.frags ++ numberFrags s.serial frags } else x } t) ∧
    (Ready (.tex la r a d) s →
      let i : Instr := .tex la r a d
      let desc := TexDesc.ofWords ws
      (texOk ws false = false → exec i s = .next malformed) ∧
      ∀ (out : List (Nat × Sample × List Nat)) (u : State), texOk ws false = true → texReads s1 desc a = .ok (out, u) →
        out.map (fun p => p.1) = lanesOf s.m0 ∧ (∀ p ∈ out, p.2.1 = laneSample s1 desc a p.1) ∧
        ∃ t, exec i s = .next t ∧ frame i t ∧
          (∀ p ∈ out, ∀ k < 4, t.v (d + k) p.1 = BitVec.ofNat 32 ((texLane desc p.2.1 p.2.2).getD k 0)) ∧
          (∀ q l, (q < d ∨ d + 4 ≤ q ∨ (l < 32 ∧ s.m0.getLsbD l = false)) → t.v q l = s.v q l) ∧
          t.w.rstat = s.w.rstat ||| odd a) ∧
    (Ready (.texadj la r a d) s →
      let i : Instr := .texadj la r a d
      let desc := TexDesc.ofWords ws
      let g (l k : Nat) : Nat := (s.v (a + 3 + k) l).toNat
      (texOk ws true = false → exec i s = .next malformed) ∧
      ∀ (out : List (Nat × Sample × List Nat)) (s2 s3 u : State) (ps : List (Nat × Nat × Loc × Word)), texOk ws true = true →
        texReads s1 desc a = .ok (out, s2) →
        adjPlaces s2 (if desc.trilinear then 32 else 16) ((out.filter fun p => (checkedLanes s).contains p.1).flatMap fun p =>
          (adjContribs desc p.2.1 (g p.1)).map fun c => (p.1, c.1, c.2)) = .ok (ps, s3) →
        contributeAll s3 ps = .done u →
        out.map (fun p => p.1) = lanesOf s.m0 ∧
        ∃ t, exec i s = .next t ∧
          (∀ p ∈ out, ∀ k < 2, t.v (d + k) p.1 = BitVec.ofNat 32 ((texadjLane desc p.2.1 p.2.2 (g p.1)).getD k 0)) ∧
          (∀ q l, (q < d ∨ d + 2 ≤ q ∨ (l < 32 ∧ s.m0.getLsbD l = false)) → t.v q l = s.v q l) ∧
          t.w.rstat = s.w.rstat ||| odd a ∧
          framed i { s with
            contribs := u.contribs, claims := u.claims, serial := u.serial, w := { s.w with gsseq := u.w.gsseq } } t) ∧
    (Ready (.trace la r a d) s →
      let i : Instr := .trace la r a d
      let desc := BvhDesc.ofWords ws
      let visit (l : Nat) : Visit := if deadRay (rayOf s a l) then Visit.none else visitRef s1 desc (rayOf s a l) l 64 desc.root
      (bvhOk ws = false → exec i s = .next malformed) ∧
      (bvhOk ws = true → visitStop s1 ((lanesOf s.m0).map fun l => (l, visit l)) = none →
        ∃ t, exec i s = .next t ∧ frame i t ∧ t.w.rstat = s.w.rstat ∧
          wroteBlock s t d 4 fun k l => BitVec.ofNat 32 ((traceResult (visit l).hits).getD k 0))) ∧
    (Ready (.tradj la r a d) s →
      let i : Instr := .tradj la r a d
      let desc := BvhDesc.ofWords ws
      let idx (l : Nat) : Nat := (s.v (a + 6) l).toNat
      (bvhOk ws = false → exec i s = .next malformed) ∧
      (bvhOk ws = true → (∃ l ∈ lanesOf s.m0, desc.ntri ≤ idx l) → ∃ tr, exec i s = .next (raise s tr) ∧ tr.cause = 0x72) ∧
      ∀ rs : List LaneAcc, bvhOk ws = true → (∀ l ∈ lanesOf s.m0, idx l < desc.ntri) →
        renderReads s1 ((lanesOf s.m0).map fun l => (l, ((desc.tris + 36 * idx l : Nat) : Int), 36)) = .ok rs →
        let raw (l : Nat) : Nat := (assocGet ((rs.map fun x => x.lane).zip (readValues s1 rs)) l).getD 0
        let out (l : Nat) : Option (List Nat) := tradjLane (s.v3 a l) (s.v3 (a + 3) l) (fun k => v3At (raw l) (12 * k))
          (s.v (a + 7) l).toNat (s.v (a + 8) l).toNat (s.v (a + 9) l).toNat
        ∃ t, exec i s = .next t ∧ frame i t ∧
          wroteBlock s t d 15 (fun k l => BitVec.ofNat 32 (((out l).getD []).getD k 0)) ∧
          t.w.rstat = s.w.rstat ||| (if ∃ l ∈ lanesOf s.m0, out l = none then 4 else 0))

/-! ### Tapes and scatters (chapter 10) -/

/-- R234, R237 to R240, R245 to R248: an item goes on top of the wave's logical tape, and the quire keeps its size; `tape.rec`
records the lanes that changed, so that the record represents every active lane's value; `tape.pop` gives back what the top record
represents while the program has not written to the tape area (R235), or regenerates a folio whose records were dropped, once what
it reads of the area is there; `tape.mark` opens a folio, `tape.seal` closes it, `tape.stat` reads
the engine's word. -/
def Obligations.Tapes : Prop :=
  (∀ (cap : Nat) (x : TapeItem) (t : Tape), (∀ f, .opening f ∈ x :: t.items → f.rcmp = false ∨ f.regen = true) →
    (appendItem cap x t).items = x :: t.items ∧ (itemsSize t.quire ≤ cap → itemsSize (appendItem cap x t).quire ≤ cap)) ∧
  (∀ (s : State) (la r : Nat), Ready (.tapeRec la r) s →
    let i : Instr := .tapeRec la r
    let old (l : Nat) : Word := Lanes.at ((assocGet s.w.tape.base r).getD (List.replicate 32 0)) l
    let changed (l : Nat) : Bool := s.m0.getLsbD l && s.v r l != old l
    let held (xs : List TapeItem) (l : Nat) : Word := represents r l (topFolio xs)
    (s.w.tape.isOpen = false → exec i s = .next (raise s { cause := 0x75, laddr := fun _ => 0 })) ∧
    (s.w.tape.isOpen = true → 5 + 4 * (List.range 32).countP changed + itemsSize s.w.tape.quire ≤ s.attr.quire →
      itemsSize s.w.tape.area ≤ s.attr.tapesize →
      ∃ t mask vals, exec i s = .next t ∧ t.w.tape.quire = .data r mask vals :: s.w.tape.quire ∧
        t.w.tape.area = s.w.tape.area ∧ (∀ l < 32, mask.getLsbD l = changed l) ∧ vals.length = (List.range 32).countP changed ∧
        ((∀ l < 32, old l = held s.w.tape.items l) →
          ∀ l < 32, held t.w.tape.items l = if s.m0.getLsbD l then s.v r l else held s.w.tape.items l) ∧
        t = { s with w := t.w } ∧
        t.w = { s.w with cur := t.w.cur, badRegs := t.w.badRegs, lclock := s.w.lclock + 1, tape := t.w.tape } ∧
        SlotPast i s t)) ∧
  (∀ (s : State) (la d reg : Nat) (mask : Word) (vals : List Word) (rest : List TapeItem), Ready (.tapePop la d) s →
    s.w.tape.regen = false → s.w.tape.badItems = [] → s.w.tape.quire = .data reg mask vals :: rest →
    let i : Instr := .tapePop la d
    let xs := s.w.tape.items
    let n := (topFolio xs).length + 1
    (topDropped xs = false → s.w.tape.spoiled = false → ∃ t, exec i s = .next t ∧ wroteV s t d (fun l => represents reg l (topFolio xs)) ∧
      t.w.tape.quire = rest ∧ t.w.tape.area = s.w.tape.area ∧ t.w.tape.isOpen = s.w.tape.isOpen ∧ sameScalars s t ∧
      sameMasks s t ∧ t = { s with w := t.w }) ∧
    ∀ f, topDropped xs = true → topHeader xs = some f → s.cur.flights = [] → s.w.sib.live = false → 128 ≤ s.w.budget →
      s.w.tape.spoiled = false → hitsWindow s [.v 127] [.v 127] = false → (∃ u, fill n s = .ok u) →
      33 + itemsSize (s.w.tape.quire.drop n) ≤ s.attr.quire →
      itemsSize (s.w.tape.area.drop (n - s.w.tape.quire.length)) ≤ s.attr.tapesize →
      ∃ t, exec i s = .next t ∧ t.w.cur.pc = pcOf f.entry.toNat ∧ wroteV s t 127 (fun _ => BitVec.ofNat 32 s.cur.pc) ∧
        t.w.tape.items = .opening { f with rcmp := false, regen := true } :: xs.drop n ∧ t.w.tape.isOpen = true ∧
        t.w.tape.regen = true ∧ t.w.tape.tscale = f.scale ∧
        t.w.tape.view = (if f.wset = 0 then none else some (f.wset.toNat, f.pseq))) ∧
  (∀ (s : State) (la d : Nat), Ready (.tapePop la d) s →
    (s.w.tape.regen = true → exec (.tapePop la d) s = .next (raise s { cause := 0x75, laddr := fun _ => 0 })) ∧
    (s.w.tape.regen = false → s.w.tape.items.all TapeItem.opens = true →
      exec (.tapePop la d) s = .next (raise s { cause := 0x76, laddr := fun _ => 0 }))) ∧
  (∀ (s : State) (la r : Nat) (rcmp : Bool), Ready (.tapeMark la rcmp r) s →
    let i : Instr := .tapeMark la rcmp r
    (s.w.tape.regen = true → exec i s = .next (raise s { cause := 0x75, laddr := fun _ => 0 })) ∧
    (s.w.tape.regen = false → 33 + itemsSize s.w.tape.quire ≤ s.attr.quire → itemsSize s.w.tape.area ≤ s.attr.tapesize →
      exec i s = .next (finished i s { s with w := { s.w with tape := { s.w.tape with
        quire := .opening
          { entry := s.s64 r, wset := s.s64 (r + 2), scale := s.s64 (r + 4), regen := false, rcmp := rcmp,
            pseq := if s.s64 (r + 2) = 0 then 0 else pseqOf s s.attr.asn (s.s64 (r + 2)).toNat } :: s.w.tape.quire
        isOpen := true
        base := [] } } }))) ∧
  (∀ (s : State) (la : Nat), Ready (.tapeSeal la) s → ∃ t, exec (.tapeSeal la) s = .next t ∧ t.w.tape.isOpen = false ∧
    t.w.tape.items = s.w.tape.items ∧ t.w.tape.regen = false ∧
    (s.w.tape.regen = true → t.w.tape.view = none ∧ t.w.tape.tscale = 0) ∧
    (s.w.tape.regen = false → t.w.tape.view = s.w.tape.view ∧ t.w.tape.tscale = s.w.tape.tscale) ∧
    t = { s with w := t.w } ∧
    t.w = { s.w with cur := t.w.cur, badRegs := t.w.badRegs, lclock := s.w.lclock + 1, tape := t.w.tape } ∧
    SlotPast (.tapeSeal la) s t) ∧
  ∀ (s : State) (la d : Nat), (Instr.tapeStat la d).wf = true → Ready (.tapeStat la d) s →
    ∃ t x, exec (.tapeStat la d) s = .next t ∧ wroteS s t d x ∧ x.getLsbD 31 = s.w.tape.isOpen ∧
      x.getLsbD 30 = s.w.tape.regen ∧ x.getLsbD 29 = s.w.tape.view.isSome ∧
      x.getLsbD 28 = (s.w.tape.isOpen && topDropped s.w.tape.items) ∧
      x.toNat % 2 ^ 28 = min (itemsSize s.w.tape.items) (2 ^ 28 - 1) ∧ sameVectors s t ∧ sameMasks s t ∧
      OnlyRegs (.tapeStat la d) s t

/-- R250, R251, R257, R258: `gsadd` sends one contribution for each lane that is no helper, with its key, and each lane takes its
next sequence number; a contribution that finds no room is a launch fault of its slice's GSU, GS_OVERFLOW (logs 26 and 64);
`gsflush` starts the wave's next epoch. -/
def Obligations.ScatterInstructions : Prop :=
  (∀ (s s1 : State) (la a v : Nat) (ps : List (Nat × Nat × Loc)), Ready (.gsadd la a v) s →
    scatterPlaces s ((checkedLanes s).map fun l => (l, (s.v64 a l).toInt)) = .ok (ps, s1) →
    let sent := ps.map fun p => (p.1, p.2.1, p.2.2, s.v v p.1)
    (s.contribs.length + ps.length ≤ 256 → ∃ u, contributeAll s1 sent = .done u) ∧
    (∀ p rest, ps = p :: rest → scatterHeld s1 s.w.lid p.2.2.addr = none → exec (.gsadd la a v) s =
      .next (slotLaunchFaultBy s1 (0x300 + State.sliceOf .hbm (p.2.2.addr / 128)) 0x7C 0 0)) ∧
    ((∃ u, contributeAll s1 sent = .done u) →
    let parts (c : Contribution) := (c.lid, c.gid, c.epoch, c.key, c.va, c.pa, c.value)
    let seq (l : Nat) : Nat := s.w.gsseq.getD l 0
    ∃ t, exec (.gsadd la a v) s = .next t ∧
      t.contribs.map parts = s.contribs.map parts ++ ps.map (fun p => (s.w.lid, s.w.gid, s.w.epoch,
        s.linOf s.w % 2 ^ 40 * 2 ^ 24 + s.w.waveid % 32 * 2 ^ 19 + p.1 % 32 * 2 ^ 14 + seq p.1 % 2 ^ 14, p.2.1, p.2.2.addr,
        s.v v p.1)) ∧
      (∀ l < 32, t.w.gsseq.getD l 0 = seq l + (if ∃ p ∈ ps, p.1 = l then 1 else 0)) ∧
      sameScalars s t ∧ sameMasks s t ∧ sameVectors s t ∧ sameMemory s t ∧
      t = { s with
        w := t.w, contribs := t.contribs, claims := t.claims, serial := t.serial, tlb := t.tlb, walks := t.walks })) ∧
  ∀ (s : State) (la : Nat), Ready (.gsflush la) s →
    let i : Instr := .gsflush la
    (s.w.sib.live = true → s.attr.idem = false → exec i s = .next (raise s { cause := 0x7B, laddr := fun _ => 0 })) ∧
    (s.attr.idem = true → exec i s = .next (finished i s s)) ∧
    (s.w.sib.live = false → s.attr.idem = false → exec i s = .next (finished i s
      { s with
        w := { s.w with epoch := s.w.epoch + 1, gsseq := Vector.replicate 32 0 }
        launches := s.launches.map fun l =>
          if l.lid = s.w.lid then { l with topEpoch := max l.topEpoch (s.w.epoch + 1) } else l }))

/-- R251, R253: the value of a word at its close is the fixed sum of its contributions in the order of their keys, whatever order
they arrived in; a waiting contribution takes its line when that is free or held by its own epoch; a line closes, with every word
that received contributions and no other, once its epoch has passed; and an epoch closes when nothing of it is left. -/
def Obligations.ScatterEngine : Prop :=
  (∀ cs : List Contribution, (byKey cs).Perm cs ∧ (byKey cs).Pairwise fun a b => a.key ≤ b.key) ∧
  (∀ (base : Word) (cs ds : List Contribution), cs.Perm ds → cs.Pairwise (fun a b => a.key ≠ b.key) →
    closeWord base cs = closeWord base ds) ∧
  (∀ (s : State) (id : Nat) (c : Contribution), s.contribs.find? (fun c => c.id == id) = some c → c.accepted = false →
    let taken := s.contribs.map fun x => if x.id = id then { x with accepted := true } else x
    (s.claims.find? (fun k => k.line == c.pa / 128) = none → exec (.scatterContribution id) s = .next
      { s with
        contribs := taken
        claims := s.claims ++ [⟨s.serial, c.lid, c.epoch, c.pa / 128, lineWords s (c.pa / 128)⟩]
        serial := s.serial + 1 }) ∧
    ∀ k, s.claims.find? (fun k => k.line == c.pa / 128) = some k → exec (.scatterContribution id) s =
      .next (if k.lid = c.lid ∧ k.epoch = c.epoch then { s with contribs := taken } else s)) ∧
  (∀ (s : State) (id : Nat) (k : Claim) (l : Launch), s.claims.find? (fun k => k.id == id) = some k →
    s.launch? k.lid = some l →
    let mine (c : Contribution) : Bool := c.accepted && c.lid == k.lid && c.epoch == k.epoch && c.pa / 128 == k.line
    let word (i : Nat) : List Contribution := s.contribs.filter fun c => mine c && c.pa % 128 / 4 == i
    ((l.cancelled = true ∨ epochPassed s l k.epoch = false) → exec (.lineClose id) s = .next s) ∧
    (l.cancelled = false → epochPassed s l k.epoch = true → ∃ t, exec (.lineClose id) s = .next t ∧
      (∀ i < 32, t.num ⟨.hbm, 128 * k.line + 4 * i⟩ 4 =
        if word i = [] then s.num ⟨.hbm, 128 * k.line + 4 * i⟩ 4 else (closeWord (k.base.getD i 0) (word i)).toNat) ∧
      (∀ p : Loc, p.area ≠ .l2 → (∀ j < 128, p ≠ ⟨.hbm, 128 * k.line + j⟩) → t.byte p = s.byte p) ∧
      t.contribs.map (fun c => c.id) = (s.contribs.filter fun c => !mine c).map (fun c => c.id))) ∧
  ∀ (s : State) (lid : Nat) (l : Launch), s.launch? lid = some l →
    let open_ : Prop := l.topEpoch < l.gsdone ∨ epochPassed s l l.gsdone = false ∨
      ∃ c ∈ s.contribs, c.lid = lid ∧ c.epoch = l.gsdone
    ((l.cancelled = true ∨ open_) → exec (.epochClose lid) s = .next s) ∧
    (l.cancelled = false → ¬open_ → l.attr.wchk = false → exec (.epochClose lid) s = .next
      { s with
        claims := s.claims.filter fun k => !(k.lid == lid && k.epoch == l.gsdone)
        launches := s.launches.map fun x => if x.lid = lid then { x with gsdone := x.gsdone + 1 } else x })

/-! ### Training and collectives (chapters 11 and 13) -/

/-- R259 to R266: `stash` writes its plain and its transposed tile, after its checks in their order; `upd` queues the command
that it reads, waits where the queue is full, queues nothing in a cancelled launch, and raises UPD_MALFORMED; a command's first
pass fixes its factor, its second writes each element's moments and its weight into the shadow, up to 32 elements in a move, and
its end publishes or discards the shadow and takes the command out of the queue.  How a command is met by another, or by writes
that break R267, is log 60; that a publish that fails holds or stops the command, log 27; TADDR 0 of STASH_OVERLAP, log 18. -/
def Obligations.StashAndUpdates : Prop :=
  (∀ (s : State) (la r v : Nat) (wide : Bool) (kc : StashK), Ready (.stash la wide kc r v) s →
    let i : Instr := .stash la wide kc r v
    let z : Nat := if wide then 4 else 2
    let k : Nat := match kc with | .k8 => 8 | .k16 => 16 | .k32 => 32
    let p := (s.s64 r).toInt
    let t := (s.s64 (r + 2)).toInt
    let n : Nat := k * 32 * z
    let trap (c : Nat) (a : DWord) : Prop := exec i s = .next (raise s { cause := c, laddr := fun _ => a })
    let apart : Prop := t + n ≤ p ∨ p + n ≤ t
    let cells := (checkedLanes s).flatMap fun l => (List.range k).map fun j => (l, j)
    let places := (cells.map fun c => (c, p + ((32 * c.2 + c.1) * z : Nat))) ++ cells.map fun c => (c, t + ((k * c.1 + c.2) * z : Nat))
    (addrOk p n = false → trap 0x20 (s.s64 r)) ∧
    (addrOk p n = true → addrOk t n = false → trap 0x20 (s.s64 (r + 2))) ∧
    (addrOk p n = true → addrOk t n = true → p % 128 ≠ 0 → trap 0x57 (s.s64 r)) ∧
    (addrOk p n = true → addrOk t n = true → p % 128 = 0 → t % 128 ≠ 0 → trap 0x57 (s.s64 (r + 2))) ∧
    (addrOk p n = true → addrOk t n = true → p % 128 = 0 → t % 128 = 0 → ¬apart → trap 0x58 0) ∧
    (addrOk p n = true → addrOk t n = true → p % 128 = 0 → t % 128 = 0 → apart →
      (∀ x ∈ places, passesWrite s .g x.1.1 x.2 z) →
      (∀ x ∈ places, meetsPosted s (laneAccess s .g .store s.aspace x.1.1 x.2 z).places = false) → ∃ u, exec i s = .next u ∧
        wroteMemory s u (places.flatMap fun x => (laneAccess s .g .store s.aspace x.1.1 x.2 z).places.zip
          (leBytes z (s.v (v + x.1.2) x.1.1).toNat)) ∧
        sameScalars s u ∧ sameMasks s u ∧ sameVectors s u ∧ OnlyWrites i s u)) ∧
  (∀ (s s1 : State) (la r : Nat) (ws : List Nat), Ready (.upd la r) s → reads s s1 (s.s64 r).toInt 128 128 ws →
    let i : Instr := .upd la r
    let u := updOf s ws
    let trap (c : Nat) : State := raise s { cause := c, laddr := fun _ => s.s64 r }
    let full : Prop := 16 ≤ (s.updates.filter fun x => x.die == s.w.die).length
    (updOk ws u = false → exec i s = .next (trap 0x59)) ∧
    (updOk ws u = true → u.addressable = false → exec i s = .next (trap 0x20)) ∧
    (updOk ws u = true → u.addressable = true → full → s.cancelled = false →
      exec i s = .next (stall (s1.onCur fun c => { c with staging := some ws }))) ∧
    (updOk ws u = true → u.addressable = true → full → s.cancelled = true →
      exec i s = .next (endWave (s1.onCur fun c => { c with staging := some ws }) s.w.wid)) ∧
    (updOk ws u = true → u.addressable = true → ¬full → s.cancelled = true →
      exec i s = .next (finished i s { s1 with w := s.w })) ∧
    (updOk ws u = true → u.addressable = true → ¬full → s.cancelled = false → ∃ t, exec i s = .next (finished i s t) ∧ onlyRead s { s1 with w := s.w } ∧
      t = { s1 with
        w := s.w, serial := s.serial + 1
        updates := s.updates.map (UpdCmd.meet s · u) ++ [s.updates.foldl (UpdCmd.meet s) u] })) ∧
  (∀ (s : State) (die : Nat) (u : UpdCmd), running s die = some u →
    let set (f : UpdCmd → UpdCmd) := s.updates.map fun x => if x.id = u.id then f x else x
    (u.awake = false → exec (.updateCommandStart die) s = .next s) ∧
    (∀ f, u.awake = true → u.started = false → passOne s u = .ok f → ∃ t, exec (.updateCommandStart die) s = .next t ∧
      t.updates = set (fun x => { x with started := true, step := f, declined := [] }) ∧ sameMemory s t ∧
      t = { s with updates := t.updates, mem := t.mem, lines := t.lines, free := t.free }) ∧
    ∀ (f : Word) (w : Nat) (x : Stepped32) (rs ms vs ws : List Loc) (s1 : State), u.awake = true → u.started = true →
      u.spoiled = false → u.step = some f → u.pos + 1 = u.count → updElem s u u.pos = .ok (w, x, rs) → momentPlaces s u u.m u.pos = .ok ms →
      (u.mode = 0 → vs = []) → (u.mode ≠ 0 → momentPlaces s u u.v u.pos = .ok vs) →
      shadowPieces u.mmu (updSpace s u) u.lid u.id u.wset (pieces (u.w + 4 * u.pos) 4) (updTouch s u rs) = .ok (ws, s1) →
      ∃ t, exec (.updateCommandStart die) s = .next t ∧
        wroteMemory s1 t (ms.zip (leBytes 4 x.m) ++ vs.zip (leBytes 4 x.v) ++ ws.zip (leBytes 4 (stepped w f.toNat x.u))) ∧
        running t die = some { u with pos := u.count, declined := [], pubAt := some t.serial } ∧
        ∀ y ∈ t.updates, y.id ≠ u.id → ∃ x ∈ s.updates, onlySpoiledUpd x y) ∧
  (∀ (s : State) (u : UpdCmd) (f : Word) (i w : Nat) (x : Stepped32) (rs ms vs ws : List Loc) (s1 : State), u.spoiled = false →
    updElem s u i = .ok (w, x, rs) → momentPlaces s u u.m i = .ok ms → (u.mode = 0 → vs = []) →
    (u.mode ≠ 0 → momentPlaces s u u.v i = .ok vs) →
    shadowPieces u.mmu (updSpace s u) u.lid u.id u.wset (pieces (u.w + 4 * i) 4) (updTouch s u rs) = .ok (ws, s1) →
    ∃ t, passTwo s u f i = .ok t ∧
      wroteMemory s1 t (ms.zip (leBytes 4 x.m) ++ vs.zip (leBytes 4 x.v) ++ ws.zip (leBytes 4 (stepped w f.toNat x.u))) ∧
      ∀ y ∈ t.updates, y.id ≠ u.id → ∃ x ∈ s.updates, onlySpoiledUpd x y) ∧
  (∀ (s : State) (die : Nat) (u : UpdCmd) (f : Word) (at_ : Nat → State), running s die = some u → u.awake = true →
    u.started = true → u.step = some f → at_ 0 = s →
    let n := min 32 (u.count - u.pos)
    (∀ k < n, ∃ t, passTwo (at_ k) u f (u.pos + k) = .ok t ∧
      at_ (k + 1) = { t with updates := t.updates.map fun y =>
        if y.id = u.id then
          { y with
            pos := u.pos + k + 1, declined := [], pubAt := if u.pos + k + 1 = u.count then some t.serial else y.pubAt }
        else y }) →
    exec (.updateCommandStart die) s = .next (at_ n)) ∧
  (∀ (s : State) (die : Nat) (u : UpdCmd), running s die = some u →
    let g := exec (.updateCommandComplete die) s
    let gone := (s.updates.filter fun x => x.id != u.id).map fun x => x.id
    let ids (t : State) := t.updates.map fun x => x.id
    let asn := (updSpace s u).asn
    let blocked : Prop := u.step.isSome = true ∧ (u.pubWaits s asn = true ∨ pubFails s (u.pub asn) = true)
    ((u.over = false ∨ blocked) → g = .next s) ∧
    (u.over = true → u.step = none → recordPages s u = [] →
      ∃ t, g = .next t ∧ t = endCommand s u 1 0 ∧ ids t = gone ∧ t.shadows = s.shadows) ∧
    (u.over = true → u.step.isSome = true → ¬blocked → recordPages s u = [] →
      ∃ t, g = .next t ∧ t = endCommand (publishSet s asn u.wset) u 0 0 ∧ ids t = gone ∧
        pseqOf t asn u.wset = (pseqOf s asn u.wset + 1) % 2 ^ 32 ∧
        ∀ q ∈ t.shadows, ¬(q.asn = asn ∧ q.wset = u.wset))) ∧
  ∀ (s : State) (die cause : Nat) (u : UpdCmd), running s die = some u →
    let g := exec (.updateCommandStop die cause) s
    let asn := (updSpace s u).asn
    let meets : Prop := (∃ e, updStops s u = some e ∧ e.cause = cause) ∨
      (updStops s u = none ∧ outsideCause cause = true ∧ u.over = false ∧ updOutside s u = true)
    ((u.awake = false ∨ ¬meets) → g = .next s) ∧
    (u.awake = true → meets → recordPages s u = [] →
      ∃ t, g = .next t ∧
        t = endCommand (discardShadows s fun p => u.started && p.asn == asn && p.wset == u.wset) u 2 cause ∧
        t.updates.map (fun x => x.id) = (s.updates.filter fun x => x.id != u.id).map (fun x => x.id) ∧
        ∀ p ∈ t.shadows, ¬(u.started = true ∧ p.asn = asn ∧ p.wset = u.wset))

/-- R299, R303, R307, R308: `wmreg` registers, replaces or removes a region, `wmread` reads its watermark and `wmchk` the word of
its last comparison; `col` joins a collective with the parameters of its descriptor and communicator, and `colw` ends the wave's
latest collective at its descriptor, with the cause of a stopped, split or diverged one; in a cancelled launch the wait for one
that the cancellation withdrew ends the wave.  That a bad communicator raises COL_MALFORMED at the descriptor, TADDR of
WATERMARK_DIVERGENCE and the acquire whatever `colw` raises are log 29; SIZE 0 whatever BASE is, log 30. -/
def Obligations.CollectiveInstructions : Prop :=
  (∀ (s : State) (la n r : Nat) (ls : List Loc) (xs : List Xlat), Ready (.wmreg la n r) s →
    Reaches s .load (s.s64 r).toInt 32 32 ls xs →
    let i : Instr := .wmreg la n r
    let ws := wordsAt s ls
    let base := ws.getD 0 0
    let size := ws.getD 1 0
    let s1 := noteAccess s ls xs false
    let rest := s.regions.filter fun x => x.1 != (s.attr.jobid, n)
    let odd : Prop := base % 65536 ≠ 0 ∨ size % 65536 ≠ 0 ∨ 2 ^ 55 < base + size
    (size = 0 → exec i s = .next (finished i s { s1 with regions := rest })) ∧
    (size ≠ 0 → odd → exec i s = .next (raise s { cause := 0x95, laddr := fun _ => s.s64 r })) ∧
    (∀ k, size ≠ 0 → ¬odd → k < size / 65536 → regionPageOk s1 (base + 65536 * k) = false →
      (∀ j < k, regionPageOk s1 (base + 65536 * j) = true) →
      exec i s = .next (raise s { cause := 0x94, laddr := fun _ => BitVec.ofNat 64 (base + 65536 * k) })) ∧
    (size ≠ 0 → ¬odd → (∀ k < size / 65536, regionPageOk s1 (base + 65536 * k) = true) →
      exec i s = .next (finished i s
        { s1 with
          serial := s.serial + 1
          regions := ((s.attr.jobid, n),
            ⟨base, size, leBytes 8 (ws.getD 2 0) ++ leBytes 8 (ws.getD 3 0), s.attr.asn, s.attr.root, 0, s.serial⟩) :: rest }))) ∧
  (∀ (s : State) (la n d : Nat), Ready (.wmread la n d) s →
    let x := match regionOf s s.attr.jobid n with | some g => watermark s g | none => 0
    ∃ t, exec (.wmread la n d) s = .next t ∧ wroteBlock s t d 4 (fun k _ => BitVec.ofNat 32 (x / 2 ^ (32 * k))) ∧
      sameScalars s t ∧ sameMasks s t ∧ OnlyRegs (.wmread la n d) s t) ∧
  (∀ (s : State) (la n d : Nat), (Instr.wmchk la n d).wf = true → Ready (.wmchk la n d) s →
    ∃ t, exec (.wmchk la n d) s = .next t ∧
      wroteS s t d (match regionOf s s.attr.jobid n with | some g => g.last | none => 0) ∧ sameVectors s t ∧ sameMasks s t ∧
      OnlyRegs (.wmchk la n d) s t) ∧
  (∀ (s : State) (la r : Nat) (sync arr : Bool) (ls hs cs : List Loc) (xs zs ys : List Xlat), Ready (.col la sync arr r) s →
    Reaches s .load (s.s64 r).toInt 64 64 ls xs →
    let i : Instr := .col la sync arr r
    let malformed : State := raise s { cause := 0x90, laddr := fun _ => s.s64 r }
    let ws := wordsAt s ls
    let comm := fieldOf ws 0x10 0 64
    let cw := wordsAt s hs
    let p := fieldOf cw 0 0 16
    let rank := fieldOf cw 0 16 16
    let ids := commIds s cs p
    (colDescOk ws = false → exec i s = .next malformed) ∧
    (colDescOk ws = true → Reaches s .load (comm : Nat) 0x40 1 hs zs →
      ((commHeadOk cw = false ∨ 2 ^ 55 < comm + 0x40 + 2 * p) → exec i s = .next malformed) ∧
      (commHeadOk cw = true → comm + 0x40 + 2 * p ≤ 2 ^ 55 → Reaches s .load (comm : Nat) (0x40 + 2 * p) 1 cs ys →
        let good : Prop := (∀ x ∈ ids, x < 1024) ∧ ids.eraseDups.length = p ∧ ids.getD rank 0 = s.pkgId
        (¬good → exec i s = .next malformed) ∧
        (good → ∃ t c, exec i s = .next t ∧ t.colls = s.colls ++ [c] ∧ c.comm = fieldOf cw 0 48 16 ∧
          c.seq = fieldOf ws 0x18 0 64 ∧ c.params = colParams ws ids p rank sync arr ∧ c.src = ws.getD 0 0 ∧
          c.dst = ws.getD 1 0 ∧ c.done = ws.getD 4 0 ∧ c.sent = false ∧ c.written = 0 ∧ c.outcome = none ∧
          t.w.cur.colls = s.w.cur.colls ++ [((s.s64 r).toInt.toNat, c.id)] ∧
          t.colMail = s.colMail.filter (fun m => !(m.1 == c.comm && m.2.1 == c.seq)) ∧ sameScalars s t ∧ sameMasks s t ∧
          sameVectors s t ∧ sameMemory s t)))) ∧
  ∀ (s : State) (la r : Nat), Ready (.colw la r) s →
    let i : Instr := .colw la r
    let va := (s.s64 r).toInt
    let mine := s.cur.colls.filter fun p => decide ((p.1 : Int) = va)
    (mine = [] → exec i s = .next (finished i s s)) ∧
    (∀ (id : Nat) (ls : List Loc) (xs : List Xlat), (∃ a, mine.getLast? = some (a, id)) → Reaches s .load (va + 0x20) 8 1 ls xs →
      s.colls.find? (fun c => c.id == id) = none → s.cancelled = true → exec i s = .next (endWave s s.w.wid)) ∧
    ∀ (id : Nat) (c : Coll) (ls : List Loc) (xs : List Xlat), (∃ a, mine.getLast? = some (a, id)) →
      Reaches s .load (va + 0x20) 8 1 ls xs → s.colls.find? (fun c => c.id == id) = some c →
      let taken : State := (noteAccess { s with
        colls := s.colls.filter fun x => x.id != id
        w := { s.w with cur := { s.w.cur with colls := s.cur.colls.filter fun p => !decide ((p.1 : Int) = va) } } }
        ls xs false).emptyL1 s.w.core
      (c.outcome = none → la = 0 → s.cancelled = false → exec i s = .next (stall s)) ∧
      ∀ out cause diverged split, c.outcome = some (out, cause, diverged, split) →
        let trap (k : Nat) (a : DWord) : Prop := exec i s = .next (raise taken { cause := k, laddr := fun _ => a })
        (out = 2 → trap cause 0) ∧
        (out ≠ 2 → split = true → trap 0x93 0) ∧
        (out ≠ 2 → split = false → diverged = true → trap 0x92 (BitVec.ofNat 64 s.pkgId)) ∧
        (out ≠ 2 → split = false → diverged = false → exec i s = .next (finished i s taken))

/-- R300 to R302: the fixed-tree result of a collective is the same whatever order its contributions arrived in; a message reaches
the collective that it names, or waits for it; a participant sends its contribution once, the root decides once all have come, a
participant that has carried out the decision tells the root, which tells all once each has (log 29), and then, or at a stop, the
outcome is recorded; the root tells a stop to all that took part, also where it alone was named (R299). -/
def Obligations.CollectiveEngine : Prop :=
  (∀ (op level pos : Nat) (xs ys : List Leaf), xs.Perm ys → xs.Pairwise (fun a b => a.log ≠ b.log ∨ a.pos ≠ b.pos) →
    colNode op xs level pos = colNode op ys level pos) ∧
  (∀ (s : State) (comm seq : Nat) (m : ColMsg),
    (∀ c, s.colls.find? (fun c => c.comm == comm && c.seq == seq && c.outcome.isNone) = some c →
      exec (.collectiveMessage comm seq m) s = .next { s with
        colls := s.colls.map fun x => if x.id = c.id then takeMessage m x else x }) ∧
    ((∀ c ∈ s.colls, c.comm = comm → c.seq = seq → c.outcome.isSome = true) →
      exec (.collectiveMessage comm seq m) s = .next { s with colMail := s.colMail ++ [(comm, seq, m)] })) ∧
  (∀ (s : State) (id : Nat) (c : Coll), s.colls.find? (fun c => c.id == id) = some c →
    let g := exec (.collectiveComplete id) s
    let idle : Prop := c.outcome = none ∧ c.sleep = [] ∧ c.missing = []
    let set (f : Coll → Coll) := s.colls.map fun x => if x.id = id then f x else x
    (¬idle → g = .next s) ∧
    (∀ data ps, idle → c.decision = none → c.sent = false → c.params.sync = false → c.spoiled = false →
      colRead s c c.src (ownCount c.params) = .ok (data, ps) →
      let m : ColMsg := .contribution c.params data []
      ∃ t, g = .next t ∧ sameMemory s t ∧
        t.colls = set (fun x => { takeMessage m x with sent := true, marks := [], sentAt := s.serial, declined := [] }) ∧
        t.outbox = (if c.params.rank = 0 then s.outbox else .collective c.comm c.seq m :: s.outbox) ∧
        t = { s with colls := t.colls, outbox := t.outbox, mem := t.mem, lines := t.lines, free := t.free }) ∧
    (idle → c.decision = none → c.sent = true → c.params.rank = 0 → c.params.ranks ≤ c.got.length →
      ∃ t, g = .next t ∧ t.colls = set (fun x => { x with decision := some (decide_ s c.params c.got) }) ∧
        t = { s with colls := t.colls, outbox := t.outbox, free := s.free + 1 }) ∧
    ∀ skip data major div ndiv low, idle → c.decision = some (.decision skip data major div ndiv low) →
      (skip = true ∨ data.length ≤ c.written) →
      (c.finish = false → c.params.rank ≠ 0 → c.told = false → g = .next { s with
        colls := set fun x => { x with told := true }
        outbox := .collective c.comm c.seq (.written c.params.rank) :: s.outbox }) ∧
      (c.finish = false → c.params.rank ≠ 0 → c.told = true → g = .next s) ∧
      (c.finish = false → c.params.rank = 0 → (∃ r, 0 < r ∧ r < c.params.ranks ∧ r ∉ c.heard) → g = .next s) ∧
      (c.finish = false → c.params.rank = 0 → 1 < c.params.ranks → (∀ r, 0 < r → r < c.params.ranks → r ∈ c.heard) →
        g = .next { s with
          colls := set fun x => { x with finish := true }
          outbox := .collective c.comm c.seq .finish :: s.outbox }) ∧
      (c.finish = true → c.params.sync = false → colRecordPages s c = [] →
      ∃ t, g = .next t ∧ t = endColl s c (if skip then 1 else if 0 < ndiv then 3 else 0) 0 div ndiv false false ∧
        (t.colls.find? fun c => c.id == id).map (fun x => x.outcome) =
          some (some (if skip then 1 else if 0 < ndiv then 3 else 0, 0, false, false)))) ∧
  ∀ (s : State) (id cause : Nat) (c : Coll), s.colls.find? (fun c => c.id == id) = some c →
    c.decision = some (.stop cause) →
    let g := exec (.collectiveStop id cause) s
    ((c.outcome.isSome = true ∨ c.sleep ≠ [] ∨ c.missing ≠ []) → g = .next s) ∧
    (c.outcome = none → c.sleep = [] → c.missing = [] → colRecordPages s c = [] →
      ∃ t, g = .next t ∧ (t.colls.find? fun c => c.id == id).map (fun x => x.outcome) = some (some (2, cause, false, false)) ∧
        t.outbox = if c.params.rank ≠ 0 ∨ (c.params.ranks ≤ 1 ∧ c.got.length ≤ 1) then s.outbox
          else .collective c.comm c.seq (.stop cause) :: s.outbox)

/-! ### The fault service, preemption and the distributors (chapters 2, 15 and 16) -/

/-- R20, R58 to R63, R386 to R390: a fetch that meets a cause traps, or its slot waits for the page; run-ahead ends in its
checkpoint; the pages of a waiter go to one batch of its die, whose records and PROD are written and whose notification is
given, or pending while its vector is masked; a resolved batch wakes its sleepers, each with the pages that software declined and
without those that it brought; groups evicted for incoming work leave their cores as they stand, and a saved group comes back to
the first core on which it fits.  When a page fault traps and when it waits, and CLUSTER of a requester that belongs to a die,
are log 43; who is evicted, log 36; that a masked vector stays pending, log 58. -/
def Obligations.FaultServiceAndPreemption : Prop :=
  (∀ (s : State) (c a u : Nat), s.cur.live = true → s.cur.ra = none → (fetchAt s s.cur.pc).1 = .fault c a u →
    let p : FaultPage := ⟨s.attr.asn, s.attr.root, u / 65536, 3, s.w.core / 4⟩
    let trap : Prop := exec .fetchFault s = .next (raise s { cause := c, laddr := fun _ => BitVec.ofNat 64 a })
    (c ≠ 0x21 → trap) ∧
    (c = 0x21 → pageTraps s [p] = true → trap) ∧
    (c = 0x21 → pageTraps s [p] = false →
      exec .fetchFault s = .next (s.onCur fun d => { d with missing := addPages d.missing [p], stalled := false }))) ∧
  (∀ (s : State) (ra : RunAhead) (pages : List FaultPage), s.cur.ra = some ra →
    (((∃ i xs, fetchAt s s.cur.pc = (.ok i, xs) ∧ raStops i ra s = true) ∨ (fetchAt s s.cur.pc).1 = .illegal ∨
        ∃ c a u, (fetchAt s s.cur.pc).1 = .fault c a u ∧ c ≠ 0x21) ∧ pages = ra.pages ∨
      ∃ a u, (fetchAt s s.cur.pc).1 = .fault 0x21 a u ∧
        pages = addPage ra.pages ⟨s.attr.asn, s.attr.root, u / 65536, 3, s.w.core / 4⟩) →
    ∃ t, exec .runAheadEnd s = .next t ∧ t = { s with w := t.w } ∧
      t.w = { s.w with cur := t.w.cur, vregs := t.w.vregs } ∧
      t.w.cur = { s.w.cur with
        pc := ra.pc, m0 := ra.m0, bank := ra.bank, cj := ra.cj, gc := ra.gc, windows := ra.windows, ra := none,
        missing := addPages s.w.cur.missing pages, stalled := false, staging := none, replaying := true } ∧
      ∀ r, (∃ y ∈ s.w.vregs, y.1 = r) → ∀ l < 32,
        t.v r l = if ra.m0.getLsbD l then ({ s.w with vregs := ra.vregs } : Wave).vreg r l else s.v r l) ∧
  (∀ (s : State) (die desc : Nat) (w : Wave) (sec : Bool), s.faultDesc.getD die none = some desc →
    firstMissing s die = some (w, sec) → s.wave? w.wid = some w →
    let pages := (w.slot sec).missing
    let id := s.batchNext.getD die 0
    (∀ p ∈ pages, pendingIn s die p = []) → pages.length ≤ ringRoom s desc →
    ∃ t ks, exec (.faultBatchWrite die) s = .next t ∧ ks.map (fun k => k.1) = pages ∧
      t.batches = s.batches ++ [⟨die, id, ks⟩] ∧ t.batchNext.getD die 0 = (id + 1) % 2 ^ 32 ∧
      (∀ u, t.wave? w.wid = some u → (u.slot sec).missing = [] ∧ (u.slot sec).sleep = (w.slot sec).sleep ++ [(die, id)]) ∧
      ∀ p, pages = [p] → descWord s desc 0x08 ≠ 0 → descWord s desc 0x14 < 2048 →
        let size := descWord s desc 0x08
        let k := descWord s desc 0x0C % size
        let at_ := s.num ⟨.hbm, desc⟩ 8 + 32 * k
        (at_ + 32 ≤ desc ∨ desc + 64 ≤ at_) →
        let vec := descWord s desc 0x14
        ks = [(p, k)] ∧ descWord t desc 0x0C = (k + 1) % size ∧
          (vecMasked s vec = false → t.msix = vec :: s.msix ∧ t.msixPending = s.msixPending) ∧
          (vecMasked s vec = true → t.msix = s.msix ∧ vec ∈ t.msixPending) ∧
          t.num ⟨.hbm, at_⟩ 8 = 65536 * p.page % 2 ^ 64 ∧
          t.num ⟨.hbm, at_ + 12⟩ 4 = id % 2 ^ 32 ∧
          t.num ⟨.hbm, at_ + 8⟩ 4 = p.asn % 4096 + p.kind % 8 * 2 ^ 12 + die % 4 * 2 ^ 16 + p.cluster % 128 * 2 ^ 18) ∧
  (∀ (s : State) (die b : Nat),
    ((∀ x ∈ s.batches, x.die = die → x.id ≠ b) → exec (.resolve die b) s = .next s) ∧
    ∀ x, s.batches.find? (fun x => x.die == die && x.id == b) = some x → s.finishing = [] →
      let no := (verdicts s die x).1
      let yes := (verdicts s die x).2
      let wakes (sleep sleep' : List (Nat × Nat)) (de de' : List FaultPage) : Prop :=
        sleep' = sleep.filter (fun y => y != (die, b)) ∧
          de' = if sleep.contains (die, b) then
            (addPages de no).filter fun p => !(yes.any fun q => q.asn == p.asn && q.page == p.page) else de
      ∃ t, exec (.resolve die b) s = .next t ∧ (∀ y ∈ t.batches, ¬(y.die = die ∧ y.id = b)) ∧ t.mem = s.mem ∧
        pairwiseRel (fun u v : Wave => v = { u with cur := v.cur, sib := v.sib } ∧
          wakes u.cur.sleep v.cur.sleep u.cur.declined v.cur.declined ∧
          wakes u.sib.sleep v.sib.sleep u.sib.declined v.sib.declined) s.waves t.waves ∧
        pairwiseRel (fun u v : Copy => v = { u with sleep := v.sleep, declined := v.declined } ∧
          wakes u.sleep v.sleep u.declined v.declined) s.copies t.copies) ∧
  (∀ (s : State) (die : Nat), fenced s die = false →
    (evictions s die = none → exec (.preempt die) s = .next s) ∧
    ∀ us, evictions s die = some us →
      let gs := us.flatten
      let need := (gs.map (saveBytes s)).foldl (· + ·) (savedBytes s)
      (gs.any (saveWaits s) = true → exec (.preempt die) s = .next s) ∧
      (gs.any (saveWaits s) = false → ∃ t, exec (.preempt die) s = .next t ∧ (Config.savePool < need → t = s) ∧
        (need ≤ Config.savePool →
          t = { s with w := t.w, others := t.others, groups := t.groups, tiles := t.tiles, serial := t.serial } ∧
          (∀ g ∈ gs, ∀ x ∈ t.groups, x.gid = g.gid → x.onCore = false) ∧
          (∀ g ∈ gs, ∀ x ∈ t.waves, x.live = true → x.gid = g.gid → x.onCore = false) ∧
          ∀ w ∈ s.waves, ∃ x ∈ t.waves, x = { w with onCore := x.onCore }))) ∧
  ∀ (s : State) (die : Nat),
    ((fenced s die = true ∨ savedUnits s = []) → exec (.groupRestore die) s = .next s) ∧
    ∀ g c, fenced s die = false → (s.launch? g.lid).any (fun l => l.attr.det) = false →
      ((savedUnits s).filter fun u => (startPrio s die).all fun p => decide (p ≤ basePrio u)).head? = some [g] →
      restoreSpot s g (coresOf die) = some c →
      ∃ t, exec (.groupRestore die) s = .next t ∧
        (∀ x ∈ t.groups, x.gid = g.gid → x.onCore = true ∧ x.core = c ∧ x.since = s.gts) ∧
        (∀ x ∈ t.groups, x.gid ≠ g.gid → x ∈ s.groups) ∧
        (∀ x ∈ t.waves, x.live = true → x.gid = g.gid →
          x.onCore = true ∧ x.core = (if g.isCluster then c + x.waveid % 4 else c) ∧ x.since = s.gts) ∧
        t.mem = s.mem

/-- R333 to R349, R355, R361: a submitted record that passes its checks becomes an active launch, and a refused one leaves the
queue with its completion; a die starts the lowest unit of the first launch it serves on the first core that has room, with its
waves as R334 says; a core takes the top of its deque unless
its die can start a group of higher priority, a die without work half of another's chunks; a group whose waves have ended
retires, and other dies learn of it; a finished launch completes; a job's phase moves on when no launch of it is left. -/
def Obligations.Distributors : Prop :=
  (∀ (s : State) (id : Nat) (x : Submission), s.submissions.find? (fun y => y.id == id) = some x → liveDies s ≠ [] →
    let ws := x.words.map fun w => w.toNat
    let l := launchOf ws
    let rest := s.submissions.filter fun y => y.id != id
    (launchWellFormed ws = true → l.ndep = 0 → l.det = false → counters l = [] →
      (∀ y ∈ s.launches, y.attr.asn = l.asn → y.attr.root = l.root) →
      (l.mboxen = true → ∀ y ∈ s.launches, y.attr.mboxen = true → y.attr.mboxnum ≠ l.mboxnum) → x.origin = none →
      ∃ t y, exec (.launchAccept id) s = .next t ∧ t.submissions = rest ∧ t.launches = s.launches ++ [y] ∧ y.attr = l ∧
        y.ref = x.ref ∧ y.cancelled = false ∧ y.fault = none ∧ y.front = 0 ∧ y.waiting = [] ∧ y.queue = x.queue ∧
        y.chunks = (List.range ((gridPoints l + 63) / 64)).map (fun c => (c, (liveDies s).getD (c % (liveDies s).length) 0)) ∧
        (assocGet t.phases l.jobid).isSome = true ∧
        t = { s with submissions := rest, launches := t.launches, phases := t.phases, serial := s.serial + 1 }) ∧
    (launchWellFormed ws = false → ∀ o, x.origin = some o → exec (.launchAccept id) s =
      .next { completeEntry (advanceHead s o.q) o 2 0x80 with
        submissions := (completeEntry (advanceHead s o.q) o 2 0x80).submissions.filter fun y => y.id != id }) ∧
    (launchWellFormed ws = false → x.origin = none → l.compl = 0 → l.jobc = 0 →
      exec (.launchAccept id) s = .next { s with devDeclined := [], submissions := rest })) ∧
  (∀ (s : State) (die : Nat), fenced s die = true → exec (.groupStart die) s = .next s ∧ exec (.stealRequest die) s = .next s) ∧
  (∀ (s : State) (die n c : Nat) (l : Launch), fenced s die = false → (served s).head? = some l → s.launch? l.lid = some l →
    mayStart s l = true → restoreFirst s l.attr.prio = false → l.frags = [] → l.attr.det = false → l.attr.gang = false →
    nextUnit (quarantined s l.lid) l die = some n →
    coreFor (coreUse s) l.attr l.attr.budget l.attr.waves (decide (0 < l.attr.cluster)) (coresOf die) = some c →
    (∀ k, (k = 0 ∨ 0 < l.attr.cluster ∧ k < 4) → dequeFirst s (c + k) l.attr.prio = false) →
    ∃ t g ws, exec (.groupStart die) s = .next t ∧ t.groups = s.groups ++ [g] ∧ t.others = s.others ++ ws ∧
      g.lid = l.lid ∧ g.lin = n ∧ g.core = c ∧ g.waves = l.attr.waves ∧ g.prio = l.attr.prio ∧ g.task = none ∧
      g.gx = n % l.attr.gx ∧ g.gy = n / l.attr.gx % l.attr.gy ∧ g.gz = n / (l.attr.gx * l.attr.gy) ∧
      ws.length = l.attr.waves ∧
      (∀ k w, ws[k]? = some w → w.waveid = k ∧ w.gid = g.gid ∧ w.lid = l.lid ∧ w.live = true ∧ w.sib.live = false ∧
        w.core = (if 0 < l.attr.cluster then c + k % 4 else c) ∧ w.trapvec = l.attr.trapvec ∧ w.budget = l.attr.budget ∧
        w.cur.pc = pcOf l.attr.code ∧ w.cur.m0 = BitVec.allOnes 32 ∧ w.cur.bank = Bank.zero ∧ w.cur.depth = 0 ∧
        w.sguard = 256 ∧ w.lclock = 0 ∧ w.exited = 0 ∧ w.helper = 0) ∧
      ∃ l', t.launch? l.lid = some l' ∧
        if (die, n) ∈ l.waiting then l'.waiting = l.waiting.erase (die, n) ∧ l'.chunks = l.chunks
        else l'.chunks = l.chunks.filter (fun x => x.1 != n / 64) ∧
          l'.waiting = l.waiting ++ ((chunkUnits l (n / 64)).filter fun k => k != n).map fun k => (die, k)) ∧
  (∀ (s : State) (core : Nat) (x : TaskRec) (l : Launch), core < 384 → fenced s (core / 96) = false → s.postQueue = [] →
    taskFrom s core core = some (x, l) → groupFirst s (core / 96) x.prio = false →
    ∃ t g ws, exec (.taskStart core) s = .next t ∧ dequeOf t core = (dequeOf s core).drop 1 ∧
      (∀ c, c ≠ core → dequeOf t c = dequeOf s c) ∧ t.groups = s.groups ++ [g] ∧ t.others = s.others ++ ws ∧
      g.task = some x ∧ g.lin = x.key ∧ g.core = core ∧ g.prio = x.prio ∧ ws.length = (if x.isGroup then x.n else 1) ∧
      ∀ w ∈ ws, w.cur.pc = pcOf x.code ∧
        w.cur.m0 = if x.isGroup then BitVec.allOnes 32 else BitVec.ofNat 32 (2 ^ x.n - 1)) ∧
  (∀ (s : State) (die d : Nat) (l : Launch), fenced s die = false → startNext s die = none →
    (((ringFrom die).drop 1).filter fun d => !fenced s d).findSome? (fun d =>
      (((served s).filter fun l => mayStart s l && !l.attr.det).find? fun l => !(chunksOf l d).isEmpty).map fun l => (d, l)) =
        some (d, l) →
    let cs := chunksOf l d
    let take := (cs.length + 1) / 2
    ∃ t, exec (.stealRequest die) s = .next t ∧ t = { s with launches := t.launches } ∧ (stolen l d).length ≤ cs.length ∧
      (cs.Nodup → (stolen l d).length = take ∧ ∀ a ∈ cs, ∀ b ∈ stolen l d, a ∉ stolen l d → a < b) ∧
      ∀ l', t.launch? l.lid = some l' → s.launch? l.lid = some l →
        l'.chunks = l.chunks.map fun c => if c.2 = d ∧ c.1 ∈ stolen l d then (c.1, die) else c) ∧
  (∀ (s : State) (gid : Nat),
    (s.group? gid = none → exec (.groupRetire gid) s = .next s) ∧
    ∀ g, s.group? gid = some g →
      (((∃ w ∈ s.waves, w.gid = gid) ∨ ∃ p ∈ s.posted, p.gid = gid) → exec (.groupRetire gid) s = .next s) ∧
      ∀ l, (∀ w ∈ s.waves, w.gid ≠ gid) → (∀ p ∈ s.posted, p.gid ≠ gid) → s.launch? g.lid = some l →
        l.cancelled = false → (∀ b ∈ g.bcbs.toList, b.fault = none) →
        (g.task = none → g.frag = none → l.attr.ndep = 0 →
          ∃ t l', exec (.groupRetire gid) s = .next t ∧ t.groups = s.groups.filter (fun x => x.gid != gid) ∧
            t.launch? g.lid = some l' ∧ (g.lin = l.front → l.front < l'.front) ∧
            (g.lin ≠ l.front → l'.front = l.front ∨ l.front ∈ l.retired) ∧
            t = { s with groups := t.groups, launches := t.launches, barcs := t.barcs }) ∧
        ∀ x, g.task = some x → x.joinc = 0 →
          ∃ t l', exec (.groupRetire gid) s = .next t ∧ t.groups = s.groups.filter (fun x => x.gid != gid) ∧
            t.launch? g.lid = some l' ∧ l'.tasks = l.tasks - 1 ∧ t = { s with groups := t.groups, launches := t.launches, barcs := t.barcs }) ∧
  (∀ (s : State) (lid lin : Nat) (l : Launch), s.launch? lid = some l → l.attr.ndep ≠ 0 → (∃ p ∈ l.told, p.2 = lin) →
    ∃ t l', exec (.retirementMessage lid lin) s = .next t ∧ t = { s with launches := t.launches } ∧
      t.launch? lid = some l' ∧ (∀ d < 4, (d, lin) ∈ l'.told) ∧ ∀ p ∈ l'.told, p ∈ l.told ∨ p.2 = lin) ∧
  (∀ (s : State) (lid : Nat) (l : Launch), s.launch? lid = some l →
    (workDone s l = false → exec (.launchComplete lid) s = .next s) ∧
    (workDone s l = true → ∃ t, exec (.launchComplete lid) s = .next t ∧
      ((devPages s (.walker (master s)) ⟨l.attr.asn, l.attr.root, none⟩ (completionWords l.attr) = [] →
        (∀ o, l.origin = some o → entryPages s o = []) → ∀ x ∈ t.launches, x.lid ≠ l.lid)) ∧
      (counters l.attr = [] → l.origin = none → l.queue = none → l.attr.wchk = false →
        t = dropLaunch { s with devDeclined := [] }.flushHost l.lid))) ∧
  ∀ (s : State) (job p : Nat), assocGet s.phases job = some p →
    let mine := (s.launches.filter fun l => l.attr.jobid == job).map fun l => l.attr.phase
    ((p ∈ mine ∨ gateOpen s job = false ∨ ∀ q ∈ mine, q ≤ p) → exec (.phaseAdvance job) s = .next s) ∧
    ∀ q ∈ mine, p < q → (∀ r ∈ mine, p < r → q ≤ r) → p ∉ mine → gateOpen s job = true →
      exec (.phaseAdvance job) s = .next { s with phases := assocSet s.phases job q }

/-! ### The fabric and the host interface (chapter 13) -/

/-- R293 to R297, R361, R382, R383, R288: a peer's read, write or atomic is performed where an inbound window covers it with its
permissions and no byte that it reads is poisoned, and is otherwise answered with an error, which carries the cause, and logged; a
remote enqueue that a window covers is submitted; an answer with an error withdraws a posted store, which its slot raises as an
imprecise cause or which is a launch fault once its wave has ended, ends the wait for a word of the device's own, and is a precise
trap of an unfinished access; a request that timed out fails so too, and its target may still perform it, which is free (log 1), a
posted store after the slot's earlier ones of the same bytes.  What a peer reads of a stack that is not backed is free (log 40);
PEER_DENIED beyond HBM4 and the form and window of a remote enqueue are log 34; the other slot that takes a store's fault, log 35. -/
def Obligations.PeersAndAnswers : Prop :=
  (∀ (s : State) (peer pa n : Nat), hostUp s = true →
    let ls := (List.range n).map fun i => (⟨.hbm, pa + i⟩ : Loc)
    let covered (need : InWin → Bool) : Prop := pa + n ≤ 0xC000000000 ∧
      ∃ w ∈ s.inwins.toList, w.base ≤ pa ∧ pa + n ≤ w.base + w.size ∧ w.lo ≤ peer ∧ peer ≤ w.hi ∧ need w = true
    let clean (xs : List Loc) : Prop := ∀ l ∈ xs, s.isBad l = false
    (¬covered (fun w => w.rd) → exec (.peerRead peer pa n) s = .next (peerFail s 0 peer pa n 0x2A)) ∧
    (covered (fun w => w.rd) → ¬clean ls → exec (.peerRead peer pa n) s = .next (peerFail s 0 peer pa n 0xA0)) ∧
    (covered (fun w => w.rd) → clean ls →
      ((∀ l ∈ ls, s.unbackedAt l = false) →
        exec (.peerRead peer pa n) s = .next { s with readData := ls.map (fun l => s.byte l), respCause := 0 }) ∧
      ∃ t, exec (.peerRead peer pa n) s = .next t ∧ t = { s with readData := t.readData, respCause := 0, free := t.free } ∧
        t.readData.length = n ∧
        ∀ i < n, s.unbackedAt ⟨.hbm, pa + i⟩ = false → t.readData.getD i 0 = s.byte ⟨.hbm, pa + i⟩) ∧
    (∀ data, data.length = n →
      (¬covered (fun w => w.w) → exec (.peerWrite peer pa data) s = .next (peerFail s 1 peer pa n 0x2A)) ∧
      (covered (fun w => w.w) → ¬clean (s.partBad ls) →
        exec (.peerWrite peer pa data) s = .next (peerFail s 1 peer pa n 0xA0)) ∧
      (covered (fun w => w.w) → clean (s.partBad ls) → ∃ t, exec (.peerWrite peer pa data) s = .next t ∧
        ((n ≠ 4 ∨ ∀ l ∈ s.launches, l.attr.mboxen = false) → wroteMemory s t (ls.zip data)))) ∧
    ∀ (wide : Bool) (op : Option AtomOp) (x y : DWord),
      n = (match op with | some o => atomBytes o | none => if wide then 8 else 4) →
      let all (w : InWin) : Bool := w.rd && w.w && w.atm
      let g := exec (.peerAtomic peer pa wide op x y) s
      (¬covered all → g = .next (peerFail s 2 peer pa n 0x2A)) ∧
      (covered all → ¬clean ls → g = .next (peerFail s 2 peer pa n 0xA0)) ∧
      (covered all → clean ls →
        let old := leOf (ls.map fun l => s.byte l)
        let cut (v : DWord) : Nat := v.toNat % 2 ^ (8 * n)
        let new := match op with
          | some o => table124 o old (cut x)
          | none => if old = cut x then cut y else old
        ∃ t, g = .next t ∧ t.readData = ls.map (fun l => s.byte l) ∧ wroteMemory s t (ls.zip (leBytes n new)))) ∧
  (∀ (s : State) (kind peer pa n cause : Nat),
    let t := peerFail s kind peer pa n cause
    let head := s.num ⟨.chip, 0x1F80000⟩ 4
    let at_ := 0x1F80040 + 32 * (head % 1024)
    t = { s with mem := t.mem, readData := [], respCause := cause } ∧ t.num ⟨.chip, 0x1F80000⟩ 4 = (head + 1) % 2 ^ 32 ∧
      t.num ⟨.chip, at_⟩ 8 = s.gts % 2 ^ 64 ∧ t.num ⟨.chip, at_ + 8⟩ 8 = pa % 2 ^ 52 ∧
      t.num ⟨.chip, at_ + 16⟩ 4 = (peer % 1024 + kind * 2 ^ 10 + cause * 2 ^ 16) % 2 ^ 32 ∧ t.num ⟨.chip, at_ + 20⟩ 4 = n % 2 ^ 32) ∧
  (∀ (s : State) (peer ref : Nat) (message : List Byte), hostUp s = true →
    let pa := leOf (message.take 8)
    let record := message.drop 8
    let covered : Prop := pa + 256 ≤ 0xC000000000 ∧
      ∃ w ∈ s.inwins.toList, w.base ≤ pa ∧ pa + 256 ≤ w.base + w.size ∧ w.lo ≤ peer ∧ peer ≤ w.hi
    (¬covered → exec (.remoteEnqueue peer ref message) s = .next (peerFail s 3 peer pa 256 0x2A)) ∧
    (covered → ∃ t x, exec (.remoteEnqueue peer ref message) s = .next t ∧
    t = { s with submissions := s.submissions ++ [x], serial := s.serial + 1, respCause := 0 } ∧ x.ref = ref ∧ x.remote = some peer ∧
    x.origin = none ∧ x.queue = none ∧ x.words.length = 32 ∧
    ∀ k < 32, (x.words.getD k 0).toNat = leOf ((record.drop (8 * k)).take 8) % 2 ^ 64)) ∧
  (∀ (s : State) (id cause : Nat) (p : Posted), s.posted.find? (fun p => p.id == id) = some p →
    let rest := s.posted.filter fun x => x.id != id
    let sent (a : Area) : Prop := ∃ c ∈ p.data, c.1.area = a
    (¬sent .peer → exec (.peerErrorResponse id cause) s = .next s) ∧
    (¬sent .host → exec (.hostFault id) s = .next s) ∧
    (∀ w, s.wave? p.wid = some w → s.waves.Pairwise (fun a b => a.wid ≠ b.wid) →
      let gave (c : Nat) (u : State) : Prop := u.posted = rest ∧ u.mem = s.mem ∧
        ∃ w', u.wave? p.wid = some w' ∧
          let to_ := if (w.slot p.sec).live then p.sec else !p.sec
          (w'.slot to_).imprecise = (w.slot to_).imprecise ++ [⟨c, p.addr, p.pc, 0⟩] ∧
          (w'.slot (!to_)).imprecise = (w.slot (!to_)).imprecise
      (sent .peer → ∃ u, exec (.peerErrorResponse id cause) s = .next u ∧ gave 0x28 u) ∧
      (sent .host → ∃ u, exec (.hostFault id) s = .next u ∧ gave 0x27 u)) ∧
    (sent .peer → s.wave? p.wid = none → ∀ l, s.launch? p.lid = some l → l.cancelled = false →
      ∃ u l', exec (.peerErrorResponse id cause) s = .next u ∧ u.posted = rest ∧
        u.launch? p.lid = some l' ∧ l'.cancelled = true ∧ l'.fault = some 0x28)) ∧
  (∀ (s : State) (id : Nat) (p : Posted), s.posted.find? (fun p => p.id == id) = some p →
    let g := exec (.peerTimeout id) s
    let sent : Prop := ∃ c ∈ p.data, c.1.area = .peer
    (overtakes s p = true → g = .next s) ∧
    (overtakes s p = false → ¬sent → g = .next { s with free := s.free + 1 }) ∧
    (overtakes s p = false → sent → (∀ c ∈ p.data, c.1.area ≠ .l2) →
      (∀ w, s.wave? p.wid = some w → s.waves.Pairwise (fun a b => a.wid ≠ b.wid) →
        ∃ u w', g = .next u ∧ u.posted = s.posted.filter (fun x => x.id != id) ∧
          wroteMemory s u (if Config.freeNat s.free 0 % 2 = 1 then p.data else []) ∧ u.wave? p.wid = some w' ∧
          let to_ := if (w.slot p.sec).live then p.sec else !p.sec
          (w'.slot to_).imprecise = (w.slot to_).imprecise ++ [⟨0x29, p.addr, p.pc, 0⟩] ∧
          (w'.slot (!to_)).imprecise = (w.slot (!to_)).imprecise) ∧
      (s.wave? p.wid = none → ∀ l, s.launch? p.lid = some l → l.cancelled = false →
        ∃ u l', g = .next u ∧ u.posted = s.posted.filter (fun x => x.id != id) ∧
          u.launch? p.lid = some l' ∧ l'.cancelled = true ∧ l'.fault = some 0x29))) ∧
  (∀ (s : State) (cause : Nat) (x : DevWord) (xs : List DevWord), s.devQueue = x :: xs →
    s.posted.find? (fun p => p.id == x.id) = none →
      exec (.peerErrorResponse x.id cause) s = .next (answerDev s (some 0x28)) ∧
        exec (.hostFault x.id) s = .next (answerDev s (some 0x27))) ∧
  ∀ (s : State) (id cause : Nat), s.posted.find? (fun p => p.id == id) = none → (∀ x, s.devQueue.head? = some x → x.id ≠ id) →
    let trap (t : State) (f : Flight) (c : Nat) (info : DWord) : Host.Outcome State Fault Refusal :=
      let u : State := { t with free := t.free + 1 }
      match answered t f (answerArea c) with
      | none => .next t
      | some (.whole a) => .next (raise (keepWords f.id none u)
          { cause := c, mask := some f.mask, laddr := fun _ => BitVec.ofInt 64 a, info := info })
      | some (.lanes m a) => .next (raise u
          { cause := c, mask := some m, laddr := fun l => BitVec.ofInt 64 (a l), info := info })
    (∀ wid sec f, flightOf s id = some (wid, sec, f) → (s.bring wid sec).cur.ra = none →
      exec (.peerErrorResponse id cause) s = trap (s.bring wid sec) f 0x28 (BitVec.ofNat 64 (cause % 256)) ∧
        exec (.hostFault id) s = trap (s.bring wid sec) f 0x27 0) ∧
    (∀ v wid sec f, v = { (if Config.freeNat s.free 0 % 2 = 1 then lateWrite s id else s) with free := s.free + 1 } →
      v.posted.find? (fun p => p.id == id) = none → (∀ x, v.devQueue.head? = some x → x.id ≠ id) →
      flightOf v id = some (wid, sec, f) → (v.bring wid sec).cur.ra = none →
      exec (.peerTimeout id) s = trap (v.bring wid sec) f 0x29 0) ∧
    (flightOf s id = none → (∀ c ∈ s.copies, c.id ≠ id) → (∀ c ∈ s.colls, c.id ≠ id) → (∀ u ∈ s.updates, u.id ≠ id) →
      (∀ e ∈ s.entries, e.id ≠ id) → exec (.peerErrorResponse id cause) s = .next s ∧
        exec (.peerTimeout id) s = .next { s with free := s.free + 1 } ∧ exec (.hostFault id) s = .next s)

/-- R8, R58, R279, R287 to R291, R294, R297, R305, R333, R349, R418: QTAIL and the other words of BAR0 take what the host writes
where software may write, and QTAIL reads as zero; a vector whose mask bit is cleared is sent if it was pending, and the host
reads which are; BAR2 reads and writes HBM4, pages beyond it read as ones and drop writes; the entry at a queue's head is refused
or performed by the step of its kind, and completed.  Masked vectors and the place of the pending-bit array are log 58; that a
marker holds QHEAD and that a write of ATTCTL sets SEL alone, log 32; a malformed INWIN and STATUS 2 of an unbound post, log 33;
a stack that is not backed, whose bytes BAR2 neither stores nor gives back, log 40. -/
def Obligations.HostInterface : Prop :=
  (∀ (s : State) (q v : Nat), hostUp s = true → q < 64 →
    exec (.qtail q v) s = .next { s with
      queues := s.queues.setIfInBounds q { s.queues.getD q HostQueue.zero with qtail := v % 2 ^ 32 } }) ∧
  (∀ (s : State) (q : Nat), entryReady s q = false →
    ∀ i ∈ [Instr.queueLaunch q, .mailboxPost q, .queueMarker q, .faultsvc q, .peertmo q, .inwin q, .gateopen q, .pkgid q],
      exec i s = .next s) ∧
  (∀ (s : State) (q : Nat), entryReady s q = true →
    let x := s.queues.getD q HostQueue.zero
    let e := entryAt s x
    let all := [Instr.queueLaunch q, .mailboxPost q, .queueMarker q, .faultsvc q, .peertmo q, .inwin q, .gateopen q, .pkgid q]
    let good : Prop := liveDies s ≠ [] ∧ entryMalformed e = false ∧ opcodeUnlisted e = false
    let op := e.arg0 % 256
    (liveDies s = [] → ∀ i ∈ all, exec i s = .next (endEntry s q e 2 0x8F)) ∧
    (liveDies s ≠ [] → entryMalformed e = true → ∀ i ∈ all, exec i s = .next (endEntry s q e 2 0x96)) ∧
    (liveDies s ≠ [] → entryMalformed e = false → opcodeUnlisted e = true →
      ∀ i ∈ all, exec i s = .next (endEntry s q e 2 0x97)) ∧
    (good → e.kind = 0 → op ≠ 0 → exec (.queueLaunch q) s = .next (endEntry s q e 2 0x80)) ∧
    (good → e.kind = 0 → op = 0 → ∀ ls xs, access s (.mailbox q) ⟨x.qasn, x.qroot, none⟩ .load e.arg0 256 = .ok (ls, xs) →
      ∃ t y, exec (.queueLaunch q) s = .next t ∧ t.submissions = s.submissions ++ [y] ∧ y.ref = e.arg0 ∧ y.queue = some q ∧
        y.words.map (fun w => w.toNat) = (wordsFor s true ls).map (fun w => w % 2 ^ 64) ∧ t.mem = s.mem ∧
        (t.queues.getD q HostQueue.zero).qhead = x.qhead ∧ (t.queues.getD q HostQueue.zero).busy = true) ∧
    (good → e.kind = 1 → boundTo s (e.arg0 % 4096) = none → exec (.mailboxPost q) s = .next (endEntry s q e 2 0x84)) ∧
    (good → e.kind = 1 → ∀ l, boundTo s (e.arg0 % 4096) = some l →
      exec (.mailboxPost q) s = .next (endEntry (postMessage s l.lid (e.arg0 / 2 ^ 32)) q e 0 0)) ∧
    (good → e.kind = 3 → exec (.queueMarker q) s = .next (if x.unfinished = [] then endEntry s q e 0 0 else s)) ∧
    (good → e.kind = 2 → op = 1 →
      (e.arg1 < 4 ∧ e.arg2 + 64 ≤ 0xC000000000 ∧ targetOk s e.arg2 = true → exec (.faultsvc q) s =
        .next (endEntry { s with faultDesc := s.faultDesc.setIfInBounds e.arg1 (some e.arg2) } q e 0 0)) ∧
      (¬(e.arg1 < 4 ∧ e.arg2 + 64 ≤ 0xC000000000 ∧ targetOk s e.arg2 = true) →
        exec (.faultsvc q) s = .next (endEntry s q e 2 0x97))) ∧
    (good → e.kind = 2 → op = 2 → exec (.peertmo q) s = .next
      (if 100 ≤ e.arg1 ∧ e.arg1 ≤ 100000 then endEntry { s with peerTimeout := e.arg1 } q e 0 0 else endEntry s q e 2 0x97)) ∧
    (good → e.kind = 2 → op = 3 →
      ((64 ≤ e.arg1 ∨ 0xC000000000 < e.arg2 + 32 ∨ windowOf s e.arg2 = none) →
        exec (.inwin q) s = .next (endEntry s q e 2 0x97)) ∧
      ∀ w, e.arg1 < 64 → e.arg2 + 32 ≤ 0xC000000000 → windowOf s e.arg2 = some w →
        exec (.inwin q) s = .next (endEntry { s with inwins := s.inwins.setIfInBounds e.arg1 w } q e 0 0) ∧
        w.base = s.num ⟨.hbm, e.arg2⟩ 8 ∧ w.size = s.num ⟨.hbm, e.arg2 + 8⟩ 8 ∧ w.base % 65536 = 0 ∧ w.size % 65536 = 0) ∧
    (good → e.kind = 2 → op = 4 → e.arg1 < 2 ^ 32 → e.arg2 < 2 ^ 16 → exec (.gateopen q) s = .next
      (endEntry { s with gates := s.gates.filter fun g => !(g.1 == e.arg1 && e.arg2.testBit g.2) } q e 0 0)) ∧
    (good → e.kind = 2 → op = 4 → (2 ^ 32 ≤ e.arg1 ∨ 2 ^ 16 ≤ e.arg2) →
      exec (.gateopen q) s = .next (endEntry s q e 2 0x97)) ∧
    (good → e.kind = 2 → op = 5 →
      let busy : Prop := s.launches ≠ [] ∨ ∃ c ∈ s.colls, c.outcome = none
      (1023 < e.arg1 ∨ busy → exec (.pkgid q) s = .next (endEntry s q e 2 0x97)) ∧
      (¬(1023 < e.arg1 ∨ busy) → exec (.pkgid q) s = .next (endEntry { s with pkgId := e.arg1 } q e 0 0))) ∧
    (e.compl = 0 → x.begun ∉ x.unfinished → s.devQueue = [] → ∀ status cause, ∃ t, endEntry s q e status cause = t ∧
      t = { s with queues := t.queues, msix := t.msix, msixPending := t.msixPending, devDeclined := [] } ∧ (∀ k, k ≠ q → t.queues[k]? = s.queues[k]?) ∧
      t.queues.getD q HostQueue.zero = { x with qhead := (x.qhead + 1) % x.qsize, begun := x.begun + 1, busy := false } ∧
      t.msix = (if e.irq = true ∧ vecMasked s e.vec = false then e.vec :: s.msix else s.msix) ∧
      (e.irq = true → vecMasked s e.vec = true → e.vec ∈ t.msixPending) ∧
      ((e.irq = false ∨ vecMasked s e.vec = false) → t.msixPending = s.msixPending))) ∧
  (∀ (s : State) (off n : Nat), s.powered = true →
    let pa := s.apbase * 2 ^ 30 + off
    (s.recovery = true → exec (.bar2Read off n) s = .next { s with readData := List.replicate n 0xFF }) ∧
    (s.recovery = false → ∃ t, exec (.bar2Read off n) s = .next t ∧ t.readData.length = n ∧
      t = { s with readData := t.readData, free := t.free, herr := t.herr } ∧ (pa + n ≤ 0xC000000000 → t.herr = s.herr) ∧
      ∀ i < n, (0xC000000000 ≤ pa + i → t.readData.getD i 0 = 0xFF) ∧
        (pa + i < 0xC000000000 → s.isBad ⟨.hbm, pa + i⟩ = false → s.unbackedAt ⟨.hbm, pa + i⟩ = false →
          t.readData.getD i 0 = s.byte ⟨.hbm, pa + i⟩))) ∧
  (∀ (s : State) (off : Nat) (data : List Byte), hostUp s = true → ∃ t, exec (.bar2Write off data) s = .next t ∧
    wroteMemory s t (((List.range data.length).zip data).filterMap fun p =>
      let l : Loc := ⟨.hbm, s.apbase * 2 ^ 30 + off + p.1⟩
      if l.addr < 0xC000000000 ∧ s.unbackedAt l = false then some (l, p.2) else none)) ∧
  (∀ (s : State) (off n v : Nat), s.powered = false → exec (.bar0RegisterWrite off n v) s = .next s) ∧
  ∀ (s : State) (off v : Nat), hostUp s = true → off % 4 = 0 → v < 2 ^ 32 →
    let g := exec (.bar0RegisterWrite off 4 v) s
    (off = 0x2000 → g = .next { s with herr := s.herr &&& ~~~(BitVec.ofNat 32 v) }) ∧
    (off = 0x4000 → g = .next { s with attest := { s.attest with sel := v % 128 } }) ∧
    (∀ k, k < 64 → (s.queues.getD k HostQueue.zero).qhead = (s.queues.getD k HostQueue.zero).qtail →
      off = 0x1008 + 0x40 * k →
      g = .next { s with queues := s.queues.setIfInBounds k { s.queues.getD k HostQueue.zero with qsize := v } }) ∧
    (∀ k, k < 64 → (s.queues.getD k HostQueue.zero).qhead ≠ (s.queues.getD k HostQueue.zero).qtail →
      0x1000 + 0x40 * k ≤ off → off < 0x1040 + 0x40 * k → ∃ t, g = .next t ∧ t.queues = s.queues ∧ t.attest = s.attest) ∧
    (0x100000 ≤ off → off < 0x108000 → ∃ t, g = .next t ∧
      t = { s with msixTable := t.msixTable, msix := t.msix, msixPending := t.msixPending } ∧
      (∀ i < 4, msixByte t (off - 0x100000 + i) = BitVec.ofNat 8 (v / 256 ^ i)) ∧
      (∀ k ∈ s.msixPending, vecMasked t k = false → k ∈ t.msix ∧ k ∉ t.msixPending) ∧
      ∀ k ∈ s.msixPending, vecMasked t k = true → k ∈ t.msixPending) ∧
    let words (t : State) : Nat := leOf t.readData
    (off = 0x2000 → words (bar0Read off 4 s) = s.herr.toNat) ∧
    (∀ k, k < 64 → off = 0x1010 + 0x40 * k → words (bar0Read off 4 s) = 0) ∧
    (∀ i < 32, 0x108000 ≤ off → off < 0x108100 →
      (words (bar0Read off 4 s)).testBit i = s.msixPending.contains (8 * (off - 0x108000) + i)) ∧
    ∀ k, k < 64 → off = 0x100C + 0x40 * k →
      words (bar0Read off 4 s) = (s.queues.getD k HostQueue.zero).qhead % 2 ^ 32

/-! ### Bring-up, fencing and power (chapters 16 and 17) -/

/-- R341, R391 to R393, R397 to R401: a reset ends all work, verifies the images and leaves the registers at their reset values, in
the recovery state after a failed image; what lies outside the part and the next leaf outlive it, as they do a loss of power.  A
row of HBM4 that repeats an error sets ADVISE, and the next reset repairs it.  A fenced die loses its groups, its lines and its
share of the work; GO and its completion sign the message taken at acceptance, and spent leaves give STATUS 3 to every request;
the clock moves in steps of 50 MHz.  The choices in it: the clock of 1000 MHz and the PKGID of a reset, log 5; spent leaves before
a SEL above 64, log 32; the floor of 50 MHz, log 38; what a fence loses, log 39; SHAKE256 as the digest, log 63; the rows, log 69. -/
def Obligations.ResetAndPower : Prop :=
  (∀ (s : State) (f : ResetFindings), ∃ t, exec (.coldReset f) s = .next t ∧
    t.powered = true ∧ t.w.live = false ∧ t.others = [] ∧ t.groups = [] ∧ t.launches = [] ∧ t.deques = [] ∧ t.copies = [] ∧
    t.shadows = [] ∧ t.tiles = [] ∧ t.entries = [] ∧ t.lines = [] ∧ t.tlb = [] ∧ t.bad = [] ∧ t.phases = [] ∧
    t.queues = Vector.replicate 64 HostQueue.zero ∧ t.inwins = Vector.replicate 64 InWin.zero ∧ t.pkgId = 0 ∧ t.herr = 0 ∧
    t.apbase = 0 ∧ t.pslice = 100000 ∧ t.clock = 1000 ∧ t.attest.busy = false ∧ t.attest.status = 0 ∧ t.attest.sel = 64 ∧
    t.attest.nextLeaf = s.attest.nextLeaf ∧
    (∀ l : Loc, (l.area = .host ∨ l.area = .peer) → t.byte l = Mem.get s.mem l.key) ∧
    (f.ctrlOk = false → t.recovery = true ∧ t.attest.vstat = 1 ∧ t.attest.meas = List.replicate 32 0) ∧
    (f.ctrlOk = true → t.attest.meas = f.images.foldl (fun m d => shake256 32 (m ++ d)) (List.replicate 32 0)) ∧
    (f.ctrlOk = true → f.firmwareOk = false → t.recovery = true ∧ t.attest.vstat = 2) ∧
    (f.ctrlOk = true → f.firmwareOk = true → t.recovery = false ∧ t.attest.vstat = 0 ∧ t.gts = 0 ∧
      t.num ⟨.chip, 0x1F00000⟩ 4 = 0 ∧ t.badRows = [] ∧ t.repairs = [] ∧ ∀ d < 4, fenced t d = (f.weakDies ++ f.deadStacks.map fun k => k / 3).contains d)) ∧
  (∀ (s : State) (f : ResetFindings),
    (s.powered = true → exec (.fundamentalReset f) s = exec (.coldReset f) s ∧ exec (.rst f) s = exec (.coldReset f) s) ∧
    (s.powered = false → exec (.fundamentalReset f) s = .next s ∧ exec (.rst f) s = .next s)) ∧
  (∀ (s : State), ∃ t, exec .powerLoss s = .next t ∧ t.powered = false ∧ t.waves = [] ∧ t.launches = [] ∧
    t.attest.nextLeaf = s.attest.nextLeaf ∧ t.repairs = s.repairs ∧ ∀ l : Loc, (l.area = .host ∨ l.area = .peer) → t.byte l = Mem.get s.mem l.key) ∧
  (∀ (s : State),
    let a := s.attest
    ((hostUp s = false ∨ a.busy = true) → exec .go s = .next s) ∧
    (hostUp s = true → a.busy = false →
      (64 < a.sel → a.nextLeaf < 2 ^ 20 → exec .go s = .next { s with attest := { a with status := 2 } }) ∧
      (2 ^ 20 ≤ a.nextLeaf → exec .go s = .next { s with attest := { a with status := 3 } }) ∧
      (a.sel ≤ 64 → a.nextLeaf < 2 ^ 20 →
        let c := if a.sel < 64 then leBytes 32 (s.queues.getD a.sel HostQueue.zero).chain else List.replicate 32 0
        exec .go s = .next { s with attest := { a with
          busy := true, nextLeaf := a.nextLeaf + 1
          pendingMsg := shake256 32 (a.nonce ++ a.meas ++ c ++ leBytes 4 s.health.toNat) } })) ∧
    ((hostUp s = false ∨ a.busy = false) → exec .signatureComplete s = .next s) ∧
    (hostUp s = true → a.busy = true → ∃ t, exec .signatureComplete s = .next t ∧
      t = { s with attest := { a with busy := false, status := 1, msg := a.pendingMsg, sig := t.attest.sig } } ∧
      t.attest.sig.length = 2820)) ∧
  (∀ (s : State),
    (hostUp s = true → 50 < s.clock → exec .clockStepDown s = .next { s with clock := s.clock - 50 }) ∧
    ((hostUp s = false ∨ s.clock ≤ 50) → exec .clockStepDown s = .next s) ∧
    (hostUp s = true → exec .clockStepUp s = .next { s with clock := min 1000 (s.clock + 50) })) ∧
  (∀ (s : State) (row : Nat),
    (row ∉ s.repairs → row ∉ s.badRows → rowError s row = { s with badRows := row :: s.badRows }) ∧
    (row ∉ s.repairs → row ∈ s.badRows → ∃ t, rowError s row = t ∧ t.health.getLsbD 31 = true ∧ t.repairs = row :: s.repairs ∧
      t = { s with health := t.health, repairs := t.repairs, mem := t.mem, eventSeq := t.eventSeq, free := t.free }) ∧
    (row ∈ s.repairs → rowError s row = s)) ∧
  (∀ (s : State) (die : Nat),
    ((hostUp s = false ∨ 4 ≤ die ∨ fenced s die = true) → exec (.dieFence die) s = .next s) ∧
    (hostUp s = true → die < 4 → fenced s die = false → (∃ d < 4, d ≠ die ∧ fenced s d = false) →
      (∀ g ∈ s.groups, (s.launch? g.lid).isSome = true) → ∃ t, exec (.dieFence die) s = .next t ∧ fenced t die = true ∧
        (∀ d < 4, d ≠ die → fenced t d = fenced s d) ∧ t.health.getLsbD 31 = true ∧
        (∀ g ∈ t.groups, g.onCore = true → g.core / 96 ≠ die) ∧ (∀ l ∈ t.launches, ∀ c ∈ l.chunks, c.2 ≠ die) ∧
        ∀ x ∈ t.lines, ∀ c, x.core = some c → c % 384 / 96 ≠ die)) ∧
  (∀ (s : State), (hostUp s = false → exec .thermalFence s = .next s) ∧
    (hostUp s = true → ∃ t, exec .thermalFence s = .next t ∧ ∀ d < 4, fenced t d = true)) ∧
  (∀ (s : State) (port : Nat),
    ((hostUp s = false ∨ 12 ≤ port ∨ s.health.getLsbD (12 + port) = true) → exec (.portDegrade port) s = .next s) ∧
    (hostUp s = true → port < 12 → s.health.getLsbD (12 + port) = false → ∃ t, exec (.portDegrade port) s = .next t ∧
      t.health = s.health ||| BitVec.ofNat 32 (2 ^ 31 + 2 ^ (12 + port)) ∧
      t = { s with health := t.health, mem := t.mem, eventSeq := t.eventSeq })) ∧
  ∀ (s : State) (die : Nat),
    ((hostUp s = false ∨ 4 ≤ die) → exec (.uncorrectableLogicError die) s = .next s) ∧
    (hostUp s = true → die < 4 →
      let log := (s.logicErrors.filter fun e => decide (s.gts ≤ e.2 + 1000000000)) ++ [(die, s.gts)]
      let s1 : State := { s with
        logicErrors := log, ueCount := s.ueCount.setIfInBounds die (min (s.ueCount.getD die 0 + 1) 0xFFFFFFFF) }
      ((log.filter fun e => e.1 == die).length ≤ 16 → exec (.uncorrectableLogicError die) s = .next s1) ∧
      (16 < (log.filter fun e => e.1 == die).length →
        exec (.uncorrectableLogicError die) s = exec (.dieFence die) s1))

/-! ### The whole machine -/

/-- R1, R6, R8, R14, R294, R384, R391, R397, Tables 13.2, 16.3 and 17.2: what the manual says reset leaves: the time stamp, the
registers of the host interface, HEALTH and the preemption slice, no work, no window open, no chain begun; the byte list is in its
canonical form.  The peer timeout of 2 ms is Table 13.4's; PKGID, to which the manual gives no reset value, is 0 by log 5. -/
def Obligations.ResetValues : Prop :=
  let s := State.reset
  s.gts = 0 ∧ s.waves = [] ∧ s.launches = [] ∧ s.groups = [] ∧ s.health = 0 ∧ s.pslice = 100000 ∧ s.herr = 0 ∧ s.apbase = 0 ∧
    s.peerTimeout = 2000 ∧ s.pkgId = 0 ∧ s.attest.busy = false ∧ s.attest.status = 0 ∧ s.attest.vstat = 0 ∧ s.attest.sel = 64 ∧
    (∀ q < 64, (s.queues.getD q HostQueue.zero) = HostQueue.zero) ∧
    (∀ i < 64, (s.inwins.getD i InWin.zero).size = 0) ∧ s.eventSeq = [] ∧ s.num ⟨.chip, 0x1F00000⟩ 4 = 0 ∧ Mem.wf s.mem = true

/-- Every move keeps the byte list of every storage in its canonical form: strictly rising keys, and no entry for what an unlisted
byte reads as.  So equal memories are equal data. -/
def Obligations.MemoryInvariant : Prop :=
  ∀ (s t : State), Mem.wf s.mem = true → step s = .next t → Mem.wf t.mem = true

/-- R20, R38, R39: words worked out bit by bit in the manual decode to the instructions that they stand for: Tables 6.11, 14.3
and 15.5, and the worked encodings of chapters 1, 3, 7, 8, 10 and 13. -/
def Obligations.DecodeWords : Prop :=
  decodeTableWord 16 0x1C62 = some (.add16 false 7 3) ∧ decodeTableWord 32 0x4182C51D = some (.ffma 10 11 12 4) ∧
    decodeTableWord 32 0xA0C14213 = some (.sel 2 4 5 6) ∧ decodeTableWord 32 0x0CE14211 = some (.shi .rotl 4 5 7) ∧
    decodeTableWord 32 0x0A110341 = some (.stC 0 .b64 2 4 6) ∧ decodeTableWord 32 0x20618257 = some (.cpy 2 3 6 4) ∧
    decodeTableWord 32 0x3E00405D = some (.mwait 3 1) ∧ decodeTableWord 32 0x1800885D = some (.astore 1 2 16) ∧
    decodeTableWord 32 0x04250063 = some (.tapeMark 0 true 20) ∧ decodeTableWord 32 0x02220065 = some (.col 0 true false 8) ∧
    decodeTableWord 32 0xFFFFFA67 = some (.br (-12)) ∧ decodeTableWord 32 0x00104271 = some (.fget 2 4) ∧
    decodeTableWord 16 0x0000 = none
end

