-- ==== Sys2Proof/Laws/State.lean ====
section
/-! SUPPORT. One lemma per accessor per update of registers and slot bookkeeping, so that no proof unfolds a record
update. -/
namespace Sys2Proof.Machine

/-! ### Lists of lanes, and lists of pairs -/

@[simp] theorem Lanes.at_mkLanes (f : Nat → Word) (l : Nat) : Lanes.at (mkLanes f) l = if l < 32 then f l else 0 := by
  unfold Lanes.at mkLanes
  by_cases h : l < 32 <;> simp [List.getD_eq_getElem?_getD, h]

@[simp] theorem assocGet_assocSet_self {α : Type} (xs : List (Nat × α)) (k : Nat) (v : α) :
    assocGet (assocSet xs k v) k = some v := by
  induction xs with
  | nil => simp [assocSet, assocGet]
  | cons p t ih =>
    obtain ⟨a, b⟩ := p
    unfold assocSet
    split
    · simp [assocGet]
    · split
      · simp [assocGet]
      · rename_i h1 h2
        simp [assocGet, h2, ih]

theorem assocGet_assocSet_ne {α : Type} (xs : List (Nat × α)) {k k' : Nat} (v : α) (h : k' ≠ k) :
    assocGet (assocSet xs k v) k' = assocGet xs k' := by
  induction xs with
  | nil => simp [assocSet, assocGet, h]
  | cons p t ih =>
    obtain ⟨a, b⟩ := p
    unfold assocSet
    split
    · simp [assocGet, h]
    · split
      · rename_i h1 h2
        subst h2
        simp [assocGet, h]
      · simp only [assocGet, ih]

/-! ### Vector registers -/

theorem Wave.vreg_setVreg_self (w : Wave) (mask : Word) (r : Nat) (f : Nat → Word) {l : Nat} (h : l < 32) :
    (w.setVreg mask r f).vreg r l = if mask.getLsbD l then f l else w.vreg r l := by
  simp [Wave.vreg, Wave.setVreg, h]

theorem Wave.vreg_setVreg_ne (w : Wave) (mask : Word) {r r' : Nat} (f : Nat → Word) (l : Nat) (h : r' ≠ r) :
    (w.setVreg mask r f).vreg r' l = w.vreg r' l := by
  simp [Wave.vreg, Wave.setVreg, assocGet_assocSet_ne _ _ h]

theorem v_setVMask_self (s : State) (mask : Word) (r : Nat) (f : Nat → Word) {l : Nat} (h : l < 32) :
    (s.setVMask mask r f).v r l = if mask.getLsbD l then f l else s.v r l := Wave.vreg_setVreg_self s.w mask r f h

theorem v_setVMask_ne (s : State) (mask : Word) {r r' : Nat} (f : Nat → Word) (l : Nat) (h : r' ≠ r) :
    (s.setVMask mask r f).v r' l = s.v r' l := Wave.vreg_setVreg_ne s.w mask f l h

theorem v_setV_self (s : State) (r : Nat) (f : Nat → Word) {l : Nat} (h : l < 32) :
    (s.setV r f).v r l = if s.m0.getLsbD l then f l else s.v r l := v_setVMask_self s s.m0 r f h

theorem v_setV_ne (s : State) {r r' : Nat} (f : Nat → Word) (l : Nat) (h : r' ≠ r) :
    (s.setV r f).v r' l = s.v r' l := v_setVMask_ne s s.m0 f l h

@[simp] theorem m0_setVMask (s : State) (m : Word) (r : Nat) (f : Nat → Word) : (s.setVMask m r f).m0 = s.m0 := rfl
@[simp] theorem m0_setV (s : State) (r : Nat) (f : Nat → Word) : (s.setV r f).m0 = s.m0 := rfl
@[simp] theorem sreg_setVMask (s : State) (m : Word) (r : Nat) (f : Nat → Word) (n : Nat) :
    (s.setVMask m r f).sreg n = s.sreg n := rfl
@[simp] theorem sreg_setV (s : State) (r : Nat) (f : Nat → Word) (n : Nat) : (s.setV r f).sreg n = s.sreg n := rfl
@[simp] theorem mreg_setVMask (s : State) (m : Word) (r : Nat) (f : Nat → Word) (n : Nat) :
    (s.setVMask m r f).mreg n = s.mreg n := rfl
@[simp] theorem mreg_setV (s : State) (r : Nat) (f : Nat → Word) (n : Nat) : (s.setV r f).mreg n = s.mreg n := rfl
@[simp] theorem byte_setVMask (s : State) (m : Word) (r : Nat) (f : Nat → Word) (l : Loc) :
    (s.setVMask m r f).byte l = s.byte l := rfl
@[simp] theorem byte_setV (s : State) (r : Nat) (f : Nat → Word) (l : Loc) : (s.setV r f).byte l = s.byte l := rfl

@[simp] theorem loWord_dword (a b : Word) : loWord (dword a b) = a := by
  apply BitVec.eq_of_toNat_eq
  have h1 := a.isLt
  have h2 := b.isLt
  simp [loWord, dword]
  omega
@[simp] theorem hiWord_dword (a b : Word) : hiWord (dword a b) = b := by
  apply BitVec.eq_of_toNat_eq
  have h1 := a.isLt
  have h2 := b.isLt
  simp [hiWord, dword]
  omega
@[simp] theorem dword_lo_hi (x : DWord) : dword (loWord x) (hiWord x) = x := by
  apply BitVec.eq_of_toNat_eq
  have h1 := x.isLt
  simp [loWord, hiWord, dword]
  omega

theorem v64_setV64Mask_self (s : State) (m : Word) (r : Nat) (f : Nat → DWord) {l : Nat} (h : l < 32) :
    (s.setV64Mask m r f).v64 r l = if m.getLsbD l then f l else s.v64 r l := by
  unfold State.v64 State.setV64Mask
  rw [v_setVMask_ne _ _ _ _ (by omega), v_setVMask_self _ _ _ _ h, v_setVMask_self _ _ _ _ h,
    v_setVMask_ne _ _ _ _ (by omega)]
  split <;> simp

theorem v_setV64Mask_ne (s : State) (m : Word) {r r' : Nat} (f : Nat → DWord) (l : Nat) (h : r' ≠ r) (h1 : r' ≠ r + 1) :
    (s.setV64Mask m r f).v r' l = s.v r' l := by
  unfold State.setV64Mask
  rw [v_setVMask_ne _ _ _ _ h1, v_setVMask_ne _ _ _ _ h]

@[simp] theorem m0_setV64 (s : State) (r : Nat) (f : Nat → DWord) : (s.setV64 r f).m0 = s.m0 := rfl
@[simp] theorem sreg_setV64 (s : State) (r : Nat) (f : Nat → DWord) (n : Nat) : (s.setV64 r f).sreg n = s.sreg n := rfl
@[simp] theorem mreg_setV64 (s : State) (r : Nat) (f : Nat → DWord) (n : Nat) : (s.setV64 r f).mreg n = s.mreg n := rfl
@[simp] theorem byte_setV64 (s : State) (r : Nat) (f : Nat → DWord) (l : Loc) : (s.setV64 r f).byte l = s.byte l := rfl

/-! ### Scalar and mask registers -/

@[simp] theorem sreg_zero (s : State) : s.sreg 0 = 0 := by simp [State.sreg]

theorem sreg_setS_self (s : State) {r : Nat} (x : Word) (h0 : r ≠ 0) (h : r < 64) : (s.setS r x).sreg r = x := by
  simp [State.sreg, State.setS, h0, State.onCur, Vector.getD, Array.getD, h]

theorem sreg_setS_ne (s : State) {r r' : Nat} (x : Word) (h : r' ≠ r) : (s.setS r x).sreg r' = s.sreg r' := by
  by_cases h0 : r = 0
  · simp [State.setS, h0]
  · by_cases h1 : r' = 0
    · simp [h1]
    · simp only [State.sreg, State.setS, h0, h1, if_false, State.onCur, Vector.getD, Array.getD]
      by_cases hr : r' < 64
      · simp [hr, h.symm]
      · simp [hr]

@[simp] theorem m0_setS (s : State) (r : Nat) (x : Word) : (s.setS r x).m0 = s.m0 := by
  unfold State.setS; split <;> rfl
@[simp] theorem v_setS (s : State) (r : Nat) (x : Word) (n l : Nat) : (s.setS r x).v n l = s.v n l := by
  unfold State.setS; split <;> rfl
@[simp] theorem mreg_setS (s : State) (r : Nat) (x : Word) (n : Nat) : (s.setS r x).mreg n = s.mreg n := by
  unfold State.setS; split <;> rfl
@[simp] theorem byte_setS (s : State) (r : Nat) (x : Word) (l : Loc) : (s.setS r x).byte l = s.byte l := by
  unfold State.setS; split <;> rfl

theorem mreg_setM_self (s : State) {k : Nat} (x : Word) (h0 : k ≠ 0) (h : k < 8) : (s.setM k x).mreg k = x := by
  simp [State.mreg, State.setM, h0, State.onCur, Vector.getD, Array.getD, h]

theorem mreg_setM_ne (s : State) {k k' : Nat} (x : Word) (h : k' ≠ k) : (s.setM k x).mreg k' = s.mreg k' := by
  by_cases h0 : k = 0
  · simp [State.setM, h0]
  · by_cases h1 : k' = 0
    · simp [State.mreg, State.setM, h0, h1, State.m0, State.onCur]
    · simp only [State.mreg, State.setM, h0, h1, if_false, State.onCur, Vector.getD, Array.getD]
      by_cases hr : k' < 8
      · simp [hr, h.symm]
      · simp [hr]

@[simp] theorem m0_setM (s : State) (k : Nat) (x : Word) : (s.setM k x).m0 = s.m0 := by
  unfold State.setM; split <;> rfl
@[simp] theorem v_setM (s : State) (k : Nat) (x : Word) (n l : Nat) : (s.setM k x).v n l = s.v n l := by
  unfold State.setM; split <;> rfl
@[simp] theorem sreg_setM (s : State) (k : Nat) (x : Word) (n : Nat) : (s.setM k x).sreg n = s.sreg n := by
  unfold State.setM; split <;> rfl
@[simp] theorem byte_setM (s : State) (k : Nat) (x : Word) (l : Loc) : (s.setM k x).byte l = s.byte l := by
  unfold State.setM; split <;> rfl

/-! ### Updates of the wave in hand leave the rest of the machine as it is -/

@[simp] theorem mem_onWave (s : State) (f : Wave → Wave) : (s.onWave f).mem = s.mem := rfl
@[simp] theorem bad_onWave (s : State) (f : Wave → Wave) : (s.onWave f).bad = s.bad := rfl
@[simp] theorem unbacked_onWave (s : State) (f : Wave → Wave) : (s.onWave f).unbacked = s.unbacked := rfl
@[simp] theorem badRows_onWave (s : State) (f : Wave → Wave) : (s.onWave f).badRows = s.badRows := rfl
@[simp] theorem repairs_onWave (s : State) (f : Wave → Wave) : (s.onWave f).repairs = s.repairs := rfl
@[simp] theorem oldTapes_onWave (s : State) (f : Wave → Wave) : (s.onWave f).oldTapes = s.oldTapes := rfl
@[simp] theorem shadows_onWave (s : State) (f : Wave → Wave) : (s.onWave f).shadows = s.shadows := rfl
@[simp] theorem pubs_onWave (s : State) (f : Wave → Wave) : (s.onWave f).pubs = s.pubs := rfl
@[simp] theorem lines_onWave (s : State) (f : Wave → Wave) : (s.onWave f).lines = s.lines := rfl
@[simp] theorem tlb_onWave (s : State) (f : Wave → Wave) : (s.onWave f).tlb = s.tlb := rfl
@[simp] theorem walks_onWave (s : State) (f : Wave → Wave) : (s.onWave f).walks = s.walks := rfl
@[simp] theorem others_onWave (s : State) (f : Wave → Wave) : (s.onWave f).others = s.others := rfl
@[simp] theorem groups_onWave (s : State) (f : Wave → Wave) : (s.onWave f).groups = s.groups := rfl
@[simp] theorem barcs_onWave (s : State) (f : Wave → Wave) : (s.onWave f).barcs = s.barcs := rfl
@[simp] theorem launches_onWave (s : State) (f : Wave → Wave) : (s.onWave f).launches = s.launches := rfl
@[simp] theorem copies_onWave (s : State) (f : Wave → Wave) : (s.onWave f).copies = s.copies := rfl
@[simp] theorem contribs_onWave (s : State) (f : Wave → Wave) : (s.onWave f).contribs = s.contribs := rfl
@[simp] theorem unclear_onWave (s : State) (f : Wave → Wave) : (s.onWave f).unclear = s.unclear := rfl
@[simp] theorem posted_onWave (s : State) (f : Wave → Wave) : (s.onWave f).posted = s.posted := rfl
@[simp] theorem devQueue_onWave (s : State) (f : Wave → Wave) : (s.onWave f).devQueue = s.devQueue := rfl
@[simp] theorem msixPending_onWave (s : State) (f : Wave → Wave) : (s.onWave f).msixPending = s.msixPending := rfl
@[simp] theorem respCause_onWave (s : State) (f : Wave → Wave) : (s.onWave f).respCause = s.respCause := rfl
@[simp] theorem free_onWave (s : State) (f : Wave → Wave) : (s.onWave f).free = s.free := rfl
@[simp] theorem mem_onCur (s : State) (f : Slot → Slot) : (s.onCur f).mem = s.mem := rfl
@[simp] theorem bad_onCur (s : State) (f : Slot → Slot) : (s.onCur f).bad = s.bad := rfl
@[simp] theorem unbacked_onCur (s : State) (f : Slot → Slot) : (s.onCur f).unbacked = s.unbacked := rfl
@[simp] theorem badRows_onCur (s : State) (f : Slot → Slot) : (s.onCur f).badRows = s.badRows := rfl
@[simp] theorem repairs_onCur (s : State) (f : Slot → Slot) : (s.onCur f).repairs = s.repairs := rfl
@[simp] theorem oldTapes_onCur (s : State) (f : Slot → Slot) : (s.onCur f).oldTapes = s.oldTapes := rfl
@[simp] theorem shadows_onCur (s : State) (f : Slot → Slot) : (s.onCur f).shadows = s.shadows := rfl
@[simp] theorem pubs_onCur (s : State) (f : Slot → Slot) : (s.onCur f).pubs = s.pubs := rfl
@[simp] theorem lines_onCur (s : State) (f : Slot → Slot) : (s.onCur f).lines = s.lines := rfl
@[simp] theorem tlb_onCur (s : State) (f : Slot → Slot) : (s.onCur f).tlb = s.tlb := rfl
@[simp] theorem walks_onCur (s : State) (f : Slot → Slot) : (s.onCur f).walks = s.walks := rfl
@[simp] theorem others_onCur (s : State) (f : Slot → Slot) : (s.onCur f).others = s.others := rfl
@[simp] theorem groups_onCur (s : State) (f : Slot → Slot) : (s.onCur f).groups = s.groups := rfl
@[simp] theorem barcs_onCur (s : State) (f : Slot → Slot) : (s.onCur f).barcs = s.barcs := rfl
@[simp] theorem launches_onCur (s : State) (f : Slot → Slot) : (s.onCur f).launches = s.launches := rfl
@[simp] theorem copies_onCur (s : State) (f : Slot → Slot) : (s.onCur f).copies = s.copies := rfl
@[simp] theorem contribs_onCur (s : State) (f : Slot → Slot) : (s.onCur f).contribs = s.contribs := rfl
@[simp] theorem unclear_onCur (s : State) (f : Slot → Slot) : (s.onCur f).unclear = s.unclear := rfl
@[simp] theorem posted_onCur (s : State) (f : Slot → Slot) : (s.onCur f).posted = s.posted := rfl
@[simp] theorem devQueue_onCur (s : State) (f : Slot → Slot) : (s.onCur f).devQueue = s.devQueue := rfl
@[simp] theorem msixPending_onCur (s : State) (f : Slot → Slot) : (s.onCur f).msixPending = s.msixPending := rfl
@[simp] theorem respCause_onCur (s : State) (f : Slot → Slot) : (s.onCur f).respCause = s.respCause := rfl
@[simp] theorem free_onCur (s : State) (f : Slot → Slot) : (s.onCur f).free = s.free := rfl
@[simp] theorem w_onWave (s : State) (f : Wave → Wave) : (s.onWave f).w = f s.w := rfl
@[simp] theorem cur_onCur (s : State) (f : Slot → Slot) : (s.onCur f).cur = f s.cur := rfl
@[simp] theorem launches_updGroup (s : State) (gid : Nat) (f : Group → Group) : (s.updGroup gid f).launches = s.launches := rfl
@[simp] theorem groups_updLaunch (s : State) (lid : Nat) (f : Launch → Launch) : (s.updLaunch lid f).groups = s.groups := rfl
@[simp] theorem byte_onWave (s : State) (f : Wave → Wave) (l : Loc) : (s.onWave f).byte l = s.byte l := rfl
@[simp] theorem byte_onCur (s : State) (f : Slot → Slot) (l : Loc) : (s.onCur f).byte l = s.byte l := rfl

/-! ### Retirement -/

@[simp] theorem v_clearBadRegs (h : Hdr) (m : Word) (s : State) (r l : Nat) : (clearBadRegs h m s).v r l = s.v r l := by
  unfold clearBadRegs; split <;> rfl
@[simp] theorem sreg_clearBadRegs (h : Hdr) (m : Word) (s : State) (r : Nat) : (clearBadRegs h m s).sreg r = s.sreg r := by
  unfold clearBadRegs; split <;> rfl
@[simp] theorem mreg_clearBadRegs (h : Hdr) (m : Word) (s : State) (r : Nat) : (clearBadRegs h m s).mreg r = s.mreg r := by
  unfold clearBadRegs; split <;> rfl
@[simp] theorem m0_clearBadRegs (h : Hdr) (m : Word) (s : State) : (clearBadRegs h m s).m0 = s.m0 := by
  unfold clearBadRegs; split <;> rfl
@[simp] theorem byte_clearBadRegs (h : Hdr) (m : Word) (s : State) (l : Loc) : (clearBadRegs h m s).byte l = s.byte l := by
  unfold clearBadRegs; split <;> rfl
@[simp] theorem v_stepPc (i : Instr) (s : State) (r l : Nat) : (stepPc i s).v r l = s.v r l := rfl
@[simp] theorem sreg_stepPc (i : Instr) (s : State) (r : Nat) : (stepPc i s).sreg r = s.sreg r := rfl
@[simp] theorem mreg_stepPc (i : Instr) (s : State) (r : Nat) : (stepPc i s).mreg r = s.mreg r := rfl
@[simp] theorem m0_stepPc (i : Instr) (s : State) : (stepPc i s).m0 = s.m0 := rfl
@[simp] theorem byte_stepPc (i : Instr) (s : State) (l : Loc) : (stepPc i s).byte l = s.byte l := rfl
@[simp] theorem v_retire (i : Instr) (s : State) (r l : Nat) : (retire i s).v r l = s.v r l := rfl
@[simp] theorem sreg_retire (i : Instr) (s : State) (r : Nat) : (retire i s).sreg r = s.sreg r := rfl
@[simp] theorem mreg_retire (i : Instr) (s : State) (r : Nat) : (retire i s).mreg r = s.mreg r := rfl
@[simp] theorem m0_retire (i : Instr) (s : State) : (retire i s).m0 = s.m0 := rfl
@[simp] theorem byte_retire (i : Instr) (s : State) (l : Loc) : (retire i s).byte l = s.byte l := rfl

end Sys2Proof.Machine
end

