-- ==== Sys2Proof/Laws/Issue.lean ====
section
/-! SUPPORT. What issuing an instruction comes to when it is ready, by what its meaning answers. -/
namespace Sys2Proof.Machine

theorem opened_of_open {i : Instr} {s : State} (h : (hdr i).closes = false) : opened i s = s := by
  have : closesFirst i = false := by unfold closesFirst; split <;> simp_all
  simp [opened, this]

@[simp] theorem m0_opened (i : Instr) (s : State) : (opened i s).m0 = s.m0 := by unfold opened; split <;> rfl
@[simp] theorem v_opened (i : Instr) (s : State) (r l : Nat) : (opened i s).v r l = s.v r l := by
  unfold opened; split <;> rfl
@[simp] theorem sreg_opened (i : Instr) (s : State) (r : Nat) : (opened i s).sreg r = s.sreg r := by
  unfold opened; split <;> rfl
@[simp] theorem mreg_opened (i : Instr) (s : State) (r : Nat) : (opened i s).mreg r = s.mreg r := by
  unfold opened; split <;> rfl
@[simp] theorem byte_opened (i : Instr) (s : State) (l : Loc) : (opened i s).byte l = s.byte l := by
  unfold opened; split <;> rfl
@[simp] theorem defer_opened (i : Instr) (s : State) : (opened i s).defer = s.defer := by unfold opened; split <;> rfl
@[simp] theorem badSource_opened (i : Instr) (s : State) (h : Hdr) : badSource h (opened i s) = badSource h s := by
  unfold opened; split <;> rfl

/-- Every encoded instruction goes through the one issue logic. -/
theorem exec_issue (i : Instr) (s : State) (h : (encode i).isSome = true) : ∃ body, exec i s = issue i body s := by
  cases i <;> first | exact ⟨_, rfl⟩ | cases h

/-- What an attempt comes to, after the checks of R24. -/
theorem issue_attempt {i : Instr} {s : State} {body : State → Res} (h : Attempts i s) :
    issue i body s = .next (match issueTrap i s with
      | some t => raise s t
      | none =>
        if held i s then (opened i s).onCur fun c => { c with stalled := true }
        else
          match impreciseTrap i s with
          | some (t, rest) => raise (s.onCur fun c => { c with imprecise := rest }) t
          | none => perform i body (opened i s)) := by
  have h1 : (!s.cur.live) = false := by simp [h.live]
  have hg : ¬ (s.cancelled = true ∧ (cancelPoint s i = true ∨ waitsForStores i s = true)) := by simpa using h.going
  simp only [issue, h1, h.normal, issueNow, Bool.false_eq_true, if_false]
  rw [if_neg hg]
  rfl

/-- A ready instruction performs its meaning. -/
theorem issue_ready {i : Instr} {s : State} (body : State → Res) (h : Ready i s) :
    issue i body s = .next (match body (opened i s) with
      | .done t => finished i s t
      | .jump t => leftBy i s t
      | r => conclude i (opened i s) r) := by
  have h1 : (!s.cur.live) = false := by simp [h.live]
  simp only [issue, h1, h.normal, issueNow, h.legal, h.free, h.precise, Bool.false_eq_true, if_false]
  have hg : ¬ (s.cancelled = true ∧ (cancelPoint s i = true ∨ waitsForStores i s = true)) := by
    simpa using h.going
  rw [if_neg hg]
  show Host.Outcome.next (perform i body (opened i s)) = _
  have hd : (opened i s).defer = false := by rw [defer_opened]; exact h.inOrder
  have hb : badSource (hdr i) (opened i s) = false := by rw [badSource_opened]; exact h.sound
  simp only [perform, hb, Bool.false_eq_true, if_false, hd, false_and]
  split <;> simp_all [conclude, finished, leftBy]

theorem issue_done {i : Instr} {s t : State} {body : State → Res} (h : Ready i s) (hb : body (opened i s) = .done t) :
    issue i body s = .next (finished i s t) := by rw [issue_ready body h, hb]

theorem issue_jump {i : Instr} {s t : State} {body : State → Res} (h : Ready i s) (hb : body (opened i s) = .jump t) :
    issue i body s = .next (leftBy i s t) := by rw [issue_ready body h, hb]

theorem issue_settled {i : Instr} {s t : State} {body : State → Res} (h : Ready i s)
    (hb : body (opened i s) = .settled t) : issue i body s = .next t := by rw [issue_ready body h, hb]; rfl

theorem issue_trap {i : Instr} {s : State} {tr : Trap} {body : State → Res} (h : Ready i s)
    (hb : body (opened i s) = .trap tr) : issue i body s = .next (raise (opened i s) tr) := by
  rw [issue_ready body h, hb]; rfl

@[simp] theorem v_finished (i : Instr) (s t : State) (r l : Nat) : (finished i s t).v r l = t.v r l := by simp [finished]
@[simp] theorem sreg_finished (i : Instr) (s t : State) (r : Nat) : (finished i s t).sreg r = t.sreg r := by
  simp [finished]
@[simp] theorem mreg_finished (i : Instr) (s t : State) (r : Nat) : (finished i s t).mreg r = t.mreg r := by
  simp [finished]
@[simp] theorem byte_finished (i : Instr) (s t : State) (l : Loc) : (finished i s t).byte l = t.byte l := by
  simp [finished]

/-- The state differs in the registers of the wave and of its slot only. -/
def RegsChanged (s t : State) : Prop :=
  t = { s with w := { s.w with vregs := t.w.vregs, cur := { s.w.cur with bank :=
    { s.w.cur.bank with sregs := t.w.cur.bank.sregs, mregs := t.w.cur.bank.mregs } } } }

theorem RegsChanged.setV (s : State) (r : Nat) (f : Nat → Word) : RegsChanged s (s.setV r f) := rfl
theorem RegsChanged.setV64 (s : State) (r : Nat) (f : Nat → DWord) : RegsChanged s (s.setV64 r f) := rfl
theorem RegsChanged.setS (s : State) (r : Nat) (x : Word) : RegsChanged s (s.setS r x) := by
  unfold State.setS; split <;> rfl
theorem RegsChanged.setM (s : State) (r : Nat) (x : Word) : RegsChanged s (s.setM r x) := by
  unfold State.setM; split <;> rfl

/-- The marks that retirement leaves are among those there were. -/
theorem fewerBadRegs_finished {i : Instr} {s t : State} (h : fewerBadRegs s t) : fewerBadRegs s (finished i s t) := by
  constructor <;> simp only [finished, retire, countRetired, issued, stepPc, clearBadRegs, State.onCur, State.onWave] <;> split
  · exact h.1
  · exact fun p hp => h.1 p ((List.mem_filter.1 hp).1)
  · exact h.2
  · exact fun r hr => h.2 r ((List.mem_filter.1 hr).1)

/-- The slot's bookkeeping after an instruction, whatever it changed outside its registers. -/
theorem movedPast_finished {i : Instr} {s t : State} (hy : (i == Instr.yield) = false) (hg : t.gts = s.gts)
    (h : t.w = { s.w with vregs := t.w.vregs, cur := { s.w.cur with bank := { s.w.cur.bank with
      sregs := t.w.cur.bank.sregs, mregs := t.w.cur.bank.mregs, monitor := t.w.cur.bank.monitor } } }) :
    MovedPast i s (finished i s t) := by
  constructor
  · simp only [finished, retire, countRetired, issued, stepPc, clearBadRegs, State.onCur, State.onWave]
    split <;> rw [h]
  · exact fewerBadRegs_finished ⟨by rw [h]; exact fun p hp => hp, by rw [h]; exact fun p hp => hp⟩
  · simp only [finished, retire, countRetired, issued, stepPc, clearBadRegs, State.onCur, State.onWave, State.cur, hy, hg]
    split <;> rw [h] <;> simp only [hg]

/-- Registers only: the frame of an instruction that performed such a change. -/
theorem onlyRegs_finished {i : Instr} {s t : State} (hy : (i == Instr.yield) = false) (h : RegsChanged s t) :
    OnlyRegs i s (finished i s t) := by
  unfold RegsChanged at h
  constructor
  · rw [h]
    simp only [finished, retire, countRetired, issued, stepPc, clearBadRegs, State.onCur, State.onWave]
    split <;> rfl
  · apply movedPast_finished hy (by rw [h])
    rw [h]
  · rw [h]
    simp only [finished, retire, countRetired, issued, stepPc, clearBadRegs, State.onCur, State.onWave]
    split <;> rfl
  · intro l _
    rw [byte_finished, h]
    rfl

end Sys2Proof.Machine
end

