-- ==== Sys2Proof/Laws/Arith.lean ====
section
/-! SUPPORT. The integer functions of the lanes, by the tables' own wording, and what an instruction of each register
shape comes to. -/
namespace Sys2Proof.Machine

/-! ### Values -/

theorem add_eq_ofInt {w : Nat} (x y : BitVec w) : x + y = BitVec.ofInt w (x.toInt + y.toInt) := by
  rw [BitVec.ofInt_add, BitVec.ofInt_toInt, BitVec.ofInt_toInt]

theorem sub_eq_ofInt {w : Nat} (x y : BitVec w) : x - y = BitVec.ofInt w (x.toInt - y.toInt) := by
  apply BitVec.eq_of_toInt_eq
  rw [BitVec.toInt_sub, BitVec.toInt_ofInt]

theorem mul_eq_ofInt (x y : Word) : x * y = BitVec.ofInt 32 (x.toInt * y.toInt) := by
  rw [BitVec.ofInt_mul, BitVec.ofInt_toInt, BitVec.ofInt_toInt]

theorem mad_eq_ofInt (x y z : Word) : x * y + z = BitVec.ofInt 32 (x.toInt * y.toInt + z.toInt) := by
  rw [BitVec.ofInt_add, BitVec.ofInt_mul, BitVec.ofInt_toInt, BitVec.ofInt_toInt, BitVec.ofInt_toInt]

theorem mulhiN_eq (x y : Word) : mulhiN x y = ((x.zeroExtend 64 * y.zeroExtend 64) >>> 32).truncate 32 := by
  apply BitVec.eq_of_toNat_eq
  have h1 := x.isLt
  have h2 := y.isLt
  have h3 : x.toNat * y.toNat < 2 ^ 64 := by
    calc x.toNat * y.toNat ≤ (2 ^ 32 - 1) * (2 ^ 32 - 1) := Nat.mul_le_mul (by omega) (by omega)
      _ < 2 ^ 64 := by norm_num
  simp [mulhiN, Nat.shiftRight_eq_div_pow, Nat.mod_eq_of_lt (show x.toNat < 18446744073709551616 by omega),
    Nat.mod_eq_of_lt (show y.toNat < 18446744073709551616 by omega)]
  generalize x.toNat * y.toNat = p at *
  omega

theorem mulhiI_eq (x y : Word) : mulhiI x y = ((x.signExtend 64 * y.signExtend 64) >>> 32).truncate 32 := by
  apply BitVec.eq_of_toNat_eq
  have hp : (x.signExtend 64 * y.signExtend 64 : BitVec 64) = BitVec.ofInt 64 (x.toInt * y.toInt) := by
    rw [BitVec.ofInt_mul]; rfl
  rw [hp]
  simp only [mulhiI, BitVec.truncate_eq_setWidth, BitVec.toNat_setWidth, BitVec.toNat_ushiftRight, BitVec.toNat_ofInt,
    Nat.shiftRight_eq_div_pow]
  generalize x.toInt * y.toInt = p
  omega

theorem pickInt_eq {w : Nat} (x y : BitVec w) :
    (if x.toInt ≤ y.toInt then x else y) = BitVec.ofInt w (min x.toInt y.toInt) ∧
      (if y.toInt ≤ x.toInt then x else y) = BitVec.ofInt w (max x.toInt y.toInt) := by
  constructor <;> split <;> rename_i h
  · rw [min_eq_left h, BitVec.ofInt_toInt]
  · rw [min_eq_right (by omega), BitVec.ofInt_toInt]
  · rw [max_eq_left h, BitVec.ofInt_toInt]
  · rw [max_eq_right (by omega), BitVec.ofInt_toInt]

theorem pickNat_eq {w : Nat} (x y : BitVec w) :
    (if x.toNat ≤ y.toNat then x else y) = BitVec.ofNat w (min x.toNat y.toNat) ∧
      (if y.toNat ≤ x.toNat then x else y) = BitVec.ofNat w (max x.toNat y.toNat) := by
  constructor <;> split <;> rename_i h
  · rw [Nat.min_eq_left h, BitVec.ofNat_toNat, BitVec.setWidth_eq]
  · rw [Nat.min_eq_right (by omega), BitVec.ofNat_toNat, BitVec.setWidth_eq]
  · rw [Nat.max_eq_left h, BitVec.ofNat_toNat, BitVec.setWidth_eq]
  · rw [Nat.max_eq_right (by omega), BitVec.ofNat_toNat, BitVec.setWidth_eq]

theorem shiftLeft_eq_ofNat {w : Nat} (x : BitVec w) (n : Nat) : x <<< n = BitVec.ofNat w (x.toNat * 2 ^ n) := by
  apply BitVec.eq_of_toNat_eq
  simp [Nat.shiftLeft_eq]

theorem shiftRight_eq_ofNat {w : Nat} (x : BitVec w) (n : Nat) : x >>> n = BitVec.ofNat w (x.toNat / 2 ^ n) := by
  apply BitVec.eq_of_toNat_eq
  have h : x.toNat / 2 ^ n < 2 ^ w := Nat.lt_of_le_of_lt (Nat.div_le_self _ _) x.isLt
  simp only [BitVec.toNat_ushiftRight, Nat.shiftRight_eq_div_pow, BitVec.toNat_ofNat]
  exact (Nat.mod_eq_of_lt h).symm

theorem shlW_eq (x y : Word) : shlW x y = BitVec.ofNat 32 (x.toNat * 2 ^ (y.toNat % 32)) := shiftLeft_eq_ofNat _ _
theorem shrW_eq (x y : Word) : shrW x y = BitVec.ofNat 32 (x.toNat / 2 ^ (y.toNat % 32)) := shiftRight_eq_ofNat _ _

theorem sshiftRight_eq_ofInt (x : Word) (n : Nat) : x.sshiftRight n = BitVec.ofInt 32 (x.toInt / 2 ^ n) := by
  apply BitVec.eq_of_toInt_eq
  have h := BitVec.toInt_sshiftRight (x := x) (n := n)
  rw [h, BitVec.toInt_ofInt, Int.shiftRight_eq_div_pow]
  have h1 : (-2147483648 : Int) ≤ x.toInt := BitVec.le_toInt x
  have h2 : x.toInt < 2147483648 := BitVec.toInt_lt (x := x)
  have hp : (1 : Int) ≤ ((2 ^ n : Nat) : Int) := by exact_mod_cast Nat.one_le_two_pow
  have hc : ((2 ^ n : Nat) : Int) = 2 ^ n := by push_cast; rfl
  rw [hc] at hp ⊢
  have h3 : -2147483648 ≤ x.toInt / 2 ^ n := by
    apply (Int.le_ediv_iff_mul_le (by omega)).2
    nlinarith
  have h4 : x.toInt / 2 ^ n < 2147483648 := by
    apply Int.ediv_lt_of_lt_mul (by omega)
    nlinarith
  rw [Int.bmod_eq_of_le] <;> norm_num <;> omega

theorem sraW_eq (x y : Word) : sraW x y = BitVec.ofInt 32 (x.toInt / 2 ^ (y.toNat % 32)) :=
  sshiftRight_eq_ofInt x _

theorem minI_eq (x y : Word) : minI x y = BitVec.ofInt 32 (min x.toInt y.toInt) := (pickInt_eq x y).1
theorem maxI_eq (x y : Word) : maxI x y = BitVec.ofInt 32 (max x.toInt y.toInt) := (pickInt_eq x y).2
theorem minN_eq (x y : Word) : minN x y = BitVec.ofNat 32 (min x.toNat y.toNat) := (pickNat_eq x y).1
theorem maxN_eq (x y : Word) : maxN x y = BitVec.ofNat 32 (max x.toNat y.toNat) := (pickNat_eq x y).2

theorem foldl_bits (p : Nat → Bool) (n : Nat) :
    (List.range n).foldl (fun acc l => if p l then acc + 2 ^ l else acc) 0 < 2 ^ n ∧
      ∀ l < n, ((List.range n).foldl (fun acc l => if p l then acc + 2 ^ l else acc) 0).testBit l = p l := by
  induction n with
  | zero => simp
  | succ n ih =>
    rw [List.range_succ, List.foldl_append]
    obtain ⟨h1, h2⟩ := ih
    generalize (List.range n).foldl (fun acc l => if p l then acc + 2 ^ l else acc) 0 = m at *
    simp only [List.foldl_cons, List.foldl_nil]
    constructor
    · split <;> omega
    · intro l hl
      split <;> rename_i hp
      · by_cases he : l = n
        · subst he
          rw [Nat.add_comm, Nat.testBit_two_pow_add_eq, Nat.testBit_lt_two_pow h1, hp]; rfl
        · rw [Nat.add_comm, Nat.testBit_two_pow_add_gt (by omega), h2 l (by omega)]
      · by_cases he : l = n
        · subst he
          rw [Nat.testBit_lt_two_pow h1]; simpa using hp
        · exact h2 l (by omega)

theorem maskWhere_getLsbD (p : Nat → Bool) {l : Nat} (h : l < 32) : (maskWhere p).getLsbD l = p l := by
  rw [maskWhere, BitVec.getLsbD_ofNat, (foldl_bits p 32).2 l h]
  simp [h]

theorem length_takeWhile_range (p : Nat → Bool) (n m : Nat) (h1 : m ≤ n) (h2 : ∀ k < m, p k = true)
    (h3 : m < n → p m = false) : ((List.range n).takeWhile p).length = m := by
  have e : List.range n = List.range m ++ (List.range' m (n - m)) := by
    rw [List.range_eq_range', List.range_eq_range']
    have := @List.range'_append_1 0 m (n - m)
    rw [Nat.zero_add, Nat.add_sub_cancel' h1] at this
    exact this.symm
  rw [e, List.takeWhile_append_of_pos (by simpa using h2)]
  rcases Nat.lt_or_ge m n with h | h
  · obtain ⟨j, hj⟩ : ∃ j, n - m = j + 1 := ⟨n - m - 1, by omega⟩
    rw [hj, List.range'_succ]
    simp [h3 h]
  · simp [show n - m = 0 by omega]

theorem clzW_eq (x : Word) :
    clzW x = BitVec.ofNat 32 ((List.range 32).takeWhile fun k => !x.getLsbD (31 - k)).length := by
  unfold clzW
  congr 1
  split <;> rename_i h
  · symm
    apply length_takeWhile_range _ _ _ (le_refl _) _ (by omega)
    intro k _
    simp [BitVec.getLsbD, h]
  · symm
    have hl : Nat.log2 x.toNat < 32 := (Nat.log2_lt h).2 x.isLt
    apply length_takeWhile_range _ _ _ (by omega)
    · intro k hk
      simp only [BitVec.getLsbD, Bool.not_eq_true']
      apply Nat.testBit_lt_two_pow
      exact (Nat.log2_lt h).1 (by omega)
    · intro _
      simp only [BitVec.getLsbD, Bool.not_eq_false']
      rw [show 31 - (31 - Nat.log2 x.toNat) = Nat.log2 x.toNat by omega]
      exact Nat.testBit_log2 h

theorem popcount_eq (x : Word) : popcount x = onesIn x := by
  simp [popcount, lanesOf, onesIn, List.countP_eq_length_filter]

theorem brevW_eq (x : Word) : brevW x = x.reverse := by
  apply BitVec.eq_of_getLsbD_eq
  intro i hi
  rw [brevW, maskWhere_getLsbD _ hi, BitVec.getLsbD_reverse, BitVec.getMsbD]
  simp [hi]

theorem absW_eq (x : Word) : absW x = BitVec.ofNat 32 x.toInt.natAbs := by
  unfold absW
  rw [← BitVec.ofInt_natCast]
  split <;> rename_i h
  · rw [show ((x.toInt.natAbs : Nat) : Int) = -x.toInt by omega, BitVec.ofInt_neg, BitVec.ofInt_toInt]
  · rw [show ((x.toInt.natAbs : Nat) : Int) = x.toInt by omega, BitVec.ofInt_toInt]

theorem shiftBy_shl (n : Nat) (x : Word) : shiftBy .shl n x = BitVec.ofNat 32 (x.toNat * 2 ^ n) :=
  shiftLeft_eq_ofNat _ _
theorem shiftBy_shr (n : Nat) (x : Word) : shiftBy .shr n x = BitVec.ofNat 32 (x.toNat / 2 ^ n) :=
  shiftRight_eq_ofNat _ _

theorem shiftBy_rotl (n) (x : Word) (h : n < 32) : shiftBy .rotl n x = x.rotateLeft n := by
  simp only [shiftBy, BitVec.rotateLeft, BitVec.rotateLeftAux, Nat.mod_eq_of_lt h]
  split
  · subst_vars
    have : x >>> 32 = 0 := BitVec.ushiftRight_eq_zero (Nat.le_refl _)
    simp [this]
  · rfl

theorem signed_toInt (n v : Nat) (h : 0 < n): signed n v = (BitVec.ofNat n v).toInt := by
  unfold signed
  rw [BitVec.toInt_eq_toNat_cond, BitVec.toNat_ofNat]
  have : 2 ^ n = 2 * 2 ^ (n - 1) := by
    rw [← Nat.pow_succ']; congr 1; omega
  push_cast
  split <;> split <;> first | rfl | omega

theorem bfeIW_eq (a b : Word) : bfeIW a b = (if (fieldControl b).2.1 = 0 then 0 else
     (((a >>> (fieldControl b).1) &&& (fieldControl b).2.2).truncate (fieldControl b).2.1).signExtend 32) := by
  have e : fieldControl b = (fieldPos b, fieldLen b, fieldMask b) := rfl
  rw [e]
  unfold bfeIW
  split <;> rename_i h
  · rfl
  · rw [signed_toInt _ _ (by omega)]
    unfold BitVec.signExtend
    congr 2
    apply BitVec.eq_of_toNat_eq
    rw [BitVec.toNat_ofNat, BitVec.truncate_eq_setWidth, BitVec.toNat_setWidth]
    rfl

theorem permW_eq (a b d : Word) : permW a b d =
   (let string := leBytes 4 a.toNat ++ leBytes 4 d.toNat
      let byte (k : Nat) : Byte :=
        let sel := b.toNat / 16 ^ k % 16
        let q := string.getD (sel % 8) 0
        if sel < 8 then q else if q.getLsbD 7 then 0xFF else 0
      BitVec.ofNat 32 (leOf [byte 0, byte 1, byte 2, byte 3])) := by
  have key : ∀ k, permByte a b d k = (
        let sel := b.toNat / 16 ^ k % 16
        let q := (leBytes 4 a.toNat ++ leBytes 4 d.toNat).getD (sel % 8) 0
        (if sel < 8 then q else if q.getLsbD 7 then 0xFF else 0 : Byte)).toNat := by
    intro k
    unfold permByte
    generalize b.toNat / 16 ^ k % 16 = sel
    have hq : (a.toNat + 2 ^ 32 * d.toNat) / 256 ^ (sel % 8) % 256 = ((leBytes 4 a.toNat ++ leBytes 4 d.toNat).getD (sel % 8) 0).toNat := by
      have h1 := a.isLt
      have h2 := d.isLt
      have h3 : sel % 8 < 8 := Nat.mod_lt _ (by omega)
      generalize sel % 8 = j at *
      interval_cases j <;> simp [leBytes] <;> omega
    simp only [hq]
    generalize (leBytes 4 a.toNat ++ leBytes 4 d.toNat).getD (sel % 8) 0 = q
    split
    · rfl
    · have : (128 ≤ q.toNat) ↔ q.getLsbD 7 = true := by
        revert q; decide
      simp only [this]
      split <;> rfl
  show BitVec.ofNat 32 _ = BitVec.ofNat 32 _
  congr 1
  rw [key 0, key 1, key 2, key 3]
  simp only [leOf]
  omega

/-! ### Shapes -/

/-- One vector destination, each lane's value from the state before. -/
theorem lanes_spec {i : Instr} {s : State} {body : State → Res} {d : Nat} {f g : Nat → Word} (hr : Ready i s)
    (hc : (hdr i).closes = false) (hy : (i == Instr.yield) = false) (hb : body s = .done (s.setV d f))
    (hf : ∀ l < 32, f l = g l) :
    ∃ t, issue i body s = .next t ∧ wroteV s t d g ∧ sameScalars s t ∧ sameMasks s t ∧ OnlyRegs i s t := by
  refine ⟨_, issue_done hr (t := s.setV d f) (by rw [opened_of_open hc]; exact hb), ⟨?_, ?_⟩, ?_, ?_,
    onlyRegs_finished hy (.setV _ _ _)⟩
  · intro l hl
    rw [v_finished, v_setV_self _ _ _ hl, hf l hl]
  · intro r l h
    rw [v_finished, v_setV_ne _ _ _ h]
  · intro r
    simp
  · intro r
    simp

/-- One vector pair as the destination. -/
theorem lanes64_spec {i : Instr} {s : State} {body : State → Res} {d : Nat} {f g : Nat → DWord} (hr : Ready i s)
    (hc : (hdr i).closes = false) (hy : (i == Instr.yield) = false) (hb : body s = .done (s.setV64 d f))
    (hf : ∀ l < 32, f l = g l) :
    ∃ t, issue i body s = .next t ∧ wroteV64 s t d g ∧ sameScalars s t ∧ sameMasks s t ∧ OnlyRegs i s t := by
  refine ⟨_, issue_done hr (t := s.setV64 d f) (by rw [opened_of_open hc]; exact hb), ⟨?_, ?_⟩, ?_, ?_,
    onlyRegs_finished hy (.setV64 _ _ _)⟩
  · intro l hl
    rw [← hf l hl, ← v64_setV64Mask_self s s.m0 d f hl]
    simp only [State.v64, v_finished]
    rfl
  · intro r l h h1
    rw [v_finished]
    exact v_setV64Mask_ne s s.m0 f l h h1
  · intro r
    simp
  · intro r
    simp

/-- One scalar destination. -/
theorem scalar_spec {i : Instr} {s : State} {body : State → Res} {d : Nat} {x y : Word} (hr : Ready i s)
    (hc : (hdr i).closes = false) (hy : (i == Instr.yield) = false) (hd : d < 64) (hb : body s = .done (s.setS d x))
    (hx : x = y) :
    ∃ t, issue i body s = .next t ∧ wroteS s t d y ∧ sameVectors s t ∧ sameMasks s t ∧ OnlyRegs i s t := by
  refine ⟨_, issue_done hr (t := s.setS d x) (by rw [opened_of_open hc]; exact hb), ⟨?_, ?_, ?_⟩, ?_, ?_,
    onlyRegs_finished hy (.setS _ _ _)⟩
  · intro h0
    rw [sreg_finished, sreg_setS_self _ _ h0 hd, hx]
  · simp
  · intro r h
    rw [sreg_finished, sreg_setS_ne _ _ h]
  · intro r l
    simp
  · intro k
    simp

/-- One mask destination. -/
theorem mask_spec {i : Instr} {s : State} {body : State → Res} {d : Nat} {x y : Word} (hr : Ready i s)
    (hc : (hdr i).closes = false) (hy : (i == Instr.yield) = false) (h0 : d ≠ 0) (hd : d < 8)
    (hb : body s = .done (s.setM d x)) (hx : x = y) :
    ∃ t, issue i body s = .next t ∧ wroteM s t d y ∧ sameVectors s t ∧ sameScalars s t ∧ OnlyRegs i s t := by
  refine ⟨_, issue_done hr (t := s.setM d x) (by rw [opened_of_open hc]; exact hb), ⟨?_, ?_⟩, ?_, ?_,
    onlyRegs_finished hy (.setM _ _ _)⟩
  · rw [mreg_finished, mreg_setM_self _ _ h0 hd, hx]
  · intro r h
    rw [mreg_finished, mreg_setM_ne _ _ h]
  · intro r l
    simp
  · intro k
    simp

end Sys2Proof.Machine
end

