-- ==== Sys2Proof/Laws/Mem.lean ====
section
/-! SUPPORT. Memory: what a write reads back as, that every memory operation keeps the canonical form, and that filling,
writing back and dropping lines changes no byte as the part reads it. -/
namespace Sys2Proof.Machine

/-! ### The list of bytes -/

theorem Mem.get_drop_self (m : List Host.Cell) (k : Nat) : Mem.get (Mem.drop m k) k = unwritten := by
  induction m with
  | nil => rfl
  | cons c t ih =>
    obtain ⟨a, b⟩ := c
    by_cases h : a = k
    · simpa [Mem.drop, h] using ih
    · have h1 : ¬k = a := fun e => h e.symm
      simpa [Mem.drop, h, Mem.get, h1] using ih

theorem Mem.get_drop_ne (m : List Host.Cell) {k j : Nat} (h : j ≠ k) : Mem.get (Mem.drop m k) j = Mem.get m j := by
  induction m with
  | nil => rfl
  | cons c t ih =>
    obtain ⟨a, b⟩ := c
    by_cases h1 : a = k
    · have h2 : ¬j = a := fun e => h (e.trans h1)
      simpa [Mem.drop, h1, Mem.get, h] using ih
    · by_cases h2 : j = a
      · simp [Mem.drop, h1, Mem.get, h2]
      · simpa [Mem.drop, h1, Mem.get, h2] using ih

theorem Mem.get_enter_ne (m : List Host.Cell) {k j : Nat} (v : Byte) (h : j ≠ k) :
    Mem.get (Mem.enter m k v) j = Mem.get m j := by
  induction m with
  | nil => simp [Mem.enter, Mem.get, h]
  | cons c t ih =>
    obtain ⟨a, b⟩ := c
    unfold Mem.enter
    split
    · simp [Mem.get, h]
    · simp only [Mem.get, ih]

theorem Mem.get_enter_self (m : List Host.Cell) (k : Nat) (v : Byte) :
    Mem.get (Mem.enter (Mem.drop m k) k v) k = v := by
  induction m with
  | nil => simp [Mem.drop, Mem.enter, Mem.get]
  | cons c t ih =>
    obtain ⟨a, b⟩ := c
    by_cases h : a = k
    · simpa [Mem.drop, h] using ih
    · have h1 : ¬k = a := fun e => h e.symm
      have e : Mem.drop ((a, b) :: t) k = (a, b) :: Mem.drop t k := by simp [Mem.drop, h]
      rw [e]
      unfold Mem.enter
      split
      · simp [Mem.get]
      · simp [Mem.get, h1, ih]

/-- A read after a write to the same place. -/
@[simp] theorem Mem.get_put_self (m : List Host.Cell) (k : Nat) (v : Byte) : Mem.get (Mem.put m k v) k = v := by
  unfold Mem.put
  split <;> rename_i h
  · rw [Mem.get_drop_self, h]
  · exact Mem.get_enter_self m k v

/-- A write leaves every other place alone. -/
theorem Mem.get_put_ne (m : List Host.Cell) {k j : Nat} (v : Byte) (h : j ≠ k) :
    Mem.get (Mem.put m k v) j = Mem.get m j := by
  unfold Mem.put
  split
  · exact Mem.get_drop_ne m h
  · rw [Mem.get_enter_ne _ v h, Mem.get_drop_ne m h]

theorem Mem.get_put (m : List Host.Cell) (k j : Nat) (v : Byte) :
    Mem.get (Mem.put m k v) j = if j = k then v else Mem.get m j := by
  split <;> rename_i h
  · rw [h, Mem.get_put_self]
  · exact Mem.get_put_ne m v h

/-! ### The canonical form -/

theorem Mem.wfFrom_mono {m : List Host.Cell} {j k : Nat} (h : Mem.wfFrom k m = true) (hj : j ≤ k) :
    Mem.wfFrom j m = true := by
  cases m with
  | nil => rfl
  | cons c t =>
    obtain ⟨a, b⟩ := c
    simp only [Mem.wfFrom, Bool.and_eq_true, decide_eq_true_eq] at h ⊢
    exact ⟨⟨by omega, h.1.2⟩, h.2⟩

theorem Mem.wfFrom_drop {m : List Host.Cell} {j : Nat} (k : Nat) (h : Mem.wfFrom j m = true) :
    Mem.wfFrom j (Mem.drop m k) = true := by
  induction m generalizing j with
  | nil => rfl
  | cons c t ih =>
    obtain ⟨a, b⟩ := c
    simp only [Mem.wfFrom, Bool.and_eq_true, decide_eq_true_eq] at h
    by_cases h1 : a = k
    · have e : Mem.drop ((a, b) :: t) k = Mem.drop t k := by simp [Mem.drop, h1]
      rw [e]
      exact Mem.wfFrom_mono (ih h.2) (by omega)
    · have e : Mem.drop ((a, b) :: t) k = (a, b) :: Mem.drop t k := by simp [Mem.drop, h1]
      rw [e]
      simp only [Mem.wfFrom, Bool.and_eq_true, decide_eq_true_eq]
      exact ⟨h.1, ih h.2⟩

theorem Mem.not_mem_drop (m : List Host.Cell) (k : Nat) : ∀ c ∈ Mem.drop m k, c.1 ≠ k := by
  intro c hc
  simpa using (List.mem_filter.1 hc).2

theorem Mem.wfFrom_enter {m : List Host.Cell} {j k : Nat} {v : Byte} (h : Mem.wfFrom j m = true) (hk : j ≤ k)
    (hn : ∀ c ∈ m, c.1 ≠ k) (hv : v ≠ unwritten) : Mem.wfFrom j (Mem.enter m k v) = true := by
  induction m generalizing j with
  | nil => simp [Mem.enter, Mem.wfFrom, hk, hv]
  | cons c t ih =>
    obtain ⟨a, b⟩ := c
    simp only [Mem.wfFrom, Bool.and_eq_true, decide_eq_true_eq] at h
    unfold Mem.enter
    split <;> rename_i h1
    · simp only [Mem.wfFrom, Bool.and_eq_true, decide_eq_true_eq]
      exact ⟨⟨hk, by simpa using hv⟩, ⟨⟨by omega, h.1.2⟩, h.2⟩⟩
    · have h2 : a ≠ k := hn (a, b) (by simp)
      simp only [Mem.wfFrom, Bool.and_eq_true, decide_eq_true_eq]
      exact ⟨h.1, ih h.2 (by omega) fun c hc => hn c (by simp [hc])⟩

/-- A write keeps the canonical form. -/
theorem Mem.wf_put {m : List Host.Cell} (k : Nat) (v : Byte) (h : Mem.wf m = true) : Mem.wf (Mem.put m k v) = true := by
  unfold Mem.put
  split <;> rename_i hv
  · exact Mem.wfFrom_drop k h
  · exact Mem.wfFrom_enter (Mem.wfFrom_drop k h) (Nat.zero_le _) (Mem.not_mem_drop m k) hv

/-- So does any sequence of writes. -/
theorem Mem.wf_foldl {α : Type} (xs : List α) (key : α → Nat) (val : List Host.Cell → α → Byte) {m : List Host.Cell}
    (h : Mem.wf m = true) : Mem.wf (xs.foldl (fun t x => Mem.put t (key x) (val t x)) m) = true := by
  induction xs generalizing m with
  | nil => exact h
  | cons x xs ih => exact ih (Mem.wf_put _ _ h)

theorem Mem.wf_reset : Mem.wf State.reset.mem = true := rfl

/-! ### Places -/

/-- Distinct places have distinct keys. -/
theorem Loc.key_inj {a b : Loc} (h : a.key = b.key) : a = b := by
  obtain ⟨x, m⟩ := a
  obtain ⟨y, n⟩ := b
  have hc : ∀ z : Area, z.code < 8 := by intro z; cases z <;> decide
  have h1 := hc x
  have h2 := hc y
  simp only [Loc.key] at h
  have h3 : m = n := by omega
  have h4 : x.code = y.code := by omega
  subst h3
  have : x = y := by
    revert h4
    cases x <;> cases y <;> decide
  rw [this]

/-- Distinct places other than the L2's copies are served from distinct places. -/
theorem served_inj (s : State) {a b : Loc} (ha : a.area ≠ .l2) (hb : b.area ≠ .l2) (h : s.served a = s.served b) : a = b := by
  unfold State.served servedBy at h
  split at h <;> split at h <;> rename_i h1 h2
  · have e : a.addr = b.addr := by simpa using h
    have e2 : a.area = b.area := by rw [h1.1, h2.1]
    cases a; cases b; simp_all
  · exact absurd (congrArg Loc.area h).symm hb
  · exact absurd (congrArg Loc.area h) ha
  · exact h

/-- A byte written reads back, and every other byte reads as before. -/
theorem byte_setByte (s : State) {a l : Loc} (b : Byte) (ha : a.area ≠ .l2) (hl : l.area ≠ .l2) :
    (s.setByte a b).byte l = if l = a then b else s.byte l := by
  have e : ∀ x : Loc, (s.setByte a b).served x = s.served x := fun _ => rfl
  unfold State.byte
  rw [e]
  show Mem.get (Mem.put s.mem (s.served a).key b) (s.served l).key = _
  rw [Mem.get_put]
  by_cases h : l = a
  · simp [h]
  · have : (s.served l).key ≠ (s.served a).key := fun k => h (served_inj s hl ha (Loc.key_inj k))
    simp [h, this]

/-- Bytes written in order: each place holds the last one. -/
theorem byte_foldl_setByte (cells : List (Loc × Byte)) (s : State) {l : Loc} (hl : l.area ≠ .l2)
    (hc : ∀ c ∈ cells, c.1.area ≠ .l2) :
    (cells.foldl (fun t c => t.setByte c.1 c.2) s).byte l = lastAt cells l (s.byte l) := by
  induction cells generalizing s with
  | nil => rfl
  | cons c t ih =>
    have h1 := hc c (by simp)
    simp only [List.foldl_cons, lastAt]
    rw [ih (s.setByte c.1 c.2) fun x hx => hc x (by simp [hx]), byte_setByte s c.2 h1 hl]
    simp only [lastAt]
    congr 1
    by_cases h : l = c.1
    · simp [h]
    · have h2 : ¬c.1 = l := fun e => h e.symm
      simp [h, h2]

theorem lastAt_of_not_mem {cells : List (Loc × Byte)} {l : Loc} {old : Byte} (h : ∀ c ∈ cells, c.1 ≠ l) :
    lastAt cells l old = old := by
  induction cells generalizing old with
  | nil => rfl
  | cons c t ih =>
    simp only [lastAt, List.foldl_cons]
    rw [if_neg (h c (by simp))]
    exact ih fun x hx => h x (by simp [hx])

/-! ### Lines (R95, R277) -/

theorem Mem.get_foldl_copy (f : Nat → Nat) (g : Nat → Nat) (n : Nat) (m : List Host.Cell) (k : Nat)
    (hfg : ∀ i j, f i ≠ g j) (hf : ∀ i j, f i = f j → i = j) :
    Mem.get ((List.range n).foldl (fun t i => Mem.put t (f i) (Mem.get t (g i))) m) k =
      match (List.range n).find? fun i => f i == k with
      | some i => Mem.get m (g i)
      | none => Mem.get m k := by
  induction n with
  | zero => rfl
  | succ n ih =>
    have hg : ∀ j, Mem.get ((List.range n).foldl (fun t i => Mem.put t (f i) (Mem.get t (g i))) m) (g j) = Mem.get m (g j) := by
      intro j
      have aux : ∀ (xs : List Nat) (m : List Host.Cell),
          Mem.get (xs.foldl (fun t i => Mem.put t (f i) (Mem.get t (g i))) m) (g j) = Mem.get m (g j) := by
        intro xs
        induction xs with
        | nil => intro _; rfl
        | cons x xs ihx =>
          intro m
          rw [List.foldl_cons, ihx, Mem.get_put_ne]
          exact fun e => hfg x j e.symm
      exact aux _ _
    rw [List.range_succ, List.foldl_append, List.find?_append]
    simp only [List.foldl_cons, List.foldl_nil, Mem.get_put]
    split <;> rename_i h
    · have : (List.range n).find? (fun i => f i == k) = none := by
        rw [List.find?_eq_none]
        intro i hi
        have hi' : i < n := by simpa using hi
        simp only [beq_iff_eq]
        intro e
        have := hf i n (by rw [e, h])
        omega
      rw [this, hg]
      simp [h]
    · rw [ih]
      have h1 : ¬f n = k := fun e => h e.symm
      cases hfind : (List.range n).find? (fun i => f i == k) with
      | some i => simp
      | none => simp [h1]

/-- A line of the core or of the L2 is no place where host bytes are read, unless it is the L2's host line. -/
theorem servedBy_cons (x : Line) (xs : List Line) (l : Loc) (h : ¬(x.core.isNone ∧ x.area = .host ∧ l.area = .host ∧ x.line = l.addr / 128)) :
    servedBy (x :: xs) l = servedBy xs l := by
  unfold servedBy holdsHost
  by_cases hl : l.area = .host
  · have : (x.core.isNone && x.area == .host && x.line == l.addr / 128) = false := by
      cases hc : (x.core.isNone && x.area == .host && x.line == l.addr / 128) with
      | false => rfl
      | true =>
        simp only [Bool.and_eq_true, beq_iff_eq] at hc
        exact absurd ⟨hc.1.1, hc.1.2, hl, hc.2⟩ h
    simp [this]
  · simp [hl]

theorem Mem.get_copyLine (m : List Host.Cell) (line : Nat) {src dst : Area} (h : src ≠ dst) (k : Nat) :
    Mem.get (Mem.copyLine m line src dst) k =
      match (List.range 128).find? fun i => Loc.key ⟨dst, 128 * line + i⟩ == k with
      | some i => Mem.get m (Loc.key ⟨src, 128 * line + i⟩)
      | none => Mem.get m k := by
  unfold Mem.copyLine Mem.copyBytes
  exact Mem.get_foldl_copy (fun i => Loc.key ⟨dst, 128 * line + i⟩) (fun i => Loc.key ⟨src, 128 * line + i⟩) 128 m k
    (by intro i j e; have := congrArg Loc.area (Loc.key_inj e); exact h this.symm)
    (by intro i j e; have := congrArg Loc.addr (Loc.key_inj e); simp at this; omega)

theorem Mem.get_copyLine_at (m : List Host.Cell) {src dst : Area} (h : src ≠ dst) (a : Nat) :
    Mem.get (Mem.copyLine m (a / 128) src dst) (Loc.key ⟨dst, a⟩) = Mem.get m (Loc.key ⟨src, a⟩) := by
  have ha : 128 * (a / 128) + a % 128 = a := by omega
  rw [Mem.get_copyLine _ _ h]
  have hf : (List.range 128).find? (fun i => Loc.key ⟨dst, 128 * (a / 128) + i⟩ == Loc.key ⟨dst, a⟩) = some (a % 128) := by
    rw [List.find?_range_eq_some]
    refine ⟨by simp [ha], by simpa using Nat.mod_lt _ (by omega), ?_⟩
    intro j hj
    simp only [Bool.not_eq_true', beq_eq_false_iff_ne, ne_eq]
    intro e
    have := congrArg Loc.addr (Loc.key_inj e)
    simp at this
    omega
  rw [hf]
  simp only [ha]

theorem Mem.get_copyLine_other (m : List Host.Cell) (line : Nat) {src dst : Area} (h : src ≠ dst) (l : Loc)
    (hl : ¬(l.area = dst ∧ l.addr / 128 = line)) : Mem.get (Mem.copyLine m line src dst) l.key = Mem.get m l.key := by
  rw [Mem.get_copyLine _ _ h]
  have hf : (List.range 128).find? (fun i => Loc.key ⟨dst, 128 * line + i⟩ == l.key) = none := by
    rw [List.find?_eq_none]
    intro i hi
    have hi' : i < 128 := by simpa using hi
    simp only [beq_iff_eq]
    intro e
    have e := Loc.key_inj e
    apply hl
    rw [← e]
    exact ⟨rfl, by simp; omega⟩
  rw [hf]

/-- Filling or touching a line changes no byte as the part reads it (R95, R277). -/
theorem byte_touchIn (s : State) (core : Option Nat) (area : Area) (line : Nat) (h : Hint) (dirty : Bool) {l : Loc}
    (hl : l.area ≠ .l2) : (s.touchIn core area line h dirty).byte l = s.byte l := by
  unfold State.touchIn State.holdsLine
  split <;> rename_i hany
  · show Mem.get s.mem (servedBy _ l).key = Mem.get s.mem (servedBy s.lines l).key
    have : ∀ a, holdsHost (s.lines.map fun x =>
        if x.core == core && x.area == area && x.line == line then
          { x with prio := State.prioAfter x.prio h, dirty := x.dirty || dirty, used := s.gts }
        else x) a = holdsHost s.lines a := by
      intro a
      simp only [holdsHost, List.any_map]
      congr 1
      funext x
      simp only [Function.comp]
      split <;> rfl
    unfold servedBy
    rw [this]
  · by_cases hh : area = .host ∧ core.isNone = true
    · obtain ⟨ha, hc⟩ := hh
      subst ha
      have hcore : core = none := by cases core <;> simp_all
      subst hcore
      simp only [Option.isNone_none, and_self, if_true]
      simp only [State.byte, State.served]
      by_cases hin : l.area = .host ∧ l.addr / 128 = line
      · obtain ⟨h1, h2⟩ := hin
        subst h2
        have hs : holdsHost s.lines l.addr = false := by
          simp only [holdsHost]
          simpa using hany
        have e0 : l = ⟨.host, l.addr⟩ := by cases l; simp_all
        have e1 : servedBy s.lines l = ⟨.host, l.addr⟩ := by simp [servedBy, hs, ← e0]
        have e2 : servedBy (⟨none, .host, l.addr / 128, State.prioOf h, dirty, [], s.gts⟩ :: s.lines) l = ⟨.l2, l.addr⟩ := by
          simp [servedBy, holdsHost, h1]
        rw [e1, e2, Mem.get_copyLine_at _ (by decide)]
      · rw [servedBy_cons _ _ _ (by simp only; intro hc; exact hin ⟨hc.2.2.1, hc.2.2.2.symm⟩)]
        apply Mem.get_copyLine_other _ _ (by decide)
        intro hc
        unfold servedBy at hc
        split at hc <;> rename_i hw
        · exact hin ⟨hw.1, hc.2⟩
        · exact hl hc.1
    · simp only [hh, if_false]
      have e := servedBy_cons ⟨core, area, line, State.prioOf h, dirty, [], s.gts⟩ s.lines l
        (fun hc => hh ⟨hc.2.1, hc.1⟩)
      exact congrArg (fun p => Mem.get s.mem (Loc.key p)) e

theorem byte_touch (s : State) (core : Nat) (p : Loc) (h : Hint) (write : Bool) {l : Loc} (hl : l.area ≠ .l2) :
    (s.touch core p h write).byte l = s.byte l := by
  unfold State.touch
  split
  · dsimp only
    split
    · exact byte_touchIn s _ _ _ _ _ hl
    · rw [byte_touchIn _ _ _ _ _ _ hl, byte_touchIn _ _ _ _ _ _ hl]
  · rfl

/-- Accesses that pass the caches change no byte. -/
theorem byte_touchAll (s : State) (core : Nat) (ls : List Loc) (h : Hint) (write : Bool) {l : Loc} (hl : l.area ≠ .l2) :
    (s.touchAll core ls h write).byte l = s.byte l := by
  unfold State.touchAll
  generalize State.linesOf ls = ps
  induction ps generalizing s with
  | nil => rfl
  | cons p ps ih => rw [List.foldl_cons, ih, byte_touch s core _ h write hl]

/-! ### The end of a wave's tape, and the entry to a handler -/

/-- What ends with a wave's tape changes nothing but which bytes of its area loads find unspecified (R235, R412). -/
theorem retireTape_changes (s : State) (w : Wave) : ∃ ts, retireTape s w = { s with oldTapes := ts } := by
  unfold retireTape
  split
  · exact ⟨s.oldTapes, rfl⟩
  · split
    · exact ⟨s.oldTapes, rfl⟩
    · exact ⟨_, rfl⟩

/-- All that taking a trap can come to (R368, R370, R373, R374). -/
theorem takeTrap_cases (s : State) (t : Trap) (next : Nat) :
    (∃ c pc a x, (s.cur.inHandler = true ∨ s.w.trapvec / 2 = 0) ∧ takeTrap s t next = slotLaunchFaultAt s s.w.core c pc a x) ∨
    (s.cur.inHandler = false ∧ s.w.trapvec / 2 ≠ 0 ∧ entryWaits s = true ∧ takeTrap s t next = standAtEntry s t next) ∨
    (s.cur.inHandler = false ∧ s.w.trapvec / 2 ≠ 0 ∧ entryWaits s = false ∧ takeTrap s t next = enterNow s t next) := by
  unfold takeTrap
  by_cases h1 : s.cur.inHandler = true
  · exact .inl ⟨_, _, _, _, .inl h1, if_pos h1⟩
  · by_cases h2 : s.w.trapvec / 2 = 0
    · exact .inl ⟨_, _, _, _, .inr h2, by simp only [h1, h2, if_true, Bool.false_eq_true, if_false]; rfl⟩
    · by_cases h3 : entryWaits s = true
      · exact .inr (.inl ⟨by simpa using h1, h2, h3, by simp [h1, h2, h3]⟩)
      · exact .inr (.inr ⟨by simpa using h1, h2, by simpa using h3, by simp [h1, h2, h3]⟩)

/-- A slot that waits to enter its handler has changed no byte and no register. -/
@[simp] theorem mem_standAtEntry (s : State) (t : Trap) (n : Nat) : (standAtEntry s t n).mem = s.mem := rfl
@[simp] theorem v_standAtEntry (s : State) (t : Trap) (n r l : Nat) : (standAtEntry s t n).v r l = s.v r l := rfl
@[simp] theorem sreg_standAtEntry (s : State) (t : Trap) (n r : Nat) : (standAtEntry s t n).sreg r = s.sreg r := rfl

end Sys2Proof.Machine
end

