-- ==== Sys2Proof/Laws/LoadStore.lean ====
section
/-! SUPPORT. Accesses of lanes that pass their checks, and what performing them comes to. -/
namespace Sys2Proof.Machine

theorem mem_lanesOf {m : Word} {l : Nat} : l ∈ lanesOf m ↔ l < 32 ∧ m.getLsbD l = true := by
  simp [lanesOf]

theorem mem_checkedLanes {s : State} {l : Nat} :
    l ∈ checkedLanes s ↔ (l < 32 ∧ s.m0.getLsbD l = true) ∧ s.helperLane l = false := by
  simp [checkedLanes, mem_lanesOf]

theorem memAddr_eq (s : State) (sp : Space) (vi sb l : Nat) : memAddr s sp vi sb l = lane101 s sp vi sb l := by
  unfold memAddr lane101
  cases sp <;> by_cases h : vi = 63 <;> simp [h]

/-- The first value whose key is the lane, where each lane has one value. -/
theorem assocGet_map {α β : Type} (xs : List α) (key : α → Nat) (val : α → β) {x : α} (hx : x ∈ xs)
    (hu : ∀ y ∈ xs, key y = key x → val y = val x) :
    assocGet (xs.map fun a => (key a, val a)) (key x) = some (val x) := by
  induction xs with
  | nil => simp at hx
  | cons y ys ih =>
    by_cases h : key y = key x
    · simp [assocGet, h, hu y (by simp) h]
    · have h1 : ¬key x = key y := fun e => h e.symm
      have h2 : x ∈ ys := by
        rcases List.mem_cons.1 hx with e | e
        · exact absurd (by rw [e]) h
        · exact e
      simp only [List.map_cons, assocGet, h1, if_false]
      exact ih h2 fun z hz => hu z (by simp [hz])

theorem assocGet_map_none {α β : Type} (xs : List α) (key : α → Nat) (val : α → β) {k : Nat} (hu : ∀ y ∈ xs, key y ≠ k) :
    assocGet (xs.map fun a => (key a, val a)) k = none := by
  induction xs with
  | nil => rfl
  | cons y ys ih =>
    have h1 : ¬k = key y := fun e => hu y (by simp) e.symm
    simp only [List.map_cons, assocGet, h1, if_false]
    exact ih fun z hz => hu z (by simp [hz])

theorem foldl_firstCause_none {ls : List LaneAcc} (h : ∀ x ∈ ls, x.cause = none) :
    ls.foldl (fun acc x => firstCause acc x.cause) none = none := by
  induction ls with
  | nil => rfl
  | cons y ys ih =>
    rw [List.foldl_cons, h y (by simp)]
    exact ih fun z hz => h z (by simp [hz])

/-- Accesses that are in range, aligned and free of causes pass. -/
theorem checkLanes_ok {s : State} {sp : Space} {k : AccKind} {a : ASpace} {n align : Nat} {lanes : List (Nat × Int)}
    (hr : ∀ p ∈ lanes, rangeOk s sp p.2 n = true) (ha : ∀ p ∈ lanes, p.2 % (align : Int) = 0)
    (hc : ∀ p ∈ lanes, (laneAccess s sp k a p.1 p.2 n).cause = none) :
    checkLanes s sp k a n align lanes = .ok (lanes.map fun p => laneAccess s sp k a p.1 p.2 n) := by
  have h1 : lanes.filter (fun p => !rangeOk s sp p.2 n) = [] := by
    rw [List.filter_eq_nil_iff]
    intro p hp
    simp [hr p hp]
  have h2 : lanes.filter (fun p => p.2 % (align : Int) != 0) = [] := by
    rw [List.filter_eq_nil_iff]
    intro p hp
    simp [ha p hp]
  have h3 : lanesStop s a k (lanes.map fun p => laneAccess s sp k a p.1 p.2 n) = none := by
    unfold lanesStop
    rw [foldl_firstCause_none]
    intro x hx
    obtain ⟨p, hp, rfl⟩ := List.mem_map.1 hx
    exact hc p hp
  unfold checkLanes
  simp only [h1, h2, h3, List.isEmpty_nil, Bool.not_true, Bool.false_eq_true, if_false]

/-- Places free of bad granules stop nothing. -/
theorem storageStop_none {s : State} {ls : List (LaneAcc × List Loc)} (h : ∀ p ∈ ls, ∀ l ∈ p.2, s.isBad l = false) :
    storageStop s ls = none := by
  have h1 : killCause s (ls.flatMap fun p => p.2) = none := by
    unfold killCause
    split
    · rfl
    · have : (ls.flatMap fun p => p.2).find? (fun l => l.onChip && s.isBad l) = none := by
        rw [List.find?_eq_none]
        intro l hl
        obtain ⟨p, hp, hq⟩ := List.mem_flatMap.1 hl
        simp [h p hp l hq]
      rw [this]
  have h2 : ls.filter (fun p => poisoned s p.2) = [] := by
    rw [List.filter_eq_nil_iff]
    intro p hp
    unfold poisoned
    simp only [Bool.and_eq_true, List.any_eq_true, not_and, not_exists]
    intro _ l hl _
    rw [h p hp l hl]
    decide
  unfold storageStop
  rw [h1]
  simp [h2]

theorem laneAccess_lane (s : State) (sp : Space) (k : AccKind) (a : ASpace) (l : Nat) (addr : Int) (n : Nat) :
    (laneAccess s sp k a l addr n).lane = l := by
  cases sp <;> try rfl
  unfold laneAccess laneGlobal
  have aux : ∀ (ps : List (Nat × Nat)) (acc : LaneAcc), (ps.foldl
      (fun acc p =>
        match places s (.core s.w.core) a k p.1 p.2 with
        | .ok (ls, xs) => { acc with places := acc.places ++ ls, xlats := acc.xlats ++ xs }
        | .error (c, va) =>
          { acc with
            cause := firstCause acc.cause (some c)
            pages := if c = causePageFault then acc.pages ++ [va / 65536] else acc.pages }) acc).lane = acc.lane := by
    intro ps
    induction ps with
    | nil => intro _; rfl
    | cons p ps ih =>
      intro acc
      rw [List.foldl_cons, ih]
      split <;> rfl
  exact aux _ _

theorem laneAccess_addr (s : State) (sp : Space) (k : AccKind) (a : ASpace) (l : Nat) (addr : Int) (n : Nat) :
    (laneAccess s sp k a l addr n).addr = addr := by
  cases sp <;> try rfl
  unfold laneAccess laneGlobal
  have aux : ∀ (ps : List (Nat × Nat)) (acc : LaneAcc), (ps.foldl
      (fun acc p =>
        match places s (.core s.w.core) a k p.1 p.2 with
        | .ok (ls, xs) => { acc with places := acc.places ++ ls, xlats := acc.xlats ++ xs }
        | .error (c, va) =>
          { acc with
            cause := firstCause acc.cause (some c)
            pages := if c = causePageFault then acc.pages ++ [va / 65536] else acc.pages }) acc).addr = acc.addr := by
    intro ps
    induction ps with
    | nil => intro _; rfl
    | cons p ps ih =>
      intro acc
      rw [List.foldl_cons, ih]
      split <;> rfl
  exact aux _ _

/-! ### Reads -/

/-- A state that differs from another only where a read may change it. -/
def ReadsChanged (s t : State) : Prop :=
  (∃ m ls tlb ws fr, t = { s with mem := m, lines := ls, tlb := tlb, walks := ws, free := fr }) ∧ sameMemory s t

theorem ReadsChanged.refl (s : State) : ReadsChanged s s :=
  ⟨⟨s.mem, s.lines, s.tlb, s.walks, s.free, rfl⟩, fun _ _ => rfl⟩

theorem ReadsChanged.trans {s t u : State} (h : ReadsChanged s t) (k : ReadsChanged t u) : ReadsChanged s u := by
  obtain ⟨⟨m, ls, tlb, ws, fr, h1⟩, h2⟩ := h
  obtain ⟨⟨m', ls', tlb', ws', fr', k1⟩, k2⟩ := k
  exact ⟨⟨m', ls', tlb', ws', fr', by rw [k1, h1]⟩, fun l hl => (k2 l hl).trans (h2 l hl)⟩

theorem keepWalk_changes (s : State) (u : Mmu) (a : ASpace) (x : Xlat) :
    ∃ ws, keepWalk s u a x = { s with walks := ws } := by
  unfold keepWalk
  split
  · exact ⟨s.walks, rfl⟩
  · generalize x.path = ps
    induction ps generalizing s with
    | nil => exact ⟨s.walks, rfl⟩
    | cons p ps ih =>
      rw [List.foldl_cons]
      dsimp only
      split
      · exact ih s
      · obtain ⟨ws, h⟩ := ih { s with walks := _ }
        exact ⟨ws, h⟩

theorem fillTlb_changes (s : State) (u : Mmu) (a : ASpace) (x : Xlat) :
    ∃ tlb ws, fillTlb s u a x = { s with tlb := tlb, walks := ws } := by
  unfold fillTlb
  obtain ⟨ws, h⟩ := keepWalk_changes s u a x
  rw [h]
  generalize u.tlbs = ks
  suffices ∀ t : State, ∃ tlb, ks.foldl _ t = { t with tlb := tlb } by
    obtain ⟨tlb, e⟩ := this { s with walks := ws }
    exact ⟨tlb, ws, e⟩
  intro t
  induction ks generalizing t with
  | nil => exact ⟨t.tlb, rfl⟩
  | cons k ks ih =>
    rw [List.foldl_cons]
    split
    · exact ih t
    · obtain ⟨tlb, e⟩ := ih { t with tlb := _ }
      exact ⟨tlb, e⟩

theorem fillTlbs_changes (s : State) (u : Mmu) (a : ASpace) (xs : List Xlat) :
    ∃ tlb ws, fillTlbs s u a xs = { s with tlb := tlb, walks := ws } := by
  unfold fillTlbs
  induction xs generalizing s with
  | nil => exact ⟨s.tlb, s.walks, rfl⟩
  | cons x xs ih =>
    rw [List.foldl_cons]
    obtain ⟨t1, w1, h1⟩ := fillTlb_changes s u a x
    obtain ⟨t2, w2, h2⟩ := ih (fillTlb s u a x)
    exact ⟨t2, w2, by rw [h2, h1]⟩

theorem keepXlats_changes (s : State) (a : ASpace) (ls : List LaneAcc) :
    ∃ tlb ws, keepXlats s a ls = { s with tlb := tlb, walks := ws } := by
  unfold keepXlats
  split
  · exact fillTlbs_changes _ _ _ _
  · exact ⟨s.tlb, s.walks, rfl⟩

theorem keepXlats_reads (s : State) (a : ASpace) (ls : List LaneAcc) : ReadsChanged s (keepXlats s a ls) := by
  obtain ⟨tlb, ws, h⟩ := keepXlats_changes s a ls
  rw [h]
  exact ⟨⟨s.mem, s.lines, tlb, ws, s.free, rfl⟩, fun _ _ => rfl⟩

theorem touchIn_changes (s : State) (core : Option Nat) (area : Area) (line : Nat) (h : Hint) (dirty : Bool) :
    ∃ m ls, s.touchIn core area line h dirty = { s with mem := m, lines := ls } := by
  unfold State.touchIn
  split
  · exact ⟨s.mem, _, rfl⟩
  · dsimp only
    split
    · exact ⟨_, _, rfl⟩
    · exact ⟨s.mem, _, rfl⟩

theorem touch_changes (s : State) (core : Nat) (p : Loc) (h : Hint) (write : Bool) :
    ∃ m ls, s.touch core p h write = { s with mem := m, lines := ls } := by
  unfold State.touch
  split
  · dsimp only
    obtain ⟨m, ls, h1⟩ := touchIn_changes s none p.area p.line h write
    split
    · exact ⟨m, ls, h1⟩
    · obtain ⟨m', ls', h2⟩ := touchIn_changes (s.touchIn none p.area p.line h write) (some core) p.area p.line h false
      exact ⟨m', ls', by rw [h2, h1]⟩
  · exact ⟨s.mem, s.lines, rfl⟩

theorem touchAll_changes (s : State) (core : Nat) (ls : List Loc) (h : Hint) (write : Bool) :
    ∃ m x, s.touchAll core ls h write = { s with mem := m, lines := x } := by
  unfold State.touchAll
  generalize State.linesOf ls = ps
  induction ps generalizing s with
  | nil => exact ⟨s.mem, s.lines, rfl⟩
  | cons p ps ih =>
    rw [List.foldl_cons]
    obtain ⟨m, x, h1⟩ := touch_changes s core ⟨p.1, 128 * p.2⟩ h write
    obtain ⟨m', x', h2⟩ := ih (s.touch core ⟨p.1, 128 * p.2⟩ h write)
    exact ⟨m', x', by rw [h2, h1]⟩

theorem touchAll_reads (s : State) (core : Nat) (ls : List Loc) (h : Hint) (write : Bool) :
    ReadsChanged s (s.touchAll core ls h write) := by
  refine ⟨?_, fun l hl => byte_touchAll s core ls h write hl⟩
  obtain ⟨m, x, e⟩ := touchAll_changes s core ls h write
  exact ⟨m, x, s.tlb, s.walks, s.free, by rw [e]⟩

theorem afterRead_reads (s : State) (a : ASpace) (ls : List LaneAcc) (h : Hint) : ReadsChanged s (afterRead s a ls h) := by
  have h1 := (keepXlats_reads s a ls).trans
    (touchAll_reads (keepXlats s a ls) s.w.core (ls.flatMap fun x => x.places) h false)
  unfold afterRead State.afterFree
  dsimp only
  split
  · exact h1.trans ⟨⟨_, _, _, _, _, rfl⟩, fun _ _ => rfl⟩
  · exact h1

/-- n registers from d on written in the active lanes, one after another. -/
def writeBlock (s : State) (d n : Nat) (f : Nat → Nat → Word) : State :=
  (List.range n).foldl (fun t k => t.setV (d + k) (f k)) s

theorem writeBlock_changes (s : State) (d n : Nat) (f : Nat → Nat → Word) :
    ∃ vr, writeBlock s d n f = { s with w := { s.w with vregs := vr } } := by
  unfold writeBlock
  induction n with
  | zero => exact ⟨s.w.vregs, rfl⟩
  | succ n ih =>
    obtain ⟨vr, h⟩ := ih
    rw [List.range_succ, List.foldl_append, h]
    exact ⟨_, rfl⟩

theorem v_writeBlock (s : State) (d n : Nat) (f : Nat → Nat → Word) (r : Nat) {l : Nat} (hl : l < 32) :
    (writeBlock s d n f).v r l = if d ≤ r ∧ r < d + n ∧ s.m0.getLsbD l = true then f (r - d) l else s.v r l := by
  induction n with
  | zero =>
    have : ¬(d ≤ r ∧ r < d + 0 ∧ s.m0.getLsbD l = true) := by omega
    rw [if_neg this]
    rfl
  | succ n ih =>
    have e : writeBlock s d (n + 1) f = (writeBlock s d n f).setV (d + n) (f n) := by
      unfold writeBlock
      rw [List.range_succ, List.foldl_append]
      rfl
    have hm : (writeBlock s d n f).m0 = s.m0 := by
      obtain ⟨vr, h⟩ := writeBlock_changes s d n f
      rw [h]
      rfl
    rw [e]
    by_cases h : r = d + n
    · subst h
      rw [v_setV_self _ _ _ hl, hm, ih]
      by_cases ha : s.m0.getLsbD l = true
      · have h1 : d ≤ d + n ∧ d + n < d + (n + 1) ∧ s.m0.getLsbD l = true := ⟨by omega, by omega, ha⟩
        rw [if_pos ha, if_pos h1]
        simp
      · have h1 : ¬(d ≤ d + n ∧ d + n < d + (n + 1) ∧ s.m0.getLsbD l = true) := fun c => ha c.2.2
        have h2 : ¬(d ≤ d + n ∧ d + n < d + n ∧ s.m0.getLsbD l = true) := fun c => ha c.2.2
        rw [if_neg ha, if_neg h1, if_neg h2]
    · rw [v_setV_ne _ _ _ h, ih]
      have : (d ≤ r ∧ r < d + n ∧ s.m0.getLsbD l = true) ↔ (d ≤ r ∧ r < d + (n + 1) ∧ s.m0.getLsbD l = true) := by
        constructor <;> (rintro ⟨h1, h2, h3⟩; exact ⟨h1, by omega, h3⟩)
      simp only [this]

theorem v_writeBlock_ne (s : State) (d n : Nat) (f : Nat → Nat → Word) {r : Nat} (l : Nat) (h : r < d ∨ d + n ≤ r) :
    (writeBlock s d n f).v r l = s.v r l := by
  induction n with
  | zero => rfl
  | succ n ih =>
    have e : writeBlock s d (n + 1) f = (writeBlock s d n f).setV (d + n) (f n) := by
      unfold writeBlock
      rw [List.range_succ, List.foldl_append]
      rfl
    rw [e, v_setV_ne _ _ _ (by omega), ih (by omega)]

/-- The accesses that a load performs: those of the checked lanes, and those of the helper lanes that pass. -/
def loadAccesses (s : State) (sp : Space) (w : LdWidth) (vi sb : Nat) : List LaneAcc :=
  ((checkedLanes s).map fun l => laneAccess s sp .load s.viewSpace l (lane101 s sp vi sb l) w.bytes)
    ++ helperLoads s sp s.viewSpace w.bytes (lane101 s sp vi sb)

/-- What a lane's load reads. -/
def laneLoad (s : State) (sp : Space) (w : LdWidth) (vi sb l : Nat) : Nat :=
  if helperFails s sp l (lane101 s sp vi sb l) w.bytes then 0
  else extendLoad w (slotRead s l (laneAccess s sp .load s.viewSpace l (lane101 s sp vi sb l) w.bytes).places)

theorem mem_helperLoads {s : State} {sp : Space} {a : ASpace} {n : Nat} {addr : Nat → Int} {x : LaneAcc} :
    x ∈ helperLoads s sp a n addr ↔ ∃ l < 32, s.m0.getLsbD l = true ∧ s.helperLane l = true ∧ rangeOk s sp (addr l) n = true ∧
      (laneAccess s sp .load a l (addr l) n).cause.isNone = true ∧
      poisoned s (laneAccess s sp .load a l (addr l) n).places = false ∧ x = laneAccess s sp .load a l (addr l) n := by
  unfold helperLoads
  simp only [List.mem_filterMap, List.mem_filter, mem_lanesOf]
  constructor
  · rintro ⟨l, ⟨⟨h1, h2⟩, h3⟩, h4⟩
    split at h4
    · rename_i hr
      split at h4
      · rename_i hc
        simp only [Bool.and_eq_true, Bool.not_eq_true'] at hc
        exact ⟨l, h1, h2, h3, hr, hc.1, hc.2, by simpa using h4.symm⟩
      · simp at h4
    · simp at h4
  · rintro ⟨l, h1, h2, h3, h4, h5, h6, rfl⟩
    exact ⟨l, ⟨⟨h1, h2⟩, h3⟩, by simp [h4, h5, h6]⟩

/-- Each lane's value among those that a load has read. -/
theorem laneLoad_eq {s : State} {sp : Space} {w : LdWidth} {vi sb l : Nat} (hl : l < 32) (ha : s.m0.getLsbD l = true) :
    (assocGet ((loadAccesses s sp w vi sb).map fun x => (x.lane, extendLoad w (slotRead s x.lane x.places))) l).getD 0
      = laneLoad s sp w vi sb l := by
  have hlane : ∀ x ∈ loadAccesses s sp w vi sb,
      x = laneAccess s sp .load s.viewSpace x.lane (lane101 s sp vi sb x.lane) w.bytes := by
    intro x hx
    rcases List.mem_append.1 hx with h | h
    · obtain ⟨j, _, rfl⟩ := List.mem_map.1 h
      rw [laneAccess_lane]
    · obtain ⟨j, _, _, _, _, _, _, rfl⟩ := mem_helperLoads.1 h
      rw [laneAccess_lane]
  have hu : ∀ x ∈ loadAccesses s sp w vi sb, ∀ y ∈ loadAccesses s sp w vi sb, y.lane = x.lane →
      extendLoad w (slotRead s y.lane y.places) = extendLoad w (slotRead s x.lane x.places) := by
    intro x hx y hy e
    rw [hlane x hx, hlane y hy, e]
  by_cases hin : laneAccess s sp .load s.viewSpace l (lane101 s sp vi sb l) w.bytes ∈ loadAccesses s sp w vi sb
  · have := assocGet_map (loadAccesses s sp w vi sb) LaneAcc.lane (fun x => extendLoad w (slotRead s x.lane x.places)) hin
      (fun y hy e => hu _ hin y hy e)
    rw [laneAccess_lane] at this
    rw [this]
    have hf : helperFails s sp l (lane101 s sp vi sb l) w.bytes = false := by
      unfold helperFails
      cases hh : s.helperLane l with
      | false => rfl
      | true =>
        rcases List.mem_append.1 hin with h | h
        · obtain ⟨j, hj, e⟩ := List.mem_map.1 h
          have e := congrArg LaneAcc.lane e
          rw [laneAccess_lane, laneAccess_lane] at e
          rw [e] at hj
          have := (mem_checkedLanes.1 hj).2
          rw [this] at hh
          exact absurd hh (by decide)
        · obtain ⟨j, _, _, _, h4, h5, h6, e⟩ := mem_helperLoads.1 h
          have e := congrArg LaneAcc.lane e
          rw [laneAccess_lane, laneAccess_lane] at e
          subst e
          simp [h4, h5, h6]
    simp [laneLoad, hf]
  · have hn : ∀ y ∈ loadAccesses s sp w vi sb, y.lane ≠ l := by
      intro y hy e
      apply hin
      have := hlane y hy
      rw [e] at this
      rw [← this]
      exact hy
    rw [assocGet_map_none _ LaneAcc.lane _ hn]
    have hh : s.helperLane l = true := by
      cases hh : s.helperLane l with
      | true => rfl
      | false =>
        exfalso
        apply hin
        apply List.mem_append.2
        left
        exact List.mem_map.2 ⟨l, mem_checkedLanes.2 ⟨⟨hl, ha⟩, hh⟩, rfl⟩
    have hf : helperFails s sp l (lane101 s sp vi sb l) w.bytes = true := by
      unfold helperFails
      rw [hh, Bool.true_and, Bool.not_eq_true']
      cases h1 : (rangeOk s sp (lane101 s sp vi sb l) w.bytes && (laneAccess s sp .load s.viewSpace l (lane101 s sp vi sb l) w.bytes).cause.isNone
        && !poisoned s (laneAccess s sp .load s.viewSpace l (lane101 s sp vi sb l) w.bytes).places) with
      | false => rfl
      | true =>
        exfalso
        apply hin
        simp only [Bool.and_eq_true, Bool.not_eq_true'] at h1
        exact List.mem_append.2 (Or.inr (mem_helperLoads.2 ⟨l, hl, ha, hh, h1.1.1, h1.1.2, h1.2, rfl⟩))
    simp [laneLoad, hf]

/-- A load that passes is performed: reads that change no byte, then the registers. -/
theorem doLd_ok {s : State} {sp : Space} {w : LdWidth} {vi sb : Nat} (d : Nat)
    (hp : ∀ l < 32, s.m0.getLsbD l = true → s.helperLane l = false →
      passes s sp .load s.viewSpace l (lane101 s sp vi sb l) w.bytes)
    (hb : helpersSound s sp (lane101 s sp vi sb) w.bytes)
    (hs : lanesStall s sp w.bytes false ((lanesOf s.m0).map fun l => (l, lane101 s sp vi sb l)) = false) :
    ∃ u f, ReadsChanged s u ∧ doLd sp w vi sb d s = .done (writeBlock u d w.regs f) ∧
      ∀ k l, l < 32 → s.m0.getLsbD l = true → f k l = wordAt (laneLoad s sp w vi sb l) k := by
  have hmem : memAddr s sp vi sb = lane101 s sp vi sb := funext (memAddr_eq s sp vi sb)
  have hc := checkLanes_ok (s := s) (sp := sp) (k := .load) (a := s.viewSpace) (n := w.bytes) (align := 1)
    (lanes := (checkedLanes s).map fun l => (l, lane101 s sp vi sb l))
    (by
      intro p h
      obtain ⟨l, hl, rfl⟩ := List.mem_map.1 h
      have := mem_checkedLanes.1 hl
      exact (hp l this.1.1 this.1.2 this.2).1)
    (by intro p _; exact Int.emod_one _)
    (by
      intro p h
      obtain ⟨l, hl, rfl⟩ := List.mem_map.1 h
      have := mem_checkedLanes.1 hl
      exact (hp l this.1.1 this.1.2 this.2).2.1)
  rw [List.map_map] at hc
  have hall : ∀ x ∈ loadAccesses s sp w vi sb, ∃ l < 32, s.m0.getLsbD l = true ∧ x.lane = l ∧ x.addr = lane101 s sp vi sb l := by
    intro x hx
    rcases List.mem_append.1 hx with h | h
    · obtain ⟨j, hj, rfl⟩ := List.mem_map.1 h
      have := mem_checkedLanes.1 hj
      exact ⟨j, this.1.1, this.1.2, laneAccess_lane .., laneAccess_addr ..⟩
    · obtain ⟨j, h1, h2, _, _, _, _, rfl⟩ := mem_helperLoads.1 h
      exact ⟨j, h1, h2, laneAccess_lane .., laneAccess_addr ..⟩
  have hstall : lanesStall s sp w.bytes false ((loadAccesses s sp w vi sb).map fun x => (x.lane, x.addr)) = false := by
    unfold lanesStall at hs ⊢
    cases hx : (sp == .c || sp == .k) with
    | false => rfl
    | true =>
      rw [hx, Bool.true_and] at hs
      rw [Bool.true_and]
      rw [List.any_eq_false] at hs ⊢
      intro p hpm
      obtain ⟨x, hxm, rfl⟩ := List.mem_map.1 hpm
      obtain ⟨l, h1, h2, h3, h4⟩ := hall x hxm
      have := hs (l, lane101 s sp vi sb l) (List.mem_map.2 ⟨l, mem_lanesOf.2 ⟨h1, h2⟩, rfl⟩)
      simpa [h3, h4] using this
  have hst : storageStop s ((loadAccesses s sp w vi sb).map fun x => (x, x.places)) = none := by
    apply storageStop_none
    intro p hpm q hq
    obtain ⟨x, hx, rfl⟩ := List.mem_map.1 hpm
    rcases List.mem_append.1 hx with h | h
    · obtain ⟨l, hl, rfl⟩ := List.mem_map.1 h
      have := mem_checkedLanes.1 hl
      exact (hp l this.1.1 this.1.2 this.2).2.2 q hq
    · obtain ⟨l, h1, h2, h3, h4, h5, h6, rfl⟩ := mem_helperLoads.1 h
      exact hb l h1 h2 h3 (by simp [helperFails, h4, h5, h6]) q hq
  refine ⟨afterRead s s.viewSpace (loadAccesses s sp w vi sb) .nm,
    fun k l => wordAt ((assocGet ((loadAccesses s sp w vi sb).map fun x =>
      (x.lane, extendLoad w (slotRead s x.lane x.places))) l).getD 0) k,
    afterRead_reads _ _ _ _, ?_, ?_⟩
  · unfold doLd
    simp only [hmem, Function.comp_def] at hc ⊢
    rw [hc]
    dsimp only
    rw [show (((checkedLanes s).map fun l => laneAccess s sp .load s.viewSpace l (lane101 s sp vi sb l) w.bytes)
      ++ helperLoads s sp s.viewSpace w.bytes (lane101 s sp vi sb)) = loadAccesses s sp w vi sb from rfl]
    rw [hstall, hst]
    rfl
  · intro k l hl ha
    show wordAt _ k = _
    rw [laneLoad_eq hl ha]

end Sys2Proof.Machine
end

