-- ==== Sys2Proof/Tests/Slice0.lean ====
section
/-! SUPPORT. Tests of the model: ill-formed terms, words worked out in the manual, small steps, and for every statement with
hypotheses a state and operands that meet them. -/
namespace Sys2Proof.Tests
open Sys2Proof Sys2Proof.Machine

set_option Elab.async false
set_option maxRecDepth 100000

/-! ### Ill-formed terms: one for each check of WellFormed -/

/-- None of these is well-formed. -/
def refused (is : List Instr) : Bool := is.all fun i => !i.wf

theorem test_wf_vectors : refused
    [.add 128 0 0, .add 0 128 0, .add 0 0 128, .clz 128 0, .clz 0 128, .add64 1 2 4, .add64 2 1 4, .add64 2 4 1, .shl64 1 2 3,
      .shl64 2 1 3, .shl64 2 4 128, .mad 0 0 128 0, .mad 0 0 0 16, .ffma 1 128 3 4, .ffma2 1 2 3 16, .fadd 128 0 0, .frcp 16 0 0,
      .frcp 0 128 0, .shfl 0 1 2 16, .bcast 0 1 2 16, .cvtF32I64 0 .rne 1 3, .cvtI64F32 0 false .rne 1 2, .redu 0 .addI32 128 0,
      .compact 0 0 128, .bfpq 0 1 0 0, .bfpq 0 9 0 0, .bfpx 0 9 0 0, .pack 0 .f16 0 1, .pack 0 .i8 0 2, .unpack 0 .n16 1 0,
      .unpack 0 .n8 2 0, .scan 0 false .xor 0 0, .perm 0 0 128, .bfi 128 0 0] = true := by decide

theorem test_wf_immediates : refused
    [.addi 0 0 1024, .addi 0 0 (-1025), .andi 0 128 0, .ori 128 0 0, .xori 0 0 2000, .shi .shl 0 0 32, .movi 0 131072,
      .movi 0 (-131073), .movh 0 65536, .saddi 0 0 4096, .saddi 64 0 0, .smovi 0 262144, .br 16777216, .br (-16777217),
      .brc 1048576 false 1, .brc 0 false 8, .brx 4096 0, .callx 0 128, .call (-16777217), .convat 524288, .ret 128, .trap 32,
      .bkpt 65536, .bar 16, .barc 64 0, .barc 0 16] = true := by decide

theorem test_wf_masks_and_scalars : refused
    [.icmp .eq 0 1 2, .icmp .eq 8 1 2, .icmp64 .eq 1 1 2, .fcmp .eq 0 0 0, .sel 8 0 0 0, .vote 0 .any 0 1, .vote 0 .any 1 8,
      .mand 0 1 2, .mor 1 8 0, .mxor 8 0 0, .mnot 0 1, .mpop 64 0, .mfirst 0 8, .mget 64 0, .mset 0 1, .mset 1 64, .sadd 64 0 0,
      .smul 0 64 0, .smax 0 0 64, .smov 64 0, .scmp .eq 0 1 2] = true := by decide

theorem test_wf_memory : refused
    [.ldP 16 .b32 0 0 0, .ldC 0 .b32 64 0 0, .ldK 0 .b32 0 32 0, .ldX 0 .b64 0 0 1, .ldG 0 .b32 0 1 0, .ldG 0 .b128 0 0 2,
      .stP 0 .b32 64 0 0, .stC 0 .b64 0 0 1, .stK 0 .b128 0 0 2, .stX 0 .b8 0 0 128, .stG 0 .b8 0 3 0, .ldu 0 .p .nm .b32 0 0,
      .ldu 0 .c .ef .b32 0 0, .ldu 0 .g .nm .b128 0 0, .ldu 0 .g .nm .b32 1 0, .ldu 0 .g .nm .b64 0 1, .stu 0 .g .nm .b128 0 0,
      .stu 0 .c .el .b32 0 0, .stu 0 .p .nm .b8 0 0, .atom 0 .rlx .p .addI32 0 0, .atom 0 .rlx .g .addI32 1 0, .atom 0 .rlx .g .addI64 0 1,
      .atom 0 .rlx .c .addI32 32 0, .cas 0 .rlx .c false 0 1, .cas 0 .rlx .c true 0 2, .cas 0 .rlx .g false 1 0,
      .gsadd 0 1 0, .gsadd 0 0 128, .gsflush 16, .fence 0 .rlx, .pf 0 false .nm 1, .cinv 0 false 1, .cwb 0 1,
      .stash 0 false .k8 2 0, .stash 0 true .k32 0 128] = true := by decide

theorem test_wf_engines : refused
    [.cpy 0 16 0 0, .cpy 0 0 1 0, .cpy 0 0 0 1, .cpyq 0 16 0, .cpyq 0 0 64, .pub 0 1, .bcbini 0 16 0, .bcbexp 0 0 64, .bcbwait 0 16,
      .mma 0 0 1 false 0 0, .mma 0 0 58 false 0 0, .mma 0 0 56 true 0 0, .mma 0 16 0 false 0 0, .mma 0 0 0 false 8 0,
      .mma 0 0 0 false 0 128, .acqa 0 8 0, .acqa 0 0 64, .rela 0 8, .azero 16 0, .anorm 0 8, .mwait 0 8, .aload 0 0 1, .astore 0 0 2,
      .ahead 0 8 0, .ahead 0 0 128, .rast 0 16 0 0, .esamp 0 1 0 0, .tex 0 0 128 0, .radj 0 128 0, .tapeRec 0 128, .tapePop 0 128,
      .tapeMark 0 false 60, .tapeMark 0 false 1, .tapeSeal 16, .tapeStat 0 64, .upd 0 1, .colw 0 1, .col 0 false false 1,
      .wmreg 0 16 0, .wmreg 0 0 1, .wmread 0 0 2, .wmread 0 16 0, .wmchk 0 0 64] = true := by decide

theorem test_wf_system : refused
    [.lclk 1, .fork 1, .join 1, .spawn 1, .mbox 64 0, .mbox 0 64, .fget 1 0, .fget 0 1, .fput 0 1, .cancel 1 .job, .cwait 1 0,
      .cwait 0 1, .getc false 0 0x3FF, .getc true 64 0, .getc false 128 0, .setc true 5 0x000, .setc true 64 0x010, .rinj 64, .tlbinv .page 1, .tlbinv .all 2,
      .evsig 32 0, .evsig 0 1, .mov16 false 0 0, .mov16 true 32 0, .add16 false 0 32, .fetchFault, .go] = true := by decide

/-! ### Words worked out bit by bit in the manual, or by hand from its encoding tables -/

/-- Each of these words decodes to the instruction beside it. -/
def readsAs (ws : List (Nat × Nat × Instr)) : Bool := ws.all fun p => decodeTableWord p.1 p.2.1 == some p.2.2

theorem test_decode_integer_and_16_bit : readsAs [
    (32, 0xA0C14213, .sel 2 4 5 6) /- sel v4, v5, v6, m2 -/,
    (32, 0x06224429, .redu 0 .addF32 8 9) /- redu.add.f32 v8, v9 -/,
    (32, 0x2080C115, .icmp .ltI 2 3 4) /- icmp.lt.i m2, v3, v4 -/,
    (32, 0x0CE14211, .shi .rotl 4 5 7) /- shi.rotl v4, v5, 7 -/,
    (16, 0x1C62, .add16 false 7 3) /- add v3, v7 -/,
    (16, 0x1CC2, .add16 false 7 6) /- add v6, v7 -/,
    (16, 0x909A, .fmul16 true 4 4) /- fmul v4, v4, s4 -/,
    (32, 0x060081A9, .redu 0 .addI32 3 2) /- redu.add.i32 v3, v2 -/,
    (32, 0x04214329, .vote 0 .all 6 5) /- vote.all m6, m5 -/,
    (32, 0x11220195, .icmp .ne 3 8 9) /- icmp.ne m3, v8, v9 -/,
    (32, 0x0A0587A9, .compact 0 15 22) /- compact v15, v22 -/,
    (32, 0x01E20629, .shfl 0 12 8 15) /- shfl v12, v8, v15 -/,
    (32, 0x70C24503, .xor 10 9 6) /- xor v10, v9, v6 -/] = true := by decide

theorem test_decode_scalar_and_mask : readsAs [
    (32, 0x0038C2AD, .sadd 5 6 7) /- sadd s5, s6, s7 -/,
    (32, 0x004C0C2B, .mpop 9 3) /- mpop s9, m3 -/] = true := by decide

theorem test_decode_float_and_convert : readsAs [
    (32, 0x044081A3, .fsqrt 0 .rup 3 2) /- fsqrt.rup v3, v2 -/,
    (32, 0x4182C51D, .ffma 10 11 12 4) /- ffma v4, v10, v11, v12 -/,
    (32, 0x044184A7, .bfpx 0 4 9 6) /- bfpx.m4 v9, v6 -/,
    (32, 0x04614327, .bfpq 0 4 6 5) /- bfpq.m4 v6, v5 -/,
    (32, 0xA101C51D, .ffma 10 7 8 10) /- ffma v10, v7, v8, v10 -/,
    (32, 0x0162861B, .fadd 12 10 11) /- fadd v12, v10, v11 -/] = true := by decide

theorem test_decode_memory : readsAs [
    (32, 0x12210055, .cinv 1 true 4) /- cinv.relax [v4:v5], la=1 -/,
    (32, 0x000082D1, .gsadd 0 2 5) /- gsadd [v2:v3], v5 -/,
    (32, 0x02000051, .gsflush 0) /- gsflush -/,
    (32, 0x00000CD3, .fence 0 (.sc .dev)) /- fence.sc.dev -/,
    (32, 0x0CC18549, .stu 0 .g .nm .b32 6 10) /- stu.b32.g s10, [s6:s7] -/,
    (32, 0x080A8137, .ldC 0 .b32 1 10 2) /- ld.c.b32 v2, [s10 + v1] -/,
    (32, 0x0A110341, .stC 0 .b64 2 4 6) /- st.c.b64 v6, [s4 + v2] -/,
    (32, 0x001B0A4B, .atom 0 .rlx .c .minN64 16 20) /- atom.min.n64.c v20, [v16] -/,
    (32, 0x0C1DC841, .stC 0 .b128 3 23 16) /- st.c.b128 v16, [s23 + v3] -/,
    (32, 0x0A200537, .ldC 0 .b64 4 0 10) /- ld.c.b64 v10, [s0 + v4] -/] = true := by decide

theorem test_decode_copies : readsAs [
    (32, 0x04620059, .bcbini 0 3 8) /- bcbini 3, s8 -/,
    (32, 0x18600059, .bcbwait 1 3) /- bcbwait 3, la=1 -/,
    (32, 0x006004D9, .cpyq 0 3 9) /- cpyq s9, 3 -/,
    (32, 0x20618257, .cpy 2 3 6 4) /- cpy s6:s7, s4:s5, 3, la=2 -/,
    (32, 0x00010157, .cpy 0 0 4 2) /- cpy s4:s5, s2:s3, 0 -/] = true := by decide

theorem test_decode_tiles : readsAs [
    (32, 0x000044DD, .acqa 0 1 9) /- acqa a1, s9 -/,
    (32, 0x0200805D, .rela 0 2) /- rela a2 -/,
    (32, 0x3E00405D, .mwait 3 1) /- mwait a1, la=3 -/,
    (32, 0x0400405D, .azero 0 1) /- azero a1 -/,
    (32, 0x1800885D, .astore 1 2 16) /- astore a2, s16, la=1 -/,
    (32, 0x0A00405D, .anorm 0 1) /- anorm a1 -/,
    (32, 0x0C00D45D, .ahead 0 3 40) /- ahead v40, a3 -/,
    (32, 0x21604A5B, .mma 2 1 24 false 1 20) /- mma a1,v20,s24,k=64,la=2 -/,
    (32, 0x00604A5B, .mma 0 0 24 false 1 20) /- mma a1, v20, s24, k=KT -/] = true := by decide

theorem test_decode_render : readsAs [
    (32, 0x0582885F, .esamp 0 12 10 16) /- esamp v16, v10, s12:s13 -/,
    (32, 0x008004DF, .rast 0 4 0 9) /- rast v9, v0, s4:s5 -/,
    (32, 0x31029461, .tex 3 8 10 40) /- tex v40, v10, s8:s9, la=3 -/,
    (32, 0x05410A61, .trace 0 10 4 20) /- trace v20, v4, s10:s11 -/] = true := by decide

theorem test_decode_tapes : readsAs [
    (32, 0x00030063, .tapeRec 0 12) /- tape.rec v12 -/,
    (32, 0x02000F63, .tapePop 0 30) /- tape.pop v30 -/,
    (32, 0x04250063, .tapeMark 0 true 20) /- tape.mark.rcmp s20 -/,
    (32, 0x06000063, .tapeSeal 0) /- tape.seal -/,
    (32, 0x080004E3, .tapeStat 0 9) /- tape.stat s9 -/] = true := by decide

theorem test_decode_collectives : readsAs [
    (32, 0x10030065, .upd 1 12) /- upd s12:s13, la=1 -/,
    (32, 0x02220065, .col 0 true false 8) /- col.sync s8:s9 -/,
    (32, 0x14020065, .colw 1 8) /- colw s8:s9, la=1 -/,
    (32, 0x06628065, .wmreg 0 3 10) /- wmreg s10:s11, 3 -/,
    (32, 0x08600465, .wmread 0 3 8) /- wmread v8, 3 -/,
    (32, 0x0A6004E5, .wmchk 0 3 9) /- wmchk s9, 3 -/,
    (32, 0x02418065, .col 0 false true 6) /- col.arr s6:s7 -/] = true := by decide

theorem test_decode_control : readsAs [
    (32, 0xFFFFFA67, .br (-12)) /- br -12 -/,
    (32, 0x00002069, .call 64) /- call +64 -/,
    (32, 0x000020EB, .brc 4 false 1) /- brc m1 +4 -/,
    (32, 0x0020706D, .brx 4 7) /- brx v7 +4 -/,
    (32, 0x002070ED, .callx 4 7) /- callx v7 +4 -/,
    (32, 0x0007F16D, .ret 127) /- ret v127 -/,
    (32, 0x000101ED, .convat 16) /- convat +16 -/,
    (32, 0x0000026D, .conv) /- conv -/,
    (32, 0x000002ED, .demote) /- demote -/,
    (32, 0x0000036D, .exit) /- exit -/,
    (32, 0x000003ED, .nop) /- nop -/,
    (32, 0x0000046D, .yield) /- yield -/,
    (32, 0x0000206F, .bar 2) /- bar 2 -/,
    (32, 0x000910EF, .barc 9 1) /- barc 1, s9 -/,
    (32, 0x0000816F, .lclk 8) /- lclk s8 -/,
    (32, 0x000001EF, .lsync) /- lsync -/,
    (32, 0x000054ED, .trap 5) /- trap 5 -/,
    (32, 0x0123456D, .bkpt 4660) /- bkpt 0x1234 -/] = true := by decide

theorem test_decode_tasks : readsAs [
    (32, 0x00004071, .fork 4) /- fork s4:s5 -/,
    (32, 0x000060F1, .join 6) /- join s6:s7 -/,
    (32, 0x0000A171, .spawn 10) /- spawn s10:s11 -/,
    (32, 0x0034C1F1, .mbox 13 12) /- mbox s12, s13 -/,
    (32, 0x00104271, .fget 2 4) /- fget v4, [s2:s3] -/,
    (32, 0x001062F1, .fput 2 6) /- fput [s2:s3], v6 -/,
    (32, 0x00011371, .cancel 4 .graph) /- cancel.graph s4:s5 -/,
    (32, 0x001883F1, .cwait 6 8) /- cwait [s8:s9], s6:s7 -/] = true := by decide

theorem test_decode_system : readsAs [
    (32, 0x00080273, .tlbinv .all 0) /- tlbinv.all -/,
    (32, 0x00000173, .tret) /- tret -/,
    (32, 0x000041F3, .rinj 4) /- rinj s4 -/,
    (32, 0x03000073, .getc false 3 0) /- getc v3,LANEID -/,
    (32, 0x88022073, .getc true 8 34) /- getc s8,GTS_LO -/,
    (32, 0x850100F3, .setc true 5 16) /- setc FPMODE,s5 -/,
    (32, 0x000002F3, .wfe) /- wfe -/,
    (32, 0x000C4373, .evsig 3 4) /- evsig 3,s4:s5 -/] = true := by decide


/-! ### States for the witnesses: a placed wave (log 12), changed by hand -/

/-- `Ready`, as a computation. -/
def readyB (i : Instr) (s : State) : Bool :=
  i.wf && s.cur.live && s.cur.ra.isNone && !(s.cancelled && (cancelPoint s i || waitsForStores i s)) && (issueTrap i s).isNone && !held i s
    && (impreciseTrap i s).isNone && !badSource (hdr i) s && !s.defer

theorem none_of_isNone {α : Type} {o : Option α} (h : o.isNone = true) : o = none := by cases o <;> simp_all

theorem ready_of {i : Instr} {s : State} (h : readyB i s = true) : i.wf = true ∧ Ready i s := by
  simp only [readyB, Bool.and_eq_true, Bool.not_eq_true'] at h
  obtain ⟨⟨⟨⟨⟨⟨⟨⟨wf, a⟩, b⟩, c⟩, d⟩, e⟩, f⟩, g⟩, k⟩ := h
  exact ⟨wf, a, none_of_isNone b, c, none_of_isNone d, e, none_of_isNone f, g, k⟩

/-- All of these are ready in their states. -/
def readyAll (ps : List (Instr × State)) : Bool := ps.all fun p => readyB p.1 p.2

/-- `Reaches` for some places of which a condition holds, as a computation. -/
def reachesB (s : State) (k : AccKind) (va : Int) (n align : Nat) (p : List Loc → Bool) : Bool :=
  addrOk va n && decide (va.toNat % align = 0) &&
    match access s (.core s.w.core) s.aspace k va n with
    | .ok (ls, _) => (killCause s ls).isNone && p ls
    | .error _ => false

theorem reaches_of {s : State} {k : AccKind} {va : Int} {n align : Nat} {p : List Loc → Bool}
    (h : reachesB s k va n align p = true) : ∃ ls xs, Reaches s k va n align ls xs ∧ p ls = true := by
  unfold reachesB at h
  simp only [Bool.and_eq_true, decide_eq_true_eq] at h
  obtain ⟨⟨a, b⟩, c⟩ := h
  split at c
  · rename_i ls xs e
    simp only [Bool.and_eq_true] at c
    exact ⟨ls, xs, ⟨a, b, e, none_of_isNone c.1⟩, c.2⟩
  · cases c

/-- The placed wave: 32 lanes at 0x4000, vector registers of zeros, memory mapped from address 0. -/
def base : State := handWave State.reset
/-- A word of n bytes at an address of the placed program. -/
def poke (s : State) (va n x : Nat) : State := s.setNum ⟨.hbm, 0x4000000 + va⟩ n x
/-- 64-bit words from an address on. -/
def pokes (s : State) (va : Nat) : List Nat → State
  | [] => s
  | x :: xs => pokes (poke s va 8 x) (va + 8) xs
/-- With lane numbers in v1, their complements in v2 and twos in v5. -/
def lanes : State := ((base.setV 1 fun l => BitVec.ofNat 32 l).setV 2 fun l => ~~~(BitVec.ofNat 32 l)).setV 5 fun _ => 2
/-- The lower half of the lanes. -/
def half (s : State) : State := s.onCur fun c => { c with m0 := 0xFFFF }
/-- A change of the launch in hand. -/
def onAttr (s : State) (f : LaunchRec → LaunchRec) : State := s.updLaunch s.w.lid fun l => { l with attr := f l.attr }
/-- Outside the privileged context. -/
def user (s : State) : State := onAttr s fun a => { a with sys := false }
/-- In a handler. -/
def inTrap (s : State) : State := s.onCur fun c => { c with trap := { c.trap with cause := 0x80000001, act := c.m0, pc := 0x4100 } }
/-- A launch whose number is n, otherwise like the one in hand. -/
def otherLaunch (s : State) (n : Nat) : Launch := { placedLaunch n with attr := { s.attr with compl := 0x900 } }


/-! ### Witnesses: for each statement with hypotheses, concrete states and operands that meet them -/

/-- Written words, of one instruction of each length. -/
theorem wit_DecodeEncode : (Instr.sel 2 4 5 6).wf = true ∧ encode (.sel 2 4 5 6) = some (4, 0xA0C14213) ∧
    (Instr.add16 false 7 3).wf = true ∧ encode (.add16 false 7 3) = some (2, 0x1C62) := by decide

theorem wit_EncodeDecode : decode [0x13, 0x42, 0xC1, 0xA0] = .ok (.sel 2 4 5 6, []) ∧
    decode [0x62, 0x1C, 0xC1, 0xA0] = .ok (.add16 false 7 3, [0xC1, 0xA0]) := ⟨rfl, rfl⟩

theorem wit_LengthBit : ((0x13 : Byte).getLsbD 0 = true ∧ decode [0x13, 0x42, 0xC1, 0xA0, 5] = .ok (.sel 2 4 5 6, [5])) ∧
    ((0x62 : Byte).getLsbD 0 = false ∧ decode [0x62, 0x1C] = .ok (.add16 false 7 3, [])) := ⟨⟨rfl, rfl⟩, rfl, rfl⟩

/-- `Fetches` of two halfwords, as a computation. -/
def fetches2 (t : State) (i : Instr) : Option (List Xlat) :=
  let unit (pc : Nat) := match places t (.core t.w.core) t.aspace .fetch pc 2 with
    | .ok (ls, xs) => if addrOk pc 2 && ls.length == 2 && ls.all fun l => !t.isBad l then some (ls, xs) else none
    | .error _ => none
  match unit t.cur.pc, unit (t.cur.pc + 2) with
  | some (ls, xs), some (ls', ys) =>
    match decode ((ls ++ ls').map fun l => t.byte l) with
    | .ok (j, []) => if j = i then some (xs ++ ys) else none
    | _ => none
  | _, _ => none

/-- `MayIssue`, as a computation. -/
def mayIssueB (wid : Nat) (t : State) : Bool :=
  t.w.live && t.w.wid == wid && !(t.cancelled && slotWaits t) && !injectable t && slotReady t && !swapDue t
    && (!t.cur.replaying || t.cur.flights.isEmpty)
theorem mayIssue_of {wid : Nat} {t : State} (h : mayIssueB wid t = true) : MayIssue wid t := by
  simp only [mayIssueB, Bool.and_eq_true, Bool.not_eq_true', beq_iff_eq, Bool.or_eq_true] at h
  obtain ⟨⟨⟨⟨⟨⟨a, b⟩, c⟩, d⟩, e⟩, f⟩, g⟩ := h
  exact ⟨⟨a, b⟩, c, d, e, f, fun k => by simpa [k] using g⟩

def issueAt (s : State) : State := { s with agenda := [.issue 2 false false] }
def placed : State := base.withFetchWord 32 0xA0C14213
/-- The bytes placed at the PC are fetched and decode, with the agenda empty and with an attempt at its head; a step of an
engine heads an agenda. -/
def ownTurn : State := { placed with gts := 0, agenda := [] }
def atHead : State := attempt { issueAt placed with agenda := [] } 2 false false
def atTurn : State := attempt (beforeTurn (eligiblePairs ownTurn) ownTurn) 2 false false
theorem wit_StepRunsDecoded :
    ((issueAt placed).agenda = [.issue 2 false false] ∧ (mayIssueB 2 atHead && (fetches2 atHead (.sel 2 4 5 6)).isSome) = true) ∧
    (ownTurn.agenda = [] ∧ ownTurn.gts % 2 = 0 ∧ ((turnPairs (eligiblePairs ownTurn)).head?.any fun p => p.wid == 2 && !p.sec) = true ∧
       (mayIssueB 2 atTurn && (fetches2 atTurn (.sel 2 4 5 6)).isSome) = true) ∧
    (engineStep .clockStepDown = true ∧
      ({ base with agenda := [.event .clockStepDown] } : State).agenda = .event .clockStepDown :: []) := by
  refine ⟨⟨rfl, ?_⟩, ⟨rfl, rfl, ?_, ?_⟩, ?_, rfl⟩ <;> decide +kernel

/-- A store of one byte that a wave's primary slot has sent to an area. -/
def aPosted (wid : Nat) (area : Area) : Posted :=
  { id := 60, wid := wid, sec := false, lid := base.w.lid, gid := base.w.gid, core := base.w.core, lin := 0, waveid := 0, pc := 0x4010,
    addr := 0x9000, size := 1, hint := .nm, writer := none, data := [(⟨area, 0x77⟩, 5)] }
theorem wit_TrapEntry : base.cur.inHandler = false ∧ base.w.trapvec / 2 ≠ 0 ∧ base.cur.flights = [] ∧ entryWaits base = false := by decide +kernel

/-- Three unfinished instructions: a load, a `shfl` and one that captures nothing. -/
def unfinished : State :=
  let fl (s : State) (i : Instr) : State := { leaveUnfinished i s none false with defer := false }
  fl (fl (fl ((half (lanes.setS 4 77)).setV 3 fun l => BitVec.ofNat 32 (l + 100)) (.ldG 0 .b32 1 4 20)) (.shfl 0 21 1 2)) (.cwait 4 6)
/-- A `tlbinv` of the slot waits for a store. -/
def invWaits : State := { base with posted := [aPosted 77 .host] }.onCur fun c => { c with tlbWait := some [60] }
theorem wit_ReplayQueue : (unfinished.cur.inHandler = false ∧ unfinished.w.trapvec / 2 ≠ 0 ∧ unfinished.cur.flights.length ≤ 16 ∧
      entryWaits unfinished = false) ∧
    (invWaits.cur.inHandler = false ∧ invWaits.w.trapvec / 2 ≠ 0 ∧ entryWaits invWaits = true) ∧
    unfinished.cur.flights.length = 3 ∧ (unfinished.cur.flights.map fun f => f.vecs.length).any (· ≠ 0) = true := by decide +kernel

def noVector (s : State) : State := s.onWave fun w => { w with trapvec := 1 }
theorem wit_TrapWithoutHandler :
    ((inTrap base).cur.inHandler = true ∧ ((inTrap base).launch? (inTrap base).w.lid).isSome = true ∧ (inTrap base).w.live = true) ∧
    ((noVector base).w.trapvec / 2 = 0 ∧ ((noVector base).launch? (noVector base).w.lid).isSome = true ∧
      (noVector base).w.live = true) := by decide +kernel

/-- `Attempts` of an encoded instruction, as a computation. -/
def attempts (i : Instr) (s : State) : Bool :=
  (encode i).isSome && s.cur.live && s.cur.ra.isNone && !(s.cancelled && (cancelPoint s i || waitsForStores i s))
def withWindow (s : State) : State :=
  s.onCur fun c => { c with windows := [⟨2, [.v 3, .s 4, .m 2], [.v 9, .s 8, .m 3]⟩] }
def budget8 (s : State) : State := s.onWave fun w => { w with budget := 8 }
theorem wit_IssueOrder :
    (attempts (.tret) (user base) && (issueTrap .tret (user base)).isSome) = true ∧
    ([Instr.tret, .rinj 4, .tlbinv .all 0, .setc true 4 0x101].all fun i =>
      attempts i (user base) && isPrivileged i && !(user base).privileged) = true ∧
    (attempts (.add 8 1 2) (budget8 base) && !isPrivileged (.add 8 1 2)) = true ∧
      (RegId.v 8 ∈ (hdr (.add 8 1 2)).reads ++ (hdr (.add 8 1 2)).writes ∧ (budget8 base).w.budget ≤ 8) ∧
    ([Instr.add 8 9 2, .add 3 1 2, .add 9 1 2, .sadd 4 5 6, .sadd 1 8 2, .mand 2 1 1, .mand 1 3 0].all fun i =>
      attempts i (withWindow base) && !isPrivileged i &&
        ((hdr i).reads ++ (hdr i).writes).all (fun r => match r with | .v n => decide (n < (withWindow base).w.budget) | _ => true) &&
        (withWindow base).cur.windows.any fun w => ((hdr i).reads ++ (hdr i).writes).any (w.writes.contains ·) ||
          (hdr i).writes.any (w.reads.contains ·)) = true := by decide +kernel

/-- An instruction waits on its own sources in flight, on a lookahead count, and on the lane order of R354. -/
theorem wit_HeldInstruction : (attempts (.fence 0 (.ar .dev)) unfinished && (issueTrap (.fence 0 (.ar .dev)) unfinished).isNone &&
    held (.fence 0 (.ar .dev)) unfinished) = true := by decide +kernel

/-! #### Chapter 6 -/

/-- All of these are ready in a state, and a table gives each its result. -/
def inTable {α : Type} (tab : Instr → State → Option α) (s : State) (is : List Instr) : Bool :=
  is.all fun i => readyB i s && (tab i s).isSome
theorem of_inTable {α : Type} {tab : Instr → State → Option α} {s : State} {is : List Instr} (h : inTable tab s is = true) :
    ∀ i ∈ is, i.wf = true ∧ Ready i s ∧ ∃ x, tab i s = some x := by
  intro i hi
  have h' := List.all_eq_true.1 h i hi
  rw [Bool.and_eq_true] at h'
  exact ⟨(ready_of h'.1).1, (ready_of h'.1).2, Option.isSome_iff_exists.1 h'.2⟩

/-- Patterns of every class in v8 and v9: infinities, NaNs, zeros, subnormals and numbers at the ends of the ranges. -/
def arS : State := ((lanes.setV 8 fun l => [0x7F800000, 0xFF800000, 0x7FC00000, 0x7F800001, 0, 0x80000000, 1, 0x80000001,
    0x7FFFFFFF, 0x7F7FFFFF, 0x00800000, 0x3F800000, 0xBF800000, 0x4F000000, 0xCF000000].getD (l % 15) 0).setV 9
    fun l => BitVec.ofNat 32 (0x9E3779B9 * (l + 1))).setM 1 0x0F0F3355

theorem wit_IntegerLanes :
    inTable (fun i _ => table61 i) (half arS) [.add 10 8 9, .sub 10 8 9, .mul 10 8 9, .mulhiI32 10 8 9, .mulhiN32 10 8 9,
      .and 10 8 9, .or 10 8 9, .xor 10 8 9, .andn 10 8 9, .shl 10 8 9, .shr 10 8 9, .sra 10 8 9, .minI32 10 8 9,
      .maxI32 10 8 9, .minN32 10 8 9, .maxN32 8 8 8] = true ∧
    inTable laneTable (half arS) [.clz 10 8, .popc 10 8, .brev 10 8, .abs 10 8, .mad 10 8 9 10, .addi 10 8 (-1024),
      .andi 10 8 (-1), .ori 10 8 1023, .xori 10 8 77, .shi .shl 10 8 31, .shi .shr 10 8 0, .shi .sra 10 8 31,
      .shi .rotl 10 8 13, .sel 1 10 8 9, .sel 0 8 8 9, .movi 10 (-131072), .movh 8 65535] = true ∧
    inTable fieldTable (half arS) [.bfeN 10 8 9, .bfeI 10 8 9, .bfi 10 8 9, .perm 10 8 9] = true ∧
    inTable pairTable (half arS) [.add64 10 8 2, .sub64 10 8 2, .shl64 10 8 63, .shr64 10 8 0, .min64I 10 8 2,
      .max64I 10 8 2, .min64N 10 8 2, .max64N 8 8 8] = true := by decide +kernel

theorem wit_CompactForms : inTable compactTable (half arS)
    ([false, true].flatMap fun k => [.mov16 k 9 8, .add16 k 9 8, .sub16 k 9 8, .and16 k 9 8, .or16 k 9 8, .xor16 k 9 8,
      .shl16 k 9 8, .shr16 k 9 8, .sra16 k 9 8, .minI3216 k 9 8, .maxI3216 k 9 8, .fadd16 k 9 8, .fsub16 k 9 8, .fmul16 k 9 8,
      .fmin16 k 9 8, .fmax16 k 8 8]) = true := by decide +kernel

theorem wit_FloatLanes :
    inTable floatTable (half arS) [.fadd 10 8 9, .fsub 10 8 9, .fmul 10 8 9, .fmin 10 8 9, .fmax 10 8 9, .fcopysign 10 8 9,
      .fldexp 10 8 9, .fadd2 10 8 9, .fmul2 10 8 9, .fdot2 10 8 9, .ffma 10 8 9 8, .ffma2 8 8 9 10] = true ∧
    inTable (fun i _ => specialTable i) (half arS) [.frcp 0 10 8, .frsq 0 10 8, .fsqrt 0 .rne 10 8, .frnd 0 .rdn 8 8, .fclass 0 10 8,
      .fexp2 0 10 8, .flog2 0 10 8, .fsin 0 10 8, .fcos 0 10 8] = true := by decide +kernel

theorem wit_ConversionsAndPacking :
    inTable cvtTable (half arS) [.cvtF32I32 0 .rne 10 8, .cvtF32N32 0 .rtz 10 8, .cvtF32I64 0 .rup 10 8, .cvtF32N64 0 .rdn 10 8,
      .cvtI32F32 0 true .rne 10 8, .cvtN32F32 0 false .rne 10 8, .cvtF16F32 0 true .rne 10 8, .cvtBf16F32 0 false .rtz 8 8,
      .cvtF32F16 0 10 8, .cvtF32Bf16 0 10 8, .cvtI8I32 0 true 10 8, .cvtN8I32 0 false 10 8, .cvtI16I32 0 true 10 8,
      .cvtN16I32 0 false 10 8] = true ∧
    inTable cvtPairTable (half arS) [.cvtI64F32 0 true .rne 10 8, .cvtN64F32 0 false .rtz 10 8] = true ∧
    readyAll ([PackTy.f16, .bf16, .i16, .n16, .i8, .n8].flatMap fun ty => [(.pack 0 ty 10 8, half arS), (.unpack 0 ty 12 8, half arS)]) = true ∧
    readyAll ([2, 4, 8].flatMap fun w => [(.bfpx 0 w 10 8, half arS), (.bfpq 0 w 8 8, half arS)]) = true := by decide +kernel

theorem wit_CrossLane : inTable crossTable (half arS)
    ([.shfl 0 10 8 1, .bcast 0 10 8 5, .compact 0 10 8, .redu 0 .and 10 8, .redu 0 .or 10 8, .redu 0 .xor 10 8] ++
      [RedOp.addI32, .addF32, .minI32, .maxI32, .minN32, .maxN32, .minF32, .maxF32].flatMap fun o =>
        [.redu 0 o 10 8, .scan 0 false o 10 8, .scan 0 true o 8 8]) = true := by decide +kernel

theorem wit_MasksAndScalars :
    inTable laneMaskTable (half arS) ([ICond.eq, .ne, .ltI, .leI, .gtI, .geI, .ltN, .leN, .gtN, .geN].flatMap (fun c =>
        [.icmp c 1 8 9, .icmp64 c 1 8 2]) ++ [FCond.eq, .ne, .lt, .le, .gt, .ge, .ord, .uno].map (fun c => .fcmp c 2 8 9) ++
        [VoteKind.any, .all, .none].map fun v => .vote 0 v 1 1) = true ∧
    inTable maskTable (half arS) [.mand 1 1 2, .mor 2 1 0, .mxor 3 1 2, .mnot 1 1, .mset 4 7, .scmp .ltI 1 4 5] = true ∧
    inTable scalarTable (half arS) ([.mpop 9 1, .mfirst 9 2, .mget 0 1, .smov 9 4, .saddi 0 4 (-4096), .smovi 63 262143] ++
      [(9, 4, 5), (0, 4, 5)].flatMap fun (d, a, b) => [.sadd d a b, .ssub d a b, .smul d a b, .sand d a b, .sor d a b,
        .sxor d a b, .sshl d a b, .sshr d a b, .ssra d a b, .smin d a b, .smax d a b]) = true := by decide +kernel

/-! #### Chapters 4 and 12 -/

/-- `passes`, as a computation. -/
def passesB (s : State) (sp : Space) (k : AccKind) (a : ASpace) (l : Nat) (addr : Int) (n : Nat) : Bool :=
  rangeOk s sp addr n && (laneAccess s sp k a l addr n).cause.isNone && (laneAccess s sp k a l addr n).places.all fun p => !s.isBad p
theorem passes_of {s : State} {sp : Space} {k : AccKind} {a : ASpace} {l n : Nat} {addr : Int} (h : passesB s sp k a l addr n = true) :
    passes s sp k a l addr n := by
  simp only [passesB, Bool.and_eq_true, List.all_eq_true, Bool.not_eq_true'] at h
  exact ⟨h.1.1, none_of_isNone h.1.2, h.2⟩

/-- Small offsets in v3, global addresses in v8 (words near each other) and v10, bases in s4, s6 and s8. -/
def memS : State :=
  (((lanes.setV 3 fun l => BitVec.ofNat 32 (16 * l)).setV64 8 fun l => BitVec.ofNat 64 (0x100000 + 8 * (l % 5))).setS 4 0x40).setS64 6 0x100000
/-- Three lanes, of which two are helpers where `helped`. -/
def few (s : State) : State := s.onCur fun c => { c with m0 := 0x80000101 }
def helped (s : State) : State := s.onWave fun w => { w with helper := 0xFF00FF00 }

def loadMeets (s : State) (i : Instr) : Bool :=
  match loadForm i with
  | some (sp, w, vi, sb, _) => readyB i s && (checkedLanes s).all (fun l => passesB s sp .load s.viewSpace l (lane101 s sp vi sb l) w.bytes) &&
      !lanesStall s sp w.bytes false ((lanesOf s.m0).map fun l => (l, lane101 s sp vi sb l)) && s.bad.isEmpty
  | none => false
theorem wit_Loads : ([LdWidth.n8, .i16, .b128].all fun w =>
      [Instr.ldP 0 w 3 0 12, .ldC 0 w 63 4 12, .ldK 0 w 3 0 12, .ldX 0 w 3 0 12, .ldG 0 w 3 6 12].all (loadMeets (helped (few memS)))) = true ∧
    ([LdWidth.i8, .n16, .b32, .b64].all fun w => loadMeets memS (.ldG 0 w 63 6 4)) = true := by decide +kernel

def storeMeets (s : State) (i : Instr) : Bool :=
  match storeForm i with
  | some (sp, w, vi, sb, _) => readyB i s && (checkedLanes s).all (fun l => passesB s sp .store s.aspace l (lane101 s sp vi sb l) w.bytes) &&
      !lanesStall s sp w.bytes true ((checkedLanes s).map fun l => (l, lane101 s sp vi sb l)) && s.posted.isEmpty &&
      s.launches.all fun x => !x.attr.mboxen
  | none => false
/-- VA 0x8000000 lies in a host page; two lanes store there. -/
def onHost : State :=
  (((memS.setNum ⟨.hbm, 0x14010⟩ 8 0x18001).setNum ⟨.hbm, 0x18000⟩ 8 (0x8000000 + 0x4000 + 0xE3)).setS64 6 0x8000000).onCur fun c =>
    { c with m0 := 0x80000001 }
def outsideMeets (s : State) (i : Instr) : Bool :=
  match i with
  | .stG _ w vi sb _ => readyB i s && !(checkedLanes s).isEmpty && (checkedLanes s).all (fun l =>
      passesB s .g .store s.aspace l (lane101 s .g vi sb l) w.bytes &&
        (laneAccess s .g .store s.aspace l (lane101 s .g vi sb l) w.bytes).places.all fun p => p.area == .host || p.area == .peer) &&
      !lanesStall s .g w.bytes true ((checkedLanes s).map fun l => (l, lane101 s .g vi sb l))
  | _ => false
/-- Two stores of one byte that the slot has sent; the first may be answered. -/
def twoPosted : State :=
  let p (id : Nat) (b : Byte) : Posted := { aPosted base.w.wid .host with id := id, data := [(⟨.host, 0x8000000⟩, b)] }
  { base with posted := [p 60 1, p 61 2] }
theorem wit_Stores : ([StWidth.b8, .b16, .b128].all fun w =>
      [Instr.stP 0 w 3 0 12, .stC 0 w 63 4 12, .stK 0 w 3 0 12, .stX 0 w 3 0 12, .stG 0 w 3 6 12].all (storeMeets (helped (few memS)))) = true ∧
    ([StWidth.b32, .b64].all fun w => storeMeets memS (.stG 0 w 63 6 4)) = true ∧ memS.bad = [] ∧
    ([StWidth.b8, .b16, .b32, .b64, .b128].all fun w => outsideMeets onHost (.stG 0 w 3 6 4)) = true ∧
    (twoPosted.posted.find? (fun p => p.id == 60)).any (fun p => !overtakes twoPosted p && p.data.all fun c => c.1.area != .l2) = true ∧
    (twoPosted.posted.find? (fun p => p.id == 61)).any (fun p => overtakes twoPosted p) = true := by decide +kernel

/-- Offsets outside every space in the even lanes. -/
def rgS : State := (memS.setV 5 fun l => BitVec.ofNat 32 (if l % 2 == 0 then 0xFFFFFFF0 else l)).setS64 8 0x4
theorem wit_AccessRange : ([Instr.ldP 0 .b32 5 0 12, .ldC 0 .b64 5 4 12, .ldK 0 .n8 5 0 12, .ldX 0 .b128 5 0 12, .ldG 0 .b32 5 8 12,
      .stP 0 .b32 5 0 12, .stC 0 .b64 5 4 12, .stK 0 .b8 5 0 12, .stX 0 .b128 5 0 12, .stG 0 .b32 5 8 12].all fun i => readyB i rgS &&
    match loadForm i, storeForm i with
    | some (sp, w, vi, sb, _), _ => (checkedLanes rgS).any fun l => !rangeOk rgS sp (lane101 rgS sp vi sb l) w.bytes
    | _, some (sp, w, vi, sb, _) => (checkedLanes rgS).any fun l => !rangeOk rgS sp (lane101 rgS sp vi sb l) w.bytes
    | _, _ => false) = true := by decide +kernel

def scalarMeets (s : State) (i : Instr) : Bool :=
  match i with
  | .ldu _ sp _ w a _ => readyB i s && passesB s sp .load s.viewSpace 0 (scalar106 s sp a) w.bytes &&
      !lanesStall s sp w.bytes false [(0, scalar106 s sp a)]
  | .stu _ sp _ w a _ => readyB i s && passesB s sp .store s.aspace 0 (scalar106 s sp a) w.bytes &&
      !lanesStall s sp w.bytes true [(0, scalar106 s sp a)] && s.posted.isEmpty && s.launches.all fun x => !x.attr.mboxen
  | _ => false
theorem wit_ScalarMemory : ([LdWidth.n8, .i16, .b32, .b64].all fun w => [Instr.ldu 0 .c .nm w 4 10, .ldu 0 .g .ef w 6 0, .ldu 0 .x .nm w 4 8,
      .ldu 0 .k .nm w 4 4].all (scalarMeets memS)) = true ∧
    ([StWidth.b8, .b16, .b32, .b64].all fun w => [Instr.stu 0 .c .nm w 4 10, .stu 0 .g .el w 6 6, .stu 0 .x .nm w 4 8,
      .stu 0 .k .nm w 4 4].all (scalarMeets memS)) = true := by decide +kernel

def atomMeets (s : State) (i : Instr) : Bool :=
  match i with
  | .atom _ _ sp op a _ =>
    let n := if Wf.atom64 op then 8 else 4
    readyB i s && (checkedLanes s).all (fun l => passesB s sp (.atom (atomHostOk op)) s.aspace l (lane283 s sp a l) n &&
      decide (lane283 s sp a l % n = 0) && (laneAccess s sp (.atom (atomHostOk op)) s.aspace l (lane283 s sp a l) n).places.all fun p => !claimedLine s p) &&
      !lanesStall s sp n true ((checkedLanes s).map fun l => (l, lane283 s sp a l)) && s.posted.isEmpty
  | .cas _ _ sp wide a _ =>
    let n := if wide then 8 else 4
    readyB i s && (checkedLanes s).all (fun l => passesB s sp (.atom true) s.aspace l (lane283 s sp a l) n && decide (lane283 s sp a l % n = 0)) &&
      !lanesStall s sp n true ((checkedLanes s).map fun l => (l, lane283 s sp a l)) && s.posted.isEmpty
  | _ => false
/-- Both lanes of a pair of equal addresses act, in the lanes' order; every operation of Table 12.4. -/
theorem wit_Atomics : ([AtomOp.addI32, .minI32, .maxI32, .minN32, .maxN32, .andB32, .orB32, .xorB32, .addF32, .xchgB32, .addI64, .minI64, .maxI64,
      .minN64, .maxN64, .xchgB64].all fun op => [Instr.atom 0 .rlx .c op 3 12, .atom 0 (.sc .sys) .g op 8 4].all (atomMeets (helped (few memS)))) = true ∧
    ([false, true].all fun w => [Instr.cas 0 .rlx .c w 3 12, .cas 0 (.ar .dev) .g w 8 4].all (atomMeets (helped (few memS)))) = true := by decide +kernel

/-- A dirty host line in the L2 and a line of the core in its L1. -/
def cachedS : State := { memS with lines := [⟨none, .host, 0x8000000 / 128, .nm, true, [5], 0⟩, ⟨some memS.w.core, .hbm, 0x4100000 / 128, .el, false, [], 0⟩] }
theorem wit_Fence : (([Scope.gp, .cl, .di, .dev, .ms, .sys, .fab].flatMap fun x => [Instr.fence 0 (.acq x), .fence 0 (.rel x), .fence 0 (.ar x),
    .fence 0 (.sc x)]).all fun i => readyB i cachedS) = true := by decide +kernel

theorem wit_CacheControl : ([Instr.pf 0 false .nm 8, .pf 0 true .el 8, .cinv 0 false 8, .cinv 0 true 8, .cwb 0 8].all fun i => readyB i cachedS) = true ∧
    (badPairs cachedS 8).isEmpty = true ∧
    (match xlate cachedS (.core cachedS.w.core) cachedS.aspace 0x100000 with
      | .ok x => pteRd x.pte && decide (x.loc 0x100000 = ⟨.hbm, 0x4100000⟩) | .error _ => false) = true ∧
    addrOk (cachedS.v64 8 0).toInt 1 = true ∧ claimedLine cachedS ⟨.hbm, 0x4100000⟩ = false := by decide +kernel

/-! #### Chapter 14 -/

/-- The lower lanes in m1, all of them in m2, none in m3; return addresses in v10, table indices in v11. -/
def cfS : State :=
  ((((lanes.setM 1 0x0000FFFF).setM 2 0xFFFFFFFF).setM 3 0).setV 10 fun _ => 0x5001).setV 11 fun l => BitVec.ofNat 32 (l % 3)

/-- Each of `brc`'s cases: no lane taken, every lane taken; a `ret` whose lanes agree. -/
theorem wit_UniformTransfers : readyAll [(.br (-12), cfS), (.br 0, cfS), (.brc 5 false 3, cfS), (.brc (-5) false 2, cfS), (.call 5, cfS), (.ret 10, cfS),
      (.convat 5, cfS), (.nop, cfS), (.demote, half cfS)] = true ∧
    cfS.m0 &&& cfS.mreg 3 = 0 ∧ cfS.m0 &&& cfS.mreg 2 = cfS.m0 ∧ cfS.m0 ≠ 0 ∧ cfS.m0.getLsbD 31 = true ∧
    (∀ k < 32, cfS.m0.getLsbD k = true → (cfS.v 10 k).toNat / 2 = (cfS.v 10 31).toNat / 2) := by decide +kernel

def joined (s : State) : State := s.onCur fun c => { c with cj := some 0x4400 }
/-- Both slots live, each with half of the lanes. -/
def sibS (s : State) : State :=
  s.onWave fun w => { w with sib := { w.cur with m0 := 0xFFFF0000, pc := 0x7000, depth := 1 }, cur := { w.cur with m0 := w.cur.m0 &&& 0xFFFF } }
/-- A stack of 126 entries leaves room for two more. -/
def deep : State := cfS.onCur fun c => { c with depth := 126 }
/-- An unfinished load, which both slots would need, and an unfinished wait, which each of them goes on with. -/
def loading : State := { leaveUnfinished (.shfl 0 21 22 23) (joined cfS) none false with defer := false }
def waitingOn : State := { leaveUnfinished (.bcbwait 3 2) (joined cfS) none true with defer := false }
theorem wit_Divergence :
    (readyB (.brc 5 false 1) cfS = true ∧ cfS.cur.cj = none ∧ cfS.m0 &&& cfS.mreg 1 ≠ 0 ∧ cfS.m0 &&& ~~~(cfS.mreg 1) ≠ 0) ∧
    (readyB (.brc 5 true 1) (joined deep) = true ∧ (joined deep).cur.cj = some 0x4400 ∧ (joined deep).cur.depth + (joined deep).w.sib.depth + 2 ≤ 128) ∧
    (deep.cur.depth + deep.w.sib.depth + 0 + 2 ≤ 128 ∧ deep.w.sib.live = false ∧ deep.w.sib.depth = 0 ∧ deep.w.curSec = false) ∧
    ((sibS cfS).w.sib.live = true ∧ (sibS cfS).cur.depth + (sibS cfS).w.sib.depth + 2 + 2 ≤ 128) ∧
    (mayDivide deep ∧ mayDivide (sibS cfS) ∧ mayDivide waitingOn ∧ ¬mayDivide loading) ∧
    ([loading, waitingOn].all fun s => readyB (.brc 5 false 1) s && !s.cancelled && s.cur.flights.length == 1 && s.cur.cj == some 0x4400) = true := by
  unfold mayDivide
  decide +kernel

/-- A table of three targets behind the instruction. -/
def tabS : State :=
  ([(0, 3), (1, 0x40), (2, 0x10), (3, 0xFFFFFFF0), (4, 0x11)] : List (Nat × Nat)).foldl (fun s p => poke s (s.cur.pc + 0x100 + 4 * p.1) 4 p.2) cfS
def tableAt (k : Nat) : Nat := match tableWord tabS (tabS.cur.pc + 0x100 + 4 * k) with | .ok w => w | .error _ => 2 ^ 32
theorem wit_TableTransfers : readyAll [(.brx 0x80 11, tabS), (.callx 0x80 11, tabS)] = true ∧ ((tabS.cur.pc : Int) + 2 * 0x80) % 4 = 0 ∧
    tableAt 0 = 3 ∧ tabS.m0 ≠ 0 ∧ (∀ k ≤ 4, tableAt k < 2 ^ 32) ∧ (∀ l < 32, tabS.m0.getLsbD l = true → (tabS.v 11 l).toNat < tableAt 0) ∧
    tabS.cur.depth + tabS.w.sib.depth + 3 ≤ 128 := by decide +kernel

/-- One more entry on the stack of the slot in hand. -/
def push (s : State) (e : StackEntry) : State := (writeEntry s s.w.curSec s.cur.depth e).onCur fun c => { c with depth := c.depth + 1 }
def armE (j : Nat) : StackEntry := mkEntry .arm 0x4801 j 0xFF000000
def joinE (j : Nat) : StackEntry := mkEntry .join 0 j 0xFFFFFFF0
def splitE (j : Nat) : StackEntry := mkEntry .split 0 j 0xFFFFFFFF
/-- The entry on top as a `conv` finds it. -/
def topIs (s : State) (e : StackEntry) : Bool := topEntry (opened .conv s) == some e && !e.spoiled
theorem wit_Conv :
    (readyB .conv cfS = true ∧ cfS.cur.pc = 0x4000 ∧ cfS.cur.depth = 0) ∧
    ((readyB .conv (push cfS (armE 8)) && topIs (push cfS (armE 8)) (armE 8)) = true ∧ pcOf (armE 8).join ≠ 0x4000) ∧
    ((readyB .conv (push cfS (armE 0x4000)) && topIs (push cfS (armE 0x4000)) (armE 0x4000)) = true ∧ pcOf (armE 0x4000).join = 0x4000) ∧
    ((readyB .conv (push cfS (joinE 0x4000)) && topIs (push cfS (joinE 0x4000)) (joinE 0x4000)) = true ∧ (push cfS (joinE 0x4000)).cur.depth = 1 ∧
      (joinE 0x4000).mask &&& ~~~cfS.w.exited ≠ 0) ∧
    ((readyB .conv (push (sibS cfS) (splitE 0x4000)) && topIs (push (sibS cfS) (splitE 0x4000)) (splitE 0x4000)) = true ∧
      (sibS cfS).w.sib.live = true ∧ (sibS cfS).w.sib.status = .running ∧
      (∀ w ∈ (push (sibS cfS) (splitE 0x4000)).waves, w.cur.barWait = .none ∧ w.sib.barWait = .none)) := by decide +kernel

def noBarrierB (s : State) : Bool := s.waves.all fun w => w.cur.barWait == .none && w.sib.barWait == .none
/-- What the statement on `exit` asks of the entry that remains on top after k JOIN entries have gone. -/
def exitMeets (s : State) (k : Nat) (p : StackEntry → Bool) : Bool :=
  let gone := s.w.exited ||| s.m0
  let entry (n : Nat) := readEntry s s.w.curSec n
  readyB .exit s && decide (s.cur.depth ≤ 128 ∧ k ≤ s.cur.depth) && noBarrierB s &&
    (List.range s.cur.depth).all (fun n => decide (n < s.cur.depth - k) || (!(entry n).spoiled && ((entry n).kind == .join && (entry n).mask &&& ~~~gone == 0 || (entry n).kind == .arm && (entry n).mask == 0))) &&
    (s.cur.depth - k == 0 || (!(entry (s.cur.depth - k - 1)).spoiled && p (entry (s.cur.depth - k - 1))))
def joinGone : StackEntry := mkEntry .join 0 0x4400 0xFFFF
theorem wit_Exit :
    exitMeets (push (push (push (half cfS) (armE 0x4400)) joinGone) { armE 0x4400 with mask := 0 }) 2 (fun e => e.kind == .arm && e.mask != 0) = true ∧
    exitMeets (push (half cfS) (joinE 0x4400)) 0 (fun e => e.kind == .join && e.mask &&& ~~~(cfS.w.exited ||| (half cfS).m0) != 0) = true ∧
    (exitMeets (push (sibS cfS) (splitE 0x4400)) 0 (fun e => e.kind == .split) = true ∧ (sibS cfS).w.sib.live = true ∧ (sibS cfS).w.sib.status = .running) ∧
    (exitMeets (sibS cfS) 0 (fun _ => false) = true ∧ (sibS cfS).cur.depth = 0) ∧
    (exitMeets (inTrap (half cfS)) 0 (fun _ => false) = true ∧ (half cfS).w.sib.live = false ∧ (half cfS).w.live = true) := by decide +kernel

/-- The secondary slot stands parked, or waiting at the join address. -/
def mergeS (st : SlotStatus) : State :=
  let s := writeEntry (push (half cfS) (splitE 0x4000)) true 0 (splitE 0x4000)
  s.onWave fun w => { w with
    exited := if st == .parked then 0xFFFF0000 else 0
    sib := { w.cur with m0 := if st == .parked then 0 else 0xFFFF0000, pc := 0x4000, depth := 1, status := st } }
theorem wit_Merge : ([SlotStatus.parked, .waiting 0x4000].all fun st =>
    readyB .conv (mergeS st) && topIs (mergeS st) (splitE 0x4000) && otherTop (mergeS st) == some (splitE 0x4000) && (mergeS st).w.sib.live &&
      (mergeS st).w.sib.status == st && (mergeS st).w.cur.depth == 1 && (mergeS st).cur.pc == 0x4000 && !(mergeS st).w.curSec &&
      (mergeS st).cur.status == .running && (splitE 0x4000).mask &&& ~~~(mergeS st).w.exited != 0) = true := by decide +kernel

def hungry : State := (push (half cfS) (armE 0x4400)).onCur fun c => { c with gc := 300 }
theorem wit_PathSwaps :
    (readyB .yield hungry = true ∧ topEntry (opened .yield hungry) = some (armE 0x4400) ∧ (armE 0x4400).kind = .arm ∧ (armE 0x4400).spoiled = false ∧
      hungry.cur.depth ≤ 128) ∧
    (readyB .yield (push cfS (joinE 0x4400)) = true ∧ topEntry (opened .yield (push cfS (joinE 0x4400))) = some (joinE 0x4400) ∧ (joinE 0x4400).kind ≠ .arm) ∧
    (swapDue hungry = true ∧ topEntry hungry = some (armE 0x4400) ∧ hungry.cur.pc < 2 ^ 56) ∧ swapDue cfS = false := by decide +kernel

/-- Two waves of one group; the other one waits at a barrier. -/
def twoWaves : State :=
  { base with others := [{ base.w with wid := 50, waveid := 1 }], groups := base.groups.map fun g => { g with waves := 2 } }
def arrived (n : Nat) : State := { twoWaves with others := twoWaves.others.map fun w => { w with cur := { w.cur with barWait := .bar n } } }
/-- The other slot waits at barrier 3. -/
def sibAt3 : State := (sibS base).onWave fun w => { w with sib := { w.sib with barWait := .bar 3 } }
def noCountB (s : State) : Bool := (List.range 16).all fun k => (barcOf s (instOf s s.w.gid) k).arrived.isEmpty
def det (s : State) : State := onAttr s fun a => { a with det := true }
def lsyncMeets (s : State) : Bool :=
  attempts .lsync s && (issueTrap .lsync s).isNone && s.cur.flights.isEmpty && s.cur.imprecise.isEmpty && !storesOut s && !s.defer && s.w.badRegs.isEmpty
def earlierB (s : State) (x : Wave) : Bool := x.lid == s.w.lid && x.wid != s.w.wid && !x.arrived &&
  (decide (x.lclock < s.w.lclock) || (x.lclock == s.w.lclock && decide (globalIndex s x ≤ globalIndex s s.w)))
def clocked (s : State) : State := s.onWave fun w => { w with lclock := 3 }
/-- The barrier 15 of the wave's gang instance with these arrivals. -/
def roundOf (count : Nat) (ws : List Nat) (s : State) : State := setBarc s (instOf s s.w.gid) 15 ⟨count, ws⟩
/-- The other wave waits at the counted barrier 15. -/
def counted (c : Nat) : State :=
  roundOf c [50] { twoWaves with others := twoWaves.others.map fun w => { w with cur := { w.cur with barWait := .barc 15 c } } }
/-- The last clause's conditions on the other waves hold, and so many waves have arrived. -/
def roundB (s : State) (c n : Nat) : Bool :=
  let b := barcOf s (instOf s s.w.gid) 15
  readyB (.barc 9 15) s && s.w.live && !s.w.sib.live && (s.sreg 9).toNat == c && (b.arrived.isEmpty || b.count == c) && b.arrived.length == n &&
    !b.arrived.contains s.w.wid && (List.range 15).all (fun k => (barcOf s (instOf s s.w.gid) k).arrived.isEmpty) &&
    s.others.all fun w => (w.cur.barWait == .none || w.cur.barWait == .barc 15 c) && w.sib.barWait == .none && (!w.arrived || b.arrived.contains w.wid)
/-- The two slots of a wave, the other one still running or at a counted barrier. -/
def sibAtC (b : BarWait) : State := (sibS (base.setS 9 5)).onWave fun w => { w with sib := { w.sib with status := .running, barWait := b } }
theorem wit_BarrierRounds :
    (readyB (.barc 9 3) (sibAtC (.bar 3)) && mismatch (sibAtC (.bar 3)) (atBarc 3)) = true ∧
    (readyB (.barc 9 15) (sibAtC .none) && !mismatch (sibAtC .none) (atBarc 15) && (sibAtC .none).w.live && (sibAtC .none).w.sib.live &&
      (sibAtC .none).w.sib.status == .running && noBarrierB (sibAtC .none) && noCountB (sibAtC .none)) = true ∧
    (readyB (.barc 9 15) (sibAtC (.barc 15 4)) && (sibAtC (.barc 15 4)).w.sib.live) = true ∧
    (readyB (.barc 9 15) ((counted 6).setS 9 5) && (counted 6).w.live && !(counted 6).w.sib.live &&
      (barcOf (counted 6) (instOf (counted 6) (counted 6).w.gid) 15).count == 6) = true ∧
    (roundB (twoWaves.setS 9 4096) 4096 0 && roundB ((counted 3).setS 9 3) 3 1 && roundB ((counted 2).setS 9 2) 2 1) = true := by decide +kernel
theorem wit_Barriers :
    ((readyB (.bar 3) twoWaves && !mismatch twoWaves (atBar 3) && noBarrierB twoWaves && noCountB twoWaves) = true ∧
      (∃ w ∈ twoWaves.waves, w.gid = twoWaves.w.gid ∧ w.wid ≠ twoWaves.w.wid ∧ (w.cur.live = true ∨ w.sib.live = true))) ∧
    ((readyB (.bar 15) (arrived 15) && (arrived 15).w.live && noCountB (arrived 15) && !(arrived 15).w.sib.live) = true ∧
      (∀ w ∈ (arrived 15).others, w.gid = (arrived 15).w.gid ∧ w.cur.live = true ∧ w.cur.barWait = .bar 15 ∧ w.sib.live = false)) ∧
    (readyB (.bar 4) sibAt3 && mismatch sibAt3 (atBar 4)) = true ∧
    ([0, 4097].all fun c => readyB (.barc 9 15) (base.setS 9 c) && !mismatch (base.setS 9 c) (atBarc 15)) = true ∧
    ((readyB (.barc 9 15) (twoWaves.setS 9 1) && (twoWaves.setS 9 1).sreg 9 == 1 && noCountB (twoWaves.setS 9 1) && noBarrierB (twoWaves.setS 9 1)
      && (twoWaves.setS 9 1).w.live && !(twoWaves.setS 9 1).w.sib.live) = true) ∧
    readyAll [(.lclk 8, base), (.lsync, base)] = true ∧
    (lsyncMeets (det (clocked twoWaves)) && (det (clocked twoWaves)).attr.det && (det (clocked twoWaves)).waves.any (earlierB (det (clocked twoWaves)))) = true ∧
    (lsyncMeets twoWaves && !twoWaves.attr.det) = true ∧
    (lsyncMeets (det base) && (det base).waves.all fun x => !earlierB (det base) x) = true := by decide +kernel

/-- Two lanes. -/
def pairS : State := lanes.onCur fun c => { c with m0 := 0x80000001 }
/-- In a handler without unfinished instructions, and with a load in entry 0 of the queue. -/
def th : State := takeTrap pairS { cause := 0x21, laddr := fun _ => 5 } 0x4100
def thq : State := takeTrap { leaveUnfinished (.ldG 0 .b32 1 4 20) pairS none false with defer := false } { cause := 0x21, laddr := fun _ => 5 } 0x4100
def noEntry (s : State) (k : Nat) : Bool := (List.range 16).all fun j => j == k || !(s.cur.rq.getD j RqEntry.zero).valid
def mayReturn (s : State) : Bool :=
  readyB .tret s && s.cur.inHandler && s.m0 == s.cur.trap.act && s.cur.depth == s.cur.trap.depth && !s.cur.trap.splitOff
def performs (s : State) (k : Nat) (p : State → Bool) : Bool :=
  (s.cur.rq.getD k RqEntry.zero).valid && match performEntry s (s.cur.rq.getD k RqEntry.zero) with | .done u => p u | _ => false
theorem wit_TrapInstructions :
    readyAll [(.trap 0, lanes), (.trap 31, lanes), (.bkpt 65535, lanes)] = true ∧
    (mayReturn th && noEntry th 16) = true ∧
    (mayReturn thq && noEntry thq 0 && performs (opened .tret thq) 0 fun u => u.w.cur.rq == thq.w.cur.rq) = true ∧
    ([lanes, half th, th.onCur fun c => { c with depth := 2 }, th.onCur fun c => { c with trap := { c.trap with splitOff := true } }].all fun s =>
      readyB .tret s && s.w.live && (s.launch? s.w.lid).isSome &&
        (!s.cur.inHandler || s.m0 != s.cur.trap.act || s.cur.depth != s.cur.trap.depth || s.cur.trap.splitOff)) = true ∧
    (readyB (.rinj 5) (thq.setS 5 16) && readyB (.rinj 5) (thq.setS 5 15) && !(thq.cur.rq.getD 15 RqEntry.zero).valid) = true ∧
    (readyB (.rinj 5) (thq.setS 5 0) && performs (opened (.rinj 5) (thq.setS 5 0)) 0 fun _ => true) = true := by decide +kernel

/-- Two loads left unfinished, which `tret` performs in their order. -/
def thqq : State :=
  let fl (s : State) (i : Instr) : State := { leaveUnfinished i s none false with defer := false }
  takeTrap (fl (fl pairS (.ldG 0 .b32 1 4 20)) (.ldG 0 .b32 1 4 22)) { cause := 0x21, laddr := fun _ => 5 } 0x4100
def entryDone (k : Nat) (s : State) : State :=
  match performEntry s (s.cur.rq.getD k RqEntry.zero) with | .done u => clearEntry k u | _ => s
theorem wit_TretEntries : (mayReturn thqq && (List.range 16).all fun k => (thqq.cur.rq.getD k RqEntry.zero).valid == decide (k < 2)) = true ∧
    (performs (opened .tret thqq) 0 fun u => u.w.cur.rq == (opened .tret thqq).w.cur.rq) = true ∧
    (performs (entryDone 0 (opened .tret thqq)) 1 fun u => u.w.cur.rq == (entryDone 0 (opened .tret thqq)).w.cur.rq) = true := by decide +kernel

/-- A special register of each of the statement's groups: a pair's low half, its high half, one of the lanes, one of the replay and chain registers, and GSDONE. -/
theorem wit_ControlRegisters :
    readyAll [(.getc true 7 0x020, base), (.getc false 3 0x021, base), (.getc false 3 0x000, base), (.getc true 7 0x010, base), (.getc true 7 0x305, base),
      (.getc true 7 0x040, base), (.setc true 7 0x101, base), (.setc false 9 0x010, base)] = true ∧
    (regPairs base 0x020).isSome = true ∧ (regPairs base 0x021).isNone = true ∧
    (List.range 32).all (fun l => (regSingles base 0x000 l).isSome) = true ∧ (regBanked base 0x040).isSome = true := by decide +kernel

def pend (s : State) : State := s.onWave fun w => { w with evpend := 0x80000000 }
def sleeping (s : State) : State := s.onCur fun c => { c with wfe := some 7 }
/-- A store to peer memory sent out through a translation not yet answered. -/
def postedS : State := { base with posted := [{ aPosted 77 .host with id := 9, addr := 0x7FFFF#64, size := 2 }] }
theorem wit_SystemOperations :
    readyAll [(.tlbinv .all 0, base), (.tlbinv .space 4, base), (.tlbinv .page 4, base), (.wfe, base), (.wfe, pend base), (.evsig 31 4, base),
      (.evsig 0 4, base.setS64 4 (2 ^ 45))] = true ∧
    (∀ e ∈ [TlbExtent.all, .space, .page], tlbRemoved base e 0 = []) ∧ storesThrough base .all 0 [] = [] ∧ readyB (.tlbinv .all 0) postedS = true ∧
    storesThrough postedS .all 0 [] = [9] ∧ storesThrough postedS .page 0x80000 [] = [9] ∧ postedS.cancelled = false ∧ base.cur.tlbWait = none ∧
    (let w (s : State) : State := s.onCur fun c => { c with tlbWait := some [9] }
     readyB (.tlbinv .page 0) (w base) && (w base).posted.isEmpty && readyB (.tlbinv .page 0) (w postedS) &&
       (w postedS).posted.any fun p => p.id == 9) = true ∧ base.w.evpend = 0 ∧ (pend base).w.evpend ≠ 0 ∧
    (sleeping base).cur.wfe = some 7 ∧ base.cur.wfe = none ∧ (base.s64 4).toNat < 2 ^ 45 ∧ 2 ^ 45 ≤ ((base.setS64 4 (2 ^ 45)).s64 4).toNat ∧
    (injectable (pend base) = true ∧ (pend base).w.evpend.getLsbD 31 = true ∧ (∀ k < 31, (pend base).w.evpend.getLsbD k = false)) ∧
    injectable base = false := by decide +kernel

/-! #### Chapters 15 and 3 -/

/-- A place and translations for an access (`Reaches`), as a computation. -/
def reach (s : State) (k : AccKind) (va : Int) (n align : Nat) : Option (List Loc × List Xlat) :=
  if addrOk va n && va.toNat % align == 0 then
    match access s (.core s.w.core) s.aspace k va n with
    | .ok (ls, xs) => if (killCause s ls).isNone then some (ls, xs) else none
    | .error _ => none
  else none
theorem of_reach {s : State} {k : AccKind} {va : Int} {n align : Nat} {ls : List Loc} {xs : List Xlat} (h : reach s k va n align = some (ls, xs)) :
    Reaches s k va n align ls xs := by
  unfold reach at h
  split at h
  · rename_i ok
    split at h
    · rename_i e
      split at h
      · rename_i alive
        cases h
        simp only [Bool.and_eq_true, beq_iff_eq] at ok
        exact ⟨ok.1, ok.2, e, none_of_isNone alive⟩
      · cases h
    · cases h
  · cases h
/-- An instruction is ready and its access reaches places of which a condition holds. -/
def reaches (i : Instr) (s : State) (k : AccKind) (r n align : Nat) (p : List Loc → List Xlat → Bool) : Bool :=
  readyB i s && match reach s k (s.s64 r).toInt n align with | some (ls, xs) => p ls xs | none => false

/-- A task record at 0x10000, a join object at 0x20000, in a launch of groups of its own size. -/
def record : List Nat := [0x5000, 0x1111, 0, 0, 0x22, 0x28008, 0, 0]
def taskS : State := pokes ((onAttr lanes fun a => { a with cluster := 0 }).setS64 4 0x10000) 0x10000 record
def joinS (count cont : Nat) : State := pokes (taskS.setS64 4 0x20000) 0x20000 [count, cont]
def aTask : TaskRec := { code := 0, frame := 0, joinc := 0, lid := 0, arg := 0, key := 3, prio := 0, isGroup := false, n := 1, posted := false, made := 0 }
def fullS : State := { taskS with deques := [(taskS.w.core, List.replicate 4096 aTask)] }
def goodTask (s : State) (ls : List Loc) : Bool := match taskOf s s.w.lid (wordsAt s ls) with
  | some t => s.launches.all fun l => l.lid != t.lid || !l.cancelled
  | none => false
def afterJoin (s : State) (ls : List Loc) (xs : List Xlat) : State :=
  writeCells (atomPrepare (noteAccess (opened (.join 4) s) (ls.filter fun l => l.area != .host) xs true) ls) s.agent (ls.zip (leBytes 8 0))
theorem wit_ForkAndJoin :
    (reaches (.fork 4) taskS .load 4 64 64 (fun ls _ => goodTask taskS ls) && decide ((dequeOf taskS taskS.w.core).length < 4096)) = true ∧
    (reaches (.fork 4) fullS .load 4 64 64 (fun ls _ => goodTask fullS ls) && decide (4096 ≤ (dequeOf fullS fullS.w.core).length)) = true ∧
    reaches (.fork 4) (taskS.setS64 4 0x10040) .load 4 64 64 (fun ls _ => (taskOf taskS taskS.w.lid (wordsAt taskS ls)).isNone) = true ∧
    reaches (.join 4) (joinS 0 5) (.atom true) 4 16 16 (fun ls _ => wordAtPlaces (joinS 0 5) (ls.take 8) == 0) = true ∧
    reaches (.join 4) (joinS 2 0x10000) (.atom true) 4 16 16 (fun ls _ => wordAtPlaces (joinS 2 0x10000) (ls.take 8) == 2) = true ∧
    reaches (.join 4) (joinS 1 0) (.atom true) 4 16 16 (fun ls _ => wordAtPlaces (joinS 1 0) (ls.drop 8) == 0) = true ∧
    reaches (.join 4) (joinS 1 0x10000) (.atom true) 4 16 16 (fun ls xs =>
      wordAtPlaces (joinS 1 0x10000) (ls.take 8) == 1 && wordAtPlaces (joinS 1 0x10000) (ls.drop 8) == 0x10000 &&
      match access (afterJoin (joinS 1 0x10000) ls xs) (.core (joinS 1 0x10000).w.core) (joinS 1 0x10000).aspace .load (signed 64 0x10000) 64 with
      | .ok (rs, _) => goodTask (afterJoin (joinS 1 0x10000) ls xs) rs
      | .error _ => false) = true := by decide +kernel

/-- A launch record at 0x11000; the same of another job; a page of a peer at 0x4000000. -/
def launchRecord : List Nat :=
  [0x5000, 0x8000, 0, 0x1234, 0x10000, 0, 0, 0, 0, 0, 0, 4 * 2 ^ 48 + 2 ^ 32 + 16 * 2 ^ 16, 0xF * 2 ^ 5, 0, 0, 0, 0, 0, 0, 0, 0, 0, 0x30000, 0, 0, 0x30040]
    ++ List.replicate 6 0
def spawnS : State := pokes (lanes.setS64 4 0x11000) 0x11000 launchRecord
def peerS : State := (spawnS.setNum ⟨.hbm, 0x14008⟩ 8 (0x8000000 + 0x8000 + 3 * 2 ^ 54 + 0xE3)).setS64 4 0x4000000
/-- The record on the peer's page names a counter for its job. -/
def peerC : State := peerS.setNum ⟨.peer, 3 * 2 ^ 52 + 0x8000000 + 0xC8⟩ 8 0x30000
def spawned (s : State) (p : State → LaunchRec → List Nat → Loc → Bool) : Bool :=
  reaches (.spawn 4) s .load 4 256 256 fun ls xs => match ls with
    | l0 :: _ =>
      let s1 := noteAccess (opened (.spawn 4) s) ls xs false
      p s1 (launchOf (wordsAt s1 ls)) (wordsAt s1 ls) l0
    | [] => false
def mailS : State :=
  let s := onAttr ((lanes.setS 12 0x77).setS 13 0xABC05) fun a => { a with mboxen := true, mboxnum := 0xC05, cluster := 0 }
  s.updLaunch s.w.lid fun l => { l with posts := 41 }
def allFull : State := { mailS with deques := (List.range 96).map fun c => (c, List.replicate 4096 aTask) }
theorem wit_SpawnAndPost :
    spawned spawnS (fun s1 l ws l0 => l0.area != .peer && launchWellFormed ws && l.jobid == spawnS.attr.jobid && (l.deps.take l.ndep).all depOk &&
      spawnS.launches.all (fun y => y.attr.asn != l.asn || y.attr.root == l.root) && !l.mboxen && !l.det && l.ndep == 0 &&
      match bumpAll (.core spawnS.w.core) ⟨l.asn, l.root, none⟩ ([l.compl, l.graphc, l.phasec, l.jobc].filter fun c => c != 0) s1 with
      | .ok _ => true | .error _ => false) = true ∧
    spawned (onAttr spawnS fun a => { a with jobid := 5 }) (fun _ l _ l0 => l0.area != .peer && l.jobid != 5) = true ∧
    spawned peerS (fun _ l _ l0 => l0.area == .peer && l.jobid == peerS.attr.jobid && l.jobc == 0) = true ∧
    spawned peerC (fun s1 l _ l0 => l0.area == .peer && l.jobid == peerC.attr.jobid && l.jobc == 0x30000 && peerC.cur.wfe.isNone &&
      match access s1 (.core peerC.w.core) peerC.aspace (.atom true) l.jobc 8 with | .ok _ => true | .error _ => false) = true ∧
    (readyB (.mbox 12 13) mailS && match boundTo mailS 0xC05 with
      | some l => (mailS.launch? l.lid).any (· == l) && decide (pendingPosts mailS l.lid < 65536)
      | none => false) = true ∧ (mailS.sreg 13).toNat % 4096 = 0xC05 ∧
    (readyB (.mbox 12 13) allFull && match boundTo allFull 0xC05 with
      | some l => decide (pendingPosts allFull l.lid < 65536)
      | none => false) = true ∧ (∀ c < 96, 4096 ≤ (dequeOf allFull c).length) ∧ (dequeOf mailS 0).length < 4096 ∧
    (readyB (.mbox 12 13) lanes && (boundTo lanes ((lanes.sreg 13).toNat % 4096)).isNone) = true := by decide +kernel

/-- A future at 0x20000 in a given state. -/
def futS (st : Nat) : State := (pokes (lanes.setS64 4 0x20000) 0x20000 [0x1122334455667788, st]).onWave fun w => { w with budget := 128 }
def handled (s : State) : State := onAttr s fun a => { a with futhandler := 0x4800 }
def inHbm (st : Nat) (s : State) (ls : List Loc) : Bool := ls.all (fun l => l.area == .hbm) && wordAtPlaces s (ls.drop 8) % 4 == st
theorem wit_Futures :
    ([0, 1, 2, 3].all fun st => reaches (.fget 4 6) (futS st) (.atom true) 4 16 16 (fun ls _ => inHbm st (futS st) ls) &&
      reaches (.fput 4 6) (futS st) (.atom true) 4 16 16 (fun ls _ => inHbm st (futS st) ls)) = true ∧
    (reaches (.fget 4 6) (handled (futS 0)) (.atom true) 4 16 16 (fun ls _ => inHbm 0 (handled (futS 0)) ls) &&
      (handled (futS 0)).attr.futhandler != 0 && decide (128 ≤ (handled (futS 0)).w.budget) && (futS 0).attr.futhandler == 0 &&
      !hitsWindow (handled (futS 0)) [] [.v 127]) = true ∧
    (let s := (handled (futS 0)).onCur fun c => { c with windows := [⟨2, [.v 127], []⟩] }
     readyB (.fget 4 6) s && hitsWindow s [] [.v 127] && decide (128 ≤ s.w.budget)) = true ∧
    (let s := budget8 (handled (futS 0))
     readyB (.fget 4 6) s && decide (s.w.budget < 128)) = true ∧
    ((half (futS 0)).m0.getLsbD 0 = true) := by decide +kernel

/-- Another wave of the launch that is cancelled has a tape; a wave of a saved group ends. -/
def manyWaves : State :=
  let other : Wave := { base.w with wid := 50, waveid := 1, tape := { base.w.tape with area := [.marker 1 2] } }
  { base with others := [other, { other with wid := 51, lid := 9 }], launches := base.launches ++ [otherLaunch base 9] }.setS64 4 (BitVec.ofNat 64 base.attr.jobid)
theorem wit_CancelAndWait :
    (readyB (.cancel 4 .job) manyWaves && manyWaves.w.live) = true ∧ manyWaves.launches.Pairwise (fun a b => a.lid ≠ b.lid) ∧
    ([CancelLevel.launch, .graph, .phase, .job].all fun v => readyB (.cancel 4 v) { base with launches := base.launches ++ [otherLaunch base 9] }) = true ∧
    ({ base with launches := base.launches ++ [otherLaunch base 9] } : State).launches.Pairwise (fun a b => a.lid ≠ b.lid) ∧
    (readyB (.cwait 6 4) (lanes.setS64 4 0x20001) && addrOk ((lanes.setS64 4 0x20001).s64 4).toInt 8) = true ∧
    reaches (.cwait 6 4) ((futS 0).setS64 6 0x1122334455667788) .load 4 8 8 (fun ls _ => wordAtPlaces (futS 0) ls == 0x1122334455667788) = true ∧
    reaches (.cwait 6 4) (futS 0) .load 4 8 8 (fun ls _ => wordAtPlaces (futS 0) ls != ((futS 0).s64 6).toNat) = true := by decide +kernel

/-- Barrier 3 with a count and a fault record. -/
def bcb (p : Int) (f : Option FaultRec) : State := updBcb (lanes.setS 8 0xFFFFFFFF) lanes.w.gid 3 fun c => { c with pend := p, fault := f }
/-- A tensor record of rank 2. -/
def tensor (base tcount shd space es rank dim0 dim1 st0 st1 t0 t1 o0 o1 : Nat) : List Nat :=
  [base, tcount * 2 ^ 16 + shd * 2 ^ 8 + space * 2 ^ 6 + es * 2 ^ 3 + rank, dim0 + dim1 * 2 ^ 32, 1 + 2 ^ 32, 1, st0, st1, 0, 0, 0,
    t0 + t1 * 2 ^ 16 + 2 ^ 32 + 2 ^ 48, 1, o0 + o1 * 2 ^ 32, 0, 0, 0]
def srcT : List Nat := tensor 0x30000 3 0 0 2 2 10 4 4 64 4 2 0 1
def dstT : List Nat := tensor 0 3 0 1 2 1 24 1 4 0 8 1 0 0
def cpyS (a b : List Nat) : State := pokes (pokes (((lanes.setS64 4 0x10000).setS64 6 0x10080)) 0x10000 a) 0x10080 b
/-- What the checks of R84 make of the two records, in their order: 0 where all pass. -/
def cpyCheck (s : State) : Nat :=
  match reach s .load (s.s64 4).toInt 128 1, reach s .load (s.s64 6).toInt 128 1 with
  | some (ls, _), some (ms, _) =>
    let src := TRec.ofWords (wordsAt s ls)
    let dst := TRec.ofWords (wordsAt s ms)
    if !((s.s64 4).toInt % 128 == 0 && TRec.ok (wordsAt s ls) false) then 1
    else if !((s.s64 6).toInt % 128 == 0 && TRec.ok (wordsAt s ms) true) then 2
    else if !(src.esize == dst.esize && src.tcount == dst.tcount && src.elems == dst.elems) then 3
    else if !src.inRange s.attr then 4 else if !dst.inRange s.attr then 5 else 0
  | _, _ => 9
/-- Copies that these records start. -/
def copying (s : State) (n : Nat) (a b : List Nat) : State :=
  { s with copies := List.replicate n { id := 9, gid := s.w.gid, lid := s.w.lid, wid := s.w.wid, src := TRec.ofWords a, dst := TRec.ofWords b,
                                        dstAddr := 0x10080, b := 2, pc := 0x4000, cursor := 0, core := s.w.core, k := 0, stopping := false, error := none, writer := none,
                                        back := [], sleep := [], missing := [], declined := [] } }
def cpyOk : State := cpyS srcT dstT
def crowded : State := copying cpyOk 32 srcT dstT
/-- The two records captured while the scoreboard stalled the `cpy`; memory no longer holds them. -/
def cpyStaged : State := (pokes cpyOk 0x10000 [0]).onCur fun c => { c with staging := some (srcT ++ dstT) }
def pubS : State := { base with pubs := [⟨5, base.w.wid, base.w.curSec, 0, 0, base.w.lid, false, false⟩] }
theorem wit_CopyInstructions :
    readyAll [(.bcbini 0 3 8, bcb 5 none), (.bcbexp 0 3 8, bcb (-(2 ^ 47)) none), (.bcbexp 0 3 8, bcb (2 ^ 47 - 1) none), (.cpyq 0 3 9, bcb (2 ^ 40) none),
      (.bcbwait 0 3, bcb 5 (some ⟨0x21, 0x4000, 0x55, 3, 0⟩)), (.bcbwait 0 3, bcb 0 none), (.bcbwait 2 3, bcb 7 none)] = true ∧
    (bcbOf (bcb 0 none) base.w.gid 3).fault = none ∧ (bcbOf (bcb 0 none) base.w.gid 3).pend = 0 ∧ (bcbOf (bcb 7 none) base.w.gid 3).pend = 7 ∧
    (bcbOf (bcb 5 (some ⟨0x21, 0x4000, 0x55, 3, 0⟩)) base.w.gid 3).fault ≠ none ∧ (bcb 7 none).cur.flights.length < 16 ∧
    (bcbOf (bcb (-(2 ^ 47)) none) base.w.gid 3).pend + ((bcb 0 none).sreg 8).toNat < 2 ^ 47 ∧
    2 ^ 47 ≤ (bcbOf (bcb (2 ^ 47 - 1) none) base.w.gid 3).pend + ((bcb 0 none).sreg 8).toNat ∧
    ([cpyOk, cpyS (srcT.set 15 1) dstT, cpyS srcT (dstT.set 15 1), cpyS srcT (tensor 0 3 0 1 2 1 24 1 4 0 7 1 0 0),
      cpyS (tensor (2 ^ 55) 3 0 0 2 2 10 4 4 64 4 2 0 1) dstT, cpyS srcT (tensor 0 3 0 1 2 1 24 1 4096 0 8 1 0 0)].map cpyCheck) = [0, 1, 2, 3, 4, 5] ∧
    (readyB (.cpy 0 2 6 4) cpyOk && readyB (.cpy 0 2 6 4) crowded && cpyCheck crowded == 0 && decide (32 ≤ (copyBoard crowded crowded.w.cluster).length) &&
      (copyBoard cpyOk cpyOk.w.cluster).isEmpty && decide ((copyBoard (copying cpyOk 1 srcT dstT) cpyOk.w.cluster).length ≤ 32)) = true ∧
    (readyB (.cpy 0 2 6 4) cpyStaged = true ∧ srcT.length = 16 ∧ TRec.ok srcT false = true ∧ TRec.ok dstT true = true ∧ cpyStaged.cancelled = false) ∧
    (readyB (.pub 0 4) base && base.pubs.isEmpty && readyB (.pub 0 4) pubS && pubS.w.wid == 2 && (pubS.s64 4).toNat == 0) = true := by decide +kernel

/-- The copy that runs, with its run in mapped memory and with its source beyond it. -/
def runOk : State := copying lanes 1 srcT dstT
def runBad : State := copying lanes 1 (tensor 0x3FFFFFE 1 0 0 0 1 20 1 1 0 8 1 0 0) (tensor 0x50001 1 0 0 0 1 20 1 1 0 8 1 0 0)
/-- A copy out of a host page, and one whose destination in its core's scratchpad covers a part of a bad granule. -/
def runOut : State := copying onHost 1 (tensor 0x8000000 1 0 0 0 1 20 1 1 0 8 1 0 0) (tensor 0x50001 1 0 0 0 1 20 1 1 0 8 1 0 0)
def runUe : State :=
  let s := copying lanes 1 (tensor 0x30000 1 0 0 0 1 20 1 1 0 8 1 0 0) (tensor 4 1 0 1 0 1 20 1 1 0 8 1 0 0)
  let s := onAttr s fun a => { a with scratch := 65536 }
  { s with bad := [State.granule (scratchAt lanes.w.gid (coreIndex lanes lanes.w.gid lanes.w.core) 0 1 0)] }
def described (s : State) : State := { s with faultDesc := s.faultDesc.setIfInBounds 0 (some 0x100) }
def oneCopy (s : State) (p : Copy → Bool) : Bool := match s.copies with
  | [c] => s.copies.find? (fun x => x.id == c.id) == some c && p c
  | _ => false
def stopped (e : Option (Nat × DWord)) : State := { runOk with copies := runOk.copies.map fun c => { c with stopping := true, error := e } }
def setS (s : State) : State := { s with
  pubs := [⟨5, 99, false, 0, 0x10080, 0, false, false⟩, ⟨6, 98, false, 0, 0x10080, 0, true, false⟩]
  shadows := [⟨0, 0x10080, 0, 0, 3, 0x14018, 0x70000, 0x200⟩, ⟨0, 0x10080, 0, 0, 4, 0x14000, 0xFFFFFFFFF0000, 0x200⟩] }
def heldS (tail : Nat) : State :=
  { (((lanes.setNum ⟨.hbm, 0x218⟩ 8 0x1000).setNum ⟨.hbm, 0x220⟩ 4 4).setNum ⟨.hbm, 0x224⟩ 4 3).setNum ⟨.hbm, 0x228⟩ 4 tail with
    held := [⟨7, 0, 0x10080, 3, 0x4000000, 5, 0x200, false⟩] }
theorem wit_CopyEngine :
    oneCopy runOk (fun c => copyMoves runOk c && c.back.isEmpty && decide (c.b < 16) && match copyRun runOk c with
      | .ok (ms, s1) => s1.launches.all (fun x => !x.attr.mboxen) && ms.all (fun m => (m.src.getD []).all fun l => !s1.opaquePlace ((runOk.launch? c.lid).any fun l => l.attr.sys) l) &&
          (s1.group? c.gid).isSome && decide ((bcbOf s1 c.gid c.b).pend - (c.runEnd - c.cursor : Nat) ≥ -(2 ^ 47))
      | .error _ => false) = true ∧
    oneCopy runBad (fun c => copyMoves runBad c && match copyRun runBad c with | .error (k, _) => k == 0x21 | .ok _ => false) = true ∧
    oneCopy (described runBad) (fun c => copyMoves (described runBad) c && c.declined.isEmpty && ((described runBad).faultDesc.getD (c.core / 96) none).isSome &&
      match copyRun (described runBad) c with | .error (k, _) => k == 0x21 | .ok _ => false) = true ∧
    (oneCopy runOk (fun c => (runOutside runOk c).isNone) && oneCopy runOut (fun c => copyMoves runOut c && (runOutside runOut c).isSome)) = true ∧
    oneCopy runUe (fun c => copyMoves runUe c && match copyRun runUe c with | .error (k, _) => k == causeScratchUe | .ok _ => false) = true ∧
    oneCopy runOk (fun c => !c.stopping) = true ∧ oneCopy (stopped none) (fun c => c.stopping && c.error.isNone) = true ∧
    oneCopy (stopped (some (3, 5))) (fun c => c.stopping && c.error.isSome && ((stopped (some (3, 5))).group? c.gid).isSome) = true ∧
    ((setS base).pubs.find? (fun p => p.id == 6)).any (fun p => p.published) = true ∧
    ((setS base).pubs.find? (fun p => p.id == 5)).any (fun p => !p.published && !p.incomplete && !pubWaits (setS base) p && !pubFails (setS base) p) = true ∧
    ((setS base).shadows.all fun q => q.asn == 0 && q.wset == 0x10080 && q.frame % 65536 == 0 && decide (q.frame < 2 ^ 52)) = true ∧
    (heldS 1).held.any (fun h => !pinned (heldS 1) h) = true ∧
    (poolField (heldS 1) 0x200 0x20 4, poolField (heldS 1) 0x200 0x24 4, poolField (heldS 1) 0x200 0x18 8, poolField (heldS 1) 0x200 0x28 4,
      poolField (heldS 0) 0x200 0x28 4) = (4, 3, 0x1000, 1, 0) := by decide +kernel

/-! #### Chapters 7 and 8 -/

/-- A tile of 32 rows of 128 whose handle is 1, held by the wave; two lanes are active. -/
def aTile : Tile :=
  { id := 77, lid := lanes.w.lid, gid := lanes.w.gid, cluster := lanes.w.cluster, tag := some 5, m := 32, n := 128, af := 0,
    rows := List.replicate 32 { mant := List.replicate 128 3, x := 4, hr := 20, empty := false }, events := 2, fault := none, holders := [lanes.w.wid],
    onCluster := true }
def tileS : State :=
  { lanes with
    tiles := [aTile]
    w := { lanes.w with cur := { lanes.w.cur with m0 := 0x00000005 }, handles := lanes.w.handles.setIfInBounds 1 (some 77) } }
/-- The tile has one pending entry, of the instruction at the slot's PC. -/
def entryS (work : EntryWork) : State := { tileS with entries := [newEntry tileS aTile work] }
def flagged (s : State) : State := { s with tiles := s.tiles.map fun t => { t with fault := some ⟨0x21, 0x4000, 7, 9, 0x200⟩ } }
def completed (s : State) : State := { s with entries := s.entries.map fun e => { e with done := true, granted := true } }
def sharedShape : Nat := 2 ^ 23 + 5 * 2 ^ 24
def unheld (x : Nat) (s : State) : State := (s.onWave fun w => { w with handles := Vector.replicate 8 none }).setS 9 (BitVec.ofNat 32 x)
/-- A cluster whose store is full of tiles of 256 by 512. -/
def storeFull : State := { unheld 0x237 lanes with tiles := List.replicate 8 { aTile with m := 256, n := 512, af := 2, tag := none } }
theorem wit_TileHandles :
    ([Instr.rela 0 1, .mwait 0 1, .azero 0 1, .anorm 0 1, .aload 0 1 4, .astore 0 1 4, .ahead 0 1 40, .mma 0 0 4 false 1 20].all fun i => readyB i lanes) = true ∧
    tileOf lanes 1 = none ∧ tileOf tileS 1 = some aTile ∧
    readyAll [(.acqa 0 1 9, tileS), (.acqa 0 1 9, unheld 0x300 lanes), (.acqa 0 1 9, unheld 0x437 lanes), (.acqa 0 1 9, unheld 0 lanes),
      (.acqa 0 1 9, unheld sharedShape tileS), (.acqa 0 1 9, unheld (sharedShape + 1) tileS), (.acqa 0 1 9, storeFull)] = true ∧
    tileS.w.handle 1 ≠ none ∧ (unheld 0 lanes).w.handle 1 = none ∧ bandsFit (unheld 0 lanes) lanes.w.cluster 32 128 0 = true ∧
    bandsFit storeFull lanes.w.cluster 256 512 2 = false ∧
    readyAll [(.rela 0 1, tileS), (.rela 0 1, entryS .rela), (.rela 0 1, flagged (entryS .rela)), (.mwait 0 1, tileS), (.mwait 0 1, flagged tileS),
      (.mwait 0 1, entryS (.azero [0])), (.mwait 3 1, entryS (.azero [0]))] = true ∧
    (myEntry tileS fun w => w == .rela) = none ∧
    ((myEntry (entryS .rela) fun w => w == .rela).any fun e => eligible (entryS .rela) e) = true ∧
    ((myEntry { entryS .rela with entries := [{ newEntry tileS aTile (.azero [0]) with id := 1 }, newEntry tileS aTile .rela] } fun w => w == .rela).any fun e =>
      !eligible { entryS .rela with entries := [{ newEntry tileS aTile (.azero [0]) with id := 1 }, newEntry tileS aTile .rela] } e) = true ∧
    ((entryS (.azero [0])).entries.any fun e => e.tile == 77 && !e.done && e.work != .wait && groupHere (entryS (.azero [0])) e.gid) = true ∧
    (entryS (.azero [0])).cur.flights.length < 16 ∧
    (let s := (entryS .rela).onWave fun w => { w with handles := w.handles.setIfInBounds 6 (some 77) }
     readyB (.rela 0 1) s && (myEntry s fun w => w == .rela).any (eligible s) && s.w.handle 6 == some 77) = true ∧
    (∀ k < 8, k ≠ 1 → (entryS .rela).w.handle k ≠ some 77) ∧ tileS.cancelled = false := by decide +kernel

/-- A control block of an `aload` at 0x10000, and one of an `astore` with its D block. -/
def aloadS (f stride space : Nat) : State := pokes (tileS.setS64 4 0x10000) 0x10000 [0x30000, f + stride * 2 ^ 32, space + 4, 0]
def aloadMeets (s : State) : Bool :=
  match tileOf s 1, reach s .load (s.s64 4).toInt 32 1 with
  | some t, some (ls, xs) =>
    let s1 := noteAccess s ls xs false
    let ws := wordsAt s ls
    let ctl := ws.getD 2 0
    let base := signed 64 (ws.getD 0 0)
    match fmtBlock (ws.getD 1 0) true with
    | none => false
    | some c =>
      let per := t.n / c.blen
      readyB (.aload 3 1 4) s && decide (ctl < 8) && ws.getD 3 0 == 0 && (decide (c.fmt < 25) || c.fmt == t.af + 25) && t.n % c.blen == 0 &&
        (namedRegs s1 (scaleRegs c (t.m * per)) (scaleRegs c (t.m * per)) false).isNone &&
        !badCode s1 c ((activeRows s t.m).flatMap fun m => (List.range per).map fun i => m * per + i) &&
        hullOk s1 (ctl % 4) (base, base + ((t.m - 1) * c.stride + outRowBytes c.fmt t.n : Nat) - 1)
  | _, _ => false
def astoreS (ofmt : Nat) : State := (pokes (tileS.setS64 4 0x10000) 0x10000 [0x30000, 600, 0x50000, 0]).setS64 6 (BitVec.ofNat 64 (25 + ofmt * 32))
def astoreMeets (s : State) : Bool :=
  match tileOf s 1, reach s .load (s.s64 4).toInt 32 1, dBlock (s.s64 6).toNat with
  | some t, some (ls, xs), some d =>
    let ws := wordsAt s ls
    let ctl := ws.getD 1 0
    readyB (.astore 1 1 4) s && (myEntry s isAstore).isNone && decide (ctl < 2 ^ 34) && ws.getD 3 0 == 0 && d.accf - 25 == t.af &&
      (decide (d.ofmt < 25) || d.ofmt - 25 == t.af) &&
      (outHulls d t.n (signed 64 (ws.getD 0 0)) (ctl % 2 ^ 32) (signed 64 (ws.getD 2 0)) (activeRows s t.m)).all fun x => hullOk (noteAccess s ls xs false) (ctl / 2 ^ 32 % 4) x
  | _, _, _ => false
def dOut : DBlock := (dBlock (25 + 11 * 32)).getD ⟨25, 11, false, 0, false, false⟩
/-- Format blocks of A and B in s16 to s19, D in s20 and s21, a record of B's source at 0x10000. -/
def blk (fmt blen stride : Nat) : Nat := fmt + blen * 2 ^ 5 + stride * 2 ^ 32
def mmaS (d : Nat) : State :=
  let s := onAttr tileS fun a => { a with scratch := 65536 }
  let s := ((s.setS64 16 (BitVec.ofNat 64 (blk 17 2 64))).setS64 18 (BitVec.ofNat 64 (blk 17 2 64))).setS64 20 (BitVec.ofNat 64 d)
  ((s.setS 22 0).setS 23 2048).setS64 24 0x10000
def sourced : State := pokes (mmaS 25) 0x10000 [0x30000, 2 ^ 16 + 1, 64 * 128 + 2 ^ 32, 1 + 2 ^ 32, 1, 1, 0, 0, 0, 0, 8192 + 2 ^ 16 + 2 ^ 32 + 2 ^ 48, 1, 0, 0, 0, 0]
def mmaMeets (s : State) (src : Bool) : Bool :=
  match tileOf s 1, fmtBlock (s.s64 16).toNat false, fmtBlock (s.s64 18).toNat false, dBlock (s.s64 20).toNat with
  | some t, some a, some b, some d =>
    let rows := (activeRows s t.m).map fun m => (m, (s.v (20 + m / 32) (m % 32)).toNat)
    readyB (.mma 2 1 16 src 1 20) s && d.accf - 25 == t.af && 64 % a.blen == 0 && 64 % b.blen == 0 &&
      (namedRegs s (((List.range (t.m / 32)).map fun i => 20 + i) ++ scaleRegs a (t.m * (64 / a.blen)) ++ scaleRegs b (t.n * (64 / b.blen)))
        (scaleRegs a (t.m * (64 / a.blen)) ++ scaleRegs b (t.n * (64 / b.blen))) false).isNone &&
      !badCode s a (rows.flatMap fun r => (List.range (64 / a.blen)).map fun i => r.1 * (64 / a.blen) + i) && !badCode s b (List.range (t.n * (64 / b.blen))) &&
      (match hullA a (s.sreg 22).toNat 64 rows with | some x => hullOk s a.space x | none => true) &&
      if src then match reach s .load (s.s64 24).toInt 128 1 with
        | some (ls, _) => TRec.ok (wordsAt s ls) false && (TRec.ofWords (wordsAt s ls)).total == t.n * b.rowBytes 64 && (TRec.ofWords (wordsAt s ls)).inRange s.attr
        | none => false
      else hullOk s b.space (hullB b (s.sreg 23).toNat 64 t.n)
  | _, _, _, _ => false
theorem wit_TilePosts :
    readyAll [(.azero 0 1, tileS), (.anorm 0 1, tileS), (.ahead 2 1 40, tileS), (.ahead 2 1 40, tileS.onWave fun w => { w with budget := 41 }),
      (.ahead 2 1 40, entryS (.ahead 40 5)), (.astore 1 1 4, entryS (.astore dOut 0 1 0 0 [0])), (.mma 2 1 16 false 1 20, mmaS 26)] = true ∧
    ([aloadS 11 512 0, aloadS 25 520 0, aloadS (12 + 2 ^ 16 + 2 * 2 ^ 5 + 16 * 2 ^ 7 + 2 ^ 14) 256 0].all aloadMeets) = true ∧
    (myEntry tileS isAhead = none ∧ namedRegs tileS [40, 41] [] true = none ∧ (myEntry (entryS (.ahead 40 5)) isAhead).isSome = true ∧
      (myEntry (entryS (.astore dOut 0 1 0 0 [0])) isAstore).any (eligible (entryS (.astore dOut 0 1 0 0 [0]))) = true) ∧
    ([astoreS 11, astoreS 25].all astoreMeets) = true ∧ mmaMeets (mmaS 25) false = true ∧ mmaMeets sourced true = true := by decide +kernel

/-- The entry is the arbiter's choice and its tile is there. -/
def picked (s : State) (p : Entry → Tile → Bool) : Bool :=
  match s.entries, s.tiles with
  | [e], [t] => arbiterPick s (e.core / 4) == some e.id && !e.granted && !t.holders.isEmpty && !e.nfz && e.step == 0 && e.tile == t.id && p e t
  | _, _ => false
def outOk (s : State) (e : Entry) (t : Tile) (space base stride ebase : Nat) (rows : List Nat) : Bool :=
  rows.all fun m =>
    let o := outRow dOut t.af (t.rows.getD m (emptyRow t.n t.af))
    (outPlaces s e space (base + (m * stride : Nat)) o.1.length).isOk && (outPlaces s e space (ebase + (m * o.2.length : Nat)) o.2.length).isOk
def cBlock : FmtBlock := (fmtBlock (11 + 512 * 2 ^ 32) true).getD ⟨0, 0, 0, 0, false, 0, 0⟩
def abBlock : FmtBlock := (fmtBlock (blk 17 2 64) false).getD ⟨0, 0, 0, 0, false, 0, 0⟩
def mmaE : State := entryS (.mma abBlock abBlock dOut 64 0 2048 none [(0, 0)] [] [])
def granted (s : State) : State := { s with entries := s.entries.map fun e => { e with granted := true } }
def badA : State := { granted mmaE with bad := [State.granule (scratchAt lanes.w.gid (coreIndex lanes lanes.w.gid lanes.w.core) 0 1 0)] }
def stepS (s : State) (p : Entry → Tile → Bool) : Bool :=
  match s.entries, s.tiles with
  | [e], [t] => e.granted && e.awake && groupHere s e.gid && e.tile == t.id && p e t
  | _, _ => false
/-- An `mma` whose record lies on a page that the fault service may bring. -/
def fetching : State :=
  let s := entryS (.mma abBlock abBlock dOut 64 0 0 (some (TRec.ofWords [0x8000000, 2 ^ 16 + 1, 64 * 128 + 2 ^ 32, 1 + 2 ^ 32, 1, 1, 0, 0, 0, 0,
    8192 + 2 ^ 16 + 2 ^ 32 + 2 ^ 48, 1, 0, 0, 0, 0])) [(0, 0)] [] [])
  { s with faultDesc := s.faultDesc.setIfInBounds 0 (some 0x9001000) }
/-- A readout that has been granted, at its first row and at its last; an `mma` at its last step. -/
def storing (k : Nat) : State :=
  { granted (entryS (.astore dOut 0x30000 0 600 0x50000 [2, 3])) with
    entries := (granted (entryS (.astore dOut 0x30000 0 600 0x50000 [2, 3]))).entries.map fun e => { e with step := k } }
def lastStep : State := { granted mmaE with
  entries := (granted mmaE).entries.map fun e => { e with step := stepCount aTile (planOf abBlock.blen abBlock.blen 64) - 1 } }
theorem wit_TileEngineRows :
    ([0, 1].all fun k => stepS (storing k) fun e t => goesOn (storing k) e && !t.holders.isEmpty && !e.nfz && e.step == k &&
      outOk (storing k) e t 0 0x30000 600 0x50000 [2 + k]) = true ∧
    stepS lastStep (fun e t => e.step + 1 == stepCount t (planOf abBlock.blen abBlock.blen 64) && !t.holders.isEmpty &&
      match mmaStepOf lastStep e t abBlock abBlock { dOut with evtrap := true } 64 0 2048 none [(0, 0)] [] [] with | .ok _ => true | .error _ => false) = true := by
  decide +kernel
theorem wit_TileEngine :
    picked mmaE (fun _ _ => true) = true ∧ picked (entryS (.azero [0, 31])) (fun _ _ => true) = true ∧ picked (entryS (.anorm [0])) (fun _ _ => true) = true ∧
    picked (entryS (.ahead 40 5)) (fun e _ => ((entryS (.ahead 40 5)).wave? e.wid).isSome) = true ∧
    picked (entryS (.aload cBlock 0x30000 0 false [2] [])) (fun e t => (aloadRow (entryS (.aload cBlock 0x30000 0 false [2] [])) e t cBlock 0x30000 0 false [] 2).isOk) = true ∧
    picked (entryS (.astore dOut 0x30000 0 600 0x50000 [2])) (fun e t => outOk (entryS (.astore dOut 0x30000 0 600 0x50000 [2])) e t 0 0x30000 600 0x50000 [2]) = true ∧
    (goesOn (entryS .rela) (newEntry tileS aTile .rela) = false ∧ arbiterPick (entryS .rela) (lanes.w.core / 4) ≠ some (newEntry tileS aTile .rela).id) ∧
    ((newEntry tileS aTile .wait).granted = false) ∧
    (fetching.entries.any fun e => !goesOn fetching e && arbiterPick fetching (e.core / 4) != some e.id && wantsTile fetching e &&
      (firstTileWaits fetching e).isSome) = true ∧
    (mmaE.entries.any fun e => (firstTileWaits mmaE e).isNone) = true ∧
    stepS (granted mmaE) (fun e t => decide (e.step + 1 < stepCount t (planOf abBlock.blen abBlock.blen 64)) &&
      match mmaStepOf (granted mmaE) e t abBlock abBlock dOut 64 0 2048 none [(0, 0)] [] [] with | .ok x => !x.event || !dOut.evtrap | .error _ => false) = true ∧
    stepS badA (fun e t => match mmaStepOf badA e t abBlock abBlock dOut 64 0 2048 none [(0, 0)] [] [] with | .error ((c, _), _) => c == 0xA1 | .ok _ => false) = true ∧
    (mmaE.entries.any fun e => wantsGrant mmaE e && decide (levelOf mmaE e < 3)) = true ∧ canIssue base.w false = true ∧ base.wave? 2 = some base.w := by decide +kernel

def someRow : Row := { mant := [3, -4, 0], x := 0, hr := 20, empty := false }
theorem wit_RowHeadroom : RowOk 32 someRow ∧ 1 + 2 ≤ 32 ∧ ([⟨[3], 0⟩] : List SubBlock).length + 1 ≤ 2 ^ 1 ∧
    (dot [3] [5]).natAbs ≤ 2 ^ 4 ∧ (stepRow 32 4 1 0 someRow [⟨[3], 0⟩] [[⟨[5], 0⟩], [⟨[2], 0⟩], [⟨[1], 0⟩]]).isSome = true ∧ RowOk (accW 0) someRow ∧
    ∃ m ∈ someRow.mant, m ≠ 0 := by
  unfold RowOk
  decide +kernel

/-! #### Chapters 9 and 10 -/

/-- Two triangles with one edge in common, in opposite directions, and the middle of that edge. -/
def leftTri : Tri := ⟨⟨0, 0⟩, ⟨1024, 0⟩, ⟨0, 1024⟩⟩
def rightTri : Tri := ⟨⟨1024, 1024⟩, ⟨0, 1024⟩, ⟨1024, 0⟩⟩
theorem wit_Coverage : 0 < leftTri.area * rightTri.area ∧ rightTri.edge 0 = ((leftTri.edge 0).2, (leftTri.edge 0).1) ∧ leftTri.e 0 ⟨512, 512⟩ = 0 ∧
    (∀ k < 3, k ≠ 0 → 0 < leftTri.area * leftTri.e k ⟨512, 512⟩) ∧ (∀ k < 3, k ≠ 0 → 0 < rightTri.area * rightTri.e k ⟨512, 512⟩) := by decide

/-- Registers from r on, alike in each of two lanes. -/
def setWords (r : Nat) (xs : List Int) (s : State) : State :=
  ((List.range xs.length).zip xs).foldl (fun s p => s.setV (r + p.1) fun _ => BitVec.ofInt 32 p.2) s
def duo : State := lanes.onCur fun c => { c with m0 := 0x80000001 }
def withDesc (s : State) (ws : List Nat) : State := pokes (s.setS64 4 0x10000) 0x10000 ws
def rastS (tri : List Int) (ws : List Nat) : State := withDesc (setWords 20 tri duo) ws
def fragLaunch (s : State) : State :=
  { s with launches := s.launches ++ [{ otherLaunch s 9 with isFrag := true, ref := 0x20000, attr := { s.attr with asn := 0 } }] }
def screen : List Nat := [0x20000, 99 + 63 * 65536, 7, 0]
def rastMeets (s : State) (p : RasterDesc → List (List (Nat × Nat)) → Bool) : Bool :=
  reaches (.rast 0 4 20 40) s .load 4 32 32 fun ls _ =>
    rasterOk (wordsAt s ls) && p (RasterDesc.ofWords (wordsAt s ls)) ((checkedLanes s).map fun l => coveredPixels (RasterDesc.ofWords (wordsAt s ls)) (s.tri 20 l))
def fragS : State := fragLaunch (rastS [0, 0, 1024, 0, 0, 1024, 3] screen)
/-- A texture descriptor with its texels, a tree that is one leaf with one triangle, and a ray. -/
def texS (fmt levels : Nat) : State :=
  pokes (withDesc (setWords 20 [0x3E800000, 0x3F000000, 0, 0x3F800000, 0x40000000, 0x3F000000, 0x3F000000] duo)
    [0x20000, 0x28000, 7 + 7 * 65536 + levels * 2 ^ 32 + fmt * 2 ^ 36, 0]) 0x20000 ((List.range 8).map fun i => i * 0x0123456789ABCD3)
def two32 (a b : Nat) : Nat := a + b * 2 ^ 32
def treeS (ray : List Int) : State :=
  let s := withDesc (setWords 20 ray duo) [0x20000, 0x28000, 1 + 2 ^ 32, 0x80000000]
  pokes s 0x28000 [0, two32 0x40A00000 0x41200000, two32 0 0x40A00000, two32 0 0x41200000, two32 0x40A00000 0]
def oddTree : State := withDesc duo [0x20001, 0x28000, 2 ^ 32 + 1, 0]
def aRay : List Int := [0x3F800000, 0, 0xBF800000, 0, 0, 0x3F800000, 0, 0x3F800000, 0x40000000, 0x40400000]

theorem wit_RenderInstructions :
    readyAll [(.radj 0 20 40, duo), (.esamp 0 4 20 40, duo)] = true ∧
    reaches (.rast 0 4 20 40) (rastS [] [0x20001, 0, 0, 0]) .load 4 32 32 (fun ls _ => !rasterOk (wordsAt (rastS [] [0x20001, 0, 0, 0]) ls)) = true ∧
    rastMeets (rastS [0, 0, 1024, 0, 0, 1024, 2 ^ 24] screen) (fun _ _ => true) = true ∧
    rastMeets (rastS [] screen) (fun _ ps => ps.all fun p => p.isEmpty) = true ∧
    (rastMeets fragS (fun d ps => ps.all (fun p => !p.isEmpty) && (reach fragS .load d.fraglr 256 1).isSome && d.fraglr == 0x20000) &&
      (checkedLanes fragS).all (fun l => decide ((fragS.v 26 l).toNat < 2 ^ 24)) &&
      (fragS.launches.find? fun l => l.isFrag && l.ref == 0x20000 && l.attr.asn == 0).any fun l => !l.cancelled) = true ∧
    fragS.launches.Pairwise (fun a b => a.lid ≠ b.lid) := by decide +kernel
theorem wit_RenderInstructions_textures :
    reaches (.tex 0 4 20 40) (texS 7 1) .load 4 32 32 (fun ls _ => !texOk (wordsAt (texS 7 1) ls) false) = true ∧
    reaches (.tex 0 4 20 40) (texS 4 1) .load 4 32 32 (fun ls xs => texOk (wordsAt (texS 4 1) ls) false &&
      (texReads (noteAccess (texS 4 1) ls xs false) (TexDesc.ofWords (wordsAt (texS 4 1) ls)) 20).isOk) = true ∧
    reaches (.texadj 0 4 20 40) (texS 7 1) .load 4 32 32 (fun ls _ => !texOk (wordsAt (texS 7 1) ls) true) = true ∧
    reaches (.texadj 0 4 20 40) (texS 4 1) .load 4 32 32 (fun ls xs => texOk (wordsAt (texS 4 1) ls) true &&
      match texReads (noteAccess (texS 4 1) ls xs false) (TexDesc.ofWords (wordsAt (texS 4 1) ls)) 20 with
      | .ok (out, s2) => match adjPlaces s2 16 (out.flatMap fun p => (adjContribs (TexDesc.ofWords (wordsAt (texS 4 1) ls)) p.2.1
            fun k => ((texS 4 1).v (23 + k) p.1).toNat).map fun c => (p.1, c.1, c.2)) with
        | .ok (ps, s3) => match contributeAll s3 ps with | .done _ => true | _ => false
        | .error _ => false
      | .error _ => false) = true := by decide +kernel
theorem wit_RenderInstructions_rays :
    reaches (.trace 0 4 20 40) oddTree .load 4 32 32 (fun ls _ => !bvhOk (wordsAt oddTree ls)) = true ∧
    reaches (.trace 0 4 20 40) (treeS aRay) .load 4 32 32 (fun ls xs =>
      let s1 := noteAccess (treeS aRay) ls xs false
      let d := BvhDesc.ofWords (wordsAt (treeS aRay) ls)
      bvhOk (wordsAt (treeS aRay) ls) && (lanesOf (treeS aRay).m0).all (fun l => !deadRay (rayOf (treeS aRay) 20 l)) &&
      (visitStop s1 ((lanesOf (treeS aRay).m0).map fun l => (l, visitRef s1 d (rayOf (treeS aRay) 20 l) l 64 d.root))).isNone) = true ∧
    readyAll [(.tradj 0 4 20 50, treeS aRay), (.tradj 0 4 20 50, setWords 26 [1] (treeS aRay))] = true ∧
    reaches (.tradj 0 4 20 50) (treeS aRay) .load 4 32 32 (fun ls xs => bvhOk (wordsAt (treeS aRay) ls) &&
      (renderReads (noteAccess (treeS aRay) ls xs false) ((lanesOf (treeS aRay).m0).map fun l => (l, ((0x28000 + 36 * ((treeS aRay).v 26 l).toNat : Nat) : Int), 36))).isOk &&
      (BvhDesc.ofWords (wordsAt (treeS aRay) ls)).tris == 0x28000 && (BvhDesc.ofWords (wordsAt (treeS aRay) ls)).ntri == 1 &&
      (lanesOf (treeS aRay).m0).all fun l => ((treeS aRay).v 26 l).toNat == 0) = true := by decide +kernel

/-- An open folio with two records, and a folio whose records were dropped. -/
def quire (n : Nat) (s : State) : State := onAttr s fun a => { a with quire := n, tapesize := 16384, tapebase := 0x20000 }
def aFolio (rcmp : Bool) : Folio := { entry := 0x4800, wset := 0, scale := 5, regen := false, rcmp := rcmp, pseq := 0 }
def taped (xs : List TapeItem) (f : Tape → Tape) : State :=
  (quire 1024 duo).onWave fun w => { w with budget := 128, tape := f { w.tape with quire := xs, isOpen := true } }
def openTape : State := taped [.data 1 3 [7, 8], .opening (aFolio false)] id
def closedTape : State := taped [] fun t => { t with isOpen := false }
def droppedTape : State := taped [.data 1 0 [], .marker 20 1, .opening (aFolio true)] fun t => { t with isOpen := false }
def regenTape : State := taped [.data 1 3 [7, 8], .opening (aFolio false)] fun t => { t with regen := true, tscale := 5, view := some (3, 1) }
theorem wit_Tapes :
    (let t : Tape := { openTape.w.tape with quire := [.data 1 3 [7, 8], .opening (aFolio false)] }
     (t.items.all fun x => match x with | .opening f => !f.rcmp | .data .. | .marker .. => true) = true ∧ itemsSize t.quire ≤ 1024) ∧
    readyAll [(.tapeRec 0 1, closedTape), (.tapeRec 0 1, openTape), (.tapePop 0 40, openTape), (.tapePop 0 40, regenTape), (.tapePop 0 40, closedTape),
      (.tapeMark 0 true 4, regenTape), (.tapeMark 0 true 4, openTape), (.tapeSeal 0, openTape), (.tapeSeal 0, regenTape), (.tapeStat 0 9, openTape),
      (.tapePop 0 40, droppedTape)] = true ∧
    (5 + 4 * 32 + itemsSize openTape.w.tape.quire ≤ openTape.attr.quire ∧ itemsSize openTape.w.tape.area ≤ openTape.attr.tapesize ∧
      33 + itemsSize openTape.w.tape.quire ≤ openTape.attr.quire) ∧
    (openTape.w.tape.isOpen = true ∧ openTape.w.tape.regen = false ∧ topDropped openTape.w.tape.items = false ∧ closedTape.w.tape.isOpen = false ∧
      closedTape.w.tape.items.all TapeItem.opens = true ∧ regenTape.w.tape.regen = true) ∧
    (topDropped droppedTape.w.tape.items = true ∧ topHeader droppedTape.w.tape.items = some (aFolio true) ∧ droppedTape.cur.flights = [] ∧
      droppedTape.w.sib.live = false ∧ 128 ≤ droppedTape.w.budget ∧ droppedTape.w.tape.regen = false ∧
      33 + itemsSize (droppedTape.w.tape.quire.drop 3) ≤ droppedTape.attr.quire ∧ itemsSize (droppedTape.w.tape.area.drop 0) ≤ droppedTape.attr.tapesize) ∧
    (droppedTape.w.tape.badItems = [] ∧ openTape.w.tape.badItems = []) ∧
    (droppedTape.w.tape.spoiled = false ∧ openTape.w.tape.spoiled = false ∧ hitsWindow droppedTape [.v 127] [.v 127] = false ∧
      (fill 3 droppedTape).isOk = true) := by decide +kernel

/-! #### Scatters, training and collectives -/

/-- Two lanes that add to two words of one line. -/
def scatterS : State := ((duo.setV64 20 fun l => BitVec.ofNat 64 (0x20000 + 4 * (l % 3))).setV 30 fun _ => 0x3F800000)
def aContrib (id epoch key pa : Nat) (accepted : Bool) : Contribution :=
  { id := id, lid := duo.w.lid, gid := duo.w.gid, epoch := epoch, key := key, va := 0x20000, pa := pa, value := 0x3F800000, accepted := accepted, held := 0 }
def aClaim (epoch : Nat) : Claim := { id := 50, lid := duo.w.lid, epoch := epoch, line := 0x80400, base := List.replicate 32 0 }
/-- An epoch that the wave has left, with an open line; an epoch of which nothing is left. -/
def openLine : State := { scatterS with contribs := [aContrib 1 0 5 0x4020000 true, aContrib 2 0 6 0x4020000 true], claims := [aClaim 0] }
def passed (s : State) : State := { (s.onWave fun w => { w with epoch := 1 }) with launches := s.launches.map fun l => { l with topEpoch := 1 } }
def waiting (claims : List Claim) : State := { scatterS with contribs := [aContrib 1 0 5 0x4020000 false], claims := claims }
/-- The slice's buffer and its die's log are full of another launch's contributions, and the launch has no scatter area. -/
def crammed : State :=
  let c (held : Nat) : Contribution := { aContrib 1 0 5 0x4020000 true with lid := 88, held := held }
  { scatterS with contribs := List.replicate 2097152 (c 0) ++ List.replicate 2097152 (c 1) }
theorem keepXlats_keeps (s : State) (a : ASpace) (ls : List LaneAcc) :
    (keepXlats s a ls).contribs = s.contribs ∧ (keepXlats s a ls).attr = s.attr := by
  obtain ⟨tlb, ws, e⟩ := keepXlats_changes s a ls
  rw [e]
  exact ⟨rfl, rfl⟩
theorem scatterPlaces_keeps {s s1 : State} {xs : List (Nat × Int)} {ps : List (Nat × Nat × Loc)} (h : scatterPlaces s xs = .ok (ps, s1)) :
    s1.contribs = s.contribs ∧ s1.attr = s.attr := by
  unfold scatterPlaces at h
  dsimp only at h
  split at h
  · cases h
  · split at h
    · cases h
    · split at h
      · cases h
      · split at h
        · cases h
        · split at h
          · cases h
          · cases h
            exact keepXlats_keeps _ _ _
theorem logRoom_le (n : Nat) : logRoom n ≤ n := Nat.div_le_self _ _
theorem scatterFull : ∃ s : State, ∃ ps s1 p rest, readyB (.gsadd 0 20 30) s = true ∧
    scatterPlaces s ((checkedLanes s).map fun l => (l, (s.v64 20 l).toInt)) = .ok (ps, s1) ∧ ps = p :: rest ∧
    scatterHeld s1 s.w.lid p.2.2.addr = none := by
  have h : (match scatterPlaces crammed ((checkedLanes crammed).map fun l => (l, (crammed.v64 20 l).toInt)) with
    | .ok (p :: _, _) => decide (p.2.2.addr = 0x4020000) | _ => false) = true := by decide +kernel
  split at h
  · rename_i p rest s1 e
    have k := scatterPlaces_keeps e
    have a : p.2.2.addr = 0x4020000 := of_decide_eq_true h
    refine ⟨crammed, _, s1, p, rest, by decide +kernel, e, rfl, ?_⟩
    have none_ : s1.attr.scatsize = 0 := by rw [k.2]; decide +kernel
    have l0 : logRoom (4096 * s1.attr.scatsize) = 0 := by rw [none_]; exact Nat.zero_div _
    have l1 := logRoom_le 2097152
    have b0 : (State.sliceOf .hbm (0x4020000 / 128) == State.sliceOf .hbm (0x4020000 / 128)) = true := beq_self_eq_true _
    have b1 : (0x4020000 / Config.hbmDie == 0x4020000 / Config.hbmDie) = true := beq_self_eq_true _
    unfold scatterHeld fewer
    rw [k.1, a, l0]
    simp only [crammed, aContrib, List.filter_append, List.filter_replicate, List.length_append, List.length_replicate, b0, b1,
      Bool.and_true, beq_self_eq_true, if_true, Nat.not_lt_zero, decide_false, Bool.or_self, Bool.false_eq_true, if_false]
    have c0 : ¬(2097152 + 2097152 < 256) := by omega
    have c1 : ¬(2097152 + 2097152 < logRoom 2097152) := by omega
    have c2 : ¬(2097152 < logRoom 2097152) := by omega
    simp [c1, c2]
  · cases h
theorem wit_ScatterInstructions :
    (readyB (.gsadd 0 20 30) scatterS && match scatterPlaces scatterS ((checkedLanes scatterS).map fun l => (l, (scatterS.v64 20 l).toInt)) with
      | .ok (ps, s1) => ps.length == 2 && decide (scatterS.contribs.length + ps.length ≤ 256) &&
          match contributeAll s1 (ps.map fun p => (p.1, p.2.1, p.2.2, scatterS.v 30 p.1)) with | .done _ => true | _ => false
      | .error _ => false) = true ∧
    (∃ s : State, ∃ ps s1 p rest, readyB (.gsadd 0 20 30) s = true ∧
      scatterPlaces s ((checkedLanes s).map fun l => (l, (s.v64 20 l).toInt)) = .ok (ps, s1) ∧ ps = p :: rest ∧
      scatterHeld s1 s.w.lid p.2.2.addr = none) ∧
    readyAll [(.gsflush 0, scatterS), (.gsflush 0, sibS scatterS), (.gsflush 0, onAttr scatterS fun a => { a with idem := true })] = true ∧
    (sibS scatterS).w.sib.live = true ∧ scatterS.w.sib.live = false ∧ scatterS.attr.idem = false :=
  ⟨by decide +kernel, scatterFull, by decide +kernel, by decide +kernel, by decide +kernel, by decide +kernel⟩

theorem wit_ScatterEngine :
    ([aContrib 1 0 5 0x4020000 true, aContrib 2 0 6 0x4020000 true].Perm [aContrib 2 0 6 0x4020000 true, aContrib 1 0 5 0x4020000 true] ∧
      [aContrib 1 0 5 0x4020000 true, aContrib 2 0 6 0x4020000 true].Pairwise fun a b => a.key ≠ b.key) ∧
    ([(none : Option Nat), some 0, some 3].all fun e =>
      let s := waiting (match e with | none => [] | some n => [aClaim n])
      (s.contribs.find? fun c => c.id == 1).any (fun c => !c.accepted) && (s.claims.find? fun k => k.line == 0x4020000 / 128).isSome == e.isSome) = true ∧
    ([openLine, passed openLine].all fun s => (s.claims.find? fun k => k.id == 50).isSome && match s.launch? s.w.lid with
      | some l => !l.cancelled && epochPassed s l 0 == decide (s.w.epoch = 1)
      | none => false) = true ∧
    ((scatterS.launch? scatterS.w.lid).any fun l => !l.cancelled && !epochPassed scatterS l l.gsdone) = true ∧
    (((passed scatterS).launch? scatterS.w.lid).any fun l => !l.cancelled && epochPassed (passed scatterS) l l.gsdone && decide (l.gsdone ≤ l.topEpoch) &&
      (passed scatterS).contribs.isEmpty && !l.attr.wchk) = true := by
  refine ⟨⟨List.Perm.swap .., by decide⟩, ?_, ?_, ?_, ?_⟩ <;> decide +kernel

/-- The two addresses of a `stash`. -/
def stashS (p t : Int) : State := ((duo.setS64 4 (BitVec.ofInt 64 p)).setS64 6 (BitVec.ofInt 64 t))
/-- What the checks of R260 make of them, in their order. -/
def stashCheck (s : State) (n : Nat) : Nat :=
  let p := (s.s64 4).toInt
  let t := (s.s64 6).toInt
  if !addrOk p n then 1 else if !addrOk t n then 2 else if p % 128 ≠ 0 then 3 else if t % 128 ≠ 0 then 4 else if t + n ≤ p ∨ p + n ≤ t then 0 else 5
def stashPlaces (s : State) : List (Nat × Int) :=
  (checkedLanes s).flatMap fun l => (List.range 8).flatMap fun j => [(l, (s.s64 4).toInt + ((32 * j + l) * 2 : Nat)), (l, (s.s64 6).toInt + ((8 * l + j) * 2 : Nat))]
/-- A command of `upd` at 0x10000, and commands of the die's unit. -/
def updRecord (mode count : Nat) : List Nat :=
  [0x20000, 0x21000, 0x22000, 0x23000, 5, 0x24000, mode * 2 ^ 32 + count, two32 0x3C23D70A 0x3C23D70A, two32 0x3F666666 0x3F7FBE77, two32 0x322BCC77 0x41200000]
def updMeetsIn (f : State → State) (ws : List Nat) (p : State → List Nat → UpdCmd → Bool) : Bool :=
  let s := f (withDesc duo ws)
  reaches (.upd 0 4) s .load 4 128 128 fun ls _ => p s (wordsAt s ls) (updOf s (wordsAt s ls))
def updMeets : List Nat → (State → List Nat → UpdCmd → Bool) → Bool := updMeetsIn id
def withdrawn (s : State) : State := { s with launches := s.launches.map fun l => { l with cancelled := true } }
def aCommand : UpdCmd := { updOf duo (updRecord 0 1 ++ List.replicate 6 0) with id := 3, w := 0x8000000 }
/-- VA 0x8000000 lies in a page of 64 KiB of a shadowed region whose pool has frames left. -/
def shadowed (s : State) : State :=
  let s := (s.setNum ⟨.hbm, 0x14010⟩ 8 0x18001).setNum ⟨.hbm, 0x18000⟩ 8 (0x9000000 + 0x10E3)
  let s := ((s.setNum ⟨.hbm, 0x50000⟩ 8 0x50100).setNum ⟨.hbm, 0x50008⟩ 8 4).setNum ⟨.hbm, 0x50010⟩ 8 2
  onAttr ((s.setNum ⟨.hbm, 0x50100⟩ 8 0x70000).setNum ⟨.hbm, 0x50108⟩ 8 0x80000) fun a => { a with shpool := 0x50000 }
def commanded (f : UpdCmd → UpdCmd) : State := { shadowed duo with updates := [f aCommand] }
def runs (s : State) (p : UpdCmd → Bool) : Bool := (running s s.w.die).any p
theorem wit_StashAndUpdates :
    ([stashS 0x20000 0x30000, stashS (-128) 0x30000, stashS 128 (2 ^ 55 - 10), stashS 0x20004 0x30000, stashS 0x20000 0x30004, stashS 0x20000 0x20180].map
      fun s => stashCheck s 512) = [0, 1, 2, 3, 4, 5] ∧
    ([stashS 0x20000 0x30000, stashS (-128) 0x30000, stashS 128 (2 ^ 55 - 10), stashS 0x20004 0x30000, stashS 0x20000 0x30004, stashS 0x20000 0x20180].all
      fun s => readyB (.stash 0 false .k8 4 40) s && readyB (.stash 0 true .k32 4 40) s) = true ∧
    (stashS 0x20000 0x30000).posted = [] ∧
    ((stashPlaces (stashS 0x20000 0x30000)).all fun x => passesB (stashS 0x20000 0x30000) .g .store (stashS 0x20000 0x30000).aspace x.1 x.2 2) = true ∧
    updMeets (updRecord 2 3) (fun _ ws u => !updOk ws u) = true ∧ updMeets ((2 ^ 55 - 4) :: (updRecord 1 3).drop 1) (fun _ ws u => updOk ws u && !u.addressable) = true ∧
    updMeets (updRecord 1 3) (fun s ws u => updOk ws u && u.addressable && s.updates.isEmpty &&
      readyB (.upd 0 4) { s with updates := List.replicate 16 u } && u.die == s.w.die) = true ∧
    updMeetsIn withdrawn (updRecord 1 3) (fun s ws u => updOk ws u && u.addressable && s.updates.isEmpty && s.cancelled &&
      readyB (.upd 0 4) { s with updates := List.replicate 16 u } && u.die == s.w.die) = true := by decide +kernel
theorem wit_StashAndUpdates_unit :
    runs (commanded fun u => { u with sleep := [(0, 0)] }) (fun u => !u.awake) = true ∧
    runs (commanded id) (fun u => u.awake && !u.started && (passOne (commanded id) u).isOk) = true ∧
    (let s := commanded fun u => { u with started := true, step := some 0x3F800000 }
     runs s fun u => u.awake && u.started && u.step.isSome && u.pos + 1 == u.count && u.mode == 0 && (updElem s u u.pos).isOk && (momentPlaces s u u.m u.pos).isOk &&
      !u.spoiled && (passTwo s u 0x3F800000 u.pos).isOk && match updElem s u u.pos with
        | .ok (_, _, rs) => (shadowPieces u.mmu (updSpace s u) u.lid u.id u.wset (pieces (u.w + 4 * u.pos) 4) (updTouch s u rs)).isOk
        | .error _ => false) = true ∧
    (let s := commanded fun u => { u with started := true, step := none }
     runs s fun u => u.over && u.step.isNone && (recordPages s u).isEmpty) = true ∧
    (let s := commanded fun u => { u with started := true, step := some 0x3F800000, pos := 1 }
     runs s fun u => u.over && u.step.isSome && (recordPages s u).isEmpty && !u.pubWaits s (updSpace s u).asn && !pubFails s (u.pub (updSpace s u).asn)) = true ∧
    (let s := commanded fun u => { u with g := 2 ^ 40 }
     runs s fun u => u.awake && !u.over && (recordPages s u).isEmpty && (updStops s u).any fun e => e.cause == 0x21) = true ∧
    (let s := { onHost with updates := [{ aCommand with g := 0x8000000 }] }
     runs s fun u => u.awake && !u.over && (recordPages s u).isEmpty && (updStops s u).isNone && outsideCause 0x27 && updOutside s u) = true := by
  decide +kernel

/-- VA 0x8000000 lies in a replicated page. -/
def replicated (s : State) : State := (s.setNum ⟨.hbm, 0x14010⟩ 8 0x18001).setNum ⟨.hbm, 0x18000⟩ 8 (0x9000000 + 0x8E3)
def regionMeets (s : State) (p : Nat → Nat → State → Bool) : Bool :=
  reaches (.wmreg 0 3 4) s .load 4 32 32 fun ls xs => p ((wordsAt s ls).getD 0 0) ((wordsAt s ls).getD 1 0) (noteAccess s ls xs false)
def region3 : State := { duo with regions := [((duo.attr.jobid, 3), ⟨0x8000000, 65536, [], 0, duo.attr.root, 77, 0⟩)] }
def colS (desc comm : List Nat) : State := pokes (withDesc duo desc) 0x11000 comm
def colDesc (kind : Nat) : List Nat := [0x20000, 0x21000, 0x11000, 5, 0x22000, 3 + kind * 2 ^ 40, 0, 0]
def commOf (p rank id : Nat) : List Nat := [p + rank * 2 ^ 16 + 7 * 2 ^ 48, 0, 0, 0, 0, 0, 0, 0, id]
def colMeets (s : State) (p : List Nat → List Nat → List Nat → Bool) : Bool :=
  reaches (.col 0 false false 4) s .load 4 64 64 fun ls _ =>
    match reach s .load 0x11000 0x40 1 with
    | some (hs, _) => match reach s .load 0x11000 (0x40 + 2 * fieldOf (wordsAt s hs) 0 0 16) 1 with
      | some (cs, _) => p (wordsAt s ls) (wordsAt s hs) (commIds s cs (fieldOf (wordsAt s hs) 0 0 16))
      | none => false
    | none => false
def goodIds (s : State) (cw ids : List Nat) : Bool :=
  ids.all (fun x => decide (x < 1024)) && ids.eraseDups.length == fieldOf cw 0 0 16 && ids.getD (fieldOf cw 0 16 16) 0 == s.pkgId
def aColl (ranks rank : Nat) : Coll :=
  { id := 4, lid := duo.w.lid, wid := duo.w.wid, gid := duo.w.gid, die := 0, job := 0, asn := 0, root := duo.attr.root, comm := 7, seq := 5,
    params := colParams (colDesc 0) [0, 1] ranks rank false false, src := 0x20000, dst := 0x21000, done := 0x22000, got := [], decision := none,
    sent := false, marks := [], sentAt := 0, spoiled := false, written := 0, told := false, heard := [], finish := false, sleep := [], missing := [], declined := [], outcome := none }
/-- A collective of the wave at its descriptor, changed by hand. -/
def collS (ranks rank : Nat) (f : Coll → Coll) : State :=
  { (duo.setS64 4 0x10000).onCur fun c => { c with colls := [(0x10000, 4)] } with colls := [f (aColl ranks rank)] }
theorem wit_CollectiveInstructions :
    regionMeets (withDesc duo [0, 0, 0, 0]) (fun _ size _ => size == 0) = true ∧ regionMeets (withDesc duo [1, 65536, 0, 0]) (fun b _ _ => b % 65536 != 0) = true ∧
    regionMeets (withDesc duo [0x8000000, 65536, 7, 9]) (fun b size s1 => size == 65536 && b == 0x8000000 && !regionPageOk s1 b) = true ∧
    regionMeets (replicated (withDesc duo [0x8000000, 65536, 7, 9])) (fun b size s1 => size == 65536 && b == 0x8000000 && regionPageOk s1 b) = true ∧
    readyAll [(.wmread 0 3 40, region3), (.wmread 0 4 40, region3), (.wmchk 0 3 9, region3), (.wmchk 0 4 0, region3)] = true ∧
    reaches (.col 0 true false 4) (colS (colDesc 3) []) .load 4 64 64 (fun ls _ => !colDescOk (wordsAt (colS (colDesc 3) []) ls)) = true ∧
    colMeets (colS (colDesc 0) (commOf 1 1 0)) (fun ws cw _ => colDescOk ws && !commHeadOk cw) = true ∧
    colMeets (colS (colDesc 0) (commOf 2 0 0)) (fun ws cw ids => colDescOk ws && commHeadOk cw && !goodIds duo cw ids) = true ∧
    colMeets (colS (colDesc 0) (commOf 2 0 65536)) (fun ws cw ids => colDescOk ws && commHeadOk cw && goodIds duo cw ids) = true ∧
    readyB (.colw 0 4) duo = true ∧ duo.cur.colls = [] ∧
    ([none, some (2, 0x91, false, false), some (0, 0, false, true), some (3, 0, true, false), some (1, 0, false, false)].all fun o =>
      reaches (.colw 0 4) (collS 1 0 fun c => { c with outcome := o }) .load 4 8 1 (fun _ _ => true) &&
        (reach (collS 1 0 fun c => { c with outcome := o }) .load 0x10020 8 1).isSome) = true ∧
    (let s := withdrawn { collS 1 0 id with colls := [] }
     reaches (.colw 0 4) s .load 4 8 1 (fun _ _ => true) && (reach s .load 0x10020 8 1).isSome && s.cancelled &&
       !(s.cur.colls.filter fun p => decide ((p.1 : Int) = (s.s64 4).toInt)).isEmpty) = true := by decide +kernel

def someLeaves : List Leaf := [⟨0, 0, 0x3F800000⟩, ⟨0, 1, 0x40000000⟩]
theorem wit_CollectiveEngine :
    (someLeaves.Perm someLeaves.reverse ∧ someLeaves.Pairwise fun a b => a.log ≠ b.log ∨ a.pos ≠ b.pos) ∧
    ((collS 2 0 id).colls.find? (fun c => c.comm == 7 && c.seq == 5 && c.outcome.isNone)).isSome = true ∧ (∀ c ∈ duo.colls, c.comm ≠ 7) ∧
    ([0, 1].all fun r => (colRead (collS 2 r id) (aColl 2 r) 0x20000 (ownCount (aColl 2 r).params)).isOk && (aColl 2 r).params.rank == r) = true ∧
    ((aColl 2 0).outcome = none ∧ (aColl 2 0).sleep = [] ∧ (aColl 2 0).missing = [] ∧ (aColl 2 0).spoiled = false) ∧
    ((aColl 2 0).decision = none ∧ (aColl 2 0).sent = false ∧ (aColl 2 0).params.sync = false ∧ (aColl 1 0).params.ranks ≤ [0].length) ∧
    ([((2, 1), false, false, []), ((2, 1), false, true, []), ((2, 0), false, false, []), ((2, 0), false, false, [1]), ((1, 0), true, false, [])].all
      fun (p, f, t, h) =>
        let ours (c : Coll) : Coll := { c with decision := some (.decision false [1] [] 0 0 []), written := 1, finish := f, told := t, heard := h }
        (collS p.1 p.2 ours).colls == [ours (aColl p.1 p.2)] && (aColl p.1 p.2).params.rank == p.2 && (aColl p.1 p.2).params.ranks == p.1
          && colRecordPages (collS p.1 p.2 ours) (ours (aColl p.1 p.2)) == []) = true ∧
    (colRecordPages (collS 2 1 fun c => { c with decision := some (.stop 0x91) }) { aColl 2 1 with decision := some (.stop 0x91) } = []) := by
  refine ⟨⟨List.Perm.swap .., by decide⟩, ?_, ?_, ?_, ?_, ?_, ?_⟩ <;> decide +kernel

/-! #### The fault service, the distributors, peers and the host -/

def nx (i : Instr) (s : State) : State := match exec i s with | .next t => t | _ => s
def atPc (pc : Nat) (s : State) : State := s.onCur fun c => { c with pc := pc }
/-- 64-bit words at a place of HBM4. -/
def hbmWords (s : State) (pa : Nat) : List Nat → State
  | [] => s
  | x :: xs => hbmWords (s.setNum ⟨.hbm, pa⟩ 8 x) (pa + 8) xs
/-- A fault descriptor for die 0, whose ring has four records of which the next is the fourth. -/
def svc (s : State) : State :=
  hbmWords { s with faultDesc := s.faultDesc.setIfInBounds 0 (some 0x9001000) } 0x9001000 [0x9002000, 4 + 3 * 2 ^ 32, 1 + 9 * 2 ^ 32, 0x804]
def unmapped : Nat := 0x100000000
def fetchMisses (s : State) : Option (Nat × Bool) := match (fetchAt s s.cur.pc).1 with
  | .fault c _ u => if s.cur.live && s.cur.ra.isNone then some (c, pageTraps s [⟨s.attr.asn, s.attr.root, u / 65536, 3, s.w.core / 4⟩]) else none
  | _ => none
def missed : State := nx .fetchFault (atPc unmapped (svc duo))
def batched : State := nx (.faultBatchWrite 0) missed
def awaiting : State := (half ((svc duo).setS64 8 0x200000000)).setV 3 fun l => BitVec.ofNat 32 (65536 * l)
def ranAhead : State := atPc unmapped (nx (.ldG 0 .b32 3 8 7) awaiting)
/-- Every core of die 0 is full of work of a low priority, and a launch of a higher one has a chunk there. -/
def fullDie : State :=
  let g (c : Nat) : List Group := base.groups.map fun g =>
    { g with gid := if c = 0 then g.gid else 1000 + c, core := c, isCluster := false, inst := if c = 0 then g.gid else 1000 + c }
  { base with
    gts := 2 ^ 40, groups := (List.range 96).flatMap g
    launches := (base.launches.map fun l => { l with attr := { l.attr with scratch := 393216 - 4096, cluster := 0 } }) ++
      [{ otherLaunch base 9 with chunks := [(0, 0)], attr := { base.attr with prio := 3, cluster := 0, gx := 1, gy := 1, gz := 1, scratch := 65536 } }] }
/-- The group of the wave in hand, saved. -/
def saved : State :=
  { (base.onWave fun w => { w with onCore := false }) with
    groups := base.groups.map fun g => { g with onCore := false, isCluster := false }
    launches := base.launches.map fun l => { l with attr := { l.attr with cluster := 0 } } }
theorem wit_FaultServiceAndPreemption :
    ([atPc 0xE0000000000000 duo, atPc unmapped duo, atPc unmapped (svc duo)].map fetchMisses) = [some (0x20, true), some (0x21, true), some (0x21, false)] ∧
    (ranAhead.cur.ra.isSome && match (fetchAt ranAhead ranAhead.cur.pc).1 with | .fault c _ _ => c == 0x21 | _ => false) = true ∧
    (let s := atPc 0x4010 (placed.onCur fun c => { c with ra := ranAhead.cur.ra })
     s.cur.ra.isSome && (fetchAt s s.cur.pc).1 == .illegal) = true ∧
    (let s := atPc 0xE0000000000000 (placed.onCur fun c => { c with ra := ranAhead.cur.ra })
     s.cur.ra.isSome && match (fetchAt s s.cur.pc).1 with | .fault c _ _ => c == 0x20 | _ => false) = true ∧
    (let s := atPc 0x4000 ((base.withFetchWord 32 0x0000036D).onCur fun c => { c with ra := ranAhead.cur.ra })
     s.cur.ra.any fun ra => match (fetchAt s s.cur.pc).1 with | .ok i => raStops i ra s | _ => false) = true := by decide +kernel
theorem wit_FaultServiceAndPreemption_batches :
    (missed.faultDesc.getD 0 none = some 0x9001000 ∧ (match firstMissing missed 0 with
      | some (w, sec) => missed.wave? w.wid == some w && (w.slot sec).missing.length == 1 &&
          (w.slot sec).missing.all (fun p => pendingIn missed 0 p == []) && decide ((w.slot sec).missing.length ≤ ringRoom missed 0x9001000)
      | none => false) = true ∧ descWord missed 0x9001000 0x08 ≠ 0 ∧ descWord missed 0x9001000 0x14 < 2048) ∧
    ((batched.batches.find? fun x => x.die == 0 && x.id == 0).isSome = true ∧ batched.finishing = [] ∧
      batched.cur.sleep.contains (0, 0) = true ∧ missed.batches = []) ∧
    (vecMasked missed (descWord missed 0x9001000 0x14) = true ∧
      vecMasked (setMsixByte missed (16 * descWord missed 0x9001000 0x14 + 12) 0) (descWord missed 0x9001000 0x14) = false) := by decide +kernel
theorem wit_FaultServiceAndPreemption_groups :
    (fenced base 0 = false ∧ evictions base 0 = none ∧ (match evictions fullDie 0 with
      | some us => !us.flatten.isEmpty && !us.flatten.any (saveWaits fullDie)
      | none => false) = true) ∧
    (savedUnits base = [] ∧ (match ((savedUnits saved).filter fun u => (startPrio saved 0).all fun p => decide (p ≤ basePrio u)).head? with
      | some [g] => (restoreSpot saved g (coresOf 0)).isSome && (saved.launch? g.lid).any (fun l => l.attr.det) == false
      | _ => false) = true) := by decide +kernel

/-- A launch record of one-wave-group blocks with a grid of 200 by 3 points, and its submission. -/
def launchWords (gx gy : Nat) : List Nat :=
  [0x5000, 0x8000, 0, 0x1234, 0x10000, 0, 0, 0, 0, (gx - 1) + (gy - 1) * 2 ^ 24, 0, 4 * 2 ^ 48 + 2 ^ 32 + 16 * 2 ^ 16, 0xF * 2 ^ 5 + 2] ++ List.replicate 19 0
def submitted (ws : List Nat) (o : Option QOrigin) : State :=
  { base with submissions := [⟨77, 0x11000, 0, 0x10000, ws.map fun w => BitVec.ofNat 64 w, o, none, none⟩] }
def accepted : State :=
  let s := nx (.launchAccept 77) (submitted (launchWords 200 3) none)
  { s with launches := s.launches.drop 1 }
def wave0Off (s : State) : State := { s with w := { s.w with live := false, gid := 99 } }
def fencedDie (s : State) (d : Nat) : State := { s with health := s.health ||| BitVec.ofNat 32 (2 ^ (24 + d)) }
def dealt (k : Nat) : TaskRec := { code := 0x6000, frame := 0, joinc := 0, lid := 0, arg := 0, key := k, prio := 0, isGroup := false, n := 5, posted := false, made := 0 }
def queued : State := { onAttr base fun a => { a with cluster := 0 } with deques := [(5, [dealt 3, dealt 4]), (6, [{ dealt 9 with isGroup := true, n := 3 }])] }
/-- The chunks of the accepted launch lie on dies 1 and 2. -/
def elsewhere : State := { accepted with launches := accepted.launches.map fun l => { l with chunks := (List.range 9).map fun c => (c, if c % 2 = 0 then 1 else 2) } }
def phased (ps : List Nat) (p : Nat) : State :=
  { base with phases := [(0, p)], launches := ps.map fun q => { otherLaunch base 9 with attr := { base.attr with phase := q } } }
theorem wit_Distributors :
    (liveDies base ≠ [] ∧ launchWellFormed (launchWords 200 3) = true ∧ launchWellFormed [] = false ∧ (launchOf (launchWords 200 3)).ndep = 0 ∧
      (launchOf (launchWords 200 3)).det = false ∧ counters (launchOf (launchWords 200 3)) = [] ∧ (launchOf (launchWords 200 3)).mboxen = false ∧
      (launchOf []).compl = 0 ∧ (launchOf []).jobc = 0 ∧ ∀ y ∈ base.launches, y.attr.root = (launchOf (launchWords 200 3)).root) ∧
    fenced (fencedDie base 0) 0 = true ∧
    (match (served accepted).head? with
      | some l => !fenced accepted 0 && accepted.launch? l.lid == some l && mayStart accepted l && !restoreFirst accepted l.attr.prio &&
          l.frags == [] && !l.attr.det && !l.attr.gang && (nextUnit (quarantined accepted l.lid) l 0).isSome &&
          (coreFor (coreUse accepted) l.attr l.attr.budget l.attr.waves (decide (0 < l.attr.cluster)) (coresOf 0)).any fun c =>
            (List.range 4).all fun k => (k != 0 && l.attr.cluster == 0) || !dequeFirst accepted (c + k) l.attr.prio
      | none => false) = true ∧
    ((taskFrom queued 5 5).any fun p => !p.1.isGroup && !groupFirst queued 0 p.1.prio) = true ∧
    ((taskFrom queued 6 6).any fun p => p.1.isGroup && !groupFirst queued 0 p.1.prio) = true ∧ queued.postQueue = [] := by
  decide +kernel
theorem wit_Distributors_steals :
    ((startNext elsewhere 0).isNone && ((((ringFrom 0).drop 1).filter fun d => !fenced elsewhere d).findSome? (fun d =>
      (((served elsewhere).filter fun l => mayStart elsewhere l && !l.attr.det).find? fun l => !(chunksOf l d).isEmpty).map fun l => (d, l))).any
        fun p => decide (chunksOf p.2 p.1).Nodup) = true := by decide +kernel
/-- The only group has retired, and the epoch is published. -/
def finished : State :=
  let s := nx (.groupRetire 1) (wave0Off base)
  { s with launches := s.launches.map fun l => { l with gsdone := 1 } }
theorem wit_Distributors_ends :
    (base.group? 55 = none ∧ (base.group? 1).isSome = true ∧ ((wave0Off base).group? 1).isSome = true ∧ (base.waves.any fun w => w.gid == 1) = true ∧
      ((wave0Off base).waves.all fun w => w.gid != 1) = true ∧ ((wave0Off base).group? 1).any (fun g => g.task.isNone && g.frag.isNone &&
        g.bcbs.toList.all (fun b => b.fault.isNone) && (base.launch? g.lid).any fun l => !l.cancelled && l.attr.ndep == 0 && g.lin == l.front) = true) ∧
    ((base.launch? 0).any fun l => !workDone base l) = true ∧
    ((finished.launch? 0).any fun l => workDone finished l &&
      counters l.attr == [] && l.origin.isNone && l.queue.isNone && !l.attr.wchk &&
      (devPages finished (.walker (master base)) ⟨l.attr.asn, l.attr.root, none⟩ (completionWords l.attr)).isEmpty) = true ∧
    ((assocGet (phased [5, 7, 6] 3).phases 0 = some 3 ∧ gateOpen (phased [5, 7, 6] 3) 0 = true) ∧
      (phased [5, 7, 6] 3).launches.map (fun l => (l.attr.jobid, l.attr.phase)) = [(0, 5), (0, 7), (0, 6)]) := by
  decide +kernel

/-- Window 3 admits peers 2 to 9 to 128 KiB at 0x50000, with or without writes; a poisoned doubleword in it. -/
def windowed (writes : Bool) : State := { base with inwins := base.inwins.setIfInBounds 3 ⟨0x50000, 0x20000, 9, 2, writes, true, true⟩ }
def poisonedIn (s : State) : State := { s with bad := [Loc.key ⟨.hbm, 0x50008⟩] }
def hbmRange (pa n : Nat) : List Loc := (List.range n).map fun i => ⟨.hbm, pa + i⟩
def withPosted (p : Posted) : State := { base with posted := [p] }
def onPeer : State := ((duo.setNum ⟨.hbm, 0x14010⟩ 8 0x18001).setNum ⟨.hbm, 0x18000⟩ 8 (0x8000000 + 0x8000 + 3 * 2 ^ 54 + 0xE3)).setS64 4 0x8000000
/-- The error answer to an access some of whose lanes lie there names some of them. -/
theorem answered_some {s : State} {f : Flight} {area : Area}
    (h : ((flightPlaces (withCapture f s) f.instr).any fun x => x.places.any fun l => l.area == area) = true) :
    (answered s f area).isSome = true := by
  have k : ((flightPlaces (withCapture f s) f.instr).filter fun x => x.places.any fun l => l.area == area) ≠ [] := by
    intro e
    rw [List.filter_eq_nil_iff] at e
    obtain ⟨x, hx, hp⟩ := List.any_eq_true.1 h
    exact e x hx hp
  unfold answered
  dsimp only
  split
  · rename_i e
    exact absurd (List.map_eq_nil_iff.1 e) k
  · rfl
  · split <;> rfl
def peerWhole : State := { leaveUnfinished (.ldu 0 .g .nm .b32 4 9) onPeer none false with defer := false }
/-- The first of the device's own words is out. -/
def devOut : State := { base with devQueue := [⟨70, 2, 0x11000, 0x77, .write [(⟨.host, 0x77⟩, 5)]⟩] }
def peerLoad : State := { leaveUnfinished (.ldG 0 .b32 3 4 7) onPeer none false with defer := false }
theorem wit_PeersAndAnswers :
    hostUp base = true ∧ ((windowed true).inwins.toList.any fun w => decide (w.base ≤ 0x50000 ∧ 0x50004 ≤ w.base + w.size ∧ w.lo ≤ 5 ∧ 5 ≤ w.hi) &&
      w.rd && w.w && w.atm) = true ∧
    ((windowed false).inwins.toList.all fun w => !(decide (w.base ≤ 0x50000 ∧ 0x50004 ≤ w.base + w.size ∧ w.lo ≤ 5 ∧ 5 ≤ w.hi) && w.w)) = true ∧
    ((windowed true).inwins.toList.all fun w => !decide (w.base ≤ 0x6FFFD ∧ 0x70001 ≤ w.base + w.size ∧ w.lo ≤ 5 ∧ 5 ≤ w.hi)) = true ∧
    (hbmRange 0x50006 4).any (poisonedIn (windowed true)).isBad = true ∧ (hbmRange 0x50000 4).any (poisonedIn (windowed true)).isBad = false ∧
    ((poisonedIn (windowed true)).partBad (hbmRange 0x50006 4)).any (poisonedIn (windowed true)).isBad = true ∧
    ((poisonedIn (windowed true)).partBad (hbmRange 0x50008 8)).any (poisonedIn (windowed true)).isBad = false ∧
    (hbmRange 0x50000 4).all (fun l => !(windowed true).unbackedAt l) = true ∧
    (∀ l ∈ base.launches, l.attr.mboxen = false) ∧
    ((windowed true).inwins.toList.any fun w => decide (w.base ≤ 0x50100 ∧ 0x50200 ≤ w.base + w.size ∧ w.lo ≤ 5 ∧ 5 ≤ w.hi)) = true := by decide +kernel
/-- A request that times out: the write that may still be performed leaves the unfinished load where it is. -/
theorem wit_PeersAndAnswers_late : ∃ s id v wid sec f,
    v = { (if Config.freeNat s.free 0 % 2 = 1 then lateWrite s id else s) with free := s.free + 1 } ∧
    v.posted.find? (fun p => p.id == id) = none ∧ (∀ x, v.devQueue.head? = some x → x.id ≠ id) ∧
    flightOf v id = some (wid, sec, f) ∧ (v.bring wid sec).cur.ra = none := by
  let good (v : State) (id : Nat) : Bool := v.posted.isEmpty && v.devQueue.isEmpty && match flightOf v id with
    | some (wid, sec, _) => (v.bring wid sec).cur.ra.isNone
    | none => false
  have use (s : State) (id : Nat) (h : good { (if Config.freeNat s.free 0 % 2 = 1 then lateWrite s id else s) with free := s.free + 1 } id = true) := by
    simp only [good, Bool.and_eq_true, List.isEmpty_iff] at h
    obtain ⟨⟨hp, hd⟩, h⟩ := h
    split at h
    · rename_i wid sec f e
      exact (⟨s, id, _, wid, sec, f, rfl, by rw [hp]; rfl, by simp [hd], e, Option.isNone_iff_eq_none.1 h⟩ : ∃ s id v wid sec f,
        v = { (if Config.freeNat s.free 0 % 2 = 1 then lateWrite s id else s) with free := s.free + 1 } ∧
        v.posted.find? (fun p => p.id == id) = none ∧ (∀ x, v.devQueue.head? = some x → x.id ≠ id) ∧
        flightOf v id = some (wid, sec, f) ∧ (v.bring wid sec).cur.ra = none)
    · cases h
  have a : good { lateWrite peerWhole ((peerWhole.cur.flights.map fun f => f.id).headD 0) with free := peerWhole.free + 1 }
    ((peerWhole.cur.flights.map fun f => f.id).headD 0) = true := by decide +kernel
  have b : good { peerWhole with free := peerWhole.free + 1 } ((peerWhole.cur.flights.map fun f => f.id).headD 0) = true := by decide +kernel
  refine use peerWhole ((peerWhole.cur.flights.map fun f => f.id).headD 0) ?_
  split
  · exact a
  · exact b
theorem wit_PeersAndAnswers_timeouts :
    overtakes { base with posted := [{ aPosted 2 .peer with id := 59 }, aPosted 2 .peer] } (aPosted 2 .peer) = true ∧
    overtakes (withPosted (aPosted 2 .host)) (aPosted 2 .host) = false ∧ overtakes (withPosted (aPosted 2 .peer)) (aPosted 2 .peer) = false ∧
    overtakes (withPosted (aPosted 9 .peer)) (aPosted 9 .peer) = false ∧ (∀ c ∈ (aPosted 2 .peer).data, c.1.area ≠ .l2) := by decide +kernel
theorem wit_PeersAndAnswers_answers :
    ([Area.peer, .host].all fun a => ((withPosted (aPosted 2 a)).posted.find? fun p => p.id == 60).isSome && ((withPosted (aPosted 2 a)).wave? 2).isSome) = true ∧
    base.waves.length = 1 ∧
    ((withPosted (aPosted 9 .peer)).wave? 9).isNone = true ∧
    ((base.group? (aPosted 9 .peer).gid).isSome && (base.launch? (aPosted 9 .peer).lid).any fun l => !l.cancelled) = true ∧
    (peerLoad.cur.flights.any fun f => match flightOf peerLoad f.id with
      | some (wid, sec, g) => (flightPlaces (withCapture g (peerLoad.bring wid sec)) g.instr).any (fun x => x.places.any fun l => l.area == answerArea 0x28) &&
          (answered (peerLoad.bring wid sec) g (answerArea 0x27)).isNone && (peerLoad.bring wid sec).cur.ra.isNone
      | none => false) = true ∧
    (peerWhole.cur.flights.any fun f => match flightOf peerWhole f.id with
      | some (wid, sec, g) => match answered (peerWhole.bring wid sec) g (answerArea 0x28) with | some (.whole a) => a == 0x8000000 | _ => false
      | none => false) = true ∧
    (devOut.posted = [] ∧ (devOut.devQueue.head?.map fun x => x.id) = some 70) ∧ flightOf base 60 = none ∧ base.copies = [] ∧ base.colls = [] ∧ base.updates = [] ∧ base.entries = [] := by
  decide +kernel

/-- Entry 1 of a queue of four entries. -/
def entryOf (e : List Nat) : State :=
  ((List.range e.length).zip e).foldl (fun s p => s.setNum ⟨.host, 0x1040 + 8 * p.1⟩ 8 p.2) { base with queues := base.queues.setIfInBounds 2 { HostQueue.zero with
    qbase := 0x1000, qsize := 4, qhead := 1, qtail := 3, qroot := 0x10000, begun := 7 } }
def bound (s : State) : State := { s with launches := s.launches.map fun l => { l with attr := { l.attr with mboxen := true, mboxnum := 3, mboxaddr := 0x20000 } } }
/-- Which clause a queue's entry falls under. -/
def entryClass (s : State) : Nat :=
  let x := s.queues.getD 2 HostQueue.zero
  let e := entryAt s x
  let op := e.arg0 % 256
  if !entryReady s 2 then 0 else if liveDies s == [] then 1 else if entryMalformed e then 2 else if opcodeUnlisted e then 3
  else if e.kind == 0 then if op ≠ 0 then 4 else if (access s (.mailbox 2) ⟨x.qasn, x.qroot, none⟩ .load e.arg0 256).isOk then 5 else 99
  else if e.kind == 1 then if (boundTo s (e.arg0 % 4096)).isNone then 6 else 7
  else if e.kind == 3 then 8 else if op == 1 then if e.arg1 < 4 && decide (e.arg2 + 64 ≤ 0xC000000000) && targetOk s e.arg2 then 9 else 10
  else if op == 2 then 11
  else if op == 3 then if e.arg1 < 64 && (windowOf s e.arg2).isSome then 12 else 13
  else if op == 4 then if e.arg1 < 2 ^ 32 && decide (e.arg2 < 2 ^ 16) then 14 else 15
  else if s.launches != [] then 16 else 17
theorem wit_HostInterface :
    hostUp base = true ∧ entryClass base = 0 ∧
    ([{ entryOf [0] with health := 0x0F000000 }, entryOf [4], entryOf [2, 9], entryOf [0, 0x10001], entryOf [0, 0x10000], entryOf [1, 5],
      bound (entryOf [1, 3]), entryOf [3], entryOf [2, 1, 3, 0x9000000], entryOf [2, 1, 4, 0], entryOf [2, 2, 100], entryOf [2, 3, 63, 0x70000],
      entryOf [2, 3, 64, 0x70000], entryOf [2, 4, 7, 65535], entryOf [2, 4, 7, 65536], entryOf [2, 5, 1023],
      { entryOf [2, 5, 1023] with launches := [] }].map entryClass) = (List.range 17).map (· + 1) := by decide +kernel
theorem wit_HostInterface_registers :
    base.devQueue = [] ∧ vecMasked base 9 = true ∧ vecMasked (setMsixByte base (16 * 9 + 12) 0) 9 = false ∧
    ({ base with msixPending := [9] } : State).msixPending = [9] ∧
    (base.isBad ⟨.hbm, base.apbase * 2 ^ 30 + 0x4014000⟩ = false ∧ base.unbackedAt ⟨.hbm, base.apbase * 2 ^ 30 + 0x4014000⟩ = false) ∧
    base.powered = true ∧ base.recovery = false ∧ base.apbase * 2 ^ 30 + 0x4014000 + 16 ≤ 0xC000000000 ∧
    0xC000000000 ≤ ({ base with apbase := 767 } : State).apbase * 2 ^ 30 + (2 ^ 30 - 4) + 7 ∧
    ((base.queues.getD 63 HostQueue.zero).qhead = (base.queues.getD 63 HostQueue.zero).qtail ∧
      ((entryOf [0]).queues.getD 2 HostQueue.zero).qhead ≠ ((entryOf [0]).queues.getD 2 HostQueue.zero).qtail) := by decide +kernel

theorem wit_ResetAndPower_rows : (5 ∉ base.repairs ∧ 5 ∉ base.badRows) ∧ (5 ∉ base.repairs ∧ 5 ∈ ({ base with badRows := [5] } : State).badRows) ∧
    5 ∈ ({ base with repairs := [5] } : State).repairs ∧ 2 ^ 20 ≤ ({ base with attest := { base.attest with nextLeaf := 2 ^ 20 } } : State).attest.nextLeaf ∧
    64 < ({ base with attest := { base.attest with sel := 70 } } : State).attest.sel := by decide +kernel
theorem wit_ResetAndPower :
    hostUp base = true ∧ base.attest.busy = false ∧ base.attest.sel = 64 ∧ base.attest.nextLeaf < 2 ^ 20 ∧ base.powered = true ∧
    ({ base with powered := false } : State).powered = false ∧ hostUp { base with powered := false } = false ∧
    hostUp { base with attest := { base.attest with busy := true } } = true ∧ 50 < base.clock ∧
    ((∀ d < 4, fenced base d = false) ∧ ∀ g ∈ base.groups, (base.launch? g.lid).isSome = true) ∧
    (base.health.getLsbD (12 + 11) = false ∧ ({ base with health := BitVec.ofNat 32 (2 ^ 23) } : State).health.getLsbD (12 + 11) = true) ∧
    (({ base with logicErrors := List.replicate 16 (1, 0) } : State).logicErrors.filter fun e : Nat × Nat => decide (base.gts ≤ e.2 + 1000000000)).length = 16 := by decide +kernel
theorem wit_MemoryInvariant : Mem.wf (issueAt placed).mem = true ∧ (step (issueAt placed) matches .next _) = true := ⟨by decide +kernel, by decide +kernel⟩

/-! ### Single steps: what an instruction leaves, with values from the manual's examples -/

/-- A vector register with these words in the first lanes, which alone are active. -/
def inLanes (r : Nat) (xs : List Nat) (s : State) : State :=
  (s.setV r fun l => BitVec.ofNat 32 (xs.getD l 0)).onCur fun c => { c with m0 := BitVec.ofNat 32 (2 ^ xs.length - 1) }
/-- What an instruction leaves, read by p. -/
def after (i : Instr) (s : State) (p : State → Bool) : Bool := match exec i s with | .next t => p t | _ => false
def holdsWords (r : Nat) (xs : List Nat) (t : State) : Bool := (List.range xs.length).all fun l => (t.v r l).toNat == xs.getD l 0

/-- `add` wraps; `movi` then `movh` make 0x12345678 (chapter 1). -/
theorem test_add : after (.add 8 1 2) lanes (fun t => t.v 8 7 == 0xFFFFFFFF && t.cur.pc == 0x4004) = true := by decide +kernel
theorem test_movh : after (.movh 2 0x1234) (nx (.movi 2 0x5678) lanes) (fun t => t.v 2 31 == 0x12345678) = true := by decide +kernel
/-- R138's example: bits 11 to 4 of 0x1234ABCD, and 0xFFFFFFFF with those bits inserted. -/
def fieldS : State := ((inLanes 8 [0x1234ABCD] lanes).setV 9 fun _ => 0x804).setV 10 fun _ => 0xFFFFFFFF
theorem test_bfe : after (.bfeN 11 8 9) fieldS (holdsWords 11 [0xBC]) = true ∧ after (.bfeI 11 8 9) fieldS (holdsWords 11 [0xFFFFFFBC]) = true := by
  decide +kernel
theorem test_bfi : after (.bfi 10 8 9) fieldS (holdsWords 10 [0xFFFFFCDF]) = true := by decide +kernel
/-- R139: the control 0x0123 reverses bytes. -/
theorem test_perm : after (.perm 11 8 9) (fieldS.setV 9 fun _ => 0x0123) (holdsWords 11 [0xCDAB3412]) = true := by decide +kernel
/-- Chapter 6: the square root of 2, rounded up and to nearest. -/
theorem test_fsqrt : after (.fsqrt 0 .rup 3 2) (inLanes 2 [0x40000000] lanes) (holdsWords 3 [0x3FB504F4]) = true ∧
    after (.fsqrt 0 .rne 3 2) (inLanes 2 [0x40000000] lanes) (holdsWords 3 [0x3FB504F3]) = true := by decide +kernel
/-- Chapter 6: the tree of `redu.add.f32` gives 1.0 where the order of the lanes would give 0. -/
theorem test_redu_tree : after (.redu 0 .addF32 8 9) (inLanes 9 [0x4B800000, 0x3F800000, 0x3F800000, 0xCB800000] lanes)
    (holdsWords 8 [0x3F800000, 0x3F800000, 0x3F800000, 0x3F800000]) = true := by decide +kernel
/-- Chapter 6: lanes 2 and 5 of {0, 2, 3, 5} qualify. -/
theorem test_compact : after (.compact 0 1 2) ((inLanes 2 [0, 0, 7, 0, 0, 9] lanes).onCur fun c => { c with m0 := 0x2D })
    (fun t => [0, 2, 3, 5].map (fun l => (t.v 1 l).toNat) == [2, 5, 0xFFFFFFFF, 0xFFFFFFFF]) = true := by decide +kernel
/-- Chapter 6: a 64-bit scalar addition by `sadd`, `scmp`, `mget` and `ssub`; the last two steps. -/
theorem test_scalar_carry : after (.scmp .ltN 1 4 2) ((lanes.setS 4 0x100).setS 2 0xFFFFFF00) (fun t => t.mreg 1 == 0xFFFFFFFF) = true ∧
    after (.ssub 5 3 7) ((lanes.setS 3 1).setS 7 0xFFFFFFFF) (fun t => t.sreg 5 == 2) = true := by decide +kernel
theorem test_s0_discards : after (.smovi 0 99) lanes (fun t => t.sreg 0 == 0 && t.cur.pc == 0x4004) = true := by decide +kernel
/-- Chapter 5: the rounding of a group of four lanes to BFP4, with its second rounding; and the values that it stands for. -/
theorem test_bfpq : after (.bfpq 0 4 6 5) (inLanes 5 [0x40F80000, 0x40400000, 0xBFA00000, 0x3E000000] lanes)
    (holdsWords 6 [0x8204, 0x8202, 0x82FF, 0x8200]) = true := by decide +kernel
theorem test_bfpx : after (.bfpx 0 4 7 6) (inLanes 6 [0x8204, 0x8202, 0x82FF, 0x8200] lanes)
    (holdsWords 7 [0x41000000, 0x40800000, 0xC0000000, 0]) = true := by decide +kernel
/-- R115, R125: an exact zero is +0; a number too small for the format keeps its sign. -/
theorem test_cvt_zero : after (.cvtF16F32 0 false .rne 3 2) (inLanes 2 [0x80000000, 0x80000001, 0xBF800000] lanes) (holdsWords 3 [0, 0x8000, 0xBC00]) = true := by
  decide +kernel
/-- R104, R288: a slot reads what its own store to a host page stored, before the answer. -/
theorem test_own_store : after (.ldG 0 .b32 3 6 9) ({ nx (.stG 0 .b32 3 6 5) { onHost with defer := true } with defer := false })
    (fun t => t.v 9 31 == 2 && !t.posted.isEmpty && t.num ⟨.host, 0x8000000⟩ 4 == 0) = true := by decide +kernel
/-- Chapter 4: two lanes of one `st.c` to one word leave the higher lane's value. -/
def twoStores : State := (inLanes 8 ((List.range 18).map (· + 5)) lanes).onCur fun c => { c with m0 := 0x20008 }
def storeS : State := (twoStores.setV 3 fun _ => 0x40).setS 4 0
theorem test_store_order : after (.ldC 0 .b32 3 4 9) (nx (.stC 0 .b32 3 4 8) storeS) (fun t => t.v 9 3 == 22 && t.v 9 17 == 22) = true := by
  decide +kernel
/-- Chapter 14: the first `brc` of the example splits the wave; the split slots meet at its `conv`. -/
def split0 : State := ((lanes.onCur fun c => { c with m0 := 0xFF, cj := some 0x4800 }).setM 1 0xF)
theorem test_split : after (.brc 32 false 1) split0 (fun t => t.w.sib.live && t.cur.m0 == 0xF0 && t.w.sib.m0 == 0xF &&
    t.w.sib.pc == 0x4040 && t.cur.pc == 0x4004 && t.cur.depth == 1 && t.w.sib.depth == 1) = true := by decide +kernel
/-- The second `brc`, serialised: 0xC0 goes on, with JOIN and ARM above the SPLIT. -/
def split1 : State := ((nx (.brc 32 false 1) split0).onCur fun c => { c with cj := some 0x4900 }).setM 2 0x30
theorem test_serialised : after (.brc 32 false 2) split1 (fun t => t.cur.m0 == 0xC0 && t.cur.depth == 3 && t.w.sib.m0 == 0xF) = true := by
  decide +kernel
/-- Chapter 9: the triangle of the example covers six pixels, in this order. -/
theorem test_coverage : coveredPixels (RasterDesc.ofWords [0x20000, 99 + 63 * 65536, 7, 0]) ((setWords 20 [256, 256, 1280, 256, 256, 1280, 0] duo).tri 20 0) =
    [(1, 1), (2, 1), (3, 1), (1, 2), (2, 2), (1, 3)] := by decide +kernel
/-- Chapter 10: the item that `tape.rec` writes has 17 bytes. -/
def recS : State := (quire 1024 (inLanes 12 [5, 0, 5, 7] lanes)).onWave fun w => { w with tape := { w.tape with quire := [.opening (aFolio false)], isOpen := true } }
theorem test_tape_rec : after (.tapeRec 0 12) recS (fun t => itemsSize t.w.tape.quire == itemsSize recS.w.tape.quire + 17) = true := by decide +kernel
/-- Chapter 10: contributions of 1.0, 1.0 and 2^24 close in the order of their keys. -/
def threeContribs : List Contribution :=
  [{ aContrib 1 0 0x7004000 0x4020000 true with value := 0x3F800000 }, { aContrib 2 0 0x7008000 0x4020000 true with value := 0x3F800000 },
   { aContrib 3 0 0x3000000 0x4020000 true with value := 0x4B800000 }]
theorem test_line_close : closeLine (aClaim 0) threeContribs = [(0, 0x4B800000)] := by decide +kernel
/-- Chapter 11: the factor of the example. -/
def updS : State :=
  ([0x3F800000, 0x3F800000, 0x3F800000, 0x3F800000, 0x40000000, 0, 0, 0, 0x40000000, 0x40800000, 0, 0].zipIdx.foldl
    (fun s p => poke s (0x20000 + 4 * p.2) 4 p.1) duo)
def updExample : UpdCmd :=
  { updOf updS ([0x20000, 0x20020, 0x20010, 0x22000, 5, 0x24000, 4, two32 0x3F000000 0, two32 0x3F000000 0, two32 0 0x3F800000] ++ List.replicate 6 0) with id := 3 }
theorem test_upd_ratio : (match passOne updS updExample with | .ok (some x) => x == 0x3DCCCCCD | _ => false) = true := by decide +kernel
/-- R370, R377: `trap` saves the PC of the instruction after it and enters the handler at TRAPVEC. -/
theorem test_trap : after (.trap 5) base (fun t => t.cur.inHandler && t.cur.trap.pc == 0x4004 && t.cur.trap.cause % 256 == 0xE5 && t.cur.pc == 0x8000) = true := by
  decide +kernel
end Sys2Proof.Tests
end

/-! Transfers of control in which all of the slot's lanes go to one address (R322 to R324, R327 to R330): what retirement
leaves of an update of the slot, what each meaning answers, and the statement O24 about them. -/
namespace Sys2Proof.Machine

/-! ### What retirement does to an update of the slot -/

/-- Results clear marks of bad registers and do nothing else (R97). -/
theorem clearBadRegs_eq (h : Hdr) (m : Word) (s : State) : ∃ ps rs, clearBadRegs h m s = s.onWave fun w =>
    { w with badRegs := ps, cur := { w.cur with bank := { w.cur.bank with bad := rs } } } := by
  unfold clearBadRegs
  split
  · exact ⟨s.w.badRegs, s.w.cur.bank.bad, rfl⟩
  · exact ⟨_, _, rfl⟩

/-- An instruction without results covers no granule of the register files. -/
theorem coversGranule_of_noWrites {h : Hdr} (hw : h.writes = []) (r : RegId) : coversGranule h r = false := by
  cases r with
  | s n => by_cases hn : n = 0 <;> simp [coversGranule, granuleRegs, hw, hn]
  | m n => by_cases hn : n = 0 <;> simp [coversGranule, granuleRegs, hw, hn]
  | v n => rfl
  | a n => rfl

theorem clearBadRegs_of_noWrites {h : Hdr} (hw : h.writes = []) (m : Word) (s : State) : clearBadRegs h m s = s := by
  unfold clearBadRegs
  split
  · rfl
  · simp [State.onWave, hw, coversGranule_of_noWrites hw]

theorem leftBy_of_noWrites {i : Instr} (hw : (hdr i).writes = []) (s t : State) : leftBy i s t = retire i t := by
  rw [leftBy, clearBadRegs_of_noWrites hw]

theorem finished_of_noWrites {i : Instr} (hw : (hdr i).writes = []) (s t : State) :
    finished i s t = retire i (stepPc i t) := by
  rw [finished, clearBadRegs_of_noWrites hw]

theorem opened_of_closing {i : Instr} {s : State} (h : closesFirst i = true) :
    opened i s = s.onCur fun c => { c with windows := [] } := by
  rw [opened, if_pos h]

/-- Nothing outside the wave in hand has changed. -/
def OnlyWave (s t : State) : Prop := t = { s with w := t.w }

theorem OnlyWave.trans {s t u : State} (h1 : OnlyWave s t) (h2 : OnlyWave t u) : OnlyWave s u := by
  unfold OnlyWave at h1 h2 ⊢
  rw [h2, h1]

theorem OnlyWave.sameMemory {s t : State} (h : OnlyWave s t) : sameMemory s t := by
  intro l _
  rw [h]
  rfl

theorem onlyWave_onWave (f : Wave → Wave) (s : State) : OnlyWave s (s.onWave f) := rfl
theorem onlyWave_stepPc (i : Instr) (s : State) : OnlyWave s (stepPc i s) := rfl
theorem onlyWave_retire (i : Instr) (s : State) : OnlyWave s (retire i s) := rfl
theorem onlyWave_callTo (target : Nat) (s : State) : OnlyWave s (callTo s target) := rfl
theorem onlyWave_opened (i : Instr) (s : State) : OnlyWave s (opened i s) := by unfold opened; split <;> rfl
theorem onlyWave_clearBadRegs (h : Hdr) (m : Word) (s : State) : OnlyWave s (clearBadRegs h m s) := by
  unfold clearBadRegs; split <;> rfl

theorem onlyWave_leftBy {i : Instr} {s t : State} (h : OnlyWave s t) : OnlyWave s (leftBy i s t) :=
  (h.trans (onlyWave_clearBadRegs ..)).trans (onlyWave_retire ..)

theorem wave_stepPc (i : Instr) (s : State) : (stepPc i s).w = { s.w with cur := (stepPc i s).w.cur } := rfl

/-- Retirement counts in LCLOCK and touches no other part of the wave than its slot (R353). -/
theorem wave_retire (i : Instr) (s : State) :
    (retire i s).w = { s.w with cur := (retire i s).w.cur, lclock := s.w.lclock + 1 } := rfl

/-- An update of the slot's PC, m0, pending join, count of backward branches and windows, retired, is all that happened. -/
theorem jumped_retire (i : Instr) (s : State) (pc : Nat) (m0 : Word) (cj : Option Nat) (gc : Nat) (ws : List Window) :
    Jumped s (retire i (s.onCur fun c => { c with pc := pc, m0 := m0, cj := cj, gc := gc, windows := ws })) pc m0 cj gc :=
  ⟨rfl, rfl, rfl⟩

/-! ### What the meanings answer -/

theorem countBackward_eq (s : State) (o : Int) : countBackward s o = s.onCur fun c => { c with gc := gcTaken s o } := by
  unfold countBackward gcTaken
  split <;> rfl

theorem doBrc_none {o : Int} {neg : Bool} {m : Nat} {s : State} (h : brcTaken s neg m = 0) :
    doBrc o neg m s = .jump (s.onCur fun c => { c with pc := (s.cur.pc + 4) % 2 ^ 56, cj := none }) := by
  simp [doBrc, h]

theorem doBrc_all {o : Int} {neg : Bool} {m : Nat} {s : State} (h : brcTaken s neg m = s.m0) (h0 : brcTaken s neg m ≠ 0) :
    doBrc o neg m s =
      .jump (s.onCur fun c => { c with pc := pcPast s (2 * o), cj := none, gc := gcTaken s o }) := by
  have hstay : s.m0 &&& ~~~(brcTaken s neg m) = 0 := by rw [h, BitVec.and_not_self]
  simp only [doBrc, if_neg h0, hstay, if_true, countBackward_eq]
  rfl

/-- The address to which a lane returns (R328, R417). -/
def retTarget (s : State) (r : Nat) : Nat → Nat := fun l => s.cur.pc / 2 ^ 32 * 2 ^ 32 + (s.v r l).toNat / 2 * 2

theorem doRet_cons {r t : Nat} {ts : List Nat} {s : State} (hmap : (lanesOf s.m0).map (retTarget s r) = t :: ts)
    (hall : (ts.all fun x => x == t) = true) : doRet r s = .jump (s.onCur fun c => { c with pc := t }) := by
  unfold retTarget at hmap
  simp only [doRet, hmap, hall, if_true]

/-- A `ret` whose active lanes all form one target continues there. -/
theorem doRet_uniform {r t : Nat} {s : State} (hne : lanesOf s.m0 ≠ []) (h : ∀ k ∈ lanesOf s.m0, retTarget s r k = t) :
    doRet r s = .jump (s.onCur fun c => { c with pc := t }) := by
  obtain ⟨k, ks, hl⟩ := List.exists_cons_of_ne_nil hne
  rw [hl] at h
  have hmap : (lanesOf s.m0).map (retTarget s r) = t :: ks.map (retTarget s r) := by
    rw [hl, List.map_cons, h k List.mem_cons_self]
  refine doRet_cons hmap (List.all_eq_true.2 fun x hx => ?_)
  obtain ⟨j, hj, rfl⟩ := List.mem_map.1 hx
  exact beq_iff_eq.2 (h j (List.mem_cons_of_mem k hj))

/-! ### Instructions that change nothing but their slot's place -/

section
variable {i : Instr} {s u : State} {body : State → Res} {pc : Nat} {m0 : Word} {cj : Option Nat} {gc : Nat} {ws : List Window}

/-- An instruction without results whose meaning answers a jump within the slot. -/
theorem issue_jumped (h : Ready i s) (hw : (hdr i).writes = []) (hb : body (opened i s) = .jump u)
    (hu : u = s.onCur fun c => { c with pc := pc, m0 := m0, cj := cj, gc := gc, windows := ws }) :
    ∃ t, issue i body s = .next t ∧ Jumped s t pc m0 cj gc := by
  refine ⟨_, issue_jump h hb, ?_⟩
  rw [leftBy_of_noWrites hw, hu]
  exact jumped_retire i s pc m0 cj gc ws

/-- An instruction without results whose meaning answers that it is done, with the slot changed. -/
theorem issue_jumped_of_done (h : Ready i s) (hw : (hdr i).writes = []) (hb : body (opened i s) = .done u)
    (hu : stepPc i u = s.onCur fun c => { c with pc := pc, m0 := m0, cj := cj, gc := gc, windows := ws }) :
    ∃ t, issue i body s = .next t ∧ Jumped s t pc m0 cj gc := by
  refine ⟨_, issue_done h hb, ?_⟩
  rw [finished_of_noWrites hw, hu]
  exact jumped_retire i s pc m0 cj gc ws

end

theorem exec_br_jumped {s : State} {o : Int} (h : Ready (.br o) s) :
    ∃ t, exec (.br o) s = .next t ∧ Jumped s t (pcPast s (2 * o)) s.m0 s.cur.cj (gcTaken s o) := by
  refine issue_jumped (ws := s.cur.windows) h rfl rfl ?_
  rw [opened_of_open rfl, countBackward_eq]
  rfl

theorem exec_brc_jumped_past {s : State} {o : Int} {neg : Bool} {m : Nat} (h : Ready (.brc o neg m) s)
    (ht : brcTaken s neg m = 0) :
    ∃ t, exec (.brc o neg m) s = .next t ∧ Jumped s t ((s.cur.pc + 4) % 2 ^ 56) s.m0 none s.cur.gc :=
  issue_jumped (ws := s.cur.windows) h rfl (doBrc_none ht) rfl

theorem exec_brc_jumped_target {s : State} {o : Int} {neg : Bool} {m : Nat} (h : Ready (.brc o neg m) s)
    (ht : brcTaken s neg m = s.m0) (h0 : brcTaken s neg m ≠ 0) :
    ∃ t, exec (.brc o neg m) s = .next t ∧ Jumped s t (pcPast s (2 * o)) s.m0 none (gcTaken s o) :=
  issue_jumped (ws := s.cur.windows) h rfl (doBrc_all ht h0) rfl

theorem exec_convat_jumped {s : State} {o : Int} (h : Ready (.convat o) s) :
    ∃ t, exec (.convat o) s = .next t ∧
      Jumped s t ((s.cur.pc + 4) % 2 ^ 56) s.m0 (some (pcPast s (2 * o))) s.cur.gc :=
  issue_jumped_of_done (ws := s.cur.windows) h rfl rfl rfl

/-- `ret` closes the slot's windows and keeps them closed (R27). -/
theorem exec_ret_jumped {s : State} {r t : Nat} (h : Ready (.ret r) s) (hne : lanesOf s.m0 ≠ [])
    (ht : ∀ k ∈ lanesOf s.m0, retTarget s r k = t) :
    ∃ u, exec (.ret r) s = .next u ∧ Jumped s u t s.m0 s.cur.cj s.cur.gc ∧ u.w.cur.windows = [] := by
  have hb : doRet r (opened (.ret r) s) = .jump ((opened (.ret r) s).onCur fun c => { c with pc := t }) :=
    doRet_uniform hne ht
  refine ⟨_, issue_jump h hb, ?_⟩
  rw [leftBy_of_noWrites rfl]
  exact ⟨jumped_retire _ s t _ _ _ [], rfl⟩

/-! ### Instructions that change registers or marks of the wave -/

@[simp] theorem sreg_callTo (s : State) (target r : Nat) : (callTo s target).sreg r = s.sreg r := rfl
@[simp] theorem mreg_callTo (s : State) (target k : Nat) : (callTo s target).mreg k = s.mreg k := rfl

/-- The state after a `call` (R327): its windows closed, the return address written, its slot at the target, retired. -/
def afterCall (o : Int) (s : State) : State :=
  leftBy (.call o) s (callTo (opened (.call o) s) (pcPast s (2 * o)))

theorem exec_call {s : State} {o : Int} (h : Ready (.call o) s) : exec (.call o) s = .next (afterCall o s) :=
  issue_jump h rfl

theorem onlyWave_afterCall (o : Int) (s : State) : OnlyWave s (afterCall o s) :=
  onlyWave_leftBy ((onlyWave_opened ..).trans (onlyWave_callTo ..))

theorem sameScalars_afterCall (o : Int) (s : State) : sameScalars s (afterCall o s) := by
  intro r
  rw [afterCall, leftBy, sreg_retire, sreg_clearBadRegs, sreg_callTo, sreg_opened]

theorem sameMasks_afterCall (o : Int) (s : State) : sameMasks s (afterCall o s) := by
  intro k
  rw [afterCall, leftBy, mreg_retire, mreg_clearBadRegs, mreg_callTo, mreg_opened]

theorem wroteV_afterCall (o : Int) (s : State) :
    wroteV s (afterCall o s) 127 fun _ => BitVec.ofNat 32 (s.cur.pc + 4) := by
  have hv (r l : Nat) : (afterCall o s).v r l =
      ((opened (.call o) s).setV 127 fun _ => BitVec.ofNat 32 (s.cur.pc + 4)).v r l := by
    rw [afterCall, leftBy, v_retire, v_clearBadRegs]
    rfl
  constructor
  · intro l hl
    rw [hv, v_setV_self _ _ _ hl, m0_opened, v_opened]
  · intro r l hr
    rw [hv, v_setV_ne _ _ _ hr, v_opened]

/-- Of its wave, a `call` changes vector registers, marks of bad ones and the slot; of the slot, the PC, windows, marks and
the issue logic's own counts. -/
theorem wave_afterCall (o : Int) (s : State) : ∃ vs ps rs fs, (afterCall o s).w =
    { s.w with
      vregs := vs, badRegs := ps, lclock := s.w.lclock + 1
      cur := { s.w.cur with
        pc := pcPast s (2 * o), bank := { s.w.cur.bank with bad := rs }, windows := [], flights := fs, waited := 0
        urgent := none, yielded := false, issuedAt := s.gts, stalled := false, staging := none } } := by
  obtain ⟨ps, rs, hc⟩ := clearBadRegs_eq (hdr (.call o)) s.m0 (callTo (opened (.call o) s) (pcPast s (2 * o)))
  rw [afterCall, leftBy, hc, opened_of_closing rfl]
  simp only [retire, countRetired, issued, callTo, State.onCur, State.onWave, State.setV, Wave.setVreg]
  exact ⟨_, ps, rs, _, rfl⟩

theorem exec_call_next {s : State} {o : Int} (h : Ready (.call o) s) :
    ∃ t, exec (.call o) s = .next t ∧ t.w.cur.pc = pcPast s (2 * o) ∧ t.w.cur.gc = s.cur.gc ∧ t.w.cur.windows = [] ∧
      wroteV s t 127 (fun _ => BitVec.ofNat 32 (s.cur.pc + 4)) ∧ sameScalars s t ∧ sameMasks s t ∧ sameMemory s t ∧
      t = { s with w := t.w } ∧
      t.w = { s.w with cur := t.w.cur, vregs := t.w.vregs, badRegs := t.w.badRegs, lclock := s.w.lclock + 1 } := by
  obtain ⟨vs, ps, rs, fs, hw⟩ := wave_afterCall o s
  refine ⟨_, exec_call h, by rw [hw], by rw [hw]; rfl, by rw [hw], wroteV_afterCall o s, sameScalars_afterCall o s,
    sameMasks_afterCall o s, (onlyWave_afterCall o s).sameMemory, onlyWave_afterCall o s, by rw [hw]⟩

theorem exec_nop_next {s : State} (h : Ready .nop s) :
    ∃ t, exec .nop s = .next t ∧ sameScalars s t ∧ sameMasks s t ∧ sameVectors s t ∧ OnlyRegs .nop s t := by
  refine ⟨_, issue_done h rfl, ?_⟩
  rw [opened_of_open rfl]
  exact ⟨fun r => sreg_finished _ s s r, fun k => mreg_finished _ s s k, fun r l => v_finished _ s s r l,
    onlyRegs_finished rfl rfl⟩

theorem exec_demote_next {s : State} (h : Ready .demote s) :
    ∃ t, exec .demote s = .next t ∧ t = { s with w := t.w } ∧ SlotPast .demote s t ∧
      t.w = { s.w with cur := t.w.cur, badRegs := t.w.badRegs, helper := s.w.helper ||| s.m0, lclock := s.w.lclock + 1 } := by
  refine ⟨_, issue_done h rfl, ?_⟩
  rw [finished_of_noWrites rfl, opened_of_open rfl]
  refine ⟨((onlyWave_onWave _ s).trans (onlyWave_stepPc ..)).trans (onlyWave_retire ..), rfl, ?_⟩
  rw [wave_retire, wave_stepPc]
  rfl

/-- Settles O24: each part is the lemma above about its instruction; the lanes of a `ret` agree on the target of lane l. -/
theorem uniformTransfers : Obligations.UniformTransfers := by
  refine ⟨⟨fun s o h => ?br, fun s o neg m h => ⟨exec_brc_jumped_past h, exec_brc_jumped_target h⟩,
    fun s o h => exec_call_next h, fun s r l h hl hact hagree => ?ret⟩,
    fun s o h => exec_convat_jumped h, fun s h => exec_nop_next h, fun s h => exec_demote_next h⟩
  case br =>
    obtain ⟨t, he, hj⟩ := exec_br_jumped h
    exact ⟨t, he, hj, OnlyWave.sameMemory hj.1⟩
  case ret =>
    have hmem : l ∈ lanesOf s.m0 := mem_lanesOf.2 ⟨hl, hact⟩
    refine exec_ret_jumped h (List.ne_nil_of_mem hmem) fun k hk => ?_
    obtain ⟨hk32, hkact⟩ := mem_lanesOf.1 hk
    rw [retTarget, hagree k hk32 hkact]

end Sys2Proof.Machine

/-! `cancel` and `cwait` (R249, R364, R365): what the cancellation of a set of launches leaves of the waves and launches,
whole operands that pass their checks, and the statement O38. -/
namespace Sys2Proof.Machine

/-! ### Lists in a relation place by place -/

theorem pairwiseRel_map {α : Type} {r : α → α → Prop} {f : α → α} (h : ∀ x, r x (f x)) (xs : List α) :
    pairwiseRel r xs (xs.map f) := by
  induction xs with
  | nil => trivial
  | cons x xs ih => exact ⟨h x, ih⟩

theorem pairwiseRel_refl {α : Type} {r : α → α → Prop} (h : ∀ x, r x x) (xs : List α) : pairwiseRel r xs xs := by
  simpa using pairwiseRel_map (f := id) h xs

theorem pairwiseRel_comp {α : Type} {r q p : α → α → Prop} (h : ∀ a b c, r a b → q b c → p a c) :
    ∀ {as bs cs : List α}, pairwiseRel r as bs → pairwiseRel q bs cs → pairwiseRel p as cs
  | [], [], [], _, _ => trivial
  | _ :: _, _ :: _, _ :: _, hr, hq => ⟨h _ _ _ hr.1 hq.1, pairwiseRel_comp h hr.2 hq.2⟩

theorem pairwiseRel_imp_of_mem {α : Type} {r q : α → α → Prop} :
    ∀ {as bs : List α}, (∀ a ∈ as, ∀ b, r a b → q a b) → pairwiseRel r as bs → pairwiseRel q as bs
  | [], [], _, _ => trivial
  | a :: _, b :: _, h, hr =>
    ⟨h a List.mem_cons_self b hr.1, pairwiseRel_imp_of_mem (fun x hx => h x (List.mem_cons_of_mem a hx)) hr.2⟩

/-! ### The cancellation of a launch -/

/-- A wave of one of these launches has its tape discarded, and any other is as it was. -/
def Discards (lids : List Nat) (a b : Wave) : Prop :=
  (a.lid ∈ lids → b = { a with tape := a.tape.discarded }) ∧ (a.lid ∉ lids → b = a)

/-- One of these launches is cancelled and starts no more groups, and any other is as it was. -/
def Stops (lids : List Nat) (a b : Launch) : Prop :=
  a.lid = b.lid ∧ (a.lid ∈ lids → b.cancelled = true ∧ b.chunks = [] ∧ b.waiting = []) ∧ (a.lid ∉ lids → b = a)

/-- The wave belongs to a saved group of one of these launches. -/
def SavedIn (lids : List Nat) (s : State) (a : Wave) : Prop :=
  a.lid ∈ lids ∧ ∃ g ∈ s.groups, g.gid = a.gid ∧ g.lid = a.lid ∧ g.onCore = false

/-- These launches, and no others, have been cancelled: what has become of bytes, waves and launches (R249, R364). -/
structure CancelledIn (lids : List Nat) (s t : State) : Prop where
  mem : t.mem = s.mem
  lines : t.lines = s.lines
  groups : t.groups = s.groups
  inHand : s.w.live = true → Discards lids s.w t.w
  noneInHand : s.w.live = false → t.w = s.w
  othersFrom : ∀ b ∈ t.others, ∃ a ∈ s.others, Discards lids a b
  othersTo : ∀ a ∈ s.others, (∃ b ∈ t.others, Discards lids a b) ∨ SavedIn lids s a
  launches : pairwiseRel (Stops lids) s.launches t.launches

theorem Discards.nil (a : Wave) : Discards [] a a := ⟨fun h => absurd h (List.not_mem_nil), fun _ => rfl⟩

theorem Discards.lid_eq {lids : List Nat} {a b : Wave} (h : Discards lids a b) : b.lid = a.lid := by
  by_cases hm : a.lid ∈ lids
  · rw [h.1 hm]
  · rw [h.2 hm]

theorem Discards.trans {xs ys : List Nat} {a b c : Wave} (h : Discards xs a b) (k : Discards ys b c) :
    Discards (xs ++ ys) a c := by
  have hl := h.lid_eq
  constructor
  · intro hm
    by_cases hx : a.lid ∈ xs <;> by_cases hy : a.lid ∈ ys
    · rw [k.1 (hl ▸ hy), h.1 hx]
      rfl
    · rw [k.2 (hl ▸ hy), h.1 hx]
    · rw [k.1 (hl ▸ hy), h.2 hx]
    · simp [hx, hy] at hm
  · intro hm
    rw [List.mem_append, not_or] at hm
    rw [k.2 (hl ▸ hm.2), h.2 hm.1]

theorem Discards.keeps {lids : List Nat} {a b : Wave} (h : Discards lids a b) : b.live = a.live ∧ b.gid = a.gid := by
  by_cases hm : a.lid ∈ lids
  · rw [h.1 hm]
    exact ⟨rfl, rfl⟩
  · rw [h.2 hm]
    exact ⟨rfl, rfl⟩

theorem Stops.trans {xs ys : List Nat} {a b c : Launch} (h : Stops xs a b) (k : Stops ys b c) : Stops (xs ++ ys) a c := by
  obtain ⟨h0, h1, h2⟩ := h
  obtain ⟨k0, k1, k2⟩ := k
  rw [← h0] at k1 k2
  refine ⟨h0.trans k0, fun hm => ?_, fun hm => ?_⟩
  · by_cases hy : a.lid ∈ ys
    · exact k1 hy
    · rw [k2 hy]
      exact h1 ((List.mem_append.1 hm).resolve_right hy)
  · rw [List.mem_append, not_or] at hm
    rw [k2 hm.2, h2 hm.1]

theorem CancelledIn.refl (s : State) : CancelledIn [] s s where
  mem := rfl
  lines := rfl
  groups := rfl
  inHand _ := .nil s.w
  noneInHand _ := rfl
  othersFrom b hb := ⟨b, hb, .nil b⟩
  othersTo a ha := .inl ⟨a, ha, .nil a⟩
  launches := pairwiseRel_refl (fun _ => ⟨rfl, fun h => absurd h (List.not_mem_nil), fun _ => rfl⟩) _

theorem CancelledIn.trans {xs ys : List Nat} {s t u : State} (h : CancelledIn xs s t) (k : CancelledIn ys t u) :
    CancelledIn (xs ++ ys) s u where
  mem := k.mem.trans h.mem
  lines := k.lines.trans h.lines
  groups := k.groups.trans h.groups
  inHand hs := (h.inHand hs).trans (k.inHand ((h.inHand hs).keeps.1.trans hs))
  noneInHand hs := by
    have ht := h.noneInHand hs
    rw [k.noneInHand (by rw [ht]; exact hs), ht]
  othersFrom c hc := by
    obtain ⟨b, hb, kbc⟩ := k.othersFrom c hc
    obtain ⟨a, ha, hab⟩ := h.othersFrom b hb
    exact ⟨a, ha, hab.trans kbc⟩
  othersTo a ha := by
    rcases h.othersTo a ha with ⟨b, hb, hab⟩ | ⟨hm, hg⟩
    · rcases k.othersTo b hb with ⟨c, hc, hbc⟩ | ⟨hm, g, hg, hgid, hlid, hon⟩
      · exact .inl ⟨c, hc, hab.trans hbc⟩
      · rw [hab.lid_eq] at hm hlid
        rw [hab.keeps.2] at hgid
        exact .inr ⟨List.mem_append_right xs hm, g, h.groups ▸ hg, hgid, hlid, hon⟩
    · exact .inr ⟨List.mem_append_left ys hm, hg⟩
  launches := pairwiseRel_comp (r := Stops xs) (q := Stops ys) (fun _ _ _ => Stops.trans) h.launches k.launches

/-- The end of these waves' tapes changes nothing but which bytes loads find unspecified. -/
theorem foldl_retireTape (ws : List Wave) (s : State) : ∃ ts, ws.foldl retireTape s = { s with oldTapes := ts } := by
  induction ws generalizing s with
  | nil => exact ⟨s.oldTapes, rfl⟩
  | cons w ws ih =>
    obtain ⟨ts, h⟩ := retireTape_changes s w
    obtain ⟨us, k⟩ := ih { s with oldTapes := ts }
    exact ⟨us, by rw [List.foldl_cons, h, k]⟩

/-- A wave whose tape is discarded if its launch is this one. -/
def discardTape (lid : Nat) (w : Wave) : Wave := if w.lid = lid then { w with tape := w.tape.discarded } else w

theorem discards_discardTape (lid : Nat) (w : Wave) : Discards [lid] w (discardTape lid w) := by
  unfold discardTape Discards
  constructor <;> intro h <;> simp_all

/-- Shadow pages on their way back to their pools are no wave's, launch's or group's (R79). -/
theorem discardShadows_changes (s : State) (which : ShadowPage → Bool) : ∃ sh hs n,
    discardShadows s which = { s with shadows := sh, held := hs, serial := n } := ⟨_, _, _, rfl⟩

/-- The saved groups of a launch, whose waves end with it (R364). -/
def savedGids (s : State) (lid : Nat) : List Nat := (s.groups.filter fun g => g.lid == lid && !g.onCore).map (·.gid)

/-- What `cancelLaunch` makes of waves, launches, groups and bytes. -/
theorem cancelLaunch_changes (s : State) (lid : Nat) :
    (cancelLaunch s lid).mem = s.mem ∧ (cancelLaunch s lid).lines = s.lines ∧ (cancelLaunch s lid).groups = s.groups ∧
      (cancelLaunch s lid).w = (if s.w.live then discardTape lid s.w else s.w) ∧
      (cancelLaunch s lid).others = ((s.others.map (discardTape lid)).filter fun w =>
        !(w.lid == lid && (savedGids s lid).contains w.gid)) ∧
      (cancelLaunch s lid).launches = s.launches.map fun x => if x.lid = lid then
        { x with cancelled := true, chunks := [], waiting := [],
                 tasks := (s.groups.filter fun g => g.lid == lid && g.task.isSome).length } else x := by
  unfold cancelLaunch
  dsimp only
  obtain ⟨ts, h⟩ := foldl_retireTape _ _
  rw [h]
  exact ⟨rfl, rfl, rfl, rfl, rfl, rfl⟩

theorem cancelledIn_cancelLaunch (s : State) (lid : Nat) : CancelledIn [lid] s (cancelLaunch s lid) := by
  obtain ⟨hmem, hlines, hgroups, hw, hothers, hlaunches⟩ := cancelLaunch_changes s lid
  refine ⟨hmem, hlines, hgroups, fun hs => ?_, fun hs => ?_, fun b hb => ?_, fun a ha => ?_, ?_⟩
  · rw [hw, if_pos hs]
    exact discards_discardTape lid s.w
  · rw [hw, if_neg (by simp [hs])]
  · rw [hothers] at hb
    obtain ⟨a, ha, rfl⟩ := List.mem_map.1 (List.mem_filter.1 hb).1
    exact ⟨a, ha, discards_discardTape lid a⟩
  · have hd := discards_discardTape lid a
    by_cases hsaved : (!((discardTape lid a).lid == lid && (savedGids s lid).contains (discardTape lid a).gid)) = true
    · exact .inl ⟨_, by rw [hothers]; exact List.mem_filter.2 ⟨List.mem_map_of_mem ha, hsaved⟩, hd⟩
    · simp only [hd.lid_eq, hd.keeps.2, Bool.not_eq_true', Bool.not_eq_false, Bool.and_eq_true, beq_iff_eq,
        List.contains_iff_mem, savedGids, List.mem_map, List.mem_filter] at hsaved
      obtain ⟨hlid, g, ⟨hg, hgl, hon⟩, hgid⟩ := hsaved
      exact .inr ⟨by simp [hlid], g, hg, hgid, by rw [hgl, hlid], by simpa using hon⟩
  · rw [hlaunches]
    refine pairwiseRel_map (fun x => ?_) _
    unfold Stops
    by_cases hx : x.lid = lid <;> simp [hx]

theorem cancelledIn_foldl (ls : List Launch) (s : State) :
    CancelledIn (ls.map (·.lid)) s (ls.foldl (fun t l => cancelLaunch t l.lid) s) := by
  induction ls generalizing s with
  | nil => exact .refl s
  | cons l ls ih => exact (cancelledIn_cancelLaunch s l.lid).trans (ih _)

/-- Launches with distinct numbers are told apart by them. -/
theorem eq_of_lid_eq {ls : List Launch} (h : ls.Pairwise fun a b => a.lid ≠ b.lid) {a b : Launch} (ha : a ∈ ls) (hb : b ∈ ls)
    (e : a.lid = b.lid) : a = b :=
  List.inj_on_of_nodup_map (List.pairwise_map.2 h) ha hb e

/-! ### `cancel` -/

/-- The launches that a `cancel` of this level and operand reaches. -/
def cancelList (s : State) (v : CancelLevel) (x : Nat) : List Launch :=
  s.launches.filter fun l =>
    levelCounter v l.attr == x && (s.attr.sys || l.attr.jobid == s.attr.jobid) && !l.cancelled

theorem mem_cancelList {s : State} {v : CancelLevel} {x : Nat} {l : Launch} :
    l ∈ cancelList s v x ↔ l ∈ s.launches ∧ cancelHits s v x l := by
  unfold cancelList cancelHits levelCounter
  cases v <;> simp [and_assoc]

/-- Their numbers; none for an operand of 0. -/
def cancelIds (s : State) (v : CancelLevel) (x : Nat) : List Nat :=
  if s.s64 x = 0 then [] else (cancelList s v (s.s64 x).toNat).map (·.lid)

theorem mem_cancelIds {s : State} {v : CancelLevel} {x lid : Nat} : lid ∈ cancelIds s v x ↔
    s.s64 x ≠ 0 ∧ ∃ a ∈ s.launches, a.lid = lid ∧ cancelHits s v (s.s64 x).toNat a := by
  unfold cancelIds
  split <;> rename_i h0
  · simp [h0]
  · simp only [List.mem_map, mem_cancelList, ne_eq, h0, not_false_eq_true, true_and]
    exact exists_congr fun a => by tauto

/-- Where launches have distinct numbers, a launch's own number says whether it is reached. -/
theorem lid_mem_cancelIds {s : State} {v : CancelLevel} {x : Nat} (hu : s.launches.Pairwise fun a b => a.lid ≠ b.lid)
    {a : Launch} (ha : a ∈ s.launches) :
    a.lid ∈ cancelIds s v x ↔ s.s64 x ≠ 0 ∧ cancelHits s v (s.s64 x).toNat a := by
  rw [mem_cancelIds]
  refine and_congr_right fun _ => ⟨fun ⟨c, hc, e, hh⟩ => ?_, fun hh => ⟨a, ha, rfl, hh⟩⟩
  rwa [← eq_of_lid_eq hu hc ha e]

/-- `cancel` cancels the launches that it reaches; a cancelled job's gate opens, which is no wave's or launch's. -/
theorem doCancel_done (x : Nat) (v : CancelLevel) (s : State) : ∃ u, doCancel x v s = .done u ∧
    CancelledIn (cancelIds s v x) s u := by
  unfold doCancel cancelIds
  by_cases h : s.s64 x = 0
  · rw [if_pos h]
    exact ⟨s, by simp [h], .refl s⟩
  · rw [if_neg h]
    have hn : (s.s64 x).toNat ≠ 0 := fun e => h (BitVec.eq_of_toNat_eq (by simpa using e))
    have hc := cancelledIn_foldl (cancelList s v (s.s64 x).toNat) s
    dsimp only
    rw [if_neg hn]
    refine ⟨_, rfl, ?_⟩
    split
    · exact ⟨hc.mem, hc.lines, hc.groups, hc.inHand, hc.noneInHand, hc.othersFrom, hc.othersTo, hc.launches⟩
    · exact hc

theorem exec_cancel {s : State} {x : Nat} {v : CancelLevel} (h : Ready (.cancel x v) s) : ∃ u,
    exec (.cancel x v) s = .next (finished (.cancel x v) s u) ∧
      CancelledIn (cancelIds s v x) s u := by
  obtain ⟨u, hu, hc⟩ := doCancel_done x v s
  exact ⟨u, issue_done h (by rw [opened_of_open rfl]; exact hu), hc⟩

/-! ### Operands as a whole -/

/-- An operand that can be reached passes its checks. -/
theorem operand_of_reaches {s : State} {k : AccKind} {va : Int} {n align : Nat} {ls : List Loc} {xs : List Xlat}
    (cause : Nat) (h : Reaches s k va n align ls xs) : operand s k va n align cause = .ok (ls, xs) := by
  obtain ⟨hok, halign, hacc, hkill⟩ := h
  simp [operand, hok, halign, hacc, hkill]

theorem operand_misaligned {s : State} {k : AccKind} {va : Int} {n align cause : Nat} (hok : addrOk va n = true)
    (h : va.toNat % align ≠ 0) :
    operand s k va n align cause = .error (.trap (Trap.whole cause (BitVec.ofInt 64 va))) := by
  simp [operand, hok, h]

/-- A whole access changes entries of TLBs and walkers, lines and, where it reads, the free-value counter; no byte. -/
theorem noteAccess_reads (s : State) (ls : List Loc) (xs : List Xlat) (write : Bool) :
    ReadsChanged s (noteAccess s ls xs write) := by
  obtain ⟨tlb, ws, hf⟩ := fillTlbs_changes s (.core s.w.core) s.aspace xs
  have h1 : ReadsChanged s (fillTlbs s (.core s.w.core) s.aspace xs) := by
    rw [hf]
    exact ⟨⟨_, _, _, _, _, rfl⟩, fun _ _ => rfl⟩
  have h2 := h1.trans (touchAll_reads (fillTlbs s (.core s.w.core) s.aspace xs) s.w.core ls .nm write)
  unfold noteAccess State.afterFree
  dsimp only
  split
  · exact h2
  · split
    · exact h2.trans ⟨⟨_, _, _, _, _, rfl⟩, fun _ _ => rfl⟩
    · exact h2

/-- An acquire removes lines of a core's L1, where no byte is read (R275). -/
theorem byte_emptyL1 (s : State) (core : Nat) (l : Loc) : (s.emptyL1 core).byte l = s.byte l := by
  have h (a : Nat) : holdsHost (s.emptyL1 core).lines a = holdsHost s.lines a := by
    unfold holdsHost State.emptyL1
    rw [List.any_filter]
    congr 1
    funext x
    cases hx : x.core <;> simp
  unfold State.byte State.served servedBy
  rw [h]
  rfl

theorem emptyL1_reads (s : State) (core : Nat) : ReadsChanged s (s.emptyL1 core) :=
  ⟨⟨s.mem, _, s.tlb, s.walks, s.free, rfl⟩, fun l _ => byte_emptyL1 s core l⟩

theorem not_cached_emptyL1 (s : State) (core : Nat) (p : Loc) : ¬cached (s.emptyL1 core) (some core) p := by
  rintro ⟨x, hx, hc, -⟩
  simp [State.emptyL1, hc] at hx

/-! ### `cwait` -/

theorem doCwait_misaligned {b x : Nat} {s : State} (hok : addrOk (s.s64 x).toInt 8 = true)
    (h : (s.s64 x).toInt.toNat % 8 ≠ 0) :
    doCwait b x s = .trap { cause := 0x25, laddr := fun _ => s.s64 x } := by
  simp only [doCwait, operand_misaligned hok h, BitVec.ofInt_toInt]
  rfl

section
variable {s : State} {b x : Nat} {ls : List Loc} {xs : List Xlat} (hr : Reaches s .load (s.s64 x).toInt 8 8 ls xs)
include hr

/-- A read of the target acquires (R265, R365). -/
theorem doCwait_equal (he : slotRead s 0 ls = (s.s64 b).toNat) :
    doCwait b x s = .done ((noteAccess s ls xs false).emptyL1 s.w.core) := by
  simp only [doCwait, operand_of_reaches _ hr]
  exact if_pos he

theorem doCwait_unequal (he : slotRead s 0 ls ≠ (s.s64 b).toNat) :
    doCwait b x s = .hold (noteAccess s ls xs false) := by
  simp only [doCwait, operand_of_reaches _ hr]
  exact if_neg he

end

/-- A meaning that only reads and changes no register: the frame of the instruction. -/
theorem onlyReads_finished {i : Instr} {s u : State} (hw : (hdr i).writes = []) (hy : (i == Instr.yield) = false)
    (h : ReadsChanged s u) :
    sameScalars s (finished i s u) ∧ sameMasks s (finished i s u) ∧ sameVectors s (finished i s u) ∧
      OnlyReads i s (finished i s u) := by
  obtain ⟨⟨m, lines, tlb, ws, fr, rfl⟩, hm⟩ := h
  refine ⟨fun r => sreg_finished _ _ _ r, fun k => mreg_finished _ _ _ k, fun r l => v_finished _ _ _ r l, ?_⟩
  refine ⟨?_, movedPast_finished hy rfl rfl, fun l hl => ?_⟩
  · rw [finished_of_noWrites hw]
    rfl
  · rw [byte_finished]
    exact hm l hl

/-- A wait of a launch that is not cancelled stalls its slot, and is attempted again. -/
theorem issue_hold {i : Instr} {s t : State} {body : State → Res} (h : Ready i s) (hb : body (opened i s) = .hold t)
    (hc : t.cancelled = false) (hla : (hdr i).la = none) : issue i body s = .next (stall t) := by
  rw [issue_ready body h, hb]
  simp [conclude, hc, hla]

theorem cancelled_noteAccess (s : State) (ls : List Loc) (xs : List Xlat) (write : Bool) :
    (noteAccess s ls xs write).cancelled = s.cancelled := by
  obtain ⟨⟨m, lines, tlb, ws, fr, h⟩, -⟩ := noteAccess_reads s ls xs write
  rw [h]
  rfl

theorem exec_cwait_done {s : State} {b x : Nat} {ls : List Loc} {xs : List Xlat} (h : Ready (.cwait b x) s)
    (hr : Reaches s .load (s.s64 x).toInt 8 8 ls xs) (he : slotRead s 0 ls = (s.s64 b).toNat) :
    ∃ t, exec (.cwait b x) s = .next t ∧ sameScalars s t ∧ sameMasks s t ∧ sameVectors s t ∧ OnlyReads (.cwait b x) s t ∧
      ∀ p, ¬cached t (some s.w.core) p := by
  obtain ⟨hsc, hma, hve, hre⟩ := onlyReads_finished (i := .cwait b x) rfl rfl
    ((noteAccess_reads s ls xs false).trans (emptyL1_reads _ s.w.core))
  refine ⟨_, issue_done h (by rw [opened_of_open rfl]; exact doCwait_equal hr he), hsc, hma, hve, hre, fun p hp => ?_⟩
  rw [finished_of_noWrites rfl] at hp
  exact not_cached_emptyL1 _ _ p hp

theorem exec_cwait_stalls {s : State} {b x : Nat} {ls : List Loc} {xs : List Xlat} (h : Ready (.cwait b x) s)
    (hr : Reaches s .load (s.s64 x).toInt 8 8 ls xs) (he : slotRead s 0 ls ≠ (s.s64 b).toNat) (hc : s.cancelled = false) :
    exec (.cwait b x) s = .next ((noteAccess (opened (.cwait b x) s) ls xs false).onCur fun c => { c with stalled := true }) := by
  rw [opened_of_open rfl]
  exact issue_hold h (by rw [opened_of_open rfl]; exact doCwait_unequal hr he) (by rw [cancelled_noteAccess]; exact hc) rfl

theorem exec_cwait_misaligned {s : State} {b x : Nat} (h : Ready (.cwait b x) s) (hok : addrOk (s.s64 x).toInt 8 = true)
    (hal : (s.s64 x).toInt.toNat % 8 ≠ 0) :
    exec (.cwait b x) s = .next (raise (opened (.cwait b x) s) { cause := 0x25, laddr := fun _ => s.s64 x }) :=
  issue_trap h (by rw [opened_of_open rfl]; exact doCwait_misaligned hok hal)

/-- Settles O38: a `cancel` cancels one launch after another, each of which touches its own waves only, and the launches that
it reaches are told apart by their numbers; a `cwait` reads, and is over or holds. -/
theorem cancelAndWait : Obligations.CancelAndWait := by
  refine ⟨fun s x v h hu => ?cancel, fun s b x h hok hal => exec_cwait_misaligned h hok hal,
    fun s b x ls xs h hr => ⟨exec_cwait_done h hr, exec_cwait_stalls h hr⟩⟩
  case cancel =>
    obtain ⟨u, he, hc⟩ := exec_cancel h
    have hbecome {a b : Wave} (hd : Discards (cancelIds s v x) a b) :
        ((s.s64 x ≠ 0 ∧ ∃ l ∈ s.launches, l.lid = a.lid ∧ cancelHits s v (s.s64 x).toNat l) →
          b = { a with tape := a.tape.discarded }) ∧
        (¬(s.s64 x ≠ 0 ∧ ∃ l ∈ s.launches, l.lid = a.lid ∧ cancelHits s v (s.s64 x).toNat l) → b = a) := by
      rw [← mem_cancelIds]
      exact hd
    refine ⟨u, he, hc.mem, hc.lines, fun hs => hbecome (hc.inHand hs), hc.noneInHand, fun b hb => ?back, fun a ha => ?forth,
      pairwiseRel_imp_of_mem (fun a ha b hab => ?launch) hc.launches⟩
    case back =>
      obtain ⟨a, ha, hd⟩ := hc.othersFrom b hb
      exact ⟨a, ha, hbecome hd⟩
    case forth =>
      rcases hc.othersTo a ha with ⟨b, hb, hd⟩ | ⟨hlid, hg⟩
      · exact .inl ⟨b, hb, hbecome hd⟩
      · exact .inr ⟨mem_cancelIds.1 hlid, hg⟩
    case launch =>
      rwa [Stops, lid_mem_cancelIds hu ha] at hab

end Sys2Proof.Machine

/-! Barriers of a group and counted barriers (R366), `lclk` and `lsync` (R354, R367): when looking at the barriers again
leaves the state as it is, when it completes one, and the statement O31. -/
namespace Sys2Proof.Machine

/-! ### Folds that stand still -/

theorem foldl_of_fixed {α β : Type} {f : α → β → α} {a : α} {xs : List β} (h : ∀ x ∈ xs, f a x = a) : xs.foldl f a = a := by
  induction xs with
  | nil => rfl
  | cons x xs ih =>
    rw [List.foldl_cons, h x List.mem_cons_self]
    exact ih fun y hy => h y (List.mem_cons_of_mem x hy)

/-- Of the steps below m only the n-th changes anything. -/
theorem foldl_range_of_single {α : Type} {f : α → Nat → α} {a b : α} {n m : Nat} (hn : n < m)
    (ha : ∀ k < m, k ≠ n → f a k = a) (hab : f a n = b) (hb : ∀ k < m, k ≠ n → f b k = b) :
    (List.range m).foldl f a = b := by
  induction m with
  | zero => omega
  | succ m ih =>
    rw [List.range_succ, List.foldl_append, List.foldl_cons, List.foldl_nil]
    by_cases h : n = m
    · subst h
      rw [foldl_of_fixed fun k hk => ?_, hab]
      have hk' := List.mem_range.1 hk
      exact ha k (by omega) (by omega)
    · rw [ih (by omega) (fun k hk => ha k (by omega)) fun k hk => hb k (by omega)]
      exact hb m (by omega) (Ne.symm h)

/-! ### Waves at barriers -/

theorem mem_waves {s : State} {w : Wave} : w ∈ s.waves ↔ (s.w.live = true ∧ w = s.w) ∨ w ∈ s.others := by
  unfold State.waves
  split <;> simp_all

/-- A slot that waits at a barrier leaves it. -/
def Slot.leaveBar (which : BarWait → Bool) (c : Slot) : Slot :=
  if c.live && which c.barWait then
    { c with barWait := .none, pc := (c.pc + 4) % 2 ^ 56, waited := 0, urgent := none, yielded := false, stalled := false }
  else c

/-- Each slot of the wave that waits at the barrier leaves it, and is counted in LCLOCK. -/
theorem releaseBar_eq (which : BarWait → Bool) (w : Wave) : releaseBar which w =
    { w with
      cur := w.cur.leaveBar which, sib := w.sib.leaveBar which
      lclock := w.lclock + (if w.cur.live && which w.cur.barWait then 1 else 0)
        + (if w.sib.live && which w.sib.barWait then 1 else 0) } := by
  unfold releaseBar Wave.slot Wave.onSlot Slot.leaveBar
  cases hs : w.curSec <;> by_cases ha : (w.cur.live && which w.cur.barWait) = true <;>
    by_cases hb : (w.sib.live && which w.sib.barWait) = true <;> simp [hs, ha, hb] <;> rw [← hs]

@[simp] theorem wid_releaseBar (which : BarWait → Bool) (w : Wave) : (releaseBar which w).wid = w.wid := by rw [releaseBar_eq]
@[simp] theorem gid_releaseBar (which : BarWait → Bool) (w : Wave) : (releaseBar which w).gid = w.gid := by rw [releaseBar_eq]
@[simp] theorem live_releaseBar (which : BarWait → Bool) (w : Wave) : (releaseBar which w).live = w.live := by
  rw [releaseBar_eq]
@[simp] theorem live_leaveBar (which : BarWait → Bool) (c : Slot) : (c.leaveBar which).live = c.live := by
  unfold Slot.leaveBar; split <;> rfl

/-- A slot that has left the barrier waits nowhere, or where it waited before. -/
theorem barWait_leaveBar (which : BarWait → Bool) (c : Slot) :
    (c.leaveBar which).barWait = if c.live && which c.barWait then .none else c.barWait := by
  unfold Slot.leaveBar; split <;> rfl

/-- No slot waits any longer at a barrier that has completed. -/
theorem waitsBar_releaseBar {which : BarWait → Bool} (hn : which .none = false) (w : Wave) :
    (releaseBar which w).waitsBar which = false := by
  have h (c : Slot) : ((c.leaveBar which).live && which (c.leaveBar which).barWait) = false := by
    rw [live_leaveBar, barWait_leaveBar]
    split <;> simp_all
  rw [releaseBar_eq, Wave.waitsBar]
  exact Bool.or_eq_false_iff.2 ⟨h w.cur, h w.sib⟩

/-- A wave none of whose live slots waits at the counted barrier brings it no count. -/
theorem barcCount_none {w : Wave} {n : Nat} (h : w.waitsBar (atBarc n) = false) : w.barcCount n = none := by
  obtain ⟨hc, hs⟩ := Bool.or_eq_false_iff.1 h
  unfold Wave.barcCount
  cases hcb : w.cur.barWait <;> cases hsb : w.sib.barWait <;> simp_all [atBarc]

theorem barcCount_cur {w : Wave} {n m : Nat} (hl : w.cur.live = true) (h : w.cur.barWait = .barc n m) :
    w.barcCount n = some m := by
  simp [Wave.barcCount, hl, h]

theorem arrived_eq_false {w : Wave} (hc : w.cur.barWait = .none) (hs : w.sib.barWait = .none) : w.arrived = false := by
  simp [Wave.arrived, hc, hs]

/-- Where a slot waits tells whether its wave waits at a barrier. -/
theorem waitsBar_eq_false {which : BarWait → Bool} {w : Wave} (hc : which w.cur.barWait = false)
    (hs : w.sib.live = true → which w.sib.barWait = false) : w.waitsBar which = false := by
  unfold Wave.waitsBar
  cases hl : w.sib.live <;> simp_all

/-! ### Counted barriers read and written -/

theorem barcOf_setBarc_self (s : State) (inst : Nat) {n : Nat} (b : Barc) (h : n < 16) :
    barcOf (setBarc s inst n b) inst n = b := by
  simp [barcOf, barcsOf, setBarc, Vector.getD, Array.getD, h]

theorem barcOf_setBarc_ne (s : State) (inst : Nat) {n k : Nat} (b : Barc) (h : k ≠ n) :
    barcOf (setBarc s inst n b) inst k = barcOf s inst k := by
  simp only [barcOf, setBarc, barcsOf, assocGet_assocSet_self, Option.getD_some, Vector.getD, Array.getD]
  by_cases hk : k < 16
  · simp [hk, Ne.symm h]
  · simp [hk]

@[simp] theorem instOf_setBarc (s : State) (inst n : Nat) (b : Barc) (gid : Nat) : instOf (setBarc s inst n b) gid = instOf s gid := rfl

@[simp] theorem byte_setBarc (s : State) (inst n : Nat) (b : Barc) (l : Loc) : (setBarc s inst n b).byte l = s.byte l := rfl

/-! ### Completion acquires, and changes no byte and no register -/

/-- Only lines leave caches. -/
theorem barAcquire_changes (s : State) (counted : Bool) (ws : List Wave) :
    ∃ ls, barAcquire s counted ws = { s with lines := ls } ∧ ∀ l, (barAcquire s counted ws).byte l = s.byte l := by
  unfold barAcquire
  induction ws generalizing s with
  | nil => exact ⟨s.lines, rfl, fun _ => rfl⟩
  | cons w ws ih =>
    rw [List.foldl_cons]
    split
    · obtain ⟨ls, h, hb⟩ := ih (s.emptyL1 w.core)
      exact ⟨ls, h, fun l => (hb l).trans (byte_emptyL1 s w.core l)⟩
    · exact ih s

section
variable (s : State) (counted : Bool) (ws : List Wave)

@[simp] theorem w_barAcquire : (barAcquire s counted ws).w = s.w := by
  obtain ⟨ls, h, -⟩ := barAcquire_changes s counted ws
  rw [h]
@[simp] theorem waves_barAcquire : (barAcquire s counted ws).waves = s.waves := by
  obtain ⟨ls, h, -⟩ := barAcquire_changes s counted ws
  rw [h]
  rfl
@[simp] theorem instOf_barAcquire (gid : Nat) : instOf (barAcquire s counted ws) gid = instOf s gid := by
  obtain ⟨ls, h, -⟩ := barAcquire_changes s counted ws
  rw [h]
  rfl
@[simp] theorem barcOf_barAcquire (inst n : Nat) : barcOf (barAcquire s counted ws) inst n = barcOf s inst n := by
  obtain ⟨ls, h, -⟩ := barAcquire_changes s counted ws
  rw [h]
  rfl
@[simp] theorem byte_barAcquire (l : Loc) : (barAcquire s counted ws).byte l = s.byte l :=
  (barAcquire_changes s counted ws).choose_spec.2 l

end

section
variable (s : State) (f : Wave → Wave)

@[simp] theorem instOf_mapWaves (gid : Nat) : instOf (s.mapWaves f) gid = instOf s gid := rfl
@[simp] theorem barcOf_mapWaves (inst n : Nat) : barcOf (s.mapWaves f) inst n = barcOf s inst n := rfl
@[simp] theorem byte_mapWaves (l : Loc) : (s.mapWaves f).byte l = s.byte l := rfl

end

theorem mem_waves_mapWaves {s : State} {f : Wave → Wave} (hf : ∀ w, (f w).live = w.live) {w : Wave} :
    w ∈ (s.mapWaves f).waves ↔ ∃ v ∈ s.waves, w = f v := by
  unfold State.mapWaves State.waves
  cases hl : s.w.live <;> simp [hf, hl, eq_comm]

/-! ### Barriers that are looked at again -/

/-- A group barrier stands while some wave of the group has not come to it whole. -/
theorem settleBar_waits {s : State} {gid n : Nat}
    (h : ∃ w ∈ s.waves, w.gid = gid ∧ (w.arrived && w.waitsBar (atBar n)) = false) : settleBar s gid n = s := by
  obtain ⟨w, hw, hg, hno⟩ := h
  have hall : ((s.waves.filter fun w => w.gid == gid).all fun w => w.arrived && w.waitsBar (atBar n)) = false :=
    List.all_eq_false.2 ⟨w, List.mem_filter.2 ⟨hw, by simpa using hg⟩, by simp [hno]⟩
  simp only [settleBar, hall, Bool.false_eq_true, and_false, if_false]

/-- A group barrier at which nobody waits stands. -/
theorem settleBar_unused {s : State} {gid n : Nat} (h : ∀ w ∈ s.waves, w.gid = gid → w.waitsBar (atBar n) = false) :
    settleBar s gid n = s := by
  have hany : ((s.waves.filter fun w => w.gid == gid).any fun w => w.waitsBar (atBar n)) = false := by
    rw [List.any_eq_false]
    intro w hw
    obtain ⟨hw, hg⟩ := List.mem_filter.1 hw
    simp [h w hw (by simpa using hg)]
  simp only [settleBar, hany, Bool.false_eq_true, false_and, if_false]

/-- A counted barrier at which nobody that shares it has come whole, and that has counted nobody, stands. -/
theorem settleBarc_unused {s : State} {inst n : Nat}
    (h : ∀ w ∈ s.waves, instOf s w.gid = inst → w.arrived = true → w.barcCount n = none)
    (hb : (barcOf s inst n).arrived = []) : settleBarc s inst n = s := by
  have hws : (s.waves.filter fun w => instOf s w.gid == inst && w.arrived && (w.barcCount n).isSome) = [] := by
    rw [List.filter_eq_nil_iff]
    intro w hw hp
    simp only [Bool.and_eq_true, beq_iff_eq] at hp
    obtain ⟨⟨hi, ha⟩, hc⟩ := hp
    simp [h w hw hi ha] at hc
  simp only [settleBarc, hws, List.foldl_nil, hb, List.isEmpty_nil, true_or, if_true]

/-- All sixteen of each kind are looked at, the group's own first. -/
theorem settleBarriers_eq {s t u : State} {gid : Nat}
    (hany : ∃ w ∈ s.waves, instOf s w.gid = instOf s gid ∧ (w.cur.barWait ≠ .none ∨ w.sib.barWait ≠ .none))
    (ht : (List.range 16).foldl (fun t n => settleBar t gid n) s = t)
    (hu : (List.range 16).foldl (fun v n => settleBarc v (instOf s gid) n) t = u) : settleBarriers s gid = u := by
  obtain ⟨w, hw, hi, hb⟩ := hany
  have h : ((s.waves.filter fun w => instOf s w.gid == instOf s gid).any fun w =>
      w.cur.barWait != .none || w.sib.barWait != .none) = true := by
    rw [List.any_eq_true]
    exact ⟨w, List.mem_filter.2 ⟨hw, by simpa using hi⟩, by simpa using hb⟩
  unfold settleBarriers
  dsimp only
  rw [if_pos h, ht, hu]

/-- Barriers that all stand leave the state as it is. -/
theorem settleBarriers_stands {s : State} {gid : Nat} (h1 : ∀ k < 16, settleBar s gid k = s)
    (h2 : ∀ k < 16, settleBarc s (instOf s gid) k = s) : settleBarriers s gid = s := by
  have e1 : (List.range 16).foldl (fun t n => settleBar t gid n) s = s :=
    foldl_of_fixed fun k hk => h1 k (List.mem_range.1 hk)
  have e2 : (List.range 16).foldl (fun t n => settleBarc t (instOf s gid) n) s = s :=
    foldl_of_fixed fun k hk => h2 k (List.mem_range.1 hk)
  unfold settleBarriers
  dsimp only
  split
  · rw [e1, e2]
  · rfl

/-! ### Arrivals -/

section
variable (i : Instr) (s : State) (b : BarWait)

@[simp] theorem others_arrivedAt : (arrivedAt i s b).others = s.others := by unfold arrivedAt opened; split <;> rfl
@[simp] theorem sib_arrivedAt : (arrivedAt i s b).w.sib = s.w.sib := by unfold arrivedAt opened; split <;> rfl
@[simp] theorem live_arrivedAt : (arrivedAt i s b).w.live = s.w.live := by unfold arrivedAt opened; split <;> rfl
@[simp] theorem wid_arrivedAt : (arrivedAt i s b).w.wid = s.w.wid := by unfold arrivedAt opened; split <;> rfl
@[simp] theorem gid_arrivedAt : (arrivedAt i s b).w.gid = s.w.gid := by unfold arrivedAt opened; split <;> rfl
@[simp] theorem curLive_arrivedAt : (arrivedAt i s b).w.cur.live = s.w.cur.live := by unfold arrivedAt opened; split <;> rfl
@[simp] theorem barWait_arrivedAt : (arrivedAt i s b).w.cur.barWait = b := rfl
@[simp] theorem pc_arrivedAt : (arrivedAt i s b).w.cur.pc = s.w.cur.pc := by unfold arrivedAt opened; split <;> rfl
@[simp] theorem lclock_arrivedAt : (arrivedAt i s b).w.lclock = s.w.lclock := by unfold arrivedAt opened; split <;> rfl
@[simp] theorem instOf_arrivedAt (gid : Nat) : instOf (arrivedAt i s b) gid = instOf s gid := by
  unfold arrivedAt opened; split <;> rfl
@[simp] theorem barcOf_arrivedAt (inst n : Nat) : barcOf (arrivedAt i s b) inst n = barcOf s inst n := by
  unfold arrivedAt opened; split <;> rfl

end

/-- A slot that comes to a barrier waits there, and then the barriers of its group are looked at. -/
theorem exec_bar_arrives {s : State} {n : Nat} (h : Ready (.bar n) s) (hm : mismatch s (atBar n) = false) :
    exec (.bar n) s = .next (settleBarriers (arrivedAt (.bar n) s (.bar n)) s.w.gid) := by
  have hb : doBar n (opened (.bar n) s) = .settled (settleBarriers (arrivedAt (.bar n) s (.bar n)) s.w.gid) :=
    if_neg (by rw [opened_of_closing rfl]; exact Bool.eq_false_iff.1 hm)
  exact issue_settled h hb

theorem exec_bar_mismatch {s : State} {n : Nat} (h : Ready (.bar n) s) (hm : mismatch s (atBar n) = true) :
    exec (.bar n) s = .next (raise (opened (.bar n) s) { cause := 0x8C, laddr := fun _ => 0 }) := by
  have hb : doBar n (opened (.bar n) s) = .trap (Trap.whole 0x8C 0) :=
    if_pos (by rw [opened_of_closing rfl]; exact hm)
  exact issue_trap h hb

theorem exec_barc_mismatch {s : State} {r n : Nat} (h : Ready (.barc r n) s) (hm : mismatch s (atBarc n) = true) :
    exec (.barc r n) s = .next (raise (opened (.barc r n) s) { cause := 0x8C, laddr := fun _ => 0 }) := by
  have hb : doBarc r n (opened (.barc r n) s) = .trap (Trap.whole 0x8C 0) :=
    if_pos (by rw [opened_of_closing rfl]; exact hm)
  exact issue_trap h hb

/-- The count that the slot in hand brings to counted barrier n is refused (R366). -/
def countRefused (s : State) (n c : Nat) : Prop :=
  c = 0 ∨ 4096 < c ∨ otherCount s n c = true ∨
    (s.w.sib.arrived = true ∧ (!(barcOf s (instOf s s.w.gid) n).arrived.isEmpty) = true ∧
      (barcOf s (instOf s s.w.gid) n).count ≠ c)

theorem exec_barc_refused {s : State} {r n : Nat} (h : Ready (.barc r n) s) (hm : mismatch s (atBarc n) = false)
    (hc : countRefused s n (s.sreg r).toNat) :
    exec (.barc r n) s = .next (raise (opened (.barc r n) s) { cause := 0x8D, laddr := fun _ => 0 }) := by
  have hb : doBarc r n (opened (.barc r n) s) = .trap (Trap.whole 0x8D 0) := by
    rw [opened_of_closing rfl]
    exact (if_neg (Bool.eq_false_iff.1 hm)).trans (if_pos hc)
  exact issue_trap h hb

theorem exec_barc_arrives {s : State} {r n : Nat} (h : Ready (.barc r n) s) (hm : mismatch s (atBarc n) = false)
    (hc : ¬countRefused s n (s.sreg r).toNat) : exec (.barc r n) s =
      .next (settleBarriers (arrivedAt (.barc r n) s (.barc n (s.sreg r).toNat)) s.w.gid) := by
  have hb : doBarc r n (opened (.barc r n) s) =
      .settled (settleBarriers (arrivedAt (.barc r n) s (.barc n (s.sreg r).toNat)) s.w.gid) := by
    rw [opened_of_closing rfl]
    exact (if_neg (Bool.eq_false_iff.1 hm)).trans (if_neg hc)
  exact issue_settled h hb

/-- The wave in hand has not come to the barrier with its other slot, which still runs. -/
theorem arrived_arrivedAt_false {i : Instr} {s : State} {b : BarWait} (hl : s.w.sib.live = true)
    (hr : s.w.sib.status = .running) (hb : s.w.sib.barWait = .none) : (arrivedAt i s b).w.arrived = false := by
  simp [Wave.arrived, Slot.arrived, hl, hr, hb]

/-! ### `bar` -/

/-- While some wave of the group is missing, an arrival at a group barrier changes nothing else. -/
theorem exec_bar_waits {s : State} {n : Nat} (h : Ready (.bar n) s) (hm : mismatch s (atBar n) = false) (hno : noBarrier s)
    (hct : noCount s)
    (hmiss : (∃ w ∈ s.waves, w.gid = s.w.gid ∧ w.wid ≠ s.w.wid ∧ (w.cur.live = true ∨ w.sib.live = true)) ∨
      (s.w.sib.live = true ∧ s.w.sib.status = .running ∧ s.w.live = true)) :
    exec (.bar n) s = .next (arrivedAt (.bar n) s (.bar n)) := by
  have hothers : ∀ w ∈ s.others, w.cur.barWait = .none ∧ w.sib.barWait = .none := fun w hw => hno w (mem_waves.2 (.inr hw))
  have hsib : s.w.live = true → s.w.sib.barWait = .none := fun hl => (hno s.w (mem_waves.2 (.inl ⟨hl, rfl⟩))).2
  rw [exec_bar_arrives h hm, settleBarriers_stands]
  · intro k _
    refine settleBar_waits ?_
    rcases hmiss with ⟨w, hw, hg, hid, -⟩ | ⟨hl, hr, hlive⟩
    · have hwo : w ∈ s.others := (mem_waves.1 hw).resolve_left fun e => hid (by rw [e.2])
      refine ⟨w, mem_waves.2 (.inr (by simpa using hwo)), hg, ?_⟩
      simp [Wave.waitsBar, hothers w hwo, atBar]
    · refine ⟨_, mem_waves.2 (.inl ⟨by simpa using hlive, rfl⟩), gid_arrivedAt .., ?_⟩
      rw [arrived_arrivedAt_false hl hr (hsib hlive)]
      rfl
  · intro k hk
    refine settleBarc_unused (fun w hw _ _ => barcCount_none (waitsBar_eq_false ?_ fun _ => ?_)) ?_
    · rcases mem_waves.1 hw with ⟨-, rfl⟩ | hw
      · rfl
      · rw [(hothers w (by simpa using hw)).1]
        rfl
    · rcases mem_waves.1 hw with ⟨hl, rfl⟩ | hw
      · rw [sib_arrivedAt, hsib (by simpa using hl)]
        rfl
      · rw [(hothers w (by simpa using hw)).2]
        rfl
    · rw [instOf_arrivedAt, barcOf_arrivedAt]
      exact hct k hk

/-- The wave has come to a barrier whole. -/
def Wave.wholeAt (w : Wave) (b : BarWait) : Prop :=
  w.cur.live = true ∧ w.cur.barWait = b ∧ (w.sib.live = true → w.sib.barWait = b)

theorem Wave.wholeAt.arrived {w : Wave} {b : BarWait} (h : w.wholeAt b) (hb : b ≠ .none) : w.arrived = true := by
  obtain ⟨-, hc, hs⟩ := h
  cases hl : w.sib.live <;> simp_all [Wave.arrived, Slot.arrived]

theorem Wave.wholeAt.waitsBar {w : Wave} {b : BarWait} {which : BarWait → Bool} (h : w.wholeAt b) :
    w.waitsBar which = which b := by
  obtain ⟨hl, hc, hs⟩ := h
  cases hl : w.sib.live <;> simp_all [Wave.waitsBar]

/-- Once the barrier is over the wave waits nowhere. -/
theorem Wave.wholeAt.releaseBar {w : Wave} {b : BarWait} {which : BarWait → Bool} (h : w.wholeAt b) (hb : which b = true) :
    (releaseBar which w).wholeAt .none := by
  obtain ⟨hl, hc, hs⟩ := h
  rw [releaseBar_eq]
  refine ⟨by simp [hl], by simp [barWait_leaveBar, hl, hc, hb], fun h => ?_⟩
  rw [live_leaveBar] at h
  simp [barWait_leaveBar, h, hs h, hb]

/-- Group barrier n is over: the waves of the group leave it, and acquire. -/
def barDone (s : State) (gid n : Nat) : State :=
  barAcquire (s.mapWaves fun w => if w.gid = gid then releaseBar (atBar n) w else w) false
    (s.waves.filter fun w => w.gid == gid)

theorem mem_waves_barDone {s : State} {gid n : Nat} {w : Wave} : w ∈ (barDone s gid n).waves ↔
    ∃ v ∈ s.waves, w = if v.gid = gid then releaseBar (atBar n) v else v := by
  rw [barDone, waves_barAcquire]
  exact mem_waves_mapWaves fun w => by split <;> simp

/-- A group barrier to which every wave of the group has come whole completes. -/
theorem settleBar_completes {s : State} {gid n : Nat} (hw : ∃ w ∈ s.waves, w.gid = gid)
    (h : ∀ w ∈ s.waves, w.gid = gid → w.wholeAt (.bar n)) : settleBar s gid n = barDone s gid n := by
  have hwaits {w : Wave} (hm : w ∈ s.waves) (hg : w.gid = gid) : w.waitsBar (atBar n) = true :=
    (h w hm hg).waitsBar.trans (by simp [atBar])
  have hany : ((s.waves.filter fun w => w.gid == gid).any fun w => w.waitsBar (atBar n)) = true := by
    obtain ⟨w, hm, hg⟩ := hw
    exact List.any_eq_true.2 ⟨w, List.mem_filter.2 ⟨hm, by simpa using hg⟩, hwaits hm hg⟩
  have hall : ((s.waves.filter fun w => w.gid == gid).all fun w => w.arrived && w.waitsBar (atBar n)) = true := by
    rw [List.all_eq_true]
    intro w hw
    obtain ⟨hm, hg⟩ := List.mem_filter.1 hw
    rw [beq_iff_eq] at hg
    rw [(h w hm hg).arrived (by simp), hwaits hm hg]
    rfl
  unfold settleBar
  dsimp only
  rw [hany, hall]
  exact if_pos ⟨rfl, rfl⟩

@[simp] theorem byte_arrivedAt (i : Instr) (s : State) (b : BarWait) (l : Loc) : (arrivedAt i s b).byte l = s.byte l := by
  unfold arrivedAt opened; split <;> rfl

/-- The slot in hand has come to a barrier and left it again: it goes on past the instruction, with its registers as they
were. -/
theorem passed_of_releaseBar {i : Instr} {s t : State} {b : BarWait} {which : BarWait → Bool}
    (hw : t.w = releaseBar which (arrivedAt i s b).w) (hl : s.w.cur.live = true) (hb : which b = true) :
    t.w.cur.pc = (s.cur.pc + 4) % 2 ^ 56 ∧ t.w.cur.barWait = .none ∧ sameVectors s t ∧ sameScalars s t ∧ sameMasks s t := by
  have hc : t.w.cur = { (arrivedAt i s b).w.cur with
      barWait := .none, pc := (s.w.cur.pc + 4) % 2 ^ 56, waited := 0, urgent := none, yielded := false, stalled := false } := by
    rw [hw, releaseBar_eq]
    simp [Slot.leaveBar, hl, hb]
  have hbank : t.w.cur.bank = s.w.cur.bank ∧ t.w.cur.m0 = s.w.cur.m0 := by
    rw [hc]
    unfold arrivedAt opened
    split <;> exact ⟨rfl, rfl⟩
  have hvregs : t.w.vregs = s.w.vregs ∧ t.w.fill = s.w.fill := by
    rw [hw, releaseBar_eq]
    unfold arrivedAt opened
    split <;> exact ⟨rfl, rfl⟩
  refine ⟨by rw [hc]; rfl, by rw [hc], fun r l => ?_, fun r => ?_, fun k => ?_⟩
  · simp only [State.v, Wave.vreg, hvregs]
  · simp only [State.sreg, hbank]
  · simp only [State.mreg, State.m0, hbank]

section
variable {s : State} {gid n : Nat} (hwhole : ∀ w ∈ s.waves, w.gid = gid → w.wholeAt (.bar n))
  (hout : ∀ w ∈ s.waves, w.gid ≠ gid → w.cur.barWait = .none ∧ w.sib.barWait = .none)
include hwhole

/-- The waves of the group wait nowhere once it is over. -/
theorem wholeAt_none_barDone : ∀ w ∈ (barDone s gid n).waves, w.gid = gid → w.wholeAt .none := by
  intro w hw hg
  obtain ⟨v, hv, rfl⟩ := mem_waves_barDone.1 hw
  by_cases hvg : v.gid = gid
  · rw [if_pos hvg]
    exact (hwhole v hv hvg).releaseBar (by simp [atBar])
  · rw [if_neg hvg] at hg
    exact absurd hg hvg

include hout

/-- Nor does any other wave. -/
theorem waitsBar_barDone {which : BarWait → Bool} (hwhich : which .none = false) :
    ∀ w ∈ (barDone s gid n).waves, w.waitsBar which = false := by
  intro w hw
  by_cases hg : w.gid = gid
  · rw [(wholeAt_none_barDone hwhole w hw hg).waitsBar, hwhich]
  · obtain ⟨v, hv, rfl⟩ := mem_waves_barDone.1 hw
    have hvg : v.gid ≠ gid := fun e => hg (by rw [if_pos e]; simpa using e)
    obtain ⟨hc, hs⟩ := hout v hv hvg
    rw [if_neg hvg]
    exact waitsBar_eq_false (by rw [hc, hwhich]) fun _ => by rw [hs, hwhich]

/-- Where the waves of a group have all come to barrier n, and no other wave waits, that barrier completes and no other. -/
theorem settleBarriers_barDone (hn : n < 16) (hself : ∃ w ∈ s.waves, w.gid = gid)
    (hct : ∀ k < 16, (barcOf s (instOf s gid) k).arrived = []) : settleBarriers s gid = barDone s gid n := by
  obtain ⟨w, hw, hg⟩ := hself
  refine settleBarriers_eq (t := barDone s gid n) ⟨w, hw, by rw [hg], .inl (by simp [(hwhole w hw hg).2.1])⟩
    (foldl_range_of_single hn (fun k _ hk => ?_) (settleBar_completes ⟨w, hw, hg⟩ hwhole) fun k _ _ => ?_)
    (foldl_of_fixed fun k hk => ?_)
  · exact settleBar_unused fun w hw hg => (hwhole w hw hg).waitsBar.trans (by simp [atBar, hk.symm])
  · exact settleBar_unused fun w hw _ => waitsBar_barDone hwhole hout rfl w hw
  · refine settleBarc_unused (fun w hw _ _ => barcCount_none (waitsBar_barDone hwhole hout rfl w hw)) ?_
    simpa [barDone] using hct k (List.mem_range.1 hk)

end

/-- The last arrival at a group barrier completes it for every wave of the group. -/
theorem exec_bar_completes {s : State} {n : Nat} (h : Ready (.bar n) s) (hn : n < 16) (hl : s.w.live = true) (hct : noCount s)
    (hsib : s.w.sib.live = true → s.w.sib.barWait = .bar n)
    (hwait : ∀ w ∈ s.others, w.cur.barWait ≠ .none ∨ w.sib.barWait ≠ .none → w.gid = s.w.gid)
    (hall : ∀ w ∈ s.others, w.gid = s.w.gid → w.wholeAt (.bar n)) :
    ∃ t, exec (.bar n) s = .next t ∧ t.w.cur.pc = (s.cur.pc + 4) % 2 ^ 56 ∧ t.w.cur.barWait = .none ∧
      (∀ w ∈ t.waves, w.gid = s.w.gid → w.wholeAt .none) ∧
      sameVectors s t ∧ sameScalars s t ∧ sameMasks s t ∧ sameMemory s t := by
  have hm : mismatch s (atBar n) = false := by
    cases hsl : s.w.sib.live <;> simp_all [mismatch, atBar]
  have hself : (arrivedAt (.bar n) s (.bar n)).w ∈ (arrivedAt (.bar n) s (.bar n)).waves :=
    mem_waves.2 (.inl ⟨by simpa using hl, rfl⟩)
  have hwhole : ∀ w ∈ (arrivedAt (.bar n) s (.bar n)).waves, w.gid = s.w.gid → w.wholeAt (.bar n) := by
    intro w hw hg
    rcases mem_waves.1 hw with ⟨-, rfl⟩ | hw
    · exact ⟨by rw [curLive_arrivedAt]; exact h.live, rfl, by simpa using hsib⟩
    · exact hall w (by simpa using hw) hg
  have hout : ∀ w ∈ (arrivedAt (.bar n) s (.bar n)).waves, w.gid ≠ s.w.gid → w.cur.barWait = .none ∧ w.sib.barWait = .none := by
    intro w hw hg
    rcases mem_waves.1 hw with ⟨-, rfl⟩ | hw
    · exact absurd (gid_arrivedAt ..) hg
    · simpa [not_or] using mt (hwait w (by simpa using hw)) hg
  have hdone := settleBarriers_barDone hwhole hout hn ⟨_, hself, gid_arrivedAt ..⟩ fun k hk => by simpa using hct k hk
  obtain ⟨hpc, hb, hv, hs, hk⟩ := passed_of_releaseBar (i := .bar n) (b := .bar n) (which := atBar n)
    (s := s) (t := barDone (arrivedAt (.bar n) s (.bar n)) s.w.gid n) (by simp [barDone, State.mapWaves, hl]) h.live
    (by simp [atBar])
  refine ⟨_, (exec_bar_arrives h hm).trans (by rw [hdone]), hpc, hb, wholeAt_none_barDone hwhole, hv, hs, hk, fun l _ => ?_⟩
  simp [barDone]

/-! ### `barc` -/

/-- The wave in hand has come whole to counted barrier n with a count, as the first of the round or with the round's count, and
every other wave that shares the barrier and has come to it is counted. -/
structure NewlyCome (s : State) (inst n c : Nat) : Prop where
  index : n < 16
  live : s.w.live = true
  ofInst : instOf s s.w.gid = inst
  whole : s.w.wholeAt (.barc n c)
  fresh : s.w.wid ∉ (barcOf s inst n).arrived
  round : (barcOf s inst n).arrived = [] ∨ (barcOf s inst n).count = c
  rest : ∀ w ∈ s.others, instOf s w.gid = inst → w.arrived = true → w.wid ∈ (barcOf s inst n).arrived

/-- Waves that share these barriers wait at counted barrier n or nowhere, and no other counted barrier has counted anyone. -/
structure OnlyAt (s : State) (inst n : Nat) : Prop where
  bar : ∀ w ∈ s.waves, instOf s w.gid = inst → ∀ k, w.waitsBar (atBar k) = false
  barc : ∀ w ∈ s.waves, instOf s w.gid = inst → ∀ k, k ≠ n → w.waitsBar (atBarc k) = false
  others : ∀ k < 16, k ≠ n → (barcOf s inst k).arrived = []

/-- The barrier with the wave in hand counted. -/
def withCounted (s : State) (inst n c : Nat) : State := setBarc s inst n ⟨c, (barcOf s inst n).arrived ++ [s.w.wid]⟩

/-- Counted barrier n is over: the counted waves leave it, and acquire, and its count is 0 again. -/
def barcDone (s : State) (inst n c : Nat) (ws : List Wave) : State :=
  barAcquire ((setBarc (withCounted s inst n c) inst n ⟨0, []⟩).mapWaves fun w =>
    if ((barcOf s inst n).arrived ++ [s.w.wid]).contains w.wid then releaseBar (atBarc n) w else w) true ws

theorem OnlyAt.settleBar {s : State} {inst n gid k : Nat} (h : OnlyAt s inst n) (hi : instOf s gid = inst) :
    settleBar s gid k = s :=
  settleBar_unused fun w hw hg => h.bar w hw (by rw [hg, hi]) k

theorem OnlyAt.settleBarc {s : State} {inst n k : Nat} (h : OnlyAt s inst n) (hk : k < 16) (hne : k ≠ n) :
    settleBarc s inst k = s :=
  settleBarc_unused (fun w hw hi _ => barcCount_none (h.barc w hw hi k hne)) (h.others k hk hne)

theorem onlyAt_withCounted {s : State} {inst n : Nat} (h : OnlyAt s inst n) (c : Nat) : OnlyAt (withCounted s inst n c) inst n where
  bar := h.bar
  barc := h.barc
  others k hk hne := (congrArg Barc.arrived (barcOf_setBarc_ne s inst _ hne)).trans (h.others k hk hne)

theorem waitsBar_releaseBar_of_false {which other : BarWait → Bool} (hn : which .none = false) {w : Wave}
    (h : w.waitsBar which = false) : (releaseBar other w).waitsBar which = false := by
  have hslot {c : Slot} (hc : (c.live && which c.barWait) = false) :
      ((c.leaveBar other).live && which (c.leaveBar other).barWait) = false := by
    rw [live_leaveBar, barWait_leaveBar]
    split
    · simp [hn]
    · exact hc
  obtain ⟨hc, hs⟩ := Bool.or_eq_false_iff.1 h
  rw [releaseBar_eq]
  exact Bool.or_eq_false_iff.2 ⟨hslot hc, hslot hs⟩

theorem mem_waves_barcDone {s : State} {inst n c : Nat} {ws : List Wave} {w : Wave} :
    w ∈ (barcDone s inst n c ws).waves ↔ ∃ v ∈ s.waves,
      w = if ((barcOf s inst n).arrived ++ [s.w.wid]).contains v.wid then releaseBar (atBarc n) v else v := by
  rw [barcDone, waves_barAcquire]
  exact mem_waves_mapWaves fun w => by split <;> simp

theorem onlyAt_barcDone {s : State} {inst n : Nat} (h : OnlyAt s inst n) (c : Nat) (ws : List Wave) :
    OnlyAt (barcDone s inst n c ws) inst n := by
  have hback {which : BarWait → Bool} (hno : which .none = false)
      (hw : ∀ v ∈ s.waves, instOf s v.gid = inst → v.waitsBar which = false) :
      ∀ w ∈ (barcDone s inst n c ws).waves, instOf (barcDone s inst n c ws) w.gid = inst → w.waitsBar which = false := by
    intro w hm hi
    obtain ⟨v, hv, rfl⟩ := mem_waves_barcDone.1 hm
    have hvi : instOf s v.gid = inst := by
      rw [← hi]
      simp only [barcDone, instOf_barAcquire, instOf_mapWaves]
      split <;> simp [withCounted]
    split
    · exact waitsBar_releaseBar_of_false hno (hw v hv hvi)
    · exact hw v hv hvi
  refine ⟨fun w hm hi k => hback rfl (fun v hv hvi => h.bar v hv hvi k) w hm hi,
    fun w hm hi k hk => hback rfl (fun v hv hvi => h.barc v hv hvi k hk) w hm hi, fun k hk hne => ?_⟩
  rw [barcDone, barcOf_barAcquire, barcOf_mapWaves, barcOf_setBarc_ne _ _ _ hne, withCounted, barcOf_setBarc_ne _ _ _ hne]
  exact h.others k hk hne

/-- The waves that have come to the barrier are counted: the one in hand now, the others before. -/
theorem NewlyCome.foldl_countArrival {s : State} {inst n c : Nat} (h : NewlyCome s inst n c) :
    (s.waves.filter fun w => instOf s w.gid == inst && w.arrived && (w.barcCount n).isSome).foldl (countArrival inst n) s =
      withCounted s inst n c := by
  have hcount : s.w.barcCount n = some c := barcCount_cur h.whole.1 h.whole.2.1
  have harr : s.w.arrived = true := h.whole.arrived (by simp)
  have hself : countArrival inst n s s.w = withCounted s inst n c := by
    simp only [countArrival, hcount, List.contains_eq_mem, h.fresh, decide_false, Bool.false_eq_true, if_false, Option.getD_some,
      withCounted]
    rcases h.round with he | hc
    · simp [he]
    · by_cases he : (barcOf s inst n).arrived = [] <;> simp [he, hc]
  have hwaves : s.waves = s.w :: s.others := by simp [State.waves, h.live]
  rw [hwaves, List.filter_cons_of_pos (by simp [h.ofInst, harr, hcount]), List.foldl_cons, hself]
  refine foldl_of_fixed fun w hw => ?_
  obtain ⟨hw, hp⟩ := List.mem_filter.1 hw
  simp only [Bool.and_eq_true, beq_iff_eq] at hp
  have hin := h.rest w hw hp.1.1 hp.1.2
  simp [countArrival, withCounted, barcOf_setBarc_self _ _ _ h.index, hin]

/-- An arrival that does not make up the count is counted and waits. -/
theorem NewlyCome.settleBarc_waits {s : State} {inst n c : Nat} (h : NewlyCome s inst n c)
    (hlt : (barcOf s inst n).arrived.length + 1 < c) : settleBarc s inst n = withCounted s inst n c := by
  unfold settleBarc
  dsimp only
  rw [h.foldl_countArrival]
  exact if_pos (.inr (by simpa [withCounted, barcOf_setBarc_self _ _ _ h.index] using hlt))

/-- The one that makes it up completes the barrier. -/
theorem NewlyCome.settleBarc_completes {s : State} {inst n c : Nat} (h : NewlyCome s inst n c)
    (he : (barcOf s inst n).arrived.length + 1 = c) : ∃ ws, settleBarc s inst n = barcDone s inst n c ws := by
  unfold settleBarc
  dsimp only
  rw [h.foldl_countArrival]
  have hb : barcOf (withCounted s inst n c) inst n = ⟨c, (barcOf s inst n).arrived ++ [s.w.wid]⟩ :=
    barcOf_setBarc_self _ _ _ h.index
  rw [hb, if_neg (by simp [he])]
  exact ⟨_, rfl⟩

/-- A counted barrier that a wave has newly come to is the only one of its group's that is looked at with effect. -/
theorem settleBarriers_of_newlyCome {s t : State} {inst n c gid : Nat} (h : NewlyCome s inst n c) (ho : OnlyAt s inst n)
    (hg : s.w.gid = gid) (ht : settleBarc s inst n = t) (hot : OnlyAt t inst n) : settleBarriers s gid = t := by
  subst hg
  have hself : s.w ∈ s.waves := mem_waves.2 (.inl ⟨h.live, rfl⟩)
  refine settleBarriers_eq (t := s) ⟨s.w, hself, rfl, .inl (by simp [h.whole.2.1])⟩
    (foldl_of_fixed fun k _ => ho.settleBar h.ofInst) ?_
  rw [h.ofInst]
  exact foldl_range_of_single h.index (fun k hk hne => ho.settleBarc hk hne) ht fun k hk hne => hot.settleBarc hk hne

/-- No barrier counts a slot that has come without the wave's other slot. -/
theorem exec_barc_waitsForSlot {s : State} {r n : Nat} (h : Ready (.barc r n) s) (h1 : 1 ≤ (s.sreg r).toNat)
    (h2 : (s.sreg r).toNat ≤ 4096) (hl : s.w.live = true) (hsl : s.w.sib.live = true) (hsr : s.w.sib.status = .running)
    (hno : noBarrier s) (hct : noCount s) :
    exec (.barc r n) s = .next (arrivedAt (.barc r n) s (.barc n (s.sreg r).toNat)) := by
  have hsib : s.w.sib.barWait = .none := (hno s.w (mem_waves.2 (.inl ⟨hl, rfl⟩))).2
  have hothers : ∀ w ∈ s.others, w.cur.barWait = .none ∧ w.sib.barWait = .none := fun w hw => hno w (mem_waves.2 (.inr hw))
  have hrefused : ¬countRefused s n (s.sreg r).toNat := by
    have harr : s.w.sib.arrived = false := by simp [Slot.arrived, hsl, hsr, hsib]
    simp [countRefused, otherCount, hsib, harr]
    omega
  have hfalse {which : BarWait → Bool} (hwhich : which .none = false) {w : Wave} (hw : w ∈ s.others) :
      w.waitsBar which = false :=
    waitsBar_eq_false (by rw [(hothers w hw).1, hwhich]) fun _ => by rw [(hothers w hw).2, hwhich]
  rw [exec_barc_arrives h (by simp [mismatch, hsib]) hrefused, settleBarriers_stands]
  · intro k _
    refine settleBar_unused fun w hw _ => ?_
    rcases mem_waves.1 hw with ⟨-, rfl⟩ | hw
    · exact waitsBar_eq_false rfl fun _ => by rw [sib_arrivedAt, hsib]; rfl
    · exact hfalse rfl (by simpa using hw)
  · intro k hk
    refine settleBarc_unused (fun w hw _ ha => ?_) (by simpa using hct k hk)
    rcases mem_waves.1 hw with ⟨-, rfl⟩ | hw
    · rw [arrived_arrivedAt_false hsl hsr hsib] at ha
      cases ha
    · exact barcCount_none (hfalse rfl (by simpa using hw))

section
variable {s : State} {r n : Nat} (h : Ready (.barc r n) s) (hn : n < 16) (hl : s.w.live = true)
  (h1 : 1 ≤ (s.sreg r).toNat) (h2 : (s.sreg r).toNat ≤ 4096) (hsib : s.w.sib.live = false)
  (hround : (barcOf s (instOf s s.w.gid) n).arrived = [] ∨ (barcOf s (instOf s s.w.gid) n).count = (s.sreg r).toNat)
  (hnew : s.w.wid ∉ (barcOf s (instOf s s.w.gid) n).arrived)
  (hother : ∀ k < 16, k ≠ n → (barcOf s (instOf s s.w.gid) k).arrived = [])
  (hhere : ∀ w ∈ s.others, instOf s w.gid = instOf s s.w.gid →
    (w.cur.barWait = .none ∨ w.cur.barWait = .barc n (s.sreg r).toNat) ∧
      (w.sib.barWait = .none ∨ w.sib.barWait = .barc n (s.sreg r).toNat))
  (hrest : ∀ w ∈ s.others, instOf s w.gid = instOf s s.w.gid → w.arrived = true →
    w.wid ∈ (barcOf s (instOf s s.w.gid) n).arrived)

include h hn hl hsib hround hnew hrest in
theorem newlyCome_arrivedAt :
    NewlyCome (arrivedAt (.barc r n) s (.barc n (s.sreg r).toNat)) (instOf s s.w.gid) n (s.sreg r).toNat where
  index := hn
  live := by simpa using hl
  ofInst := by simp
  whole := ⟨by rw [curLive_arrivedAt]; exact h.live, rfl, by simp [hsib]⟩
  fresh := by simpa using hnew
  round := by simpa using hround
  rest := by simpa using hrest

include hsib hother hhere in
theorem onlyAt_arrivedAt : OnlyAt (arrivedAt (.barc r n) s (.barc n (s.sreg r).toNat)) (instOf s s.w.gid) n := by
  have hfalse {which : BarWait → Bool} (hno : which .none = false) (hc : which (.barc n (s.sreg r).toNat) = false) :
      ∀ w ∈ (arrivedAt (.barc r n) s (.barc n (s.sreg r).toNat)).waves,
        instOf (arrivedAt (.barc r n) s (.barc n (s.sreg r).toNat)) w.gid = instOf s s.w.gid → w.waitsBar which = false := by
    intro w hw hi
    rcases mem_waves.1 hw with ⟨-, rfl⟩ | hw
    · exact waitsBar_eq_false hc fun hs => by rw [sib_arrivedAt, hsib] at hs; cases hs
    · obtain ⟨hcb, hsb⟩ := hhere w (by simpa using hw) (by simpa using hi)
      refine waitsBar_eq_false ?_ fun _ => ?_
      · rcases hcb with e | e <;> rw [e] <;> assumption
      · rcases hsb with e | e <;> rw [e] <;> assumption
  exact ⟨fun w hw hi k => hfalse rfl rfl w hw hi, fun w hw hi k hk => hfalse rfl (by simp [atBarc, hk.symm]) w hw hi,
    fun k hk hne => by simpa using hother k hk hne⟩

include h h1 h2 hsib hround

theorem exec_barc_arrives_whole : exec (.barc r n) s =
    .next (settleBarriers (arrivedAt (.barc r n) s (.barc n (s.sreg r).toNat)) s.w.gid) := by
  have hrefused : ¬countRefused s n (s.sreg r).toNat := by
    rintro (h0 | h0 | h0 | ⟨-, h0, h3⟩)
    · omega
    · omega
    · revert h0
      unfold otherCount
      cases s.w.sib.barWait <;> simp [hsib]
    · rcases hround with he | he
      · simp [he] at h0
      · exact h3 he
  exact exec_barc_arrives h (by simp [mismatch, hsib]) hrefused

include hn hl hnew hother hhere hrest

/-- A wave that comes to a counted barrier whole is counted, and waits while the count is not made up. -/
theorem exec_barc_counts (hlt : (barcOf s (instOf s s.w.gid) n).arrived.length + 1 < (s.sreg r).toNat) :
    exec (.barc r n) s = .next (setBarc (arrivedAt (.barc r n) s (.barc n (s.sreg r).toNat)) (instOf s s.w.gid) n
      ⟨(s.sreg r).toNat, (barcOf s (instOf s s.w.gid) n).arrived ++ [s.w.wid]⟩) := by
  have hcome := newlyCome_arrivedAt h hn hl hsib hround hnew hrest
  have honly := onlyAt_arrivedAt (r := r) hsib hother hhere
  rw [exec_barc_arrives_whole h h1 h2 hsib hround, settleBarriers_of_newlyCome hcome honly (gid_arrivedAt ..)
    (hcome.settleBarc_waits (by simpa using hlt)) (onlyAt_withCounted honly _)]
  simp [withCounted]

/-- The arrival that makes up the count completes the barrier for every wave counted. -/
theorem exec_barc_completes (he : (barcOf s (instOf s s.w.gid) n).arrived.length + 1 = (s.sreg r).toNat) :
    ∃ t, exec (.barc r n) s = .next t ∧ t.w.cur.pc = (s.cur.pc + 4) % 2 ^ 56 ∧ t.w.cur.barWait = .none ∧
      t.w.lclock = s.w.lclock + 1 ∧ (barcOf t (instOf s s.w.gid) n).arrived = [] ∧
      (∀ w ∈ t.waves, w.wid ∈ (barcOf s (instOf s s.w.gid) n).arrived → w.waitsBar (atBarc n) = false) ∧
      sameVectors s t ∧ sameScalars s t ∧ sameMasks s t ∧ sameMemory s t := by
  have hcome := newlyCome_arrivedAt h hn hl hsib hround hnew hrest
  have honly := onlyAt_arrivedAt (r := r) hsib hother hhere
  obtain ⟨ws, hdone⟩ := hcome.settleBarc_completes (by simpa using he)
  have hexec := exec_barc_arrives_whole h h1 h2 hsib hround
  rw [settleBarriers_of_newlyCome hcome honly (gid_arrivedAt ..) hdone (onlyAt_barcDone honly _ ws)] at hexec
  have hw : (barcDone (arrivedAt (.barc r n) s (.barc n (s.sreg r).toNat)) (instOf s s.w.gid) n (s.sreg r).toNat ws).w =
      releaseBar (atBarc n) (arrivedAt (.barc r n) s (.barc n (s.sreg r).toNat)).w := by
    simp [barcDone, State.mapWaves, setBarc, withCounted, hl]
  obtain ⟨hpc, hb, hv, hs, hk⟩ := passed_of_releaseBar hw h.live (by simp [atBarc])
  refine ⟨_, hexec, hpc, hb, ?_, ?_, fun w hm hin => ?_, hv, hs, hk, fun l _ => ?_⟩
  · have hlive : s.w.cur.live = true := h.live
    rw [hw, releaseBar_eq]
    simp [hsib, hlive, atBarc]
  · simp [barcDone, barcOf_setBarc_self _ _ _ hn]
  · obtain ⟨v, hv, rfl⟩ := mem_waves_barcDone.1 hm
    have hcounted : ((barcOf (arrivedAt (.barc r n) s (.barc n (s.sreg r).toNat)) (instOf s s.w.gid) n).arrived ++
        [(arrivedAt (.barc r n) s (.barc n (s.sreg r).toNat)).w.wid]).contains v.wid = true := by
      have hvin : v.wid ∈ (barcOf s (instOf s s.w.gid) n).arrived := by
        split at hin
        · simpa using hin
        · exact hin
      simp [hvin]
    rw [if_pos hcounted]
    exact waitsBar_releaseBar rfl v
  · simp [barcDone, withCounted]

end

/-! ### `lclk` and `lsync` -/

theorem RegsChanged.trans {s t u : State} (h : RegsChanged s t) (k : RegsChanged t u) : RegsChanged s u := by
  unfold RegsChanged at h k ⊢
  rw [k, h]

/-- A scalar pair written: its halves, `s0` and the rest. -/
theorem sreg_setS64 (s : State) {x : Nat} (d : DWord) (hx : x + 1 < 64) :
    (x ≠ 0 → (s.setS64 x d).sreg x = loWord d) ∧ (s.setS64 x d).sreg (x + 1) = hiWord d ∧
      ∀ r, r ≠ x → r ≠ x + 1 → (s.setS64 x d).sreg r = s.sreg r := by
  unfold State.setS64
  refine ⟨fun h0 => ?_, sreg_setS_self _ _ (by omega) hx, fun r h h1 => ?_⟩
  · rw [sreg_setS_ne _ _ (by omega), sreg_setS_self _ _ h0 (by omega)]
  · rw [sreg_setS_ne _ _ h1, sreg_setS_ne _ _ h]

theorem loWord_eq (d : DWord) : loWord d = d.truncate 32 := BitVec.ofNat_toNat 32 d

theorem hiWord_eq (d : DWord) : hiWord d = (d >>> 32).truncate 32 := by
  apply BitVec.eq_of_toNat_eq
  simp [hiWord, Nat.shiftRight_eq_div_pow]

theorem exec_lclk {s : State} {x : Nat} (hwf : (Instr.lclk x).wf = true) (h : Ready (.lclk x) s) :
    ∃ t, exec (.lclk x) s = .next t ∧ wroteS64 s t x (BitVec.ofNat 64 s.w.lclock) ∧ sameVectors s t ∧ sameMasks s t ∧
      OnlyRegs (.lclk x) s t := by
  have hx : x + 1 < 64 := by
    have hpair : Wf.sp x = true := hwf
    simp only [Wf.sp, Bool.and_eq_true, decide_eq_true_eq, beq_iff_eq] at hpair
    omega
  obtain ⟨hlo, hhi, hrest⟩ := sreg_setS64 s (BitVec.ofNat 64 s.w.lclock) hx
  refine ⟨_, issue_done h (t := s.setS64 x (BitVec.ofNat 64 s.w.lclock)) (by rw [opened_of_open rfl]; rfl),
    ⟨fun h0 => ?_, ?_, sreg_zero _, fun r hr hr1 => ?_⟩, fun r l => ?_, fun k => ?_,
    onlyRegs_finished rfl ((RegsChanged.setS ..).trans (RegsChanged.setS ..))⟩
  · rw [sreg_finished, hlo h0, loWord_eq]
  · rw [sreg_finished, hhi, hiWord_eq]
  · rw [sreg_finished, hrest r hr hr1]
  · simp [State.setS64]
  · simp [State.setS64]

theorem exec_lsync {s : State} (h : Ready .lsync s) : exec .lsync s = .next (finished .lsync s (opened .lsync s)) :=
  issue_done h rfl

/-- Another wave of the launch stands before the wave in hand (R354). -/
def standsBefore (s : State) (x : Wave) : Prop :=
  x.lid = s.w.lid ∧ x.wid ≠ s.w.wid ∧ x.arrived = false ∧
    (x.lclock < s.w.lclock ∨ (x.lclock = s.w.lclock ∧ globalIndex s x ≤ globalIndex s s.w))

/-- It is a wave's turn when no other stands before it. -/
theorem detTurn_iff (s : State) : detTurn s = true ↔ ∀ x ∈ s.waves, ¬standsBefore s x := by
  unfold detTurn standsBefore
  rw [List.all_eq_true]
  refine forall₂_congr fun x _ => ?_
  by_cases hl : x.lid = s.w.lid <;> by_cases hw : x.wid = s.w.wid <;> cases ha : x.arrived <;> simp [hl, hw]
  omega

/-- `lsync` names no register. -/
theorem hdr_lsync : hdr .lsync = { closes := true, ra := .stop } := rfl

section
variable {s : State} (h : Attempts .lsync s) (htrap : issueTrap .lsync s = none) (hfl : s.cur.flights = [])
include hfl

/-- Without unfinished instructions `lsync` is held in a DET launch only, and there until it is the wave's turn. -/
theorem held_lsync : held .lsync s = (s.attr.det && !detTurn s) := by
  have htape : waitsForTape .lsync s = false := rfl
  have hscatter : waitsForScatter .lsync s = false := rfl
  have hsync : isSync s .lsync = true := rfl
  simp [held, hfl, regHeld, htape, hscatter, captureFits, waitsForStores, hdr_lsync, hsync]

include h htrap

theorem exec_lsync_waits (hdet : s.attr.det = true) (hx : ∃ x ∈ s.waves, standsBefore s x) :
    exec .lsync s = .next ((opened .lsync s).onCur fun c => { c with stalled := true }) := by
  have hturn : detTurn s = false := by
    obtain ⟨x, hm, hb⟩ := hx
    exact Bool.eq_false_iff.2 fun ht => (detTurn_iff s).1 ht x hm hb
  have hheld : held .lsync s = true := by rw [held_lsync hfl, hdet, hturn]; rfl
  refine (issue_attempt (body := fun s => .done s) h).trans ?_
  rw [htrap]
  dsimp only
  rw [if_pos hheld]

/-- Otherwise it goes on at once. -/
theorem ready_lsync (himp : s.cur.imprecise = []) (hdef : s.defer = false)
    (hx : s.attr.det = false ∨ ∀ x ∈ s.waves, ¬standsBefore s x) : Ready .lsync s where
  live := h.live
  normal := h.normal
  going := h.going
  legal := htrap
  free := by
    rw [held_lsync hfl]
    rcases hx with hd | hx
    · rw [hd]
      rfl
    · rw [(detTurn_iff s).2 hx]
      simp
  precise := by simp [impreciseTrap, himp]
  sound := by simp [badSource, hdr_lsync, meets]
  inOrder := hdef

end

/-- Settles O31: what the barriers do is said by the lemmas above, of a counted barrier with a count of 1 by the one about the
arrival that makes up the count. -/
theorem barriers : Obligations.Barriers := by
  refine ⟨⟨fun s n h hm hno hct hmiss => exec_bar_waits h hm hno hct hmiss,
    fun s n h hn hl hct hsib hwait hall => ?whole, fun s n => exec_bar_mismatch, fun s r n h hm hc => ?badCount,
    fun s r n h hn hl hsib hone hfree hct => ?one, fun s r n => exec_barc_mismatch,
    fun s r n h h1 h2 hl hsl hsr hno hct => exec_barc_waitsForSlot h h1 h2 hl hsl hsr hno hct,
    fun s r n h hn hl h1 h2 => ⟨?otherCount, fun hsib hround hnew hother hhere hrest => ⟨?counts, ?completes⟩⟩⟩,
    fun s x => exec_lclk, fun s => exec_lsync,
    fun s h htrap hfl himp _ hdef => ⟨exec_lsync_waits h htrap hfl, fun hx => exec_lsync (ready_lsync h htrap hfl himp hdef hx)⟩⟩
  case whole =>
    obtain ⟨t, he, hpc, hb, hw, hv, hs, hk, hmem⟩ := exec_bar_completes h hn hl hct hsib hwait hall
    exact ⟨t, he, hpc, hb, fun w hw' hg => ⟨fun _ => (hw w hw' hg).2.1, (hw w hw' hg).2.2⟩, hv, hs, hk, hmem⟩
  case badCount =>
    exact exec_barc_refused h hm (hc.imp id .inl)
  case one =>
    have hc : (s.sreg r).toNat = 1 := by rw [hone]; rfl
    obtain ⟨t, he, hpc, hb, -, hct', -, hsame⟩ := exec_barc_completes h hn hl (by omega) (by omega) hsib (.inl (hct n hn))
      (by rw [hct n hn]; exact List.not_mem_nil) (fun k hk _ => hct k hk)
      (fun w hw _ => ⟨.inl (hfree w hw).1, .inl (hfree w hw).2⟩)
      (fun w hw _ ha => absurd ha (by simp [arrived_eq_false (hfree w hw).1 (hfree w hw).2]))
      (by rw [hct n hn, hc]; rfl)
    exact ⟨t, he, hpc, hb, hct', hsame⟩
  case otherCount =>
    rintro (⟨hsl, m, hb, hne⟩ | ⟨hsl, ha, hne⟩)
    · exact exec_barc_refused h (by simp [mismatch, hb, atBarc]) (.inr (.inr (.inl (by simp [otherCount, hsl, hb, hne]))))
    · exact exec_barc_refused h (by simp [mismatch, hsl])
        (.inr (.inr (.inr ⟨by simp [Slot.arrived, hsl], by simpa using ha, hne⟩)))
  case counts =>
    exact exec_barc_counts h hn hl h1 h2 hsib hround hnew hother hhere hrest
  case completes =>
    exact exec_barc_completes h hn hl h1 h2 hsib hround hnew hother hhere hrest

end Sys2Proof.Machine

/-! The distributors (R333 to R349, R355, R361): what an update of one launch leaves, what acceptance, starts, steals,
retirement and completion come to, and the statement O54 about them. -/
namespace Sys2Proof.Machine

/-! ### Updates of one launch -/

theorem lid_of_launch? {s : State} {lid : Nat} {l : Launch} (h : s.launch? lid = some l) : l.lid = lid := by
  simpa using List.find?_some h

theorem gid_of_group? {s : State} {gid : Nat} {g : Group} (h : s.group? gid = some g) : g.gid = gid := by
  simpa using List.find?_some h

/-- An update that keeps a launch's number is what a later look-up of that number finds. -/
theorem launch?_updLaunch {s : State} {lid : Nat} {f : Launch → Launch} {l : Launch} (h : s.launch? lid = some l)
    (hf : ∀ x, (f x).lid = x.lid) : (s.updLaunch lid f).launch? lid = some (f l) := by
  have hp : ((fun x : Launch => x.lid == lid) ∘ fun x => if x.lid = lid then f x else x) = fun x => x.lid == lid := by
    funext x
    simp only [Function.comp]
    split <;> simp [hf]
  unfold State.launch? State.updLaunch
  rw [List.find?_map, hp]
  have hl := lid_of_launch? h
  unfold State.launch? at h
  rw [h]
  simp [hl]

/-! ### Acceptance (R333) -/

/-- A well-formed record without dependence, determinism and counters that conflicts with no active launch is activated. -/
theorem accept_activates {s : State} {ws : List Nat} (u : Mmu) (ref : Nat) (origin : Option QOrigin) (queue remote : Option Nat)
    (hwf : launchWellFormed ws = true) (hn : (launchOf ws).ndep = 0) (hd : (launchOf ws).det = false)
    (hc : counters (launchOf ws) = [])
    (hroot : ∀ y ∈ s.launches, y.attr.asn = (launchOf ws).asn → y.attr.root = (launchOf ws).root)
    (hbox : (launchOf ws).mboxen = true → ∀ y ∈ s.launches, y.attr.mboxen = true → y.attr.mboxnum ≠ (launchOf ws).mboxnum) :
    accept s u ref ws none origin queue remote false = .ok (activate s ref (launchOf ws) origin queue remote false) := by
  have hroot' : (s.launches.any fun x => x.attr.asn == (launchOf ws).asn && x.attr.root != (launchOf ws).root) = false := by
    simpa using hroot
  have hbox' : ¬((launchOf ws).mboxen = true ∧
      (s.launches.any fun x => x.attr.mboxen && x.attr.mboxnum == (launchOf ws).mboxnum) = true) := by
    simpa using hbox
  have hzero : ∀ c ∈ [(launchOf ws).compl, (launchOf ws).graphc, (launchOf ws).phasec, (launchOf ws).jobc], c = 0 := by
    simpa [counters] using hc
  have hcs : (if remote.isSome then
      [(launchOf ws).compl, (launchOf ws).graphc, (launchOf ws).phasec].filter fun c => c != 0
      else counters (launchOf ws)) = [] := by
    split
    · simp at hzero ⊢
      simp [hzero]
    · exact hc
  unfold accept
  simp only [hwf, hn, hd, hroot', hcs, bumpAll, Bool.false_eq_true, if_false, Option.any_none, Bool.not_true, or_self,
    List.take_zero, List.all_nil, false_and, ne_eq, not_true_eq_false, if_neg hbox']

theorem accept_malformed {s : State} {ws : List Nat} (u : Mmu) (ref : Nat) (origin : Option QOrigin) (queue remote : Option Nat)
    (hwf : launchWellFormed ws = false) :
    accept s u ref ws none origin queue remote false = .fail causeLaunchMalformed ref := by
  simp [accept, hwf]

/-- A launch that becomes active gives its job a phase (R338). -/
theorem phase_activate (s : State) (ref : Nat) (l : LaunchRec) (origin : Option QOrigin) (queue remote : Option Nat)
    (isFrag : Bool) : (assocGet (activate s ref l origin queue remote isFrag).phases l.jobid).isSome = true := by
  simp only [activate]
  split
  · assumption
  · rw [assocGet_assocSet_self]
    rfl

section
variable {s : State} {id : Nat} {x : Submission}
  (hx : s.submissions.find? (fun y => y.id == id) = some x) (hl : liveDies s ≠ [])
include hx hl

theorem exec_launchAccept_activates (hwf : launchWellFormed (x.words.map fun w => w.toNat) = true)
    (hn : (launchOf (x.words.map fun w => w.toNat)).ndep = 0) (hd : (launchOf (x.words.map fun w => w.toNat)).det = false)
    (hc : counters (launchOf (x.words.map fun w => w.toNat)) = [])
    (hroot : ∀ y ∈ s.launches, y.attr.asn = (launchOf (x.words.map fun w => w.toNat)).asn →
      y.attr.root = (launchOf (x.words.map fun w => w.toNat)).root)
    (hbox : (launchOf (x.words.map fun w => w.toNat)).mboxen = true → ∀ y ∈ s.launches, y.attr.mboxen = true →
      y.attr.mboxnum ≠ (launchOf (x.words.map fun w => w.toNat)).mboxnum)
    (ho : x.origin = none) :
    exec (.launchAccept id) s = .next
      { activate s x.ref (launchOf (x.words.map fun w => w.toNat)) none x.queue x.remote false with
        submissions := s.submissions.filter fun y => y.id != id } := by
  have ha := accept_activates (.walker ((liveDies s).headD 0)) x.ref none x.queue x.remote hwf hn hd hc hroot hbox
  show execLaunchAccept id s = _
  simp only [execLaunchAccept, hx, List.isEmpty_iff, hl, if_false, ho, ha]
  rfl

theorem exec_launchAccept_refused {o : QOrigin} (hwf : launchWellFormed (x.words.map fun w => w.toNat) = false)
    (ho : x.origin = some o) :
    exec (.launchAccept id) s = .next { completeEntry (advanceHead s o.q) o 2 0x80 with
      submissions := (completeEntry (advanceHead s o.q) o 2 0x80).submissions.filter fun y => y.id != id } := by
  show execLaunchAccept id s = _
  simp only [execLaunchAccept, hx, List.isEmpty_iff, hl, if_false, accept_malformed _ _ _ _ _ hwf, ho]
  rfl

theorem exec_launchAccept_dropped (hwf : launchWellFormed (x.words.map fun w => w.toNat) = false)
    (ho : x.origin = none) (hc : (launchOf (x.words.map fun w => w.toNat)).compl = 0)
    (hj : (launchOf (x.words.map fun w => w.toNat)).jobc = 0) :
    exec (.launchAccept id) s =
      .next { s with devDeclined := [], submissions := s.submissions.filter fun y => y.id != id } := by
  have hpages (u : Mmu) (a : ASpace) : devPages s u a [] = [] := by simp [devPages]
  show execLaunchAccept id s = _
  simp [execLaunchAccept, hx, hl, accept_malformed _ _ _ _ _ hwf, ho, hc, hj, hpages]

end

/-! ### Starting groups (R334, R339, R346) -/

/-- Emptying L1s, one wave's core after another, changes only which lines are cached. -/
theorem foldl_emptyL1 (ws : List Wave) (s : State) :
    ∃ ls, ws.foldl (fun t w => t.emptyL1 w.core) s = { s with lines := ls } := by
  induction ws generalizing s with
  | nil => exact ⟨s.lines, rfl⟩
  | cons w ws ih =>
    obtain ⟨ls, h⟩ := ih (s.emptyL1 w.core)
    exact ⟨ls, by rw [List.foldl_cons, h]; rfl⟩

/-- The group that starts. -/
def groupAt (s : State) (l : Launch) (p : GroupStart) : Group :=
  { gid := s.serial, lid := l.lid, lin := p.lin, gx := p.gx, gy := p.gy, gz := p.gz, isCluster := p.isCluster, core := p.core,
    waves := p.waves, role := p.role, roleGrp := p.roleGrp, inst := p.inst.getD s.serial, task := p.task, prio := p.prio,
    bcbs := Vector.replicate 16 ⟨0, none⟩, onCore := true, since := s.gts, evicted := 0, frag := p.frag }

/-- Wave i of the group that starts. -/
def waveAt (s : State) (l : Launch) (p : GroupStart) (i : Nat) : Wave :=
  startWave l (s.serial + 1 + i) s.serial i (waveCore p.isCluster p.core i) p.budget (pcOf p.code) p.prio s.gts (s.free + i)
    p.lanes

/-- A group that starts comes after the others, with its waves; of the rest, lines and counters change. -/
theorem startGroup_changes (s : State) (l : Launch) (p : GroupStart) : ∃ ls, startGroup s l p =
    { s with
      lines := ls, groups := s.groups ++ [groupAt s l p], others := s.others ++ (List.range p.waves).map (waveAt s l p)
      serial := s.serial + 1 + p.waves, free := s.free + p.waves } := by
  obtain ⟨ls, h⟩ := foldl_emptyL1 ((List.range p.waves).map (waveAt s l p)) s
  refine ⟨ls, ?_⟩
  show (let s1 := ((List.range p.waves).map (waveAt s l p)).foldl (fun t w => t.emptyL1 w.core) s
    { s1 with
      groups := s1.groups ++ [groupAt s l p], others := s1.others ++ (List.range p.waves).map (waveAt s l p)
      serial := s.serial + 1 + p.waves, free := s1.free + p.waves }) = _
  rw [h]

theorem getElem?_waves {s : State} {l : Launch} {p : GroupStart} {k : Nat} {w : Wave}
    (h : ((List.range p.waves).map (waveAt s l p))[k]? = some w) : w = waveAt s l p k := by
  obtain ⟨hk, rfl⟩ := List.getElem?_eq_some_iff.1 h
  simp

/-- An ordinary group of the grid, as it starts (R334). -/
def gridStart (l : Launch) (lin core : Nat) : GroupStart :=
  { lin := lin, gx := lin % l.attr.gx, gy := lin / l.attr.gx % l.attr.gy, gz := lin / (l.attr.gx * l.attr.gy), core := core,
    isCluster := decide (0 < l.attr.cluster), code := l.attr.code, budget := l.attr.budget, waves := l.attr.waves,
    lanes := BitVec.allOnes 32, role := 0, roleGrp := 0, inst := none, task := none, frag := none, prio := l.attr.prio }

theorem startGrid_eq (s : State) (l : Launch) (lin core : Nat) :
    startGrid s l lin core = startGroup s l (gridStart l lin core) := rfl

/-- A task, as it starts (R346). -/
def taskStart (l : Launch) (x : TaskRec) (core : Nat) : GroupStart :=
  { lin := x.key, gx := 0, gy := 0, gz := 0, core := core, isCluster := false, code := x.code, budget := l.attr.budget,
    waves := if x.isGroup then x.n else 1,
    lanes := if x.isGroup then BitVec.allOnes 32 else BitVec.ofNat 32 (2 ^ x.n - 1), role := 0, roleGrp := 0, inst := none,
    task := some x, frag := none, prio := x.prio }

theorem startTask_eq (s : State) (l : Launch) (x : TaskRec) (core : Nat) :
    startTask s l x core = startGroup s l (taskStart l x core) := rfl

/-- The distributor's own start of a unit of an ordinary launch (R339). -/
theorem startOf_grid {s : State} {die n c : Nat} {l : Launch} (hm : mayStart s l = true)
    (hr : restoreFirst s l.attr.prio = false) (hf : l.frags = []) (hd : l.attr.det = false) (hg : l.attr.gang = false)
    (hn : nextUnit (quarantined s l.lid) l die = some n)
    (hc : coreFor (coreUse s) l.attr l.attr.budget l.attr.waves (decide (0 < l.attr.cluster)) (coresOf die) = some c)
    (hq : ∀ k, (k = 0 ∨ 0 < l.attr.cluster ∧ k < 4) → dequeFirst s (c + k) l.attr.prio = false) :
    startOf s die l = some (startGrid (takeUnit s l.lid die n) l n c) := by
  have hspot : spotFor (coreUse s) l.attr die = some (.core c) := by simp [spotFor, hg, hc]
  have hdeques : dequesFirst s l.attr (.core c) = false := by
    unfold dequesFirst Spot.coresTaken
    rw [List.any_eq_false]
    intro k hk
    by_cases hcl : 0 < l.attr.cluster
    · obtain ⟨j, hj, rfl⟩ := List.mem_map.1 (show k ∈ (List.range 4).map fun j => c + j by simpa [hcl] using hk)
      simp [hq j (.inr ⟨hcl, List.mem_range.1 hj⟩)]
    · rw [show k = c + 0 by simpa [hcl] using hk, hq 0 (.inl rfl)]
      decide
  simp [startOf, hm, hr, hf, hd, hn, hspot, hdeques, startUnit]

/-- A die that has work starts something of the first launch that it serves, if it can. -/
theorem exec_groupStart_head {s t : State} {die : Nat} {l : Launch} (hf : fenced s die = false)
    (hs : (served s).head? = some l) (hl : startOf s die l = some t) : exec (.groupStart die) s = .next t := by
  obtain ⟨ls, hls⟩ : ∃ ls, served s = l :: ls := by
    cases h : served s with
    | nil => simp [h] at hs
    | cons x xs => simp [h] at hs; exact ⟨xs, by rw [hs]⟩
  show execGroupStart die s = _
  simp [execGroupStart, startNext, hf, hls, hl]

theorem exec_groupStart_fenced {s : State} {die : Nat} (h : fenced s die = true) : exec (.groupStart die) s = .next s := by
  show execGroupStart die s = _
  simp [execGroupStart, startNext, h]

/-- What a launch keeps of its unstarted units once one of them has been taken (R340). -/
def unitTaken (die n : Nat) (l : Launch) : Launch :=
  if l.waiting.contains (die, n) then { l with waiting := l.waiting.erase (die, n) }
  else
    { l with
      chunks := l.chunks.filter fun c => c.1 != n / 64
      waiting := l.waiting ++ ((chunkUnits l (n / 64)).filter fun k => k != n).map fun k => (die, k) }

theorem launch?_takeUnit {s : State} {die n : Nat} {l : Launch} (h : s.launch? l.lid = some l) :
    (takeUnit s l.lid die n).launch? l.lid = some (unitTaken die n l) :=
  launch?_updLaunch (f := unitTaken die n) h fun x => by unfold unitTaken; split <;> rfl

/-! ### Starting tasks (R346, R348) -/

/-- A core without a fenced die takes the top of its own deque, unless its die has a group of higher priority to start. -/
theorem exec_taskStart_own {s : State} {core : Nat} {x : TaskRec} {l : Launch} (hc : core < 384)
    (hf : fenced s (core / 96) = false) (hp : s.postQueue = []) (ht : taskFrom s core core = some (x, l))
    (hg : groupFirst s (core / 96) x.prio = false) :
    exec (.taskStart core) s = .next (startTask (popDeque s core true) l x core) := by
  have hdrain : drainPosts s = s := by simp [drainPosts, hp]
  show execTaskStart core s = _
  simp [execTaskStart, hdrain, Nat.not_le.2 hc, hf, ht, hg]

theorem dequeOf_popDeque_self (s : State) (core : Nat) : dequeOf (popDeque s core true) core = (dequeOf s core).drop 1 := by
  simp [dequeOf, popDeque]

theorem dequeOf_popDeque_ne (s : State) {core c : Nat} (top : Bool) (h : c ≠ core) :
    dequeOf (popDeque s core top) c = dequeOf s c := by
  simp [dequeOf, popDeque, assocGet_assocSet_ne _ _ h]

/-! ### Steals (R340) -/

/-- How many members of a list lie below a number. -/
def countBelow (cs : List Nat) (c : Nat) : Nat := (cs.filter fun d => decide (d < c)).length

theorem countBelow_lt_length {cs : List Nat} {c : Nat} (h : c ∈ cs) : countBelow cs c < cs.length :=
  List.length_filter_lt_length_iff_exists.2 ⟨c, h, by simp⟩

theorem countBelow_lt_countBelow {cs : List Nat} {a b : Nat} (ha : a ∈ cs) (hab : a < b) : countBelow cs a < countBelow cs b := by
  have hsub : cs.filter (fun d => decide (d < a)) = (cs.filter fun d => decide (d < b)).filter fun d => decide (d < a) := by
    rw [List.filter_filter]
    congr 1
    funext d
    by_cases h : d < a
    · simp [h, Nat.lt_trans h hab]
    · simp [h]
  unfold countBelow
  rw [hsub]
  exact List.length_filter_lt_length_iff_exists.2 ⟨a, List.mem_filter.2 ⟨ha, decide_eq_true hab⟩, by simp⟩

/-- A member with fewer members below it is the lower one. -/
theorem lt_of_countBelow_lt {cs : List Nat} {a b : Nat} (hb : b ∈ cs) (h : countBelow cs a < countBelow cs b) : a < b := by
  rcases Nat.lt_trichotomy a b with hab | rfl | hba
  · exact hab
  · exact absurd h (Nat.lt_irrefl _)
  · exact absurd h (Nat.lt_asymm (countBelow_lt_countBelow hb hba))

/-- Below distinct numbers lie 0, 1, 2, ... of them. -/
theorem map_countBelow_perm {cs : List Nat} (h : cs.Nodup) : (cs.map (countBelow cs)).Perm (List.range cs.length) := by
  have hinj : ∀ a ∈ cs, ∀ b ∈ cs, countBelow cs a = countBelow cs b → a = b := by
    intro a ha b hb e
    rcases Nat.lt_trichotomy a b with hab | hab | hba
    · exact absurd e (Nat.ne_of_lt (countBelow_lt_countBelow ha hab))
    · exact hab
    · exact absurd e (Nat.ne_of_gt (countBelow_lt_countBelow hb hba))
  refine (List.subperm_of_subset (List.Nodup.map_on hinj h) fun n hn => ?_).perm_of_length_le (by simp)
  obtain ⟨c, hc, rfl⟩ := List.mem_map.1 hn
  exact List.mem_range.2 (countBelow_lt_length hc)

/-- So n - k of n distinct numbers have at least k others below them. -/
theorem length_filter_countBelow {cs : List Nat} (h : cs.Nodup) (k : Nat) :
    (cs.filter fun c => decide (k ≤ countBelow cs c)).length = cs.length - k := by
  have hrange (n : Nat) : ((List.range n).filter fun r => decide (k ≤ r)).length = n - k := by
    induction n with
    | zero => simp
    | succ n ih =>
      rw [List.range_succ, List.filter_append, List.length_append, ih]
      by_cases hk : k ≤ n <;> simp [hk] <;> omega
  calc (cs.filter fun c => decide (k ≤ countBelow cs c)).length
      = ((cs.map (countBelow cs)).filter fun r => decide (k ≤ r)).length := by
        rw [List.filter_map, List.length_map]
        rfl
    _ = ((List.range cs.length).filter fun r => decide (k ≤ r)).length := ((map_countBelow_perm h).filter _).length_eq
    _ = cs.length - k := hrange cs.length

theorem mem_stolen {l : Launch} {die c : Nat} :
    c ∈ stolen l die ↔ c ∈ chunksOf l die ∧ (chunksOf l die).length / 2 ≤ countBelow (chunksOf l die) c := by
  simp [stolen, countBelow]

theorem length_stolen_le (l : Launch) (die : Nat) : (stolen l die).length ≤ (chunksOf l die).length :=
  List.length_filter_le _ _

/-- A thief takes half of the victim's chunks, rounded up. -/
theorem length_stolen {l : Launch} {die : Nat} (h : (chunksOf l die).Nodup) :
    (stolen l die).length = ((chunksOf l die).length + 1) / 2 := by
  have hlen : (stolen l die).length = (chunksOf l die).length - (chunksOf l die).length / 2 := length_filter_countBelow h _
  omega

/-- What the thief leaves has lower numbers than what it takes. -/
theorem lt_of_mem_stolen {l : Launch} {die a b : Nat} (ha : a ∈ chunksOf l die) (hb : b ∈ stolen l die)
    (hno : a ∉ stolen l die) : a < b := by
  obtain ⟨hbm, hbr⟩ := mem_stolen.1 hb
  have har : ¬(chunksOf l die).length / 2 ≤ countBelow (chunksOf l die) a := fun h => hno (mem_stolen.2 ⟨ha, h⟩)
  exact lt_of_countBelow_lt hbm (by omega)

theorem exec_stealRequest_fenced {s : State} {die : Nat} (h : fenced s die = true) :
    exec (.stealRequest die) s = .next s := by
  show execStealRequest die s = _
  simp [execStealRequest, h]

/-- The launch and the die that a die without work takes chunks from. -/
def victimOf (s : State) (die : Nat) : Option (Nat × Launch) :=
  (((ringFrom die).drop 1).filter fun d => !fenced s d).findSome? fun d =>
    (((served s).filter fun l => mayStart s l && !l.attr.det).find? fun l => !(chunksOf l d).isEmpty).map fun l => (d, l)

/-- A launch whose chunks a thief has taken from a die. -/
def chunksMoved (d die : Nat) (cs : List Nat) (x : Launch) : Launch :=
  { x with chunks := x.chunks.map fun c => if c.2 == d && cs.contains c.1 then (c.1, die) else c }

theorem exec_stealRequest_takes {s : State} {die d : Nat} {l : Launch} (hf : fenced s die = false)
    (hn : startNext s die = none) (hv : victimOf s die = some (d, l)) :
    exec (.stealRequest die) s = .next (s.updLaunch l.lid (chunksMoved d die (stolen l d))) := by
  unfold victimOf at hv
  show execStealRequest die s = _
  simp only [execStealRequest, hf, hn, Bool.false_eq_true, Option.isSome_none, or_self, if_false, hv]
  rfl

/-! ### Retirement (R343, R344, R346) -/

@[simp] theorem lid_advanceFront (n : Nat) (l : Launch) : (advanceFront n l).lid = l.lid := by
  induction n generalizing l with
  | zero => rfl
  | succ n ih =>
    unfold advanceFront
    split
    · exact ih _
    · rfl

@[simp] theorem lid_noteRetired (die lin : Nat) (l : Launch) : (noteRetired die lin l).lid = l.lid := by
  unfold noteRetired
  dsimp only
  split <;> exact lid_advanceFront _ _

/-- FRONT never moves back. -/
theorem front_le_advanceFront (n : Nat) (l : Launch) : l.front ≤ (advanceFront n l).front := by
  induction n generalizing l with
  | zero => exact Nat.le_refl _
  | succ n ih =>
    unfold advanceFront
    split
    · exact Nat.le_trans (Nat.le_succ _) (ih { l with retired := l.retired.erase l.front, front := l.front + 1 })
    · exact Nat.le_refl _

/-- The retirement of the group at FRONT moves it. -/
theorem front_lt_advanceFront (n : Nat) {l : Launch} (h : l.front ∈ l.retired) :
    l.front < (advanceFront (n + 1) l).front := by
  unfold advanceFront
  rw [if_pos (List.contains_iff_mem.2 h)]
  exact front_le_advanceFront n { l with retired := l.retired.erase l.front, front := l.front + 1 }

theorem advanceFront_of_not_mem (n : Nat) {l : Launch} (h : l.front ∉ l.retired) : advanceFront n l = l := by
  cases n with
  | zero => rfl
  | succ n =>
    unfold advanceFront
    rw [if_neg (mt List.contains_iff_mem.1 h)]

theorem front_noteRetired (die lin : Nat) (l : Launch) :
    (noteRetired die lin l).front = (advanceFront (l.retired.length + 1) { l with retired := l.retired ++ [lin] }).front := by
  unfold noteRetired
  dsimp only
  split <;> rfl

/-- FRONT passes the retired group that stands at it. -/
theorem front_noteRetired_of_eq {lin : Nat} {l : Launch} (die : Nat) (h : lin = l.front) :
    l.front < (noteRetired die lin l).front := by
  rw [front_noteRetired]
  exact front_lt_advanceFront _ (l := { l with retired := l.retired ++ [lin] }) (by simp [h])

/-- The retirement of another group moves FRONT only past groups that have retired before. -/
theorem front_noteRetired_of_ne {lin : Nat} {l : Launch} (die : Nat) (h : lin ≠ l.front) :
    (noteRetired die lin l).front = l.front ∨ l.front ∈ l.retired := by
  by_cases hm : l.front ∈ l.retired
  · exact .inr hm
  · left
    rw [front_noteRetired, advanceFront_of_not_mem _ (by simp [hm, Ne.symm h])]

theorem barrierFault_none {g : Group} (h : ∀ b ∈ g.bcbs.toList, b.fault = none) : barrierFault g = none := by
  unfold barrierFault
  rw [List.head?_eq_none_iff, List.filterMap_eq_nil_iff]
  exact h

/-- What the retirement of a group makes of its launch. -/
def retiredIn (g : Group) (l : Launch) : Launch :=
  if g.task.isSome then { l with tasks := l.tasks - 1 }
  else if g.frag.isSome then l
  else noteRetired (g.core / 96) g.lin l

@[simp] theorem lid_retiredIn (g : Group) (l : Launch) : (retiredIn g l).lid = l.lid := by
  unfold retiredIn
  split
  · rfl
  · split
    · rfl
    · exact lid_noteRetired _ _ _

theorem exec_groupRetire_absent {s : State} {gid : Nat} (h : s.group? gid = none) : exec (.groupRetire gid) s = .next s := by
  show execGroupRetire gid s = _
  simp [execGroupRetire, h]

section
variable {s : State} {gid : Nat} {g : Group} (hg : s.group? gid = some g)
include hg

theorem canRetire_iff :
    canRetire s g = true ↔ (∀ w ∈ s.waves, w.gid ≠ gid) ∧ ∀ p ∈ s.posted, p.gid ≠ gid := by
  simp [canRetire, gid_of_group? hg]

theorem exec_groupRetire_waits (h : (∃ w ∈ s.waves, w.gid = gid) ∨ ∃ p ∈ s.posted, p.gid = gid) :
    exec (.groupRetire gid) s = .next s := by
  have hno : canRetire s g = false := by
    rw [← Bool.not_eq_true, canRetire_iff hg]
    rintro ⟨hw, hp⟩
    rcases h with ⟨w, hm, e⟩ | ⟨p, hm, e⟩
    · exact hw w hm e
    · exact hp p hm e
  show execGroupRetire gid s = _
  simp [execGroupRetire, hg, hno]

/-- A group whose waves and stores are over, which has no fault to report and no join object to decrement, leaves the machine
and is noted in its launch. -/
theorem exec_groupRetire_leaves {l : Launch} (hw : ∀ w ∈ s.waves, w.gid ≠ gid) (hp : ∀ p ∈ s.posted, p.gid ≠ gid)
    (hl : s.launch? g.lid = some l) (hb : ∀ b ∈ g.bcbs.toList, b.fault = none) (hj : ∀ x, g.task = some x → x.joinc = 0) :
    ∃ t, exec (.groupRetire gid) s = .next t ∧ t.groups = s.groups.filter (fun x => x.gid != gid) ∧
      t.launch? g.lid = some (retiredIn g l) ∧ t = { s with groups := t.groups, launches := t.launches, barcs := t.barcs } := by
  have hcan : canRetire s g = true := (canRetire_iff hg).2 ⟨hw, hp⟩
  have hjoin : retireJoin s g = some s := by
    unfold retireJoin
    rw [hl]
    cases ht : g.task with
    | none => rfl
    | some x => simp [hj x ht]
  refine ⟨(dropBarcs { s with groups := s.groups.filter fun x => x.gid != gid }).updLaunch g.lid (retiredIn g), ?_, rfl,
    launch?_updLaunch hl (lid_retiredIn g), rfl⟩
  show execGroupRetire gid s = _
  simp only [execGroupRetire, hg, hcan, hjoin, barrierFault_none hb]
  rfl

end

/-! ### Messages, completion and phases (R336 to R338, R344) -/

/-- A die learns of a retirement. -/
def tellDie (lin : Nat) (told : List (Nat × Nat)) (d : Nat) : List (Nat × Nat) :=
  if told.contains (d, lin) then told else (d, lin) :: told

theorem mem_tellDie {lin d : Nat} {told : List (Nat × Nat)} {p : Nat × Nat} :
    p ∈ tellDie lin told d ↔ p ∈ told ∨ p = (d, lin) := by
  unfold tellDie
  split <;> rename_i h
  · rw [List.contains_iff_mem] at h
    exact ⟨.inl, fun hp => hp.elim id fun e => e ▸ h⟩
  · rw [List.mem_cons, or_comm]

theorem mem_foldl_tellDie {lin : Nat} {p : Nat × Nat} (ds : List Nat) (told : List (Nat × Nat)) :
    p ∈ ds.foldl (tellDie lin) told ↔ p ∈ told ∨ ∃ d ∈ ds, p = (d, lin) := by
  induction ds generalizing told with
  | nil => simp
  | cons d ds ih => rw [List.foldl_cons, ih, mem_tellDie]; simp [or_assoc]

/-- The launch once every die knows of the retirement. -/
def toldAll (lin : Nat) (l : Launch) : Launch :=
  if l.attr.ndep ≠ 0 ∧ l.told.any fun p => p.2 == lin then { l with told := (List.range 4).foldl (tellDie lin) l.told } else l

theorem exec_retirementMessage (s : State) (lid lin : Nat) :
    exec (.retirementMessage lid lin) s = .next (s.updLaunch lid (toldAll lin)) := rfl

section
variable {s : State} {lid : Nat} {l : Launch} (hl : s.launch? lid = some l)
include hl

theorem exec_launchComplete_waits (hd : workDone s l = false) : exec (.launchComplete lid) s = .next s := by
  show execLaunchComplete lid s = _
  simp [execLaunchComplete, hl, hd]

theorem exec_launchComplete_over (hd : workDone s l = true) :
    exec (.launchComplete lid) s = .next (completeLaunch s l) := by
  show execLaunchComplete lid s = _
  simp [execLaunchComplete, hl, hd]

end

/-- A launch that waits for no page of its completion words leaves the machine. -/
theorem completeLaunch_drops {s : State} {l : Launch}
    (hw : devPages s (.walker (master s)) ⟨l.attr.asn, l.attr.root, none⟩ (completionWords l.attr) = [])
    (ho : ∀ o, l.origin = some o → entryPages s o = []) : ∃ u, completeLaunch s l = dropLaunch u l.lid := by
  unfold completeLaunch
  cases hor : l.origin with
  | none =>
    simp only [hw, List.append_nil, List.isEmpty_nil, Bool.not_true, Bool.false_eq_true, if_false]
    exact ⟨_, rfl⟩
  | some o =>
    simp only [hw, ho o hor, List.append_nil, List.isEmpty_nil, Bool.not_true, Bool.false_eq_true, if_false]
    exact ⟨_, rfl⟩

/-- A launch without counters, queue and report of double writes writes nothing but what the L2 holds for the host. -/
theorem completeLaunch_plain {s : State} {l : Launch} (hc : counters l.attr = []) (ho : l.origin = none) (hq : l.queue = none)
    (hw : l.attr.wchk = false) : completeLaunch s l = dropLaunch { s with devDeclined := [] }.flushHost l.lid := by
  obtain ⟨h1, h2, h3, h4⟩ : l.attr.compl = 0 ∧ l.attr.graphc = 0 ∧ l.attr.phasec = 0 ∧ l.attr.jobc = 0 := by
    simpa [counters] using hc
  have hwords : completionWords l.attr = [] := by simp [completionWords, h1, h2, h3, h4]
  simp [completeLaunch, completeCounters, closeWindow, devPages, hwords, hc, h1, ho, hq, hw]

theorem not_mem_dropLaunch {s : State} {lid : Nat} {x : Launch} (h : x ∈ (dropLaunch s lid).launches) : x.lid ≠ lid := by
  simpa using (List.mem_filter.1 h).2

theorem lowest_eq_min? (xs : List Nat) : lowest xs = xs.min? := by cases xs <;> rfl

theorem exec_phaseAdvance_stays {s : State} {job p : Nat} (hp : assocGet s.phases job = some p)
    (h : p ∈ (s.launches.filter fun l => l.attr.jobid == job).map (fun l => l.attr.phase) ∨ gateOpen s job = false ∨
      ∀ q ∈ (s.launches.filter fun l => l.attr.jobid == job).map (fun l => l.attr.phase), q ≤ p) :
    exec (.phaseAdvance job) s = .next s := by
  show execPhaseAdvance job s = _
  unfold execPhaseAdvance
  rw [hp]
  dsimp only
  split
  · rfl
  · rename_i q hq
    rw [if_pos]
    rcases h with h | h | h
    · exact .inl (List.contains_iff_mem.2 h)
    · exact .inr (by simp [h])
    · rw [List.filter_eq_nil_iff.2 fun q hq => by simpa using h q hq] at hq
      cases hq

theorem exec_phaseAdvance_moves {s : State} {job p q : Nat} (hp : assocGet s.phases job = some p)
    (hq : q ∈ (s.launches.filter fun l => l.attr.jobid == job).map fun l => l.attr.phase) (hlt : p < q)
    (hle : ∀ r ∈ (s.launches.filter fun l => l.attr.jobid == job).map (fun l => l.attr.phase), p < r → q ≤ r)
    (hno : p ∉ (s.launches.filter fun l => l.attr.jobid == job).map fun l => l.attr.phase) (hg : gateOpen s job = true) :
    exec (.phaseAdvance job) s = .next { s with phases := assocSet s.phases job q } := by
  have hlow : lowest (((s.launches.filter fun l => l.attr.jobid == job).map fun l => l.attr.phase).filter
      fun q => decide (p < q)) = some q := by
    rw [lowest_eq_min?, List.min?_eq_some_iff]
    refine ⟨List.mem_filter.2 ⟨hq, decide_eq_true hlt⟩, fun r hr => ?_⟩
    obtain ⟨hrm, hrp⟩ := List.mem_filter.1 hr
    exact hle r hrm (of_decide_eq_true hrp)
  show execPhaseAdvance job s = _
  unfold execPhaseAdvance
  rw [hp]
  dsimp only
  rw [hlow]
  exact if_neg (by simp [hno, hg])

/-! ### The statement -/

/-- Settles O54: each part is the lemma above about its step. -/
theorem distributors : Obligations.Distributors := by
  refine ⟨fun s id x hx hl => ⟨fun hwf hn hd hc hroot hbox ho => ?accepted, fun hwf o ho => exec_launchAccept_refused hx hl hwf ho,
      exec_launchAccept_dropped hx hl⟩,
    fun s die hf => ⟨exec_groupStart_fenced hf, exec_stealRequest_fenced hf⟩,
    fun s die n c l hf hs hl hm hr hfr hd hg hn hc hq => ?started,
    fun s core x l hc hf hp ht hg => ?task,
    fun s die d l hf hn hv => ?stolen,
    fun s gid => ⟨exec_groupRetire_absent, fun g hg => ⟨exec_groupRetire_waits hg, fun l hw hp hl hcan hb => ?retired⟩⟩,
    fun s lid lin l hl hdep htold => ?told,
    fun s lid l hl => ⟨exec_launchComplete_waits hl, fun hd => ?completed⟩,
    fun s job p hp => ⟨exec_phaseAdvance_stays hp, fun q hq hlt hle hno hg => exec_phaseAdvance_moves hp hq hlt hle hno hg⟩⟩
  case accepted =>
    exact ⟨_, _, exec_launchAccept_activates hx hl hwf hn hd hc hroot hbox ho, rfl, rfl, rfl, rfl, rfl, rfl, rfl, rfl, rfl, rfl,
      phase_activate s x.ref _ none x.queue x.remote false, rfl⟩
  case started =>
    have he := exec_groupStart_head hf hs (startOf_grid hm hr hfr hd hg hn hc hq)
    obtain ⟨ls, ht⟩ := startGroup_changes (takeUnit s l.lid die n) l (gridStart l n c)
    rw [startGrid_eq, ht] at he
    refine ⟨_, groupAt (takeUnit s l.lid die n) l (gridStart l n c), _, he, rfl, rfl, rfl, rfl, rfl, rfl, rfl, rfl, rfl, rfl,
      rfl, by simp [gridStart], fun k w hw => ?_, unitTaken die n l, launch?_takeUnit hl, ?_⟩
    · rw [getElem?_waves hw]
      exact ⟨rfl, rfl, rfl, rfl, rfl, by simp [waveAt, startWave, waveCore, gridStart], rfl, rfl, rfl, rfl, rfl, rfl, rfl, rfl,
        rfl, rfl⟩
    · unfold unitTaken
      by_cases hin : (die, n) ∈ l.waiting <;> simp [hin]
  case task =>
    have he := exec_taskStart_own hc hf hp ht hg
    obtain ⟨ls, hu⟩ := startGroup_changes (popDeque s core true) l (taskStart l x core)
    rw [startTask_eq, hu] at he
    refine ⟨_, groupAt (popDeque s core true) l (taskStart l x core), _, he, dequeOf_popDeque_self s core,
      fun c hne => dequeOf_popDeque_ne s true hne, rfl, rfl, rfl, rfl, rfl, rfl, by simp [taskStart], fun w hw => ?_⟩
    obtain ⟨k, -, rfl⟩ := List.mem_map.1 hw
    exact ⟨rfl, rfl⟩
  case stolen =>
    refine ⟨_, exec_stealRequest_takes hf hn hv, rfl, length_stolen_le l d,
      fun hnd => ⟨length_stolen hnd, fun a ha b hb hno => lt_of_mem_stolen ha hb hno⟩, fun l' hl' hl => ?_⟩
    rw [launch?_updLaunch (f := chunksMoved d die (stolen l d)) hl fun _ => rfl, Option.some_inj] at hl'
    rw [← hl']
    simp [chunksMoved]
  case retired =>
    constructor
    · intro ht hfr hdep
      obtain ⟨t, he, hgr, hl', ho⟩ := exec_groupRetire_leaves hg hw hp hl hb (by simp [ht])
      have hnote : retiredIn g l = noteRetired (g.core / 96) g.lin l := by simp [retiredIn, ht, hfr]
      rw [hnote] at hl'
      exact ⟨t, _, he, hgr, hl', front_noteRetired_of_eq _, front_noteRetired_of_ne _, ho⟩
    · intro x ht hj
      obtain ⟨t, he, hgr, hl', ho⟩ := exec_groupRetire_leaves hg hw hp hl hb (by simp [ht, hj])
      exact ⟨t, _, he, hgr, hl', by simp [retiredIn, ht], ho⟩
  case told =>
    have hany : (l.told.any fun p => p.2 == lin) = true := by simpa using htold
    have hall : (toldAll lin l).told = (List.range 4).foldl (tellDie lin) l.told := by simp [toldAll, hdep, hany]
    refine ⟨_, toldAll lin l, exec_retirementMessage s lid lin, rfl, launch?_updLaunch hl fun x => ?_, fun d hd => ?_,
      fun p hp => ?_⟩
    · unfold toldAll
      split <;> rfl
    · rw [hall, mem_foldl_tellDie]
      exact .inr ⟨d, List.mem_range.2 hd, rfl⟩
    · rw [hall, mem_foldl_tellDie] at hp
      exact hp.imp_right fun ⟨d, _, e⟩ => by rw [e]
  case completed =>
    refine ⟨_, exec_launchComplete_over hl hd, fun hw ho x hx => ?_, completeLaunch_plain⟩
    obtain ⟨u, hu⟩ := completeLaunch_drops hw ho
    rw [hu] at hx
    exact not_mem_dropLaunch hx

end Sys2Proof.Machine

/-! Futures (R350, R351, R363, Table 15.4): what a write of the slot in hand changes besides bytes, the effects of `fget` and
`fput` on a cell, and the statement O37. -/
namespace Sys2Proof.Machine

/-! ### Accesses do not look at the slot's bookkeeping -/

theorem placesFrom_onCur (s : State) (f : Slot → Slot) (u : Mmu) (a : ASpace) (k : AccKind) (va n : Nat) (prev : Option Xlat) :
    placesFrom (s.onCur f) u a k va n prev = placesFrom s u a k va n prev := by
  induction n generalizing va prev with
  | zero => rfl
  | succ n ih =>
    unfold placesFrom
    simp only [ih]
    rfl

theorem access_onCur (s : State) (f : Slot → Slot) (u : Mmu) (a : ASpace) (k : AccKind) (va : Int) (n : Nat) :
    access (s.onCur f) u a k va n = access s u a k va n := by
  unfold access places
  rw [placesFrom_onCur]
  rfl

theorem reaches_opened {s : State} (i : Instr) {k : AccKind} {va : Int} {n align : Nat} {ls : List Loc} {xs : List Xlat}
    (h : Reaches s k va n align ls xs) : Reaches (opened i s) k va n align ls xs := by
  unfold opened
  split
  · obtain ⟨hok, hal, hacc, hkill⟩ := h
    exact ⟨hok, hal, (access_onCur ..).trans hacc, hkill⟩
  · exact h

/-! ### The parts of a write -/

theorem mapWaves_of_fixed {s : State} {f : Wave → Wave} (h : ∀ w, f w = w) : s.mapWaves f = s := by
  have hid : f = id := funext h
  subst hid
  unfold State.mapWaves
  rw [List.map_id, id, ite_self]

/-- The marks of the tapes that a write touched. -/
def markTape (hit : Wave → Bool) (w : Wave) : Wave := if hit w then { w with tape := { w.tape with spoiled := true } } else w

theorem mapWaves_mapWaves {s : State} {f g : Wave → Wave} (hg : ∀ w, (g w).live = w.live) :
    (s.mapWaves g).mapWaves f = s.mapWaves fun w => f (g w) := by
  cases hl : s.w.live <;> simp [State.mapWaves, hg, hl]

@[simp] theorem live_markTape (hit : Wave → Bool) (w : Wave) : (markTape hit w).live = w.live := by
  unfold markTape
  split <;> rfl

theorem spoil_changes (s : State) (ls : List Loc) : ∃ hit us cs,
    spoil s ls = { s.mapWaves (markTape hit) with updates := us, colls := cs } ∧
      pairwiseRel onlySpoiledUpd s.updates us ∧ pairwiseRel onlySpoiledColl s.colls cs := by
  have hor (a b : Bool) : (a || b) = a ∨ (a || b) = true := by cases a <;> simp
  unfold spoil
  split
  · refine ⟨fun _ => false, s.updates, s.colls, ?_, pairwiseRel_refl (fun _ => .inl rfl) _, pairwiseRel_refl (fun _ => .inl rfl) _⟩
    exact (mapWaves_of_fixed (s := { s with updates := s.updates }) fun w => by simp [markTape]).symm
  · refine ⟨hitsTape s ls, _, _, rfl, pairwiseRel_map (fun u => ?_) _, pairwiseRel_map (fun c => ?_) _⟩
    · rcases hor u.spoiled (u.hit s ls) with e | e
      · exact .inl (by rw [e])
      · exact .inr (by rw [e])
    · rcases hor c.spoiled (c.hit s ls) with e | e
      · exact .inl (by rw [e])
      · exact .inr (by rw [e])

/-- Each slot of the wave that another agent's write wakes completes its `wfe`, and is counted in LCLOCK. -/
theorem wakeWave_eq (agent : Agent) (blocks : List Loc) (w : Wave) : wakeWave agent blocks w =
    { w with
      cur := if agent != some (w.wid, w.curSec) && w.cur.watches blocks then w.cur.endWfe else w.cur
      sib := if agent != some (w.wid, !w.curSec) && w.sib.watches blocks then w.sib.endWfe else w.sib
      lclock := w.lclock + (if agent != some (w.wid, w.curSec) && w.cur.watches blocks then 1 else 0)
        + (if agent != some (w.wid, !w.curSec) && w.sib.watches blocks then 1 else 0) } := by
  unfold wakeWave Wave.endWfe Wave.slot Wave.onSlot
  cases hs : w.curSec
  · cases ha : agent != some (w.wid, false) && w.cur.watches blocks <;>
      cases hb : agent != some (w.wid, true) && w.sib.watches blocks <;>
      simp only [hs, ha, hb, Bool.false_eq_true, Bool.not_false, if_true, if_false, Nat.add_zero]
    rw [← hs]
  · cases ha : agent != some (w.wid, true) && w.cur.watches blocks <;>
      cases hb : agent != some (w.wid, false) && w.sib.watches blocks <;>
      simp only [hs, ha, hb, Bool.false_eq_true, Bool.not_true, if_true, if_false, Bool.true_eq_false, Nat.add_zero]
    rw [← hs]

theorem wakeWatchers_changes (s : State) (agent : Agent) (ls : List Loc) :
    ∃ blocks, wakeWatchers s agent ls = s.mapWaves (wakeWave agent blocks) := by
  unfold wakeWatchers
  split
  · exact ⟨_, rfl⟩
  · have hnone (w : Wave) : wakeWave agent [] w = w := by
      have hw (c : Slot) : c.watches [] = false := by
        unfold Slot.watches
        cases c.bank.monitor <;> simp
      rw [wakeWave_eq]
      simp [hw]
    exact ⟨[], (mapWaves_of_fixed hnone).symm⟩

theorem markDirty_changes (s : State) (ls : List Loc) : ∃ lines, s.markDirty ls = { s with lines := lines } ∧
    ∀ a, holdsHost lines a = holdsHost s.lines a := by
  unfold State.markDirty
  split
  · refine ⟨_, rfl, fun a => ?_⟩
    unfold holdsHost
    rw [List.any_map]
    congr 1
    funext x
    dsimp only [Function.comp]
    split <;> rfl
  · exact ⟨s.lines, rfl, fun _ => rfl⟩

theorem clearBad_changes (s : State) (ls : List Loc) : ∃ bad, s.clearBad ls = { s with bad := bad } ∧ ∀ g ∈ bad, g ∈ s.bad := by
  unfold State.clearBad
  split
  · exact ⟨s.bad, rfl, fun _ h => h⟩
  · exact ⟨_, rfl, fun _ h => (List.mem_filter.1 h).1⟩

theorem noteResolve_changes (s : State) (ls : List Loc) : ∃ es, noteResolve s ls = { s with agenda := s.agenda ++ es } := by
  unfold noteResolve
  split
  · exact ⟨[], by rw [List.append_nil]⟩
  · exact ⟨_, rfl⟩

theorem foldl_setByte_changes (cells : List (Loc × Byte)) (s : State) :
    ∃ m, cells.foldl (fun t c => t.setByte c.1 c.2) s = { s with mem := m } := by
  induction cells generalizing s with
  | nil => exact ⟨s.mem, rfl⟩
  | cons c cs ih =>
    obtain ⟨m, h⟩ := ih (s.setByte c.1 c.2)
    exact ⟨m, by rw [List.foldl_cons, h]; rfl⟩

theorem noteWrites_changes (s : State) (lid : Nat) (writer : Option Nat) (ws : List (Nat × Loc)) :
    ∃ f, noteWrites s lid writer ws = { s with launches := s.launches.map f } ∧ ∀ l, onlyNoted l (f l) := by
  unfold noteWrites
  dsimp only
  split
  · exact ⟨id, by rw [List.map_id], fun _ => rfl⟩
  · refine ⟨_, rfl, fun l => ?_⟩
    split <;> rfl

/-- An access that writes changes entries of TLBs and walkers and lines only; no byte. -/
theorem noteAccess_write_changes (s : State) (ls : List Loc) (xs : List Xlat) :
    ∃ m lines tlb ws, noteAccess s ls xs true = { s with mem := m, lines := lines, tlb := tlb, walks := ws } := by
  obtain ⟨tlb, ws, hf⟩ := fillTlbs_changes s (.core s.w.core) s.aspace xs
  obtain ⟨m, lines, ht⟩ := touchAll_changes (fillTlbs s (.core s.w.core) s.aspace xs) s.w.core ls .nm true
  exact ⟨m, lines, tlb, ws, ht.trans (by rw [hf])⟩

/-! ### Bytes written as one step -/

/-- The state with the bytes stored, and the arrays and lines that they lie in marked. -/
def storedCells (s : State) (cells : List (Loc × Byte)) : State :=
  (cells.foldl (fun t c => t.setByte c.1 c.2) (spoil s (cells.map fun c => c.1))).markDirty (cells.map fun c => c.1)

theorem storedCells_changes (s : State) (cells : List (Loc × Byte)) : ∃ hit m lines us cs, storedCells s cells =
      { s.mapWaves (markTape hit) with mem := m, lines := lines, updates := us, colls := cs } ∧
    pairwiseRel onlySpoiledUpd s.updates us ∧ pairwiseRel onlySpoiledColl s.colls cs := by
  unfold storedCells
  obtain ⟨hit, us, cs, hspoil, hus, hcs⟩ := spoil_changes s (cells.map fun c => c.1)
  rw [hspoil]
  obtain ⟨m, hset⟩ := foldl_setByte_changes cells { s.mapWaves (markTape hit) with updates := us, colls := cs }
  rw [hset]
  obtain ⟨lines, hdirty, -⟩ := markDirty_changes { s.mapWaves (markTape hit) with mem := m, updates := us, colls := cs }
    (cells.map fun c => c.1)
  exact ⟨hit, m, lines, us, cs, hdirty, hus, hcs⟩

/-- The notes on the areas of ended waves' tapes that a write reaches (R412). -/
def rewriteTapes (s : State) (ls : List Loc) : State :=
  if s.oldTapes.isEmpty then s else { s with oldTapes := s.oldTapes.map (OldTape.rewrite ls) }

theorem rewriteTapes_changes (s : State) (ls : List Loc) : ∃ ots, rewriteTapes s ls = { s with oldTapes := ots } := by
  unfold rewriteTapes
  split
  · exact ⟨s.oldTapes, rfl⟩
  · exact ⟨_, rfl⟩

/-- What follows a store: marks of granules and tape areas go, sleepers wake, the fault service takes note. -/
def afterStore (s : State) (agent : Agent) (ls : List Loc) : State :=
  noteResolve (wakeWatchers ((rewriteTapes s ls).clearBad ls) agent ls) ls

theorem writeCells_eq (s : State) (agent : Agent) (cells : List (Loc × Byte)) :
    writeCells s agent cells = afterStore (storedCells s cells) agent (cells.map fun c => c.1) := rfl

theorem afterStore_changes (s : State) (agent : Agent) (ls : List Loc) : ∃ blocks bad es ots, afterStore s agent ls =
      { s.mapWaves (wakeWave agent blocks) with bad := bad, agenda := s.agenda ++ es, oldTapes := ots } ∧
    ∀ g ∈ bad, g ∈ s.bad := by
  unfold afterStore
  obtain ⟨ots, hold⟩ := rewriteTapes_changes s ls
  rw [hold]
  obtain ⟨bad, hbad, hsub⟩ := clearBad_changes { s with oldTapes := ots } ls
  rw [hbad]
  obtain ⟨blocks, hwake⟩ := wakeWatchers_changes { s with oldTapes := ots, bad := bad } agent ls
  rw [hwake]
  obtain ⟨es, hres⟩ := noteResolve_changes (State.mapWaves { s with oldTapes := ots, bad := bad } (wakeWave agent blocks)) ls
  exact ⟨blocks, bad, es, ots, hres, hsub⟩

/-- All that writing bytes changes, besides the bytes. -/
theorem writeCells_changes (s : State) (agent : Agent) (cells : List (Loc × Byte)) :
    ∃ hit blocks m lines bad es us cs ots, writeCells s agent cells =
        { s.mapWaves (fun w => wakeWave agent blocks (markTape hit w)) with
          mem := m, lines := lines, bad := bad, agenda := s.agenda ++ es, updates := us, colls := cs, oldTapes := ots } ∧
      (∀ g ∈ bad, g ∈ s.bad) ∧ pairwiseRel onlySpoiledUpd s.updates us ∧ pairwiseRel onlySpoiledColl s.colls cs := by
  obtain ⟨hit, m, lines, us, cs, hstore, hus, hcs⟩ := storedCells_changes s cells
  obtain ⟨blocks, bad, es, ots, hafter, hsub⟩ := afterStore_changes (storedCells s cells) agent (cells.map fun c => c.1)
  rw [hstore] at hafter hsub
  refine ⟨hit, blocks, m, lines, bad, es, us, cs, ots, ?_, hsub, hus, hcs⟩
  rw [writeCells_eq, hstore, hafter, ← mapWaves_mapWaves (live_markTape hit)]
  rfl

theorem byte_afterStore (s : State) (agent : Agent) (ls : List Loc) (l : Loc) : (afterStore s agent ls).byte l = s.byte l := by
  obtain ⟨blocks, bad, es, ots, h, -⟩ := afterStore_changes s agent ls
  rw [h]
  rfl

theorem byte_spoil (s : State) (ls : List Loc) (l : Loc) : (spoil s ls).byte l = s.byte l := by
  obtain ⟨hit, us, cs, h, -⟩ := spoil_changes s ls
  rw [h]
  rfl

theorem byte_markDirty (s : State) (ls : List Loc) (l : Loc) : (s.markDirty ls).byte l = s.byte l := by
  obtain ⟨lines, h, hh⟩ := markDirty_changes s ls
  rw [h]
  unfold State.byte State.served servedBy
  dsimp only
  rw [hh]

/-- Each place holds the last byte written to it. -/
theorem byte_writeCells (s : State) (agent : Agent) {cells : List (Loc × Byte)} (hc : ∀ c ∈ cells, c.1.area ≠ .l2) {l : Loc}
    (hl : l.area ≠ .l2) : (writeCells s agent cells).byte l = lastAt cells l (s.byte l) := by
  rw [writeCells_eq, byte_afterStore, storedCells, byte_markDirty, byte_foldl_setByte _ _ hl hc, byte_spoil]

/-! ### What a write of the slot in hand leaves alone -/

/-- All but bytes and vector registers that a write of the slot in hand changes. -/
structure WriteEffects (s t : State) : Prop where
  outside : t = { s with
    w := t.w, others := t.others, mem := t.mem, lines := t.lines, tlb := t.tlb, walks := t.walks, bad := t.bad
    launches := t.launches, agenda := t.agenda, updates := t.updates, colls := t.colls, oldTapes := t.oldTapes }
  others : pairwiseRel onlyWoken s.others t.others
  launches : pairwiseRel onlyNoted s.launches t.launches
  marked : onlyMarked s t
  agenda : s.agenda <+: t.agenda
  bad : ∀ g ∈ t.bad, g ∈ s.bad
  sib : onlyWokenSlot s.w.sib t.w.sib
  tape : onlySpoiledTape s.w.tape t.w.tape
  wave : t.w = { s.w with
    cur := { s.w.cur with windows := t.w.cur.windows }, sib := t.w.sib, vregs := t.w.vregs, lclock := t.w.lclock
    tape := t.w.tape }

theorem onlyWokenSlot_ite (b : Bool) (c : Slot) : onlyWokenSlot c (if b then c.endWfe else c) := by
  cases b
  · exact .inl rfl
  · exact .inr rfl

theorem markTape_eq (hit : Wave → Bool) (w : Wave) : markTape hit w = { w with tape := (markTape hit w).tape } ∧
    onlySpoiledTape w.tape (markTape hit w).tape := by
  unfold markTape
  split
  · exact ⟨rfl, .inr rfl⟩
  · exact ⟨rfl, .inl rfl⟩

theorem onlyWoken_written (agent : Agent) (blocks : List Loc) (hit : Wave → Bool) (w : Wave) :
    onlyWoken w (wakeWave agent blocks (markTape hit w)) := by
  obtain ⟨he, ht⟩ := markTape_eq hit w
  rw [wakeWave_eq, he]
  exact ⟨onlyWokenSlot_ite _ _, onlyWokenSlot_ite _ _, ht, rfl⟩

/-- The writer itself is not woken. -/
theorem inHand_written (live : Bool) (blocks : List Loc) (hit : Wave → Bool) (w : Wave) : ∃ sib lclock tape,
    (if live then wakeWave (some (w.wid, w.curSec)) blocks (markTape hit w) else w) =
      { w with sib := sib, lclock := lclock, tape := tape } ∧ onlyWokenSlot w.sib sib ∧ onlySpoiledTape w.tape tape := by
  cases live
  · exact ⟨w.sib, w.lclock, w.tape, rfl, .inl rfl, .inl rfl⟩
  · obtain ⟨-, hsib, htape, heq⟩ := onlyWoken_written (some (w.wid, w.curSec)) blocks hit w
    have hcur : (wakeWave (some (w.wid, w.curSec)) blocks (markTape hit w)).cur = w.cur := by
      rw [wakeWave_eq, (markTape_eq hit w).1]
      simp
    exact ⟨_, _, _, heq.trans (by rw [hcur]), hsib, htape⟩

theorem writeEffects_atomicWrite (s : State) (va : Nat) (ls cells : List Loc) (xs : List Xlat) (data : List Byte) :
    WriteEffects s (atomicWrite (noteAccess s ls xs true) va cells data) ∧
      (atomicWrite (noteAccess s ls xs true) va cells data).w.vregs = s.w.vregs := by
  obtain ⟨m, lines, tlb, ws, hnote⟩ := noteAccess_write_changes s ls xs
  unfold atomicWrite
  rw [hnote]
  obtain ⟨hit, blocks, m', lines', bad, es, us, cs, ots, hwrite, hbad, hus, hcs⟩ :=
    writeCells_changes { s with mem := m, lines := lines, tlb := tlb, walks := ws } s.agent (cells.zip data)
  obtain ⟨f, hnotes, hf⟩ := noteWrites_changes
    (writeCells { s with mem := m, lines := lines, tlb := tlb, walks := ws } s.agent (cells.zip data)) s.w.lid none
    (((List.range data.length).zip cells).map fun p => (va + p.1, p.2))
  obtain ⟨sib, lclock, tape, hw, hsib, htape⟩ := inHand_written s.w.live blocks hit s.w
  have h := hnotes.trans (c := { s with
    w := { s.w with sib := sib, lclock := lclock, tape := tape }
    others := s.others.map fun w => wakeWave s.agent blocks (markTape hit w)
    mem := m', lines := lines', tlb := tlb, walks := ws, bad := bad, agenda := s.agenda ++ es, updates := us, colls := cs
    oldTapes := ots, launches := s.launches.map f }) (by rw [hwrite, ← hw]; rfl)
  show WriteEffects s (noteWrites (writeCells { s with mem := m, lines := lines, tlb := tlb, walks := ws } s.agent
    (cells.zip data)) s.w.lid none _) ∧ _
  exact h ▸ ⟨{
    outside := rfl
    others := pairwiseRel_map (onlyWoken_written s.agent blocks hit) _
    launches := pairwiseRel_map hf _
    marked := ⟨hus, hcs⟩
    agenda := ⟨es, rfl⟩
    bad := hbad
    sib := hsib
    tape := htape
    wave := rfl }, rfl⟩

theorem byte_noteWrites (s : State) (lid : Nat) (writer : Option Nat) (ws : List (Nat × Loc)) (l : Loc) :
    (noteWrites s lid writer ws).byte l = s.byte l := by
  obtain ⟨f, h, -⟩ := noteWrites_changes s lid writer ws
  rw [h]
  rfl

theorem byte_atomicWrite (s : State) (va : Nat) {ls cells : List Loc} {xs : List Xlat} {data : List Byte}
    (hc : ∀ l ∈ cells, l.area = .hbm) {l : Loc} (hl : l.area ≠ .l2) :
    (atomicWrite (noteAccess s ls xs true) va cells data).byte l = lastAt (cells.zip data) l (s.byte l) := by
  have hcells : ∀ c ∈ cells.zip data, c.1.area ≠ .l2 := fun c hm => by
    rw [hc c.1 (List.of_mem_zip hm).1]
    exact Area.noConfusion
  rw [atomicWrite, byte_noteWrites, byte_writeCells _ _ hcells hl, (noteAccess_reads s ls xs true).2 l hl]

/-- Closing the slot's windows first changes nothing that matters here. -/
theorem WriteEffects.of_opened {i : Instr} {s t : State} (h : WriteEffects (opened i s) t) : WriteEffects s t := by
  unfold opened at h
  split at h
  · exact ⟨h.outside, h.others, h.launches, h.marked, h.agenda, h.bad, h.sib, h.tape, h.wave⟩
  · exact h

theorem WriteEffects.bank {s t : State} (h : WriteEffects s t) : t.w.cur.bank = s.w.cur.bank :=
  (congrArg (fun w => w.cur.bank) h.wave :)

theorem WriteEffects.m0 {s t : State} (h : WriteEffects s t) : t.m0 = s.m0 := (congrArg (fun w => w.cur.m0) h.wave :)

theorem WriteEffects.sameScalars {s t : State} (h : WriteEffects s t) : sameScalars s t := fun r => by
  simp only [State.sreg, h.bank]

theorem WriteEffects.sameMasks {s t : State} (h : WriteEffects s t) : sameMasks s t := fun k => by
  simp only [State.mreg, h.bank, h.m0]

theorem WriteEffects.sameVectors {s t : State} (h : WriteEffects s t) (hv : t.w.vregs = s.w.vregs) : sameVectors s t :=
  fun r l => by
    have hfill : t.w.fill = s.w.fill := (congrArg Wave.fill h.wave :)
    simp only [State.v, Wave.vreg, hv, hfill]

theorem WriteEffects.setV64 {s t : State} (h : WriteEffects s t) (d : Nat) (f : Nat → DWord) : WriteEffects s (t.setV64 d f) where
  outside := congrArg (fun u => { u with w := (t.setV64 d f).w }) h.outside
  others := h.others
  launches := h.launches
  marked := h.marked
  agenda := h.agenda
  bad := h.bad
  sib := h.sib
  tape := h.tape
  wave := congrArg (fun w => { w with vregs := (t.setV64 d f).w.vregs }) h.wave

theorem WriteEffects.emptyL1 {s t : State} (h : WriteEffects s t) (core : Nat) : WriteEffects s (t.emptyL1 core) where
  outside := congrArg (fun u => u.emptyL1 core) h.outside
  others := h.others
  launches := h.launches
  marked := h.marked
  agenda := h.agenda
  bad := h.bad
  sib := h.sib
  tape := h.tape
  wave := h.wave

/-! ### Marks of bad granules where only vector registers are written -/

theorem coversGranule_of_vectors {h : Hdr} (hw : ∀ r ∈ h.writes, ∃ n, r = .v n) (r : RegId) : coversGranule h r = false := by
  have hno (x : RegId) (hx : ∀ n, x ≠ .v n) : x ∉ h.writes := fun hm => (hw x hm).elim hx
  unfold coversGranule granuleRegs
  cases r <;> dsimp only
  · split <;> simp [hno]
  · split <;> simp [hno]

theorem clearBadRegs_of_vectors {h : Hdr} (hw : ∀ r ∈ h.writes, ∃ n, r = .v n) (m : Word) (s : State) : ∃ bad,
    clearBadRegs h m s = { s with w := { s.w with badRegs := bad } } ∧ ∀ p ∈ bad, p ∈ s.w.badRegs := by
  unfold clearBadRegs
  split
  · exact ⟨s.w.badRegs, rfl, fun _ hp => hp⟩
  · refine ⟨s.w.badRegs.filter fun p => !(m.getLsbD p.2 && m.getLsbD (p.2 + 1) && h.writes.contains (.v p.1)), ?_,
      fun p hp => (List.mem_filter.1 hp).1⟩
    have hkeep : (s.w.cur.bank.bad.filter fun r => !coversGranule h r) = s.w.cur.bank.bad :=
      List.filter_eq_self.2 fun r _ => by rw [coversGranule_of_vectors hw]; rfl
    simp only [State.onWave, hkeep]

theorem retire_stepPc (i : Instr) (s : State) : retire i (stepPc i s) =
    { s with w := { s.w with
      lclock := s.w.lclock + 1
      cur := { s.w.cur with
        pc := (s.w.cur.pc + (hdr i).size) % 2 ^ 56, windows := windowsAfter i (stepPc i s).cur
        flights := s.w.cur.flights.map fun f => { f with left := f.left - 1 }, waited := 0, urgent := none
        yielded := i == .yield, issuedAt := s.gts, stalled := false, staging := none } } } := by
  unfold retire countRetired issued State.onCur State.onWave
  rfl

/-- The issue logic's own changes at the end of such an instruction. -/
theorem finished_of_vectors {i : Instr} (hy : (i == Instr.yield) = false) (hw : ∀ r ∈ (hdr i).writes, ∃ n, r = .v n)
    (s t : State) : ∃ bad lclock cur windows flights,
      finished i s t = { t with w := { t.w with badRegs := bad, lclock := lclock, cur := cur } } ∧
      (∀ p ∈ bad, p ∈ t.w.badRegs) ∧ cur = { t.w.cur with
        pc := (t.w.cur.pc + (hdr i).size) % 2 ^ 56, windows := windows, flights := flights, waited := 0, urgent := none
        yielded := false, issuedAt := t.gts, stalled := false, staging := none } := by
  obtain ⟨bad, h, hsub⟩ := clearBadRegs_of_vectors hw s.m0 t
  have hret := retire_stepPc i { t with w := { t.w with badRegs := bad } }
  rw [hy] at hret
  exact ⟨bad, _, _, _, _, by rw [finished, h, hret], hsub, rfl⟩

/-- The frame of an instruction that wrote bytes and vector registers. -/
theorem onlyWrites_finished {i : Instr} {s t : State} (hy : (i == Instr.yield) = false)
    (hw : ∀ r ∈ (hdr i).writes, ∃ n, r = .v n) (h : WriteEffects s t) : OnlyWrites i s (finished i s t) := by
  obtain ⟨bad, lclock, cur, windows, flights, hf, hsub, hc⟩ := finished_of_vectors hy hw s t
  have hgts : t.gts = s.gts := (congrArg State.gts h.outside :)
  have hbad : t.w.badRegs = s.w.badRegs := (congrArg Wave.badRegs h.wave :)
  have hcur : t.w.cur = { s.w.cur with windows := t.w.cur.windows } := (congrArg Wave.cur h.wave :)
  rw [hcur, hgts] at hc
  rw [hf]
  exact {
    outside := congrArg (fun u => { u with w := { t.w with badRegs := bad, lclock := lclock, cur := cur } }) h.outside
    others := h.others
    launches := h.launches
    marked := h.marked
    agenda := h.agenda
    bad := h.bad
    sib := h.sib
    tape := h.tape
    marks := ⟨fun p hp => hbad ▸ hsub p hp, fun r hr => by rw [hc] at hr; exact hr⟩
    wave := congrArg (fun w => { w with badRegs := bad, lclock := lclock, cur := cur }) h.wave
    slot := by rw [SlotPast, hc] }

/-! ### Cells -/

@[simp] theorem v64_finished (i : Instr) (s t : State) (r l : Nat) : (finished i s t).v64 r l = t.v64 r l := by
  rw [State.v64, v_finished, v_finished]
  rfl

theorem cached_finished {i : Instr} {s t : State} {core : Option Nat} {p : Loc} :
    cached (finished i s t) core p ↔ cached t core p := by
  have h : OnlyWave t (finished i s t) := ((onlyWave_clearBadRegs ..).trans (onlyWave_stepPc ..)).trans (onlyWave_retire ..)
  rw [cached, (congrArg State.lines h :), cached]

@[simp] theorem s64_opened (i : Instr) (s : State) (r : Nat) : (opened i s).s64 r = s.s64 r := by
  unfold opened; split <;> rfl
@[simp] theorem v64_opened (i : Instr) (s : State) (r l : Nat) : (opened i s).v64 r l = s.v64 r l := by
  unfold opened; split <;> rfl
@[simp] theorem wordAtPlaces_opened (i : Instr) (s : State) (ls : List Loc) : wordAtPlaces (opened i s) ls = wordAtPlaces s ls := by
  unfold opened; split <;> rfl

/-- The lowest active lane (R363). -/
theorem lowestLane_eq {m : Word} {l : Nat} (hl : l < 32) (hon : m.getLsbD l = true) (hlow : ∀ k < l, m.getLsbD k = false) :
    lowestLane m = some l := by
  rw [lowestLane, lanesOf, List.head?_filter, List.find?_range_eq_some]
  exact ⟨hon, List.mem_range.2 hl, fun k hk => by simp [hlow k hk]⟩

/-- The byte that holds STATE, changed in its low two bits. -/
theorem stateByte_eq (s : State) (ls : List Loc) {k : Nat} (hk : k < 4) : ∃ b, stateByte s ls k = [b] ∧
    b.toNat = wordAtPlaces s (ls.drop 8) % 256 / 4 * 4 + k := by
  refine ⟨_, rfl, ?_⟩
  rw [BitVec.toNat_ofNat]
  exact Nat.mod_eq_of_lt (by omega)

section
variable {s : State} {x d : Nat} {ls : List Loc} {xs : List Xlat} (hr : Reaches s (.atom true) (s.s64 x).toInt 16 16 ls xs)
  (hhbm : ∀ l ∈ ls, l.area = .hbm)
include hr hhbm

theorem futCell_ok : futCell s x = .ok (ls, xs) := by
  have hall : (ls.all fun l => l.area == .hbm) = true := by simpa using hhbm
  simp only [futCell, operand_of_reaches _ hr, hall, if_true]

theorem doFget_full (h : wordAtPlaces s (ls.drop 8) % 4 = 1) : doFget x d s =
    .done (((atomicWrite (noteAccess s ls xs true) ((s.s64 x).toNat + 8) (ls.drop 8) (stateByte s ls 2)).setV64 d fun _ =>
      BitVec.ofNat 64 (wordAtPlaces s (ls.take 8))).emptyL1 s.w.core) := by
  have hst : futState s ls = 1 := h
  simp only [doFget, futCell_ok hr hhbm, hst]
  rfl

theorem doFget_empty (h : wordAtPlaces s (ls.drop 8) % 4 = 0) : doFget x d s = futureEmpty s (s.s64 x) := by
  have hst : futState s ls = 0 := h
  simp only [doFget, futCell_ok hr hhbm, hst]

theorem doFget_other (h : 2 ≤ wordAtPlaces s (ls.drop 8) % 4) : doFget x d s = .trap (Trap.whole 0x8A (s.s64 x)) := by
  obtain ⟨n, hn⟩ := Nat.exists_eq_add_of_le' h
  have hst : futState s ls = n + 2 := hn
  simp only [doFget, futCell_ok hr hhbm, hst]

theorem doFput_empty (h : wordAtPlaces s (ls.drop 8) % 4 = 0) : doFput x d s =
    .done (atomicWrite (noteAccess s ls xs true) (s.s64 x).toNat ls
      (leBytes 8 (s.v64 d ((lowestLane s.m0).getD 0)).toNat ++ stateByte s ls 1)) := by
  have hst : futState s ls = 0 := h
  simp only [doFput, futCell_ok hr hhbm, hst]
  rfl

theorem doFput_other (h : wordAtPlaces s (ls.drop 8) % 4 ≠ 0) : doFput x d s = .trap (Trap.whole 0x8A (s.s64 x)) := by
  have hst : futState s ls ≠ 0 := h
  simp only [doFput, futCell_ok hr hhbm]
  exact if_pos hst

theorem exec_fget_full (h : Ready (.fget x d) s) (hst : wordAtPlaces s (ls.drop 8) % 4 = 1) :
    ∃ t b, exec (.fget x d) s = .next t ∧ wroteV64 s t d (fun _ => BitVec.ofNat 64 (wordAtPlaces s (ls.take 8))) ∧
      b.toNat = wordAtPlaces s (ls.drop 8) % 256 / 4 * 4 + 2 ∧ wroteMemory s t ((ls.drop 8).zip [b]) ∧
      (∀ p, ¬cached t (some s.w.core) p) ∧ sameScalars s t ∧ sameMasks s t ∧ OnlyWrites (.fget x d) s t := by
  obtain ⟨b, hb, hbn⟩ := stateByte_eq s ls (k := 2) (by omega)
  have hdone := issue_done h (body := doFget x d) ((doFget_full hr hhbm hst).trans (by rw [hb]))
  obtain ⟨he, hv⟩ := writeEffects_atomicWrite s ((s.s64 x).toNat + 8) ls (ls.drop 8) xs [b]
  have he' := (he.setV64 d fun _ => BitVec.ofNat 64 (wordAtPlaces s (ls.take 8))).emptyL1 s.w.core
  refine ⟨_, b, hdone, ⟨fun l hl => ?_, fun r l hr1 hr2 => ?_⟩, hbn, fun l hl => ?_, fun p hp => ?_, fun r => ?_, fun k => ?_,
    onlyWrites_finished rfl ?_ he'⟩
  · rw [v64_finished]
    exact (v64_setV64Mask_self _ _ _ _ hl).trans (by rw [he.m0, State.v64, he.sameVectors hv, he.sameVectors hv]; rfl)
  · rw [v_finished]
    exact (v_setV64Mask_ne _ _ _ _ hr1 hr2).trans (he.sameVectors hv r l)
  · rw [byte_finished, byte_emptyL1, byte_setV64, byte_atomicWrite _ _ (fun l hl => hhbm l (List.mem_of_mem_drop hl)) hl]
  · exact not_cached_emptyL1 _ s.w.core p (cached_finished.1 hp)
  · rw [sreg_finished]
    exact he'.sameScalars r
  · rw [mreg_finished]
    exact he'.sameMasks k
  · exact fun r hr => (List.mem_map.1 hr).elim fun k hk => ⟨_, hk.2.symm⟩

theorem exec_fget_other (h : Ready (.fget x d) s) (hst : 2 ≤ wordAtPlaces s (ls.drop 8) % 4) :
    exec (.fget x d) s = .next (raise (opened (.fget x d) s) { cause := 0x8A, laddr := fun _ => s.s64 x }) :=
  issue_trap h (body := doFget x d) (doFget_other hr hhbm hst)

/-- An empty cell without a handler. -/
theorem exec_fget_noHandler (h : Ready (.fget x d) s) (hst : wordAtPlaces s (ls.drop 8) % 4 = 0) (hh : s.attr.futhandler = 0) :
    exec (.fget x d) s = .next (raise (opened (.fget x d) s) { cause := 0x89, laddr := fun _ => s.s64 x }) :=
  issue_trap h (body := doFget x d) ((doFget_empty hr hhbm hst).trans (if_pos hh))

section
variable (h : Ready (.fget x d) s) (hst : wordAtPlaces s (ls.drop 8) % 4 = 0) (hh : s.attr.futhandler ≠ 0)
include h hst hh

/-- `v127` past the budget. -/
theorem exec_fget_pastBudget (hb : s.w.budget < 128) :
    exec (.fget x d) s = .next (raise s { cause := 0x03, laddr := fun _ => 0 }) :=
  issue_trap h (body := doFget x d) ((doFget_empty hr hhbm hst).trans ((if_neg hh).trans (if_pos hb)))

/-- `v127` in an open window. -/
theorem exec_fget_lookahead (hb : 128 ≤ s.w.budget) (hwin : hitsWindow s [] [.v 127] = true) :
    exec (.fget x d) s = .next (raise s { cause := 0x04, laddr := fun _ => 0 }) :=
  issue_trap h (body := doFget x d)
    ((doFget_empty hr hhbm hst).trans ((if_neg hh).trans ((if_neg (Nat.not_lt.2 hb)).trans (if_pos hwin))))

/-- The slot goes to FUTHANDLER with its PC in `v127`. -/
theorem exec_fget_handler (hb : 128 ≤ s.w.budget) (hwin : hitsWindow s [] [.v 127] = false) :
    ∃ t, exec (.fget x d) s = .next t ∧ wroteV s t 127 (fun _ => BitVec.ofNat 32 s.cur.pc) ∧ sameMemory s t ∧
      t.w.cur = { s.w.cur with
        futaddr := s.s64 x, pc := pcOf s.attr.futhandler, windows := [], waited := 0, urgent := none, yielded := false
        issuedAt := s.gts, stalled := false, staging := none } ∧ t = { s with w := t.w } := by
  have hgo := (doFget_empty (d := d) hr hhbm hst).trans
    ((if_neg hh).trans ((if_neg (Nat.not_lt.2 hb)).trans (if_neg (Bool.eq_false_iff.1 hwin))))
  obtain ⟨bad, hclear, -⟩ := clearBadRegs_of_vectors (h := { writes := [.v 127] })
    (fun r hr => ⟨127, List.mem_singleton.1 hr⟩) s.m0 (s.setV 127 fun _ => BitVec.ofNat 32 s.cur.pc)
  rw [hclear] at hgo
  refine ⟨_, issue_settled h (body := doFget x d) hgo, ⟨fun l hl => ?_, fun r l hr => ?_⟩, fun l _ => ?_, rfl, rfl⟩
  · exact v_setV_self s 127 _ hl
  · exact v_setV_ne s _ l hr
  · rfl

end

theorem exec_fput_empty (h : Ready (.fput x d) s) (hst : wordAtPlaces s (ls.drop 8) % 4 = 0) {lane : Nat} (hl : lane < 32)
    (hon : s.m0.getLsbD lane = true) (hlow : ∀ k < lane, s.m0.getLsbD k = false) :
      ∃ t b, exec (.fput x d) s = .next t ∧ b.toNat = wordAtPlaces s (ls.drop 8) % 256 / 4 * 4 + 1 ∧
        wroteMemory s t (ls.zip (leBytes 8 (s.v64 d lane).toNat ++ [b])) ∧ sameVectors s t ∧ sameScalars s t ∧ sameMasks s t ∧
        OnlyWrites (.fput x d) s t := by
  obtain ⟨b, hb, hbn⟩ := stateByte_eq (opened (.fput x d) s) ls (k := 1) (by omega)
  have hdone := issue_done h (body := doFput x d) (doFput_empty (d := d) (by rw [s64_opened]; exact reaches_opened _ hr) hhbm
    (by rw [wordAtPlaces_opened]; exact hst))
  rw [m0_opened, lowestLane_eq hl hon hlow, Option.getD_some, hb, v64_opened] at hdone
  rw [wordAtPlaces_opened] at hbn
  obtain ⟨he, hv⟩ := writeEffects_atomicWrite (opened (.fput x d) s) ((opened (.fput x d) s).s64 x).toNat ls ls xs
    (leBytes 8 (s.v64 d lane).toNat ++ [b])
  refine ⟨_, b, hdone, hbn, fun l hl => ?_, fun r l => ?_, fun r => ?_, fun k => ?_, onlyWrites_finished rfl ?_ he.of_opened⟩
  · rw [byte_finished, byte_atomicWrite _ _ hhbm hl, byte_opened]
  · rw [v_finished, he.sameVectors hv, v_opened]
  · rw [sreg_finished]
    exact he.of_opened.sameScalars r
  · rw [mreg_finished]
    exact he.of_opened.sameMasks k
  · exact fun r hr => absurd hr List.not_mem_nil

theorem exec_fput_other (h : Ready (.fput x d) s) (hst : wordAtPlaces s (ls.drop 8) % 4 ≠ 0) :
    exec (.fput x d) s = .next (raise (opened (.fput x d) s) { cause := 0x8A, laddr := fun _ => s.s64 x }) := by
  refine issue_trap h (body := doFput x d) ?_
  rw [doFput_other (by rw [s64_opened]; exact reaches_opened _ hr) hhbm (by rw [wordAtPlaces_opened]; exact hst), s64_opened]
  rfl

end

/-- Settles O37: by the cell's STATE, `fget` takes the value, goes to the handler or traps, and `fput` fills the cell or traps;
what a write of the slot in hand leaves alone is `WriteEffects`. -/
theorem futures : Obligations.Futures :=
  ⟨fun _ _ _ _ _ _ h hr hhbm =>
    ⟨exec_fget_full hr hhbm h, exec_fget_pastBudget hr hhbm h, exec_fget_lookahead hr hhbm h, exec_fget_handler hr hhbm h,
      exec_fget_noHandler hr hhbm h, exec_fget_other hr hhbm h⟩,
    fun _ _ _ _ _ h hr hhbm =>
      ⟨fun hst _ hl hon hlow => exec_fput_empty hr hhbm h hst hl hon hlow, exec_fput_other hr hhbm h⟩⟩

end Sys2Proof.Machine
